-- ==== Sys2Proof/Word.lean ====
section
/-! DEFINITION. The word types of the engine (`00_scope.md` rule R8): a byte is 8 bits, arguments and payloads are
32 bits, every value is unsigned. -/

namespace Sys2Proof

/-- One byte on the link or in a buffer (rule R8). -/
abbrev Byte := BitVec 8

/-- A 32-bit value: a command argument, a payload, a sector index (rule R7). -/
abbrev Word32 := BitVec 32

end Sys2Proof
end

