-- ==== Sys2Proof/Machine/Layouts.lean ====
section
/-! DEFINITION. The layout tables (`00_scope.md` rule R6, LAYOUT_x; decision D22): the place of every field of the five card
registers and of the status byte, as data. They are parameters of the engine with the defaults below, so that a corrected position
changes a table and no rule. A table gives a field its place; the number of bits a component of a record has is the record's
(`Machine/Records.lean`), and a table whose row has another width gives that component the row's low bits (log entry 26). -/

namespace Sys2Proof

/-- One row of a layout table: its `hi:lo`. -/
structure Field where
  hi : Nat
  lo : Nat
deriving DecidableEq, Repr

/-- LAYOUT_CID (rule R232). -/
structure CidLayout where
  (mid oid pnm prv psn mdt crc : Field)
deriving DecidableEq, Repr

def layoutCid : CidLayout where
  mid := ⟨127, 120⟩
  oid := ⟨119, 104⟩
  pnm := ⟨103, 64⟩
  prv := ⟨63, 56⟩
  psn := ⟨55, 24⟩
  mdt := ⟨19, 8⟩
  crc := ⟨7, 1⟩

/-- LAYOUT_CSD (rule R240). -/
structure CsdLayout where
  (csd_structure taac nsac tran_speed ccc read_bl_len read_bl_partial write_blk_misalign read_blk_misalign dsr_imp : Field)
  (c_size_v1 vdd_r_curr_min vdd_r_curr_max vdd_w_curr_min vdd_w_curr_max c_size_mult c_size_v2 : Field)
  (erase_blk_en sector_size wp_grp_size wp_grp_enable r2w_factor write_bl_len write_bl_partial : Field)
  (file_format_grp copy perm_write_protect tmp_write_protect file_format crc : Field)
deriving DecidableEq, Repr

def layoutCsd : CsdLayout where
  csd_structure := ⟨127, 126⟩
  taac := ⟨119, 112⟩
  nsac := ⟨111, 104⟩
  tran_speed := ⟨103, 96⟩
  ccc := ⟨95, 84⟩
  read_bl_len := ⟨83, 80⟩
  read_bl_partial := ⟨79, 79⟩
  write_blk_misalign := ⟨78, 78⟩
  read_blk_misalign := ⟨77, 77⟩
  dsr_imp := ⟨76, 76⟩
  c_size_v1 := ⟨73, 62⟩
  vdd_r_curr_min := ⟨61, 59⟩
  vdd_r_curr_max := ⟨58, 56⟩
  vdd_w_curr_min := ⟨55, 53⟩
  vdd_w_curr_max := ⟨52, 50⟩
  c_size_mult := ⟨49, 47⟩
  c_size_v2 := ⟨69, 48⟩
  erase_blk_en := ⟨46, 46⟩
  sector_size := ⟨45, 39⟩
  wp_grp_size := ⟨38, 32⟩
  wp_grp_enable := ⟨31, 31⟩
  r2w_factor := ⟨28, 26⟩
  write_bl_len := ⟨25, 22⟩
  write_bl_partial := ⟨21, 21⟩
  file_format_grp := ⟨15, 15⟩
  copy := ⟨14, 14⟩
  perm_write_protect := ⟨13, 13⟩
  tmp_write_protect := ⟨12, 12⟩
  file_format := ⟨11, 10⟩
  crc := ⟨7, 1⟩

/-- LAYOUT_OCR (rule R250), with OCR_WINDOW_HI and OCR_WINDOW_LO of rule R6. -/
structure OcrLayout where
  (power_up_ready ccs vdd_window : Field)
deriving DecidableEq, Repr

def layoutOcr : OcrLayout where
  power_up_ready := ⟨31, 31⟩
  ccs := ⟨30, 30⟩
  vdd_window := ⟨23, 4⟩

/-- LAYOUT_SCR (rule R255). -/
structure ScrLayout where
  (scr_structure sd_spec data_stat_after_erase sd_security sd_bus_widths sd_spec3 ex_security sd_spec4 sd_specx cmd_support : Field)
deriving DecidableEq, Repr

def layoutScr : ScrLayout where
  scr_structure := ⟨63, 60⟩
  sd_spec := ⟨59, 56⟩
  data_stat_after_erase := ⟨55, 55⟩
  sd_security := ⟨54, 52⟩
  sd_bus_widths := ⟨51, 48⟩
  sd_spec3 := ⟨47, 47⟩
  ex_security := ⟨46, 43⟩
  sd_spec4 := ⟨42, 42⟩
  sd_specx := ⟨41, 38⟩
  cmd_support := ⟨35, 32⟩

/-- LAYOUT_SSR (rule R260). -/
structure SsrLayout where
  (dat_bus_width secured_mode sd_card_type size_of_protected_area speed_class performance_move : Field)
  (au_size erase_size erase_timeout erase_offset : Field)
deriving DecidableEq, Repr

def layoutSsr : SsrLayout where
  dat_bus_width := ⟨511, 510⟩
  secured_mode := ⟨509, 509⟩
  sd_card_type := ⟨495, 480⟩
  size_of_protected_area := ⟨479, 448⟩
  speed_class := ⟨447, 440⟩
  performance_move := ⟨439, 432⟩
  au_size := ⟨431, 428⟩
  erase_size := ⟨423, 408⟩
  erase_timeout := ⟨407, 402⟩
  erase_offset := ⟨401, 400⟩

/-- LAYOUT_R1: the seven flags of a status byte (`30_encoding.md` rule R95). -/
structure R1Layout where
  (idle_state erase_reset illegal_command checksum_error erase_sequence_error address_error parameter_error : Field)
deriving DecidableEq, Repr

def layoutR1 : R1Layout where
  idle_state := ⟨0, 0⟩
  erase_reset := ⟨1, 1⟩
  illegal_command := ⟨2, 2⟩
  checksum_error := ⟨3, 3⟩
  erase_sequence_error := ⟨4, 4⟩
  address_error := ⟨5, 5⟩
  parameter_error := ⟨6, 6⟩

/-- The six tables of an engine. -/
structure Layouts where
  cid : CidLayout
  csd : CsdLayout
  ocr : OcrLayout
  scr : ScrLayout
  ssr : SsrLayout
  r1 : R1Layout
deriving DecidableEq, Repr

/-- The tables as the spec fills them. -/
def defaultLayouts : Layouts where
  cid := layoutCid
  csd := layoutCsd
  ocr := layoutOcr
  scr := layoutScr
  ssr := layoutSsr
  r1 := layoutR1

end Sys2Proof
end

