-- ==== Sys2Proof/Config.lean ====
section
/-! DEFINITION. The engine's constants and parameters (`00_scope.md` rule R6), the events of the link trace (rule R12)
and the two free values, the environment's answers and its memory (rules R12, R341). The constants the rules fix are definitions; the parameters that rule R6
marks OPEN or `parameter` are the fields of `Params`, whose value a machine carries unchanged. -/

namespace Sys2Proof

/-- One event of the link trace: the alphabet `SEL`, `DESEL`, `X(t, r)`, `DELAY(n)` of rule R12. -/
inductive LinkEvent
  /-- `SEL`: card selection requested. -/
  | sel
  /-- `DESEL`: card selection withdrawn. -/
  | desel
  /-- `X(t, r)`: the engine transmitted `t` and the environment answered `r`. -/
  | x (t r : Byte)
  /-- `DELAY(n)`: a blocking wait of at least `n` milliseconds was requested. -/
  | delay (n : Nat)
deriving DecidableEq, Repr

/-- The parameters of rule R6: fixed for the life of the engine. -/
structure Params where
  /-- START_TOKEN (D6). -/
  startToken : Byte
  /-- WRITE_CRC_FIELD, its two bytes in order of transmission (D18). -/
  writeCrc0 : Byte
  writeCrc1 : Byte
  /-- R1_CHECK (D17). -/
  r1Check : Bool
  /-- WRESP_CHECK (D19). -/
  wrespCheck : Bool
  /-- REQUIRE_INIT (D20). -/
  requireInit : Bool
  /-- INIT_CMD16_ISSUED (D15). -/
  initCmd16Issued : Bool
  /-- INIT_FETCH_CSD (D16). -/
  initFetchCsd : Bool
  /-- SECTOR_COUNT_BIAS (G14). -/
  sectorCountBias : Nat
  /-- TOKEN_WAIT_MAX, BUSY_WAIT_MAX, ACMD41_ITER_MAX (D31): `none` is unbounded. -/
  tokenWaitMax : Option Nat
  busyWaitMax : Option Nat
  acmd41IterMax : Option Nat
  /-- LAYOUT_CID to LAYOUT_R1 (D22), with OCR_WINDOW_HI and OCR_WINDOW_LO (D23) in the table of the operating conditions. -/
  layouts : Layouts
deriving DecidableEq, Repr

namespace Config

/-- The parameters' defaults (the table of rule R6). -/
def defaultParams : Params where
  startToken := 0xFE#8
  writeCrc0 := 0xFF#8
  writeCrc1 := 0xFF#8
  r1Check := true
  wrespCheck := false
  requireInit := true
  initCmd16Issued := true
  initFetchCsd := true
  sectorCountBias := 0
  tokenWaitMax := none
  busyWaitMax := none
  acmd41IterMax := none
  layouts := defaultLayouts

/-- FILLER (rule R6): the idle byte transmitted when only receiving matters; also the value that ends the busy wait. -/
def filler : Byte := 0xFF#8
/-- SECTOR_BYTES (rule R6). -/
def sectorBytes : Nat := 512
/-- The all-ones filler buffer, one sector long (rule R21). -/
def fillerBuffer : List Byte := List.replicate sectorBytes filler
/-- RESP_POLL_MAX (rule R6). -/
def respPollMax : Nat := 8
/-- CRC7_POLY (rule R6): x^7 + x^3 + 1 without its leading term. -/
def crc7Poly : BitVec 7 := 0x09#7
/-- The full generator with its leading term (rule R123). -/
def crc7Generator : Byte := 0x89#8
/-- CHECK_ARG (rule R6): the argument of command 8. -/
def checkArg : Word32 := 0x000001AA#32
/-- CHECK_ECHO_MASK (rule R6). -/
def checkEchoMask : Word32 := 0x00000FFF#32
/-- BLOCKLEN_ARG (rule R6): the argument of command 16. -/
def blocklenArg : Word32 := 512#32
/-- HCS_ARG (rule R6): the argument of application command 41. -/
def hcsArg : Word32 := 0x40000000#32
/-- CMD55_ARG, CMD58_ARG, REGREAD_ARG (rule R6). -/
def zeroArg : Word32 := 0#32
/-- CAP_MULT (rule R6). -/
def capMult : Nat := 1024
/-- RESET_FILLER_BYTES (rule R6). -/
def resetFillerBytes : Nat := 10
/-- RESET_DELAY_MS (rule R6). -/
def resetDelayMs : Nat := 1
/-- ACMD41_DELAY_MS (rule R6). -/
def acmd41DelayMs : Nat := 10
/-- BLOCK_CRC_BYTES (rule R6). -/
def blockCrcBytes : Nat := 2

/-- FREE VALUE: the byte the environment (card and platform link layer) answers to the `n`-th unscripted exchange, which
transmits `t` after the link history `past` (newest event first) since the last reset; `memory` stands for what it remembers from
before that reset. "The received byte `r` of every `X(t, r)` is chosen by the environment and is under no law of this spec: a
model takes it from an oracle" (rule R12). It has no body: nothing can be proved of its values. `State.rx` holds answers that
are scripted instead; log entry 1. -/
opaque cardByte (memory n : Nat) (past : List LinkEvent) (t : Byte) : Byte

/-- FREE VALUE: what the environment remembers across a reset event of the engine, "the card wherever the truncated transaction
left it" (rule R341): of its memory, the count of unscripted answers and the link history so far. It has no body; log entry 1. -/
opaque cardMemory (memory n : Nat) (past : List LinkEvent) : Nat

end Config
end Sys2Proof
end

