-- ==== Sys2Proof/Syntax.lean ====
section
/-! DEFINITION. The instructions: one constructor per row of `spec/opcode_table.json`. The rows are of four kinds: the
twelve command frames the engine emits (`30_encoding.md` rule R90), the sixteen host operation codes (rule R110), the
engine's internal operations and link primitives (no bit pattern selects them), and the five received formats. -/

namespace Sys2Proof

/-- A response shape (`42_response_classifier.md` rule R150). Shapes C and D are one format. `other` is a request for
any shape the classifier does not have, which rule R157 answers with the fault UNIMPLEMENTED. -/
inductive Shape
  | a
  | b
  | cd
  | other (code : Nat)
deriving DecidableEq, Repr

/-- The instructions of the engine. -/
inductive Instr
  -- command frames, format CMD48 (rule R90)
  /-- CMD0 GoIdle. -/
  | cmd0
  /-- CMD8 SendInterfaceCondition. -/
  | cmd8
  /-- CMD9 SendCapacityDescriptor. -/
  | cmd9
  /-- CMD10 SendIdentification. -/
  | cmd10
  /-- ACMD13 SendStatus (extended). -/
  | acmd13
  /-- CMD16 SetBlockLength. -/
  | cmd16
  /-- CMD17 ReadSingleBlock, its argument the sector index. -/
  | cmd17 (index : Word32)
  /-- CMD24 WriteSingleBlock, its argument the sector index. -/
  | cmd24 (index : Word32)
  /-- ACMD41 ActivateInit. -/
  | acmd41
  /-- ACMD51 SendConfigurationDescriptor. -/
  | acmd51
  /-- CMD55 ApplicationPrefix. -/
  | cmd55
  /-- CMD58 ReadOperatingConditions. -/
  | cmd58
  -- host operations, format HOSTOP (rule R110)
  | init
  | readSector (index : Word32)
  | writeSector (index : Word32) (data : List Byte)
  | eraseSector (index : Word32)
  | readCid
  | readCsd
  | readOcr
  | readScr
  | readSsr
  | reserved9
  | reserved10
  | reserved11
  | reserved12
  | reserved13
  | reserved14
  | reserved15
  -- internal operations and link primitives (rule R11)
  | crc7 (bytes : List Byte)
  | crcByte (bytes : List Byte)
  | frame (idx : BitVec 6) (arg : Word32)
  | issueCommand (idx : BitVec 6) (arg : Word32)
  | pollStatus
  | respA
  | respB
  | respCD
  | waitToken
  | fetchBlock (n : Nat)
  | sectorRead (index : Word32)
  | sectorWrite (index : Word32) (data : List Byte)
  | eraseSectorOp (index : Word32)
  | regRead (idx : BitVec 6) (shape : Shape) (n : Nat)
  | decodeCid (raw : List Byte)
  | decodeCsd (raw : List Byte)
  | decodeOcr (value : Word32)
  | decodeScr (raw : List Byte)
  | decodeSsr (raw : List Byte)
  | select
  | deselect
  | xchg (t : Byte)
  | delayMs (n : Nat)
  -- received formats (rules R95, R96, R97, R102, R103)
  /-- RESP_A: a status byte with its seven flags. -/
  | respFormatA (flags : BitVec 7)
  /-- RESP_B: a status byte, then a second status byte. -/
  | respFormatB (flags : BitVec 7) (second : Byte)
  /-- RESP_CD: a status byte, then a 32-bit payload. -/
  | respFormatCD (flags : BitVec 7) (payload : Word32)
  /-- START_TOKEN: the single-block start token. -/
  | startToken
  /-- DRESP: the write-acceptance byte. -/
  | dresp (code : Byte)
deriving DecidableEq, Repr

end Sys2Proof
end

