-- ==== Sys2Proof/Machine/Operands.lean ====
section
/-! DEFINITION. Byte order, bit slices and operand assembly (`00_scope.md` rules R9, R10; `30_encoding.md` rules R82, R83,
R93, R95). -/

namespace Sys2Proof

/-- `be32` (rule R9): the first byte is the most significant. -/
def be32 (b0 b1 b2 b3 : Byte) : Word32 := b0 ++ b1 ++ b2 ++ b3

/-- `be32bytes` (rule R9). -/
def be32bytes (v : Word32) : List Byte :=
  [v.extractLsb' 24 8, v.extractLsb' 16 8, v.extractLsb' 8 8, v.extractLsb' 0 8]

/-- `be32` of the first four bytes of a list; bytes past its end count as 0 (rule R83). -/
def be32List (e : List Byte) : Word32 := be32 (e.getD 0 0) (e.getD 1 0) (e.getD 2 0) (e.getD 3 0)

/-- `bits(raw)` as a number (rule R10): bit `8n-1` is bit 7 of `raw[0]`, bit 0 is bit 0 of the last byte. -/
def rawNat (raw : List Byte) : Nat := raw.foldl (fun acc b => acc * 256 + b.toNat) 0

/-- The `n` bytes of a number, most significant first: the inverse of `rawNat` on `n` bytes. -/
def natBytes : Nat → Nat → List Byte
  | 0, _ => []
  | n + 1, v => BitVec.ofNat 8 (v >>> (8 * n)) :: natBytes n v

/-- `v[hi:lo]` of a number (rule R8). -/
def sliceNat (v hi lo : Nat) : Nat := (v >>> lo) % 2 ^ (hi - lo + 1)

/-- The bits of a byte, bit 7 first (rule R121). -/
def byteBits (b : Byte) : List Bool :=
  [b.getLsbD 7, b.getLsbD 6, b.getLsbD 5, b.getLsbD 4, b.getLsbD 3, b.getLsbD 2, b.getLsbD 1, b.getLsbD 0]

/-- The message bit string of rule R121: first byte first, bit 7 of each byte first. -/
def messageBits (bytes : List Byte) : List Bool := bytes.flatMap byteBits

/-- `frame[0] = 0x40 | idx` (rule R82): start bit 0, transmission bit 1, the six index bits. -/
def startByte (idx : BitVec 6) : Byte := 0x40#8 ||| idx.setWidth 8

/-- The five bytes of a frame that the checksum covers (rule R82). -/
def frameBody (idx : BitVec 6) (arg : Word32) : List Byte := startByte idx :: be32bytes arg

/-- `idx = frame[0][5:0]` (rule R93). -/
def frameIdx (frame : List Byte) : BitVec 6 := (frame.getD 0 0).extractLsb' 0 6

/-- `arg = be32(frame[1..4])` (rule R93). -/
def frameArg (frame : List Byte) : Word32 := be32List (frame.drop 1)

/-- A status byte from its seven flags: bit 7 is 0 (rule R95). -/
def statusByte (flags : BitVec 7) : Byte := 0#1 ++ flags

/-- `b[7] = 0`: the test by which the classifier accepts a status byte (rule R152). -/
def isStatus (b : Byte) : Bool := !b.msb

end Sys2Proof
end

