-- ==== Sys2Proof/Machine/Crc.lean ====
section
/-! DEFINITION. The Checksum Engine (`40_crc7.md`): the bit-serial CRC-7 of rule R122, the checksum byte of rule R124,
the shift-based cross-check form of rule R123, the polynomial product that rule R121 speaks of, and the command frame (rule R141). -/

namespace Sys2Proof

/-- One bit through the 7-bit register (rule R122): feedback is the bit against `crc[6]`. -/
def crcShift (crc : BitVec 7) (d : Bool) : BitVec 7 :=
  if d ^^ crc.msb then (crc <<< 1) ^^^ Config.crc7Poly else crc <<< 1

/-- The register after a string of bits. -/
def crcBits (crc : BitVec 7) (bits : List Bool) : BitVec 7 := bits.foldl crcShift crc

/-- `CRC7(B)` (rules R121, R122), for a byte string of any length. -/
def crc7 (bytes : List Byte) : BitVec 7 := crcBits 0#7 (messageBits bytes)

/-- `CrcByte(B) = (CRC7(B) << 1) | 1` (rule R124). -/
def crcByte (bytes : List Byte) : Byte := crc7 bytes ++ 1#1

/-- One pass of the inner loop of rule R123. -/
def crcRotate (r : Byte) : Byte := (if r.msb then r ^^^ Config.crc7Generator else r) <<< 1

/-- One byte through the 8-bit register of rule R123. -/
def crcShiftByte (r b : Byte) : Byte := Nat.iterate crcRotate 8 (r ^^^ b)

/-- The 8-bit register of rule R123 after a byte string. -/
def crcShiftBytes (bytes : List Byte) : Byte := bytes.foldl crcShiftByte 0#8

/-- The polynomial of a bit string, first bit the highest coefficient (rule R121), as the number with those bits. -/
def gf2Poly (bits : List Bool) : Nat := bits.foldl (fun acc b => 2 * acc ^^^ b.toNat) 0

/-- The product over GF(2) of the polynomial of a bit string with `g`: no carries (rule R14 a). -/
def gf2Mul (bits : List Bool) (g : Nat) : Nat := bits.foldl (fun acc b => 2 * acc ^^^ (if b then g else 0)) 0

/-- `Frame(idx, arg)` (rule R141): six bytes, the last the checksum byte of the first five. -/
def frameBytes (idx : BitVec 6) (arg : Word32) : List Byte :=
  frameBody idx arg ++ [crcByte (frameBody idx arg)]

/-- The four conditions of rule R93 on six consecutive frame bytes. -/
def frameOk (f : List Byte) : Bool :=
  f.length == 6 && (f.getD 0 0).extractLsb' 6 2 == 0b01#2 && (f.getD 5 0).getLsbD 0 &&
    (f.getD 5 0).extractLsb' 1 7 == crc7 (f.take 5)

end Sys2Proof
end

