-- ==== Sys2Proof/WellFormed.lean ====
section
/-! DEFINITION. Which instruction terms the spec's rules speak of: the operand lengths and sizes that the types do not
already fix. -/

namespace Sys2Proof

/-- A sector's data is 512 bytes (`44_block_transfer.md` rule R208). -/
def sectorLengthOk (data : List Byte) : Bool := data.length == Config.sectorBytes

/-- `FetchBlock(n)` has n one of 512, 16, 8, 64 (rule R203). -/
def blockLengthOk (n : Nat) : Bool := n == 512 || n == 16 || n == 8 || n == 64

/-- `RegRead` has a register size 16, 8 or 64, and a shape A or B; a shape the classifier does not have is the request
of rule R157, which has a meaning of its own (rule R212). -/
def regReadOk (shape : Shape) (n : Nat) : Bool := (n == 16 || n == 8 || n == 64) && shape != .cd

namespace Instr

/-- Well-formed instruction terms. -/
def wellFormed : Instr → Bool
  | .writeSector _ data => sectorLengthOk data
  | .sectorWrite _ data => sectorLengthOk data
  | .fetchBlock n => blockLengthOk n
  | .regRead _ shape n => regReadOk shape n
  | .decodeCid raw => raw.length == 16
  | .decodeCsd raw => raw.length == 16
  | .decodeScr raw => raw.length == 8
  | .decodeSsr raw => raw.length == 64
  | .cmd0 | .cmd8 | .cmd9 | .cmd10 | .acmd13 | .cmd16 | .cmd17 _ | .cmd24 _ | .acmd41 | .acmd51 | .cmd55 | .cmd58 => true
  | .init | .readSector _ | .eraseSector _ | .readCid | .readCsd | .readOcr | .readScr | .readSsr => true
  | .reserved9 | .reserved10 | .reserved11 | .reserved12 | .reserved13 | .reserved14 | .reserved15 => true
  | .crc7 _ | .crcByte _ | .frame _ _ | .issueCommand _ _ | .pollStatus | .respA | .respB | .respCD | .waitToken => true
  | .sectorRead _ | .eraseSectorOp _ | .decodeOcr _ | .select | .deselect | .xchg _ | .delayMs _ => true
  | .respFormatA _ | .respFormatB _ _ | .respFormatCD _ _ | .startToken | .dresp _ => true

end Instr
end Sys2Proof
end

