-- ==== Sys2Proof/Decode.lean ====
section
/-! DEFINITION. The words a machine can be given and what instruction each is (`30_encoding.md`): the decoder, total and
rejecting by name, and the encoder written from the same tables. A format is not self-describing in its bytes (rules R80, R353), so a
word carries its format. The internal operations have no encoding ("not selected by any bit pattern"). -/

namespace Sys2Proof

/-- The HOSTOP word (rule R110): a 4-bit operation code and its operands as they stand at the request port. An
operation that has no use for an operand ignores it (rule R26). -/
structure HostWord where
  op : BitVec 4
  arg : Word32
  wdata : List Byte
deriving DecidableEq, Repr

/-- A word with its format (rule R80); the bytes stand in order of transmission. -/
inductive PortWord
  /-- HOSTOP. -/
  | hostop (h : HostWord)
  /-- CMD48, six bytes. -/
  | cmd48 (bytes : List Byte)
  /-- RESP_A, one byte. -/
  | respA (bytes : List Byte)
  /-- RESP_B, two bytes. -/
  | respB (bytes : List Byte)
  /-- RESP_CD, five bytes. -/
  | respCD (bytes : List Byte)
  /-- TOKEN, one byte. -/
  | token (bytes : List Byte)
  /-- DRESP, one byte. -/
  | dresp (bytes : List Byte)
deriving DecidableEq, Repr

/-- Why a word is no instruction. -/
inductive DecodeError
  /-- The bytes are not as many as the format has (rule R80). -/
  | badLength
  /-- `frame[0][7:6]` is not `0b01` (rule R93). -/
  | badStart
  /-- `frame[5][0]` is not 1 (rule R93). -/
  | badEnd
  /-- `frame[5][7:1]` is not the CRC-7 of the first five bytes (rule R93). -/
  | badChecksum
  /-- A command index the engine never emits (rule R106). -/
  | neverEmitted (idx : BitVec 6)
  /-- A command whose argument is constant, with another argument (rules R90, R91). -/
  | badArgument (idx : BitVec 6) (arg : Word32)
  /-- A status byte with bit 7 set (rule R95). -/
  | notStatus
  /-- A token byte that is not the start token (rule R105). -/
  | notToken
deriving DecidableEq, Repr

/-- A command whose argument is a constant (rules R90, R91). -/
def constCommand (i : Instr) (idx : BitVec 6) (want arg : Word32) : Except DecodeError Instr :=
  if arg = want then .ok i else .error (.badArgument idx arg)

/-- The command of an index and argument: the table of rule R90. -/
def decodeCommand (idx : BitVec 6) (arg : Word32) : Except DecodeError Instr :=
  match idx.toNat with
  | 0 => constCommand .cmd0 idx Config.zeroArg arg
  | 8 => constCommand .cmd8 idx Config.checkArg arg
  | 9 => constCommand .cmd9 idx Config.zeroArg arg
  | 10 => constCommand .cmd10 idx Config.zeroArg arg
  | 13 => constCommand .acmd13 idx Config.zeroArg arg
  | 16 => constCommand .cmd16 idx Config.blocklenArg arg
  | 17 => .ok (.cmd17 arg)
  | 24 => .ok (.cmd24 arg)
  | 41 => constCommand .acmd41 idx Config.hcsArg arg
  | 51 => constCommand .acmd51 idx Config.zeroArg arg
  | 55 => constCommand .cmd55 idx Config.zeroArg arg
  | 58 => constCommand .cmd58 idx Config.zeroArg arg
  | _ => .error (.neverEmitted idx)

/-- A command frame: the four conditions of rule R93, then the table of rule R90. -/
def decodeFrame (f : List Byte) : Except DecodeError Instr :=
  if f.length ≠ 6 then .error .badLength
  else if (f.getD 0 0).extractLsb' 6 2 ≠ 0b01#2 then .error .badStart
  else if (f.getD 5 0).getLsbD 0 = false then .error .badEnd
  else if (f.getD 5 0).extractLsb' 1 7 ≠ crc7 (f.take 5) then .error .badChecksum
  else decodeCommand (frameIdx f) (frameArg f)

/-- A host operation word (rule R110). -/
def decodeHost (h : HostWord) : Except DecodeError Instr :=
  match h.op.toNat with
  | 0 => .ok .init
  | 1 => .ok (.readSector h.arg)
  | 2 => if sectorLengthOk h.wdata then .ok (.writeSector h.arg h.wdata) else .error .badLength
  | 3 => .ok (.eraseSector h.arg)
  | 4 => .ok .readCid
  | 5 => .ok .readCsd
  | 6 => .ok .readOcr
  | 7 => .ok .readScr
  | 8 => .ok .readSsr
  | 9 => .ok .reserved9
  | 10 => .ok .reserved10
  | 11 => .ok .reserved11
  | 12 => .ok .reserved12
  | 13 => .ok .reserved13
  | 14 => .ok .reserved14
  | _ => .ok .reserved15

/-- The operands of an instruction are those of the host word it was decoded from, as far as it has them (rule R26). -/
def HostWord.operandsIn (h : HostWord) : Instr → Prop
  | .readSector index | .eraseSector index => index = h.arg
  | .writeSector index data => index = h.arg ∧ data = h.wdata
  | _ => True

/-- The decoder: total on every word. The start token is the engine's parameter (rules R6, R102). -/
def decode (cfg : Params) : PortWord → Except DecodeError Instr
  | .hostop h => decodeHost h
  | .cmd48 f => decodeFrame f
  | .respA [b] => if isStatus b then .ok (.respFormatA (b.setWidth 7)) else .error .notStatus
  | .respA _ => .error .badLength
  | .respB [b, c] => if isStatus b then .ok (.respFormatB (b.setWidth 7) c) else .error .notStatus
  | .respB _ => .error .badLength
  | .respCD [b, e0, e1, e2, e3] =>
    if isStatus b then .ok (.respFormatCD (b.setWidth 7) (be32 e0 e1 e2 e3)) else .error .notStatus
  | .respCD _ => .error .badLength
  | .token [b] => if b = cfg.startToken then .ok .startToken else .error .notToken
  | .token _ => .error .badLength
  | .dresp [b] => .ok (.dresp b)
  | .dresp _ => .error .badLength

/-- The index and argument of a command row (rule R90). -/
def commandOf : Instr → Option (BitVec 6 × Word32)
  | .cmd0 => some (0, Config.zeroArg)
  | .cmd8 => some (8, Config.checkArg)
  | .cmd9 => some (9, Config.zeroArg)
  | .cmd10 => some (10, Config.zeroArg)
  | .acmd13 => some (13, Config.zeroArg)
  | .cmd16 => some (16, Config.blocklenArg)
  | .cmd17 index => some (17, index)
  | .cmd24 index => some (24, index)
  | .acmd41 => some (41, Config.hcsArg)
  | .acmd51 => some (51, Config.zeroArg)
  | .cmd55 => some (55, Config.zeroArg)
  | .cmd58 => some (58, Config.zeroArg)
  | _ => none

/-- The operation code and operands of a host operation (rule R110); an operand the operation does not use is 0. -/
def hostWordOf : Instr → Option HostWord
  | .init => some ⟨0, 0, []⟩
  | .readSector index => some ⟨1, index, []⟩
  | .writeSector index data => some ⟨2, index, data⟩
  | .eraseSector index => some ⟨3, index, []⟩
  | .readCid => some ⟨4, 0, []⟩
  | .readCsd => some ⟨5, 0, []⟩
  | .readOcr => some ⟨6, 0, []⟩
  | .readScr => some ⟨7, 0, []⟩
  | .readSsr => some ⟨8, 0, []⟩
  | .reserved9 => some ⟨9, 0, []⟩
  | .reserved10 => some ⟨10, 0, []⟩
  | .reserved11 => some ⟨11, 0, []⟩
  | .reserved12 => some ⟨12, 0, []⟩
  | .reserved13 => some ⟨13, 0, []⟩
  | .reserved14 => some ⟨14, 0, []⟩
  | .reserved15 => some ⟨15, 0, []⟩
  | _ => none

/-- The word of a received format (rules R95, R96, R97, R102, R103). -/
def receivedWordOf (cfg : Params) : Instr → Option PortWord
  | .respFormatA flags => some (.respA [statusByte flags])
  | .respFormatB flags second => some (.respB [statusByte flags, second])
  | .respFormatCD flags payload => some (.respCD (statusByte flags :: be32bytes payload))
  | .startToken => some (.token [cfg.startToken])
  | .dresp code => some (.dresp [code])
  | _ => none

/-- The encoder. The internal operations have no encoding. -/
def encode (cfg : Params) (i : Instr) : Option PortWord :=
  match commandOf i with
  | some (idx, arg) => some (.cmd48 (frameBytes idx arg))
  | none =>
    match hostWordOf i with
    | some h => some (.hostop h)
    | none => receivedWordOf cfg i

/-- A row's word of `nbits` bits, numbered as the opcode table numbers it, as a word with its format. The table's formats
overlap in eight bits; there a number below 16 is an operation code, then comes the status byte (bit 7 is 0), then the
start token, and every other byte is an acceptance byte (log entry 9). Wider words have their first byte most
significant, as the table's strings of bits have. An operand the table gives no bits is 0. -/
def tableWord (cfg : Params) (nbits w : Nat) : Option PortWord :=
  if nbits ≤ 8 then
    if w < 16 then some (.hostop ⟨BitVec.ofNat 4 w, 0, List.replicate Config.sectorBytes 0⟩)
    else if w < 128 then some (.respA (natBytes 1 w))
    else if w = cfg.startToken.toNat then some (.token (natBytes 1 w))
    else some (.dresp (natBytes 1 w))
  else if nbits ≤ 16 then some (.respB (natBytes 2 w))
  else if nbits ≤ 40 then some (.respCD (natBytes 5 w))
  else if nbits ≤ 48 then some (.cmd48 (natBytes 6 w))
  else none

/-- The instruction the decoder reads from a word numbered as the opcode table numbers it, with the default parameters: the
table prints the start token's default (log entry 19). -/
def decodeTableWord (nbits w : Nat) : Option Instr :=
  match tableWord Config.defaultParams nbits w with
  | some p =>
    match decode Config.defaultParams p with
    | .ok i => some i
    | .error _ => none
  | none => none

end Sys2Proof
end

