-- ==== Sys2Proof/Machine/Records.lean ====
section
/-! DEFINITION. The five decoded record types (`10_state.md` rule R29), one component per row of the layout tables of
`45_register_decoder.md`, each an unsigned value of its row's width. -/

namespace Sys2Proof

/-- Identification register (rule R232). -/
structure CID where
  mid : BitVec 8
  oid : BitVec 16
  pnm : BitVec 40
  prv : BitVec 8
  psn : BitVec 32
  mdt : BitVec 12
  crc : BitVec 7
deriving DecidableEq, Repr

/-- Capacity/timing descriptor (rule R240): flat, every row extracted whatever the version. -/
structure CSD where
  csd_structure : BitVec 2
  taac : BitVec 8
  nsac : BitVec 8
  tran_speed : BitVec 8
  ccc : BitVec 12
  read_bl_len : BitVec 4
  read_bl_partial : BitVec 1
  write_blk_misalign : BitVec 1
  read_blk_misalign : BitVec 1
  dsr_imp : BitVec 1
  c_size_v1 : BitVec 12
  vdd_r_curr_min : BitVec 3
  vdd_r_curr_max : BitVec 3
  vdd_w_curr_min : BitVec 3
  vdd_w_curr_max : BitVec 3
  c_size_mult : BitVec 3
  c_size_v2 : BitVec 22
  erase_blk_en : BitVec 1
  sector_size : BitVec 7
  wp_grp_size : BitVec 7
  wp_grp_enable : BitVec 1
  r2w_factor : BitVec 3
  write_bl_len : BitVec 4
  write_bl_partial : BitVec 1
  file_format_grp : BitVec 1
  copy : BitVec 1
  perm_write_protect : BitVec 1
  tmp_write_protect : BitVec 1
  file_format : BitVec 2
  crc : BitVec 7
deriving DecidableEq, Repr

/-- Operating-conditions register (rule R250). -/
structure OCR where
  power_up_ready : BitVec 1
  ccs : BitVec 1
  vdd_window : BitVec 20
  raw : Word32
deriving DecidableEq, Repr

/-- Configuration descriptor (rule R255). -/
structure SCR where
  scr_structure : BitVec 4
  sd_spec : BitVec 4
  data_stat_after_erase : BitVec 1
  sd_security : BitVec 3
  sd_bus_widths : BitVec 4
  sd_spec3 : BitVec 1
  ex_security : BitVec 4
  sd_spec4 : BitVec 1
  sd_specx : BitVec 4
  cmd_support : BitVec 4
deriving DecidableEq, Repr

/-- Extended status register (rule R260). -/
structure SSR where
  dat_bus_width : BitVec 2
  secured_mode : BitVec 1
  sd_card_type : BitVec 16
  size_of_protected_area : BitVec 32
  speed_class : BitVec 8
  performance_move : BitVec 8
  au_size : BitVec 4
  erase_size : BitVec 16
  erase_timeout : BitVec 6
  erase_offset : BitVec 2
deriving DecidableEq, Repr

end Sys2Proof
end

