-- ==== Sys2Proof/Machine/State.lean ====
section
/-! DEFINITION. The state of the engine (`10_state.md` rule R20): session state, control state, datapath registers, the
ghost link trace; and beside them what the model itself needs: the parameters as a read-only field, the reset input, the
request port, the result last delivered, the environment's answers to come. Plain data throughout. -/

namespace Sys2Proof.Machine

/-- The states of the sequencer (rule R24). -/
inductive SeqState
  | idle
  | fault
  | iReset
  | iGoIdle
  | iIfCond
  | iActivate
  | iReadOcr
  | iBranch
  | iTerminal
  | opRead
  | opWrite
  | opRegRead
deriving DecidableEq, Repr

/-- The phase, the second component of the sequencer while a transaction runs (rule R24): "the byte position inside the current
transaction". DESIGN CHOICE (log entry 27): it names the byte exchanged last, since rule R24 leaves open whether it names that one or
the one about to be exchanged. A step of the machine passes many positions; the positions one by one are those of `Position.advance`
(`Machine/Sequencer.lean`, log entry 3). -/
inductive Phase
  | pFrame (k : Nat)
  | pPoll (i : Nat)
  | pExtra (k : Nat)
  | pToken
  | pData (k : Nat)
  | pCrc (k : Nat)
  | pGap
  | pWToken
  | pWData (k : Nat)
  | pWCrc (k : Nat)
  | pWResp
  | pBusy
  | pDesel
deriving DecidableEq, Repr

/-- The sequencer register `seq` (rule R24). -/
structure Seq where
  main : SeqState
  phase : Option Phase
deriving DecidableEq, Repr

/-- What an inbound data block is for: where the pseudocode goes on when the block has been received. -/
inductive AfterBlock
  /-- The row FetchBlock alone: no Deselect (rule R203). -/
  | fetchOnly
  /-- SectorRead, RegRead and the command rows: Deselect, return the bytes (rules R204, R212). -/
  | dataPhase
  | readSector
  | readCid
  | readCsd
  | readScr
  | readSsr
  /-- The descriptor fetch of Terminal (rule R186). -/
  | initCsd
deriving DecidableEq, Repr

/-- What follows the start token. -/
inductive AfterToken
  /-- The row WaitToken alone. -/
  | ret
  /-- The data block of `n` bytes (rule R203). -/
  | block (n : Nat) (k : AfterBlock)
deriving DecidableEq, Repr

/-- Where in one of the three unbounded loops (rule R190 b) the running operation stands between two steps, with the
number of iterations done: `n` of rules R180, R202, R208. -/
inductive Wait
  | token (n : Nat) (k : AfterToken)
  | busy (n : Nat)
  | activate (n : Nat)
deriving DecidableEq, Repr

/-- What UNIMPLEMENTED was raised for (rule R301). -/
inductive Unimplemented
  | erase
  | opCode (code : BitVec 4)
  | shape (code : Nat)
deriving DecidableEq, Repr

/-- Which loop reached its bound (rule R301, code 7). -/
inductive LoopName
  | acmd41
  | token
  | busy
deriving DecidableEq, Repr

/-- A fault record `(reason, info)` of the latch `fault` (rules R22, R301). -/
inductive Fatal
  | respTimeout (idx : BitVec 6)
  | unexpectedStatus (idx : BitVec 6) (r1 : Byte)
  | ifcondMismatch (payload : Word32)
  | addressingUnsupported (ocrRaw : Word32)
  | unimplemented (what : Unimplemented)
  | notInitialized (op : BitVec 4)
  | timeout (loop : LoopName)
  | writeRejected (wresp : Byte)
deriving DecidableEq, Repr

/-- A value an operation delivers when it ends (rule R295; the signatures of `spec/opcode_table.json`). -/
inductive Result
  /-- The operation returns no value. -/
  | done
  | checksum (value : BitVec 7)
  | byte (value : Byte)
  | bytes (value : List Byte)
  | status2 (r1 r2 : Byte)
  | statusPayload (r1 : Byte) (payload : Word32)
  | cid (value : CID)
  | csd (value : CSD)
  | ocr (value : OCR)
  | scr (value : SCR)
  | ssr (value : SSR)
deriving DecidableEq, Repr

/-- The link handle "supplied at construction" (rule R21): an abstract name. -/
structure LinkHandle where
  id : Nat
deriving DecidableEq, Repr

/-- The engine's state. -/
structure State where
  -- parameters (rule R6), written by nothing
  cfg : Params
  -- session state (rule R21)
  link : LinkHandle
  filler : List Byte
  initialized : Bool
  sectorCount : BitVec 32
  -- control state (rules R22, R23, R24, R26)
  fault : Option Fatal
  cs : Bool
  seq : Seq
  waiting : Option Wait
  op : BitVec 4
  opArg : Word32
  wdata : List Byte
  -- datapath registers (rule R25)
  crc : BitVec 7
  frame : List Byte
  pollCnt : BitVec 4
  r1 : Byte
  r2 : Byte
  payload : Word32
  ocrRaw : Word32
  buf : List Byte
  wresp : Byte
  -- ghost state (rule R12): the link trace, NEWEST event first
  trace : List LinkEvent
  -- the boundary: the reset event the environment applies (rule R340), the word at the request port, the value the
  -- operation that last ended delivered
  resetRequest : Bool
  port : Option PortWord
  result : Option Result
  -- the environment: its scripted answers to the exchanges to come, the number of unscripted answers given, what it remembers
  -- from before the last reset event
  rx : List Byte
  envCount : Nat
  envMemory : Nat
deriving DecidableEq, Repr

/-- No step of this machine ends in `Host.Outcome.fault`: a protocol failure is latched in `State.fault` and the machine
has a next state (rule R310). Hence no constructor. -/
inductive Fault : Type
deriving DecidableEq, Repr

/-- Why a step has no meaning. -/
inductive Refusal
  /-- Raised by an arm of `exec` whose instruction is not modelled; safe. No arm raises it. -/
  | notModelled (mnemonic : String)
  /-- Raised by `step` when the word at the port is no instruction of the table, so that the spec gives it no meaning: a frame
  the engine never emits (rule R106), bytes that are not of their format (rules R80, R93, R95, R105); safe. -/
  | undecodable (e : DecodeError)
deriving DecidableEq, Repr

/-- The state after reset (rule R34). A register for which the rule says "no value" is 0 (log entry 2). -/
def State.reset : State where
  cfg := Config.defaultParams
  link := ⟨0⟩
  filler := Config.fillerBuffer
  initialized := false
  sectorCount := 0
  fault := none
  cs := false
  seq := ⟨.idle, none⟩
  waiting := none
  op := 0
  opArg := 0
  wdata := List.replicate Config.sectorBytes 0
  crc := 0
  frame := List.replicate 6 0
  pollCnt := 0
  r1 := 0
  r2 := 0
  payload := 0
  ocrRaw := 0
  buf := List.replicate Config.sectorBytes 0
  wresp := 0
  trace := []
  resetRequest := false
  port := none
  result := none
  rx := []
  envCount := 0
  envMemory := 0

end Sys2Proof.Machine
end

