-- ==== Sys2Proof/Machine/Flags.lean ====
section
/-! DEFINITION. The flags the engine holds or exposes (`10_state.md` rule R28), the status flags of a response
(`30_encoding.md` rules R95, R96), the fault codes (rule R301) and the modes (`60_exceptions.md` rule R315). -/

namespace Sys2Proof.Machine

/-- `busy = (seq != IDLE and seq != FAULT)` (rule R28 c). -/
def State.busy (s : State) : Bool := s.seq.main != .idle && s.seq.main != .fault

/-- `fault != none` (rule R28 b). -/
def State.faulted (s : State) : Bool := s.fault.isSome

/-- The three modes (rule R315), a function of `(fault, initialized)`. -/
inductive Mode
  | uninitialized
  | initialized
  | faulted
deriving DecidableEq, Repr

def State.mode (s : State) : Mode :=
  if s.faulted then .faulted else if s.initialized then .initialized else .uninitialized

/-- The numeric code of the fault latch (rule R301); `none` is 0. -/
def faultCode : Option Fatal → Nat
  | none => 0
  | some (.respTimeout _) => 1
  | some (.unexpectedStatus _ _) => 2
  | some (.ifcondMismatch _) => 3
  | some (.addressingUnsupported _) => 4
  | some (.unimplemented _) => 5
  | some (.notInitialized _) => 6
  | some (.timeout _) => 7
  | some (.writeRejected _) => 8

/-- The seven flags of a status byte (table LAYOUT_R1, rule R95). -/
structure StatusFlags where
  idleState : Bool
  eraseReset : Bool
  illegalCommand : Bool
  checksumError : Bool
  eraseSequenceError : Bool
  addressError : Bool
  parameterError : Bool
deriving DecidableEq, Repr

/-- The flags of a status byte, each from its row of the table (rules R95, R231). DESIGN CHOICE (log entry 26): with a table other
than the default, whose rows have one bit each, a flag whose row is wider than one bit is set if any bit of the row is 1. -/
def statusFlags (L : R1Layout) (b : Byte) : StatusFlags :=
  let flag (f : Field) : Bool := sliceNat b.toNat f.hi f.lo != 0
  { idleState := flag L.idle_state
    eraseReset := flag L.erase_reset
    illegalCommand := flag L.illegal_command
    checksumError := flag L.checksum_error
    eraseSequenceError := flag L.erase_sequence_error
    addressError := flag L.address_error
    parameterError := flag L.parameter_error }

/-- The status flags of the latest response (rule R28 d): whatever the card sent. -/
def State.statusFlags (s : State) : StatusFlags := Sys2Proof.Machine.statusFlags s.cfg.layouts.r1 s.r1

/-- The acceptance test of WRESP_CHECK: `(wresp & 0x1F) = 0x05` (rule R209). -/
def writeAccepted (wresp : Byte) : Bool := wresp &&& 0x1F#8 == 0x05#8

/-- What the host can read at any time (rule R312), and the result delivered last (rule R295). -/
structure HostView where
  fault : Option Fatal
  initialized : Bool
  sectorCount : BitVec 32
  busy : Bool
  result : Option Result
deriving DecidableEq, Repr

def State.hostView (s : State) : HostView := ⟨s.fault, s.initialized, s.sectorCount, s.busy, s.result⟩

end Sys2Proof.Machine
end

