-- ==== Sys2Proof/Machine/Ops.lean ====
section
/-! DEFINITION. The shared operations: raising a fault (the engine's one exception, `60_exceptions.md` rule R310), the
four link primitives (`00_scope.md` rule R11, `60_exceptions.md` rules R321 to R323), the environment's answers, the end
of an operation, and the reset event (`70_reset_and_hazards.md` rules R340, R341), the only way out of a fault. -/

namespace Sys2Proof.Machine

/-- `raise Fatal(reason, info)` (rule R310): latch the record if none is latched, `seq <- FAULT`, the running operation
ends; nothing else changes. -/
def raise (r : Fatal) (s : State) : State :=
  match s.fault with
  | some _ => s
  | none => { s with fault := some r, seq := ⟨.fault, none⟩, waiting := none }

/-- `s ; f`: the next pseudocode statement runs unless a fault was raised: a `raise` ends execution (rule R308). -/
def State.andThen (s : State) (f : State → State) : State :=
  match s.fault with
  | some _ => s
  | none => f s

/-- The meaning of an instruction from its pseudocode: while a fault is latched no step is enabled and nothing changes
(rule R311). -/
def live (f : State → State) (s : State) : Host.Outcome State Fault Refusal := .next (s.andThen f)

/-- The sequencer's phase (rule R24). -/
def atPhase (p : Phase) (s : State) : State := { s with seq := { s.seq with phase := some p } }

/-- `seq <- STATE` (rule R11), at the start of that state. -/
def enter (m : SeqState) (s : State) : State := { s with seq := ⟨m, none⟩ }

/-- `Select()` (rules R11, R321). -/
def select (s : State) : State := { s with cs := true, trace := .sel :: s.trace }

/-- The request of `Deselect()` (rules R11, R321), allowed when already deselected. While a transaction runs, which is while `seq` has
a phase, it is the transaction's last position, P_DESEL; with no transaction running, as in state Reset (rule R172), `seq` has no phase
and gets none (rule R24). -/
def requestDeselect (s : State) : State :=
  { s with cs := false, seq := ⟨s.seq.main, s.seq.phase.map fun _ => .pDesel⟩, trace := .desel :: s.trace }

/-- No transaction runs any more: `seq` has no second component (rules R24, R158). -/
def leaveTransaction (s : State) : State := { s with seq := { s.seq with phase := none } }

/-- `Deselect()`, which closes a transaction (rule R158). -/
def deselect (s : State) : State := leaveTransaction (requestDeselect s)

/-- `DelayMs(n)` (rules R11, R323): the request is recorded and has no duration. -/
def delayMs (n : Nat) (s : State) : State := { s with trace := .delay n :: s.trace }

/-- The byte the environment answers to the next exchange, in which the engine transmits `t` (rule R12): the next scripted
answer if there is one, otherwise the free value. -/
def reply (t : Byte) (s : State) : Byte :=
  match s.rx with
  | b :: _ => b
  | [] => Config.cardByte s.envMemory s.envCount s.trace t

/-- `Xchg(t)`: one full-duplex exchange (rules R11, R322); its result is `reply t s`. -/
def xchg (t : Byte) (s : State) : State :=
  { s with
    rx := s.rx.tail
    envCount := if s.rx.isEmpty then s.envCount + 1 else s.envCount
    trace := .x t (reply t s) :: s.trace }

/-- `XchgN(T)`: the exchanges of the bytes of `T` in index order (rules R11, R322). -/
def xchgN : List Byte → State → State
  | [], s => s
  | t :: ts, s => xchgN ts (xchg t s)

/-- The bytes `XchgN(T)` receives, in index order. -/
def replies : List Byte → State → List Byte
  | [], _ => []
  | t :: ts, s => reply t s :: replies ts (xchg t s)

/-- The environment is to answer the next exchanges with these bytes: how a received format reaches the engine. -/
def feed (bytes : List Byte) (s : State) : State := { s with rx := bytes ++ s.rx }

/-- A row that returns a value to its caller and changes nothing else. -/
def deliver (r : Result) (s : State) : State := { s with result := some r }

/-- The end of an operation: its result is delivered and `seq <- IDLE` (rules R280, R295). -/
def complete (r : Result) (s : State) : State :=
  { s with result := some r, seq := ⟨.idle, none⟩, waiting := none }

/-- An unbounded loop's transfer back to its head (rule R190 b): a step of the machine ends here, the next one resumes. -/
def waitAt (w : Wait) (s : State) : State := { s with waiting := some w }

/-- The reset event (rules R340, R341): every piece of the engine's state takes its reset value and the trace is emptied; nothing
is sent, and the environment, the link handle and the parameters are as they were. What the environment does after it may depend on
everything before it, of which rule R341 says no more than that the card is left where it was: `envMemory` takes a free value of
the history that the trace loses (log entries 1, 13). -/
def applyReset (s : State) : State :=
  { State.reset with
    cfg := s.cfg
    link := s.link
    rx := s.rx
    envCount := s.envCount
    envMemory := Config.cardMemory s.envMemory s.envCount s.trace }

end Sys2Proof.Machine
end

