-- ==== Sys2Proof/Machine/Checksum.lean ====
section
/-! DEFINITION. The rows of the Checksum Engine (`40_crc7.md`) and the pure framer (`41_command_transport.md` rule R141). -/

namespace Sys2Proof.Machine

/-- The register `crc` after the checksum of a byte string has been computed (rules R122, R25). -/
def computeCrc (bytes : List Byte) (s : State) : State := { s with crc := crc7 bytes }

/-- `Frame(idx, arg)` (rule R141): builds `frame`, its checksum computed on the first five bytes. -/
def buildFrame (idx : BitVec 6) (arg : Word32) (s : State) : State :=
  { computeCrc (frameBody idx arg) s with frame := frameBytes idx arg }

/-- CRC7 (rules R121, R122): writes `crc` alone and returns its value. -/
def execCrc7 (bytes : List Byte) (s : State) : Host.Outcome State Fault Refusal :=
  live (fun s => deliver (.checksum (crc7 bytes)) (computeCrc bytes s)) s

/-- CrcByte (rule R124): returns the checksum with the end bit. -/
def execCrcByte (bytes : List Byte) (s : State) : Host.Outcome State Fault Refusal :=
  live (fun s => deliver (.byte (crcByte bytes)) (computeCrc bytes s)) s

/-- Frame (rule R141). -/
def execFrame (idx : BitVec 6) (arg : Word32) (s : State) : Host.Outcome State Fault Refusal :=
  live (fun s => deliver (.bytes (frameBytes idx arg)) (buildFrame idx arg s)) s

end Sys2Proof.Machine
end

