-- ==== Sys2Proof/Machine/Decoders.lean ====
section
/-! DEFINITION. The Register Decoder (`45_register_decoder.md`). The layout tables are arguments (rule R6, LAYOUT_x;
decision D22). One generic extraction (rule R231) and one generic packing (rule R266). -/

namespace Sys2Proof

/-- `field = slice(raw, hi, lo)` (rule R231), from the register's bit string as a number. -/
def Field.get (w : Nat) (f : Field) (v : Nat) : BitVec w := BitVec.ofNat w (sliceNat v f.hi f.lo)

/-- `rec.field << lo`, its place in a packed register (rule R266). -/
def Field.put {w : Nat} (f : Field) (x : BitVec w) : Nat := x.toNat <<< f.lo

/-- The ones of a row, in place. -/
def Field.ones (f : Field) : Nat := (2 ^ (f.hi - f.lo + 1) - 1) <<< f.lo

/-- The exclusive-or over the rows of a table (rule R266). -/
def xorAll (parts : List Nat) : Nat := parts.foldr (· ^^^ ·) 0

/-- The rows of LAYOUT_CID, reserved rows left out. -/
def cidFields (L : CidLayout) : List Field :=
  [L.mid, L.oid, L.pnm, L.prv, L.psn, L.mdt, L.crc]

/-- The rows of LAYOUT_SCR, reserved rows left out. -/
def scrFields (L : ScrLayout) : List Field :=
  [L.scr_structure, L.sd_spec, L.data_stat_after_erase, L.sd_security,
    L.sd_bus_widths, L.sd_spec3, L.ex_security, L.sd_spec4, L.sd_specx,
    L.cmd_support]

/-- The rows of LAYOUT_SSR, reserved rows left out. -/
def ssrFields (L : SsrLayout) : List Field :=
  [L.dat_bus_width, L.secured_mode, L.sd_card_type, L.size_of_protected_area,
    L.speed_class, L.performance_move, L.au_size, L.erase_size, L.erase_timeout,
    L.erase_offset]

/-- The rows of LAYOUT_CSD that apply to the version, reserved rows left out (rule R242). -/
def csdFields (L : CsdLayout) (version : BitVec 2) : List Field :=
  [L.csd_structure, L.taac, L.nsac, L.tran_speed, L.ccc, L.read_bl_len,
    L.read_bl_partial, L.write_blk_misalign, L.read_blk_misalign, L.dsr_imp,
    L.erase_blk_en, L.sector_size, L.wp_grp_size, L.wp_grp_enable, L.r2w_factor,
    L.write_bl_len, L.write_bl_partial, L.file_format_grp, L.copy,
    L.perm_write_protect, L.tmp_write_protect, L.file_format, L.crc] ++
  if version = 0 then
    [L.c_size_v1, L.vdd_r_curr_min, L.vdd_r_curr_max, L.vdd_w_curr_min,
      L.vdd_w_curr_max, L.c_size_mult]
  else [L.c_size_v2]

/-- The rows of LAYOUT_OCR without `raw`, which overlaps them (log entry 25). -/
def ocrFields (L : OcrLayout) : List Field := [L.power_up_ready, L.ccs, L.vdd_window]

/-- The ones of a table's rows: a register and these is the register with its reserved bits cleared (rule R266). -/
def fieldMask (fields : List Field) : Nat := fields.foldr (fun f acc => f.ones ||| acc) 0

/-- `DecodeCID` (rule R232). -/
def decodeCid (L : CidLayout) (raw : List Byte) : CID :=
  let v := rawNat raw
  { mid := L.mid.get 8 v
    oid := L.oid.get 16 v
    pnm := L.pnm.get 40 v
    prv := L.prv.get 8 v
    psn := L.psn.get 32 v
    mdt := L.mdt.get 12 v
    crc := L.crc.get 7 v }

/-- `DecodeCSD` (rule R240). -/
def decodeCsd (L : CsdLayout) (raw : List Byte) : CSD :=
  let v := rawNat raw
  { csd_structure := L.csd_structure.get 2 v
    taac := L.taac.get 8 v
    nsac := L.nsac.get 8 v
    tran_speed := L.tran_speed.get 8 v
    ccc := L.ccc.get 12 v
    read_bl_len := L.read_bl_len.get 4 v
    read_bl_partial := L.read_bl_partial.get 1 v
    write_blk_misalign := L.write_blk_misalign.get 1 v
    read_blk_misalign := L.read_blk_misalign.get 1 v
    dsr_imp := L.dsr_imp.get 1 v
    c_size_v1 := L.c_size_v1.get 12 v
    vdd_r_curr_min := L.vdd_r_curr_min.get 3 v
    vdd_r_curr_max := L.vdd_r_curr_max.get 3 v
    vdd_w_curr_min := L.vdd_w_curr_min.get 3 v
    vdd_w_curr_max := L.vdd_w_curr_max.get 3 v
    c_size_mult := L.c_size_mult.get 3 v
    c_size_v2 := L.c_size_v2.get 22 v
    erase_blk_en := L.erase_blk_en.get 1 v
    sector_size := L.sector_size.get 7 v
    wp_grp_size := L.wp_grp_size.get 7 v
    wp_grp_enable := L.wp_grp_enable.get 1 v
    r2w_factor := L.r2w_factor.get 3 v
    write_bl_len := L.write_bl_len.get 4 v
    write_bl_partial := L.write_bl_partial.get 1 v
    file_format_grp := L.file_format_grp.get 1 v
    copy := L.copy.get 1 v
    perm_write_protect := L.perm_write_protect.get 1 v
    tmp_write_protect := L.tmp_write_protect.get 1 v
    file_format := L.file_format.get 2 v
    crc := L.crc.get 7 v }

/-- The capacity field: the 12-bit field if `csd_structure = 0`, else the 22-bit field (rules R242, R243). -/
def csdCapacity (c : CSD) : BitVec 22 := if c.csd_structure = 0 then c.c_size_v1.setWidth 22 else c.c_size_v2

/-- `DecodeOCR` (rule R250). -/
def decodeOcr (L : OcrLayout) (v : Word32) : OCR where
  power_up_ready := L.power_up_ready.get 1 v.toNat
  ccs := L.ccs.get 1 v.toNat
  vdd_window := L.vdd_window.get 20 v.toNat
  raw := v

/-- `DecodeSCR` (rule R255). -/
def decodeScr (L : ScrLayout) (raw : List Byte) : SCR :=
  let v := rawNat raw
  { scr_structure := L.scr_structure.get 4 v
    sd_spec := L.sd_spec.get 4 v
    data_stat_after_erase := L.data_stat_after_erase.get 1 v
    sd_security := L.sd_security.get 3 v
    sd_bus_widths := L.sd_bus_widths.get 4 v
    sd_spec3 := L.sd_spec3.get 1 v
    ex_security := L.ex_security.get 4 v
    sd_spec4 := L.sd_spec4.get 1 v
    sd_specx := L.sd_specx.get 4 v
    cmd_support := L.cmd_support.get 4 v }

/-- `DecodeSSR` (rule R260). -/
def decodeSsr (L : SsrLayout) (raw : List Byte) : SSR :=
  let v := rawNat raw
  { dat_bus_width := L.dat_bus_width.get 2 v
    secured_mode := L.secured_mode.get 1 v
    sd_card_type := L.sd_card_type.get 16 v
    size_of_protected_area := L.size_of_protected_area.get 32 v
    speed_class := L.speed_class.get 8 v
    performance_move := L.performance_move.get 8 v
    au_size := L.au_size.get 4 v
    erase_size := L.erase_size.get 16 v
    erase_timeout := L.erase_timeout.get 6 v
    erase_offset := L.erase_offset.get 2 v }

/-- `Pack(LAYOUT_CID, rec)` (rule R266). Bit 0, "always 1, not decoded", is no component of the record: the packer is
given it, and with 0 it packs as the rule does, with 1 as the card's registers have it (`95_test_vectors.md` V-CID-2). -/
def packCid (L : CidLayout) (endBit : BitVec 1) (c : CID) : List Byte :=
  natBytes 16 (xorAll
    [endBit.toNat, L.mid.put c.mid, L.oid.put c.oid, L.pnm.put c.pnm, L.prv.put c.prv,
      L.psn.put c.psn, L.mdt.put c.mdt, L.crc.put c.crc])

/-- The rows of LAYOUT_CSD that apply to both versions, in place. -/
def csdCommonParts (L : CsdLayout) (c : CSD) : List Nat :=
  [L.csd_structure.put c.csd_structure, L.taac.put c.taac, L.nsac.put c.nsac,
    L.tran_speed.put c.tran_speed, L.ccc.put c.ccc, L.read_bl_len.put c.read_bl_len,
    L.read_bl_partial.put c.read_bl_partial, L.write_blk_misalign.put c.write_blk_misalign,
    L.read_blk_misalign.put c.read_blk_misalign, L.dsr_imp.put c.dsr_imp,
    L.erase_blk_en.put c.erase_blk_en, L.sector_size.put c.sector_size,
    L.wp_grp_size.put c.wp_grp_size, L.wp_grp_enable.put c.wp_grp_enable,
    L.r2w_factor.put c.r2w_factor, L.write_bl_len.put c.write_bl_len,
    L.write_bl_partial.put c.write_bl_partial, L.file_format_grp.put c.file_format_grp,
    L.copy.put c.copy, L.perm_write_protect.put c.perm_write_protect,
    L.tmp_write_protect.put c.tmp_write_protect, L.file_format.put c.file_format, L.crc.put c.crc]

/-- The rows of version 1 alone, in place. -/
def csdV1Parts (L : CsdLayout) (c : CSD) : List Nat :=
  [L.c_size_v1.put c.c_size_v1, L.vdd_r_curr_min.put c.vdd_r_curr_min,
    L.vdd_r_curr_max.put c.vdd_r_curr_max, L.vdd_w_curr_min.put c.vdd_w_curr_min,
    L.vdd_w_curr_max.put c.vdd_w_curr_max, L.c_size_mult.put c.c_size_mult]

/-- The row of version 2 alone, in place. -/
def csdV2Parts (L : CsdLayout) (c : CSD) : List Nat := [L.c_size_v2.put c.c_size_v2]

/-- `Pack(LAYOUT_CSD, rec)`, with the version's own rows (rules R242, R266); bit 0 as for `packCid`. -/
def packCsd (L : CsdLayout) (endBit : BitVec 1) (c : CSD) : List Byte :=
  natBytes 16 (xorAll (endBit.toNat :: csdCommonParts L c ++ if c.csd_structure = 0 then csdV1Parts L c else csdV2Parts L c))

/-- `Pack(LAYOUT_OCR, rec)` (rule R266) as the 32-bit value. DESIGN CHOICE (log entry 25): the three fields in place and every
other bit 0. The table's row `raw`, bits 31:0, overlaps the others, so the exclusive-or over all its rows and the rule's round trip
cannot both hold; the row is left out. -/
def packOcr (L : OcrLayout) (o : OCR) : Word32 :=
  BitVec.ofNat 32 (xorAll
    [L.power_up_ready.put o.power_up_ready, L.ccs.put o.ccs, L.vdd_window.put o.vdd_window])

/-- `Pack(LAYOUT_SCR, rec)` (rule R266). -/
def packScr (L : ScrLayout) (c : SCR) : List Byte :=
  natBytes 8 (xorAll
    [L.scr_structure.put c.scr_structure, L.sd_spec.put c.sd_spec,
      L.data_stat_after_erase.put c.data_stat_after_erase, L.sd_security.put c.sd_security,
      L.sd_bus_widths.put c.sd_bus_widths, L.sd_spec3.put c.sd_spec3,
      L.ex_security.put c.ex_security, L.sd_spec4.put c.sd_spec4, L.sd_specx.put c.sd_specx,
      L.cmd_support.put c.cmd_support])

/-- `Pack(LAYOUT_SSR, rec)` (rule R266). -/
def packSsr (L : SsrLayout) (c : SSR) : List Byte :=
  natBytes 64 (xorAll
    [L.dat_bus_width.put c.dat_bus_width, L.secured_mode.put c.secured_mode,
      L.sd_card_type.put c.sd_card_type, L.size_of_protected_area.put c.size_of_protected_area,
      L.speed_class.put c.speed_class, L.performance_move.put c.performance_move,
      L.au_size.put c.au_size, L.erase_size.put c.erase_size, L.erase_timeout.put c.erase_timeout,
      L.erase_offset.put c.erase_offset])

end Sys2Proof
end

