-- ==== Sys2Proof/Machine/Response.lean ====
section
/-! DEFINITION. Command Transport (`41_command_transport.md`) and the Response Classifier
(`42_response_classifier.md`): the pieces every transaction is made of. -/

namespace Sys2Proof.Machine

/-- `IssueCommand(idx, arg)` (rule R143): build the frame, select, exchange its six bytes, discarding what is received. -/
def issueCommand (idx : BitVec 6) (arg : Word32) (s : State) : State :=
  let s := select (buildFrame idx arg s)
  atPhase (.pFrame 5) (xchgN s.frame s)

/-- The poll of rule R152 with `k` attempts left. -/
def pollLoop : Nat → State → State
  | 0, s => raise (.respTimeout (frameIdx s.frame)) s
  | k + 1, s =>
    let b := reply Config.filler s
    let s := xchg Config.filler s
    let s := atPhase (.pPoll (s.pollCnt.toNat + 1)) { s with pollCnt := s.pollCnt + 1 }
    if isStatus b then { s with r1 := b } else pollLoop k s

/-- `PollStatus()` (rule R152): at most eight exchanges; the first byte with bit 7 = 0 is the status byte. -/
def pollStatus (s : State) : State := pollLoop Config.respPollMax { s with pollCnt := 0 }

/-- `RespA()` (rule R153). -/
def respA (s : State) : State := pollStatus s

/-- The second byte of a Shape B response, read whatever its value (rule R154). -/
def secondByte (s : State) : State :=
  atPhase (.pExtra 0) { xchg Config.filler s with r2 := reply Config.filler s }

/-- `RespB()` (rule R154). -/
def respB (s : State) : State := (pollStatus s).andThen secondByte

/-- The four payload bytes of a Shape C/D response, big-endian (rule R155). -/
def payloadBytes (s : State) : State :=
  let out := List.replicate 4 Config.filler
  atPhase (.pExtra 3) { xchgN out s with payload := be32List (replies out s) }

/-- `RespCD()` (rule R155). -/
def respCD (s : State) : State := (pollStatus s).andThen payloadBytes

/-- The classifier operation of a shape (rule R150); a shape it does not have is UNIMPLEMENTED (rule R157). -/
def respShape (shape : Shape) (s : State) : State :=
  match shape with
  | .a => respA s
  | .b => respB s
  | .cd => respCD s
  | .other code => raise (.unimplemented (.shape code)) s

/-- A whole transaction with a Shape A response and no data phase (rule R158). -/
def transactA (idx : BitVec 6) (arg : Word32) (s : State) : State :=
  ((issueCommand idx arg s).andThen respA).andThen deselect

/-- A whole transaction with a Shape C/D response (rule R158). -/
def transactCD (idx : BitVec 6) (arg : Word32) (s : State) : State :=
  ((issueCommand idx arg s).andThen respCD).andThen deselect

/-- The prefix transaction, its response collected and ignored (rules R92, R179). -/
def prefixTransaction (s : State) : State := transactA 55 Config.zeroArg s

/-- IssueCommand (rule R143): returns with the transaction open. -/
def execIssueCommand (idx : BitVec 6) (arg : Word32) (s : State) : Host.Outcome State Fault Refusal :=
  live (fun s => deliver .done (issueCommand idx arg s)) s

/-- PollStatus (rule R152). -/
def execPollStatus (s : State) : Host.Outcome State Fault Refusal :=
  live (fun s => (pollStatus s).andThen fun s => deliver (.byte s.r1) s) s

/-- RespA (rule R153). -/
def execRespA (s : State) : Host.Outcome State Fault Refusal :=
  live (fun s => (respA s).andThen fun s => deliver (.byte s.r1) s) s

/-- RespB (rule R154). -/
def execRespB (s : State) : Host.Outcome State Fault Refusal :=
  live (fun s => (respB s).andThen fun s => deliver (.status2 s.r1 s.r2) s) s

/-- RespCD (rule R155). -/
def execRespCD (s : State) : Host.Outcome State Fault Refusal :=
  live (fun s => (respCD s).andThen fun s => deliver (.statusPayload s.r1 s.payload) s) s

end Sys2Proof.Machine
end

