-- ==== Sys2Proof/Machine/Block.lean ====
section
/-! DEFINITION. The Block Transfer Engine and the register fetch (`44_block_transfer.md`). The token wait and the busy
wait are unbounded loops (`60_exceptions.md` rule R330): one step of the machine makes one poll, and the machine stands in `State.waiting`
between two polls. -/

namespace Sys2Proof.Machine

/-- The status-byte test of a data command (rule R283), inside the transaction. -/
def checkR1 (idx : BitVec 6) (s : State) : State :=
  if s.cfg.r1Check && s.r1 != 0 then raise (.unexpectedStatus idx s.r1) s else s

/-- The data phase after the token (rule R203): `n` bytes into `buf`, then two bytes discarded. -/
def receiveBlock (n : Nat) (s : State) : State :=
  let data := replies (s.filler.take n) s
  let s := xchgN (s.filler.take n) s
  let s := atPhase (.pData (n - 1)) { s with buf := data ++ s.buf.drop n }
  atPhase (.pCrc 1) (xchgN (s.filler.take Config.blockCrcBytes) s)

/-- `sector_count <- ((c.c_size + SECTOR_COUNT_BIAS) x 1024)[31:0]` (rule R186). -/
def sectorCountOf (c : CSD) (bias : Nat) : BitVec 32 :=
  BitVec.ofNat 32 (((csdCapacity c).toNat + bias) * Config.capMult)

/-- Where the pseudocode goes on when a block has been received: its last `n` bytes are `buf[0..n-1]`. -/
def afterBlock (n : Nat) (k : AfterBlock) (s : State) : State :=
  let data := s.buf.take n
  match k with
  | .fetchOnly => complete (.bytes data) s
  | .dataPhase => complete (.bytes data) (deselect s)
  | .readSector => complete (.bytes data) (deselect s)
  | .readCid => complete (.cid (decodeCid s.cfg.layouts.cid data)) (deselect s)
  | .readCsd => complete (.csd (decodeCsd s.cfg.layouts.csd data)) (deselect s)
  | .readScr => complete (.scr (decodeScr s.cfg.layouts.scr data)) (deselect s)
  | .readSsr => complete (.ssr (decodeSsr s.cfg.layouts.ssr data)) (deselect s)
  | .initCsd =>
    complete .done { deselect s with sectorCount := sectorCountOf (decodeCsd s.cfg.layouts.csd data) s.cfg.sectorCountBias }

/-- What follows the start token: nothing, or the data block. -/
def afterToken (k : AfterToken) (s : State) : State :=
  match k with
  | .ret => complete .done s
  | .block n k => afterBlock n k (receiveBlock n s)

/-- `WaitToken()` after `n` polls (rule R202): one poll more. -/
def waitToken (n : Nat) (k : AfterToken) (s : State) : State :=
  let b := reply Config.filler s
  let s := atPhase .pToken (xchg Config.filler s)
  if b = s.cfg.startToken then afterToken k { s with waiting := none }
  else if s.cfg.tokenWaitMax = some (n + 1) then raise (.timeout .token) s
  else waitAt (.token (n + 1) k) s

/-- `SectorRead(index)` (rule R204), going on with `k`. -/
def sectorRead (k : AfterBlock) (index : Word32) (s : State) : State :=
  (((issueCommand 17 index s).andThen respA).andThen (checkR1 17)).andThen
    (waitToken 0 (.block Config.sectorBytes k))

/-- `RegRead(idx, shape, n)` (rule R212), going on with `k`; a shape the classifier does not have is refused before any
link event (rule R157). -/
def regRead (k : AfterBlock) (idx : BitVec 6) (shape : Shape) (n : Nat) (s : State) : State :=
  match shape with
  | .other code => raise (.unimplemented (.shape code)) s
  | _ =>
    (((issueCommand idx Config.zeroArg s).andThen (respShape shape)).andThen (checkR1 idx)).andThen
      (waitToken 0 (.block n k))

/-- A register read by an application command: the prefix transaction, then the fetch (rules R290, R291). -/
def appRegRead (k : AfterBlock) (idx : BitVec 6) (shape : Shape) (n : Nat) (s : State) : State :=
  (prefixTransaction s).andThen (regRead k idx shape n)

/-- The outbound block (rules R101, R208): gap, token, data, checksum field; then the acceptance byte. -/
def sendBlock (data : List Byte) (s : State) : State :=
  let s := atPhase .pGap (xchg Config.filler s)
  let s := atPhase .pWToken (xchg s.cfg.startToken s)
  let s := atPhase (.pWData (data.length - 1)) (xchgN data s)
  let s := atPhase (.pWCrc 1) (xchgN [s.cfg.writeCrc0, s.cfg.writeCrc1] s)
  atPhase .pWResp { xchg Config.filler s with wresp := reply Config.filler s }

/-- The acceptance test, after the busy wait and Deselect (rule R209). -/
def checkWresp (s : State) : State :=
  if s.cfg.wrespCheck && !writeAccepted s.wresp then raise (.writeRejected s.wresp) s else s

/-- The busy wait after `n` polls (rule R208): one poll more. -/
def busyWait (n : Nat) (s : State) : State :=
  let b := reply Config.filler s
  let s := atPhase .pBusy (xchg Config.filler s)
  if b = Config.filler then
    (checkWresp (deselect { s with waiting := none })).andThen (complete .done)
  else if s.cfg.busyWaitMax = some (n + 1) then raise (.timeout .busy) s
  else waitAt (.busy (n + 1)) s

/-- `SectorWrite(index, D)` (rule R208). -/
def sectorWrite (index : Word32) (data : List Byte) (s : State) : State :=
  ((((issueCommand 24 index s).andThen respA).andThen (checkR1 24)).andThen (sendBlock data)).andThen (busyWait 0)

/-- `EraseSector(index)` (rule R211). -/
def eraseSector (s : State) : State := raise (.unimplemented .erase) s

/-- A row that is no host operation and has a data phase: the sequencer is in `m` until it ends. DESIGN CHOICE (log entry 7):
the guard of REQUIRE_INIT is not asked, since rules R281 and R282 speak of the operations a host starts by their code, so a command
frame at the port (CMD17, CMD24, CMD9 and the others) runs also on an engine that is not initialized. -/
def rowOp (m : SeqState) (f : State → State) (s : State) : Host.Outcome State Fault Refusal :=
  live (fun s => f (enter m s)) s

/-- WaitToken (rule R202). DESIGN CHOICE (log entry 7): the row run alone stands in OP_REGREAD. Rule R202 is used by sector reads and by
register reads and names no state of its own. -/
def execWaitToken (s : State) : Host.Outcome State Fault Refusal := rowOp .opRegRead (waitToken 0 .ret) s

/-- FetchBlock (rule R203). DESIGN CHOICE (log entry 7): the row run alone stands in OP_REGREAD. Rule R203 is used by sector reads and by
register reads and names no state of its own. -/
def execFetchBlock (n : Nat) (s : State) : Host.Outcome State Fault Refusal :=
  rowOp .opRegRead (waitToken 0 (.block n .fetchOnly)) s

/-- SectorRead (rule R204). -/
def execSectorRead (index : Word32) (s : State) : Host.Outcome State Fault Refusal :=
  rowOp .opRead (sectorRead .dataPhase index) s

/-- SectorWrite (rule R208). -/
def execSectorWrite (index : Word32) (data : List Byte) (s : State) : Host.Outcome State Fault Refusal :=
  rowOp .opWrite (sectorWrite index data) s

/-- EraseSector (rule R211): the operand is ignored. -/
def execEraseSectorOp (_index : Word32) (s : State) : Host.Outcome State Fault Refusal := live eraseSector s

/-- RegRead (rule R212). -/
def execRegRead (idx : BitVec 6) (shape : Shape) (n : Nat) (s : State) : Host.Outcome State Fault Refusal :=
  rowOp .opRegRead (regRead .dataPhase idx shape n) s

end Sys2Proof.Machine
end

