-- ==== Sys2Proof/Machine/Init.lean ====
section
/-! DEFINITION. The Initialization State Machine (`43_init_fsm.md`). The activation loop is unbounded (rule R180): one
step of the machine runs one iteration. -/

namespace Sys2Proof.Machine

/-- State Reset (rule R172). -/
def initReset (s : State) : State :=
  delayMs Config.resetDelayMs (xchgN (List.replicate Config.resetFillerBytes Config.filler) (deselect (enter .iReset s)))

/-- State GoIdle: the transaction (rule R174) and the test (rule R175). -/
def goIdle (s : State) : State :=
  (transactA 0 Config.zeroArg (enter .iGoIdle s)).andThen fun s =>
    if s.r1 = 0x01#8 then s else raise (.unexpectedStatus 0 s.r1) s

/-- State SendInterfaceCondition: the transaction (rule R177) and the test (rule R178). -/
def sendIfCond (s : State) : State :=
  (transactCD 8 Config.checkArg (enter .iIfCond s)).andThen fun s =>
    if s.payload &&& Config.checkEchoMask = Config.checkArg then s else raise (.ifcondMismatch s.payload) s

/-- One iteration of ActivateInit (rule R179): the prefix transaction, then command 41. -/
def activateOnce (s : State) : State := (prefixTransaction s).andThen (transactA 41 Config.hcsArg)

/-- State ReadOperatingConditions (rule R182). -/
def readOcrState (s : State) : State :=
  (transactCD 58 Config.zeroArg (enter .iReadOcr s)).andThen fun s => { s with ocrRaw := s.payload }

/-- The byte-addressing path (rule R184): command 16 if INIT_CMD16_ISSUED, then the fault. -/
def byteAddressing (s : State) : State :=
  (if s.cfg.initCmd16Issued then transactA 16 Config.blocklenArg s else s).andThen fun s =>
    raise (.addressingUnsupported s.ocrRaw) s

/-- State Branch (rule R184). -/
def branch (s : State) : State :=
  let s := enter .iBranch s
  if (decodeOcr s.cfg.layouts.ocr s.ocrRaw).ccs = 1 then s else byteAddressing s

/-- State Terminal (rules R185, R186). -/
def terminal (s : State) : State :=
  let s := { enter .iTerminal s with initialized := true }
  if s.cfg.initFetchCsd then regRead .initCsd 9 .a 16 s else complete .done s

/-- The states after the activation loop (rule R171). -/
def afterActivate (s : State) : State := ((readOcrState s).andThen branch).andThen terminal

/-- State ActivateInit after `n` iterations (rule R180): one iteration more and the loop's test. -/
def activate (n : Nat) (s : State) : State :=
  (activateOnce (enter .iActivate { s with waiting := none })).andThen fun s =>
    if s.r1 = 0x00#8 then afterActivate s
    else if s.cfg.acmd41IterMax = some (n + 1) then raise (.timeout .acmd41) s
    else waitAt (.activate (n + 1)) (delayMs Config.acmd41DelayMs s)

/-- INIT (rule R187). -/
def runInit (s : State) : State := ((goIdle (initReset s)).andThen sendIfCond).andThen (activate 0)

/-- The next step of an operation that stands in an unbounded loop (rule R190 b). -/
def resume (w : Wait) (s : State) : State :=
  match w with
  | .token n k => waitToken n k s
  | .busy n => busyWait n s
  | .activate n => activate n s

end Sys2Proof.Machine
end

