-- ==== Sys2Proof/Machine/Commands.lean ====
section
/-! DEFINITION. The twelve command rows (`30_encoding.md` rule R90): each is that command's whole transaction with the
response shape and the data phase of its table row (`42_response_classifier.md` rule R158); an application command is the prefix
transaction and then its own (rules R92, R111). The tests of the state machine's states belong to INIT, not to the rows.
DESIGN CHOICE (log entry 7): no command row is under the guard of REQUIRE_INIT, of which rules R281 and R282 speak for the operations a
host starts by their code; a command frame taken at the port runs in mode uninitialized too. -/

namespace Sys2Proof.Machine

/-- CMD0 (rule R174). -/
def execCmd0 (s : State) : Host.Outcome State Fault Refusal :=
  live (fun s => (transactA 0 Config.zeroArg s).andThen fun s => deliver (.byte s.r1) s) s

/-- CMD8 (rule R177). -/
def execCmd8 (s : State) : Host.Outcome State Fault Refusal :=
  live (fun s => (transactCD 8 Config.checkArg s).andThen fun s => deliver (.statusPayload s.r1 s.payload) s) s

/-- CMD9 (rules R186, R287). -/
def execCmd9 (s : State) : Host.Outcome State Fault Refusal := rowOp .opRegRead (regRead .dataPhase 9 .a 16) s

/-- CMD10 (rule R286). -/
def execCmd10 (s : State) : Host.Outcome State Fault Refusal := rowOp .opRegRead (regRead .dataPhase 10 .a 16) s

/-- ACMD13 (rule R291). -/
def execAcmd13 (s : State) : Host.Outcome State Fault Refusal := rowOp .opRegRead (appRegRead .dataPhase 13 .b 64) s

/-- CMD16 (rule R184). -/
def execCmd16 (s : State) : Host.Outcome State Fault Refusal :=
  live (fun s => (transactA 16 Config.blocklenArg s).andThen fun s => deliver (.byte s.r1) s) s

/-- CMD17 (rule R204). -/
def execCmd17 (index : Word32) (s : State) : Host.Outcome State Fault Refusal :=
  rowOp .opRead (sectorRead .dataPhase index) s

/-- CMD24 (rule R208): the data is the latched `wdata`. -/
def execCmd24 (index : Word32) (s : State) : Host.Outcome State Fault Refusal :=
  rowOp .opWrite (fun s => sectorWrite index s.wdata s) s

/-- ACMD41 (rule R179). -/
def execAcmd41 (s : State) : Host.Outcome State Fault Refusal :=
  live (fun s => (activateOnce s).andThen fun s => deliver (.byte s.r1) s) s

/-- ACMD51 (rule R290). -/
def execAcmd51 (s : State) : Host.Outcome State Fault Refusal := rowOp .opRegRead (appRegRead .dataPhase 51 .a 8) s

/-- CMD55 (rule R179). -/
def execCmd55 (s : State) : Host.Outcome State Fault Refusal :=
  live (fun s => (prefixTransaction s).andThen fun s => deliver (.byte s.r1) s) s

/-- CMD58 (rules R182, R289). -/
def execCmd58 (s : State) : Host.Outcome State Fault Refusal :=
  live (fun s => (transactCD 58 Config.zeroArg s).andThen fun s => deliver (.statusPayload s.r1 s.payload) s) s

end Sys2Proof.Machine
end

