-- ==== Sys2Proof/Machine/HostOps.lean ====
section
/-! DEFINITION. The host operations (`46_host_operations.md`): the dispatch of rule R281 and the sixteen operation
codes. -/

namespace Sys2Proof.Machine

/-- Steps 4 and 5 of the dispatch (rule R281) for an operation with code `code`; a request while an operation runs is refused
(rule R294). An operation that reaches them is started, so its request is latched (rules R26, R280), `latch` its operands, also when
the guard of rule R282 then ends it (rule R301, code 6: "was started"). -/
def startOp (code : BitVec 4) (latch body : State → State) (s : State) : State :=
  if s.busy then s
  else
    let s := latch { s with op := code }
    if code != 0 && s.cfg.requireInit && !s.initialized then raise (.notInitialized code) s else body s

/-- Steps 2 and 3 of the dispatch (rule R281): an operation that is not implemented. It starts nothing and changes nothing but
the fault latch (rules R211, R293), so its request is not latched. -/
def rejectOp (what : Unimplemented) (s : State) : State := if s.busy then s else raise (.unimplemented what) s

/-- INIT (rule R288). -/
def execInit (s : State) : Host.Outcome State Fault Refusal := live (startOp 0 id runInit) s

/-- READ_SECTOR (rule R284). -/
def execReadSector (index : Word32) (s : State) : Host.Outcome State Fault Refusal :=
  live (startOp 1 (fun s => { s with opArg := index }) fun s => sectorRead .readSector s.opArg (enter .opRead s)) s

/-- WRITE_SECTOR (rule R285). -/
def execWriteSector (index : Word32) (data : List Byte) (s : State) : Host.Outcome State Fault Refusal :=
  live (startOp 2 (fun s => { s with opArg := index, wdata := data }) fun s =>
    sectorWrite s.opArg s.wdata (enter .opWrite s)) s

/-- ERASE_SECTOR (rule R292): the operand is ignored. -/
def execEraseSector (_index : Word32) (s : State) : Host.Outcome State Fault Refusal := live (rejectOp .erase) s

/-- READ_CID (rule R286). -/
def execReadCid (s : State) : Host.Outcome State Fault Refusal :=
  live (startOp 4 id fun s => regRead .readCid 10 .a 16 (enter .opRegRead s)) s

/-- READ_CSD (rule R287). -/
def execReadCsd (s : State) : Host.Outcome State Fault Refusal :=
  live (startOp 5 id fun s => regRead .readCsd 9 .a 16 (enter .opRegRead s)) s

/-- READ_OCR (rule R289): no data phase, and `ocr_raw` is not written. -/
def execReadOcr (s : State) : Host.Outcome State Fault Refusal :=
  live (startOp 6 id fun s =>
    (transactCD 58 Config.zeroArg (enter .opRegRead s)).andThen fun s => complete (.ocr (decodeOcr s.cfg.layouts.ocr s.payload)) s) s

/-- READ_SCR (rule R290). -/
def execReadScr (s : State) : Host.Outcome State Fault Refusal :=
  live (startOp 7 id fun s => appRegRead .readScr 51 .a 8 (enter .opRegRead s)) s

/-- READ_SSR (rule R291). -/
def execReadSsr (s : State) : Host.Outcome State Fault Refusal :=
  live (startOp 8 id fun s => appRegRead .readSsr 13 .b 64 (enter .opRegRead s)) s

/-- Operation code 9 (rule R293). -/
def execReserved9 (s : State) : Host.Outcome State Fault Refusal := live (rejectOp (.opCode 9)) s
/-- Operation code 10 (rule R293). -/
def execReserved10 (s : State) : Host.Outcome State Fault Refusal := live (rejectOp (.opCode 10)) s
/-- Operation code 11 (rule R293). -/
def execReserved11 (s : State) : Host.Outcome State Fault Refusal := live (rejectOp (.opCode 11)) s
/-- Operation code 12 (rule R293). -/
def execReserved12 (s : State) : Host.Outcome State Fault Refusal := live (rejectOp (.opCode 12)) s
/-- Operation code 13 (rule R293). -/
def execReserved13 (s : State) : Host.Outcome State Fault Refusal := live (rejectOp (.opCode 13)) s
/-- Operation code 14 (rule R293). -/
def execReserved14 (s : State) : Host.Outcome State Fault Refusal := live (rejectOp (.opCode 14)) s
/-- Operation code 15 (rule R293). -/
def execReserved15 (s : State) : Host.Outcome State Fault Refusal := live (rejectOp (.opCode 15)) s

end Sys2Proof.Machine
end

