-- ==== Sys2Proof/Machine/Link.lean ====
section
/-! DEFINITION. The rows of the link primitives (`60_exceptions.md` rules R321 to R323). -/

namespace Sys2Proof.Machine

/-- Select (rule R321): no return value. -/
def execSelect (s : State) : Host.Outcome State Fault Refusal := live (fun s => deliver .done (select s)) s

/-- Deselect (rule R321): no return value. -/
def execDeselect (s : State) : Host.Outcome State Fault Refusal := live (fun s => deliver .done (deselect s)) s

/-- Xchg (rule R322): returns the byte received. -/
def execXchg (t : Byte) (s : State) : Host.Outcome State Fault Refusal :=
  live (fun s => deliver (.byte (reply t s)) (xchg t s)) s

/-- DelayMs (rule R323): no return value. -/
def execDelayMs (n : Nat) (s : State) : Host.Outcome State Fault Refusal := live (fun s => deliver .done (delayMs n s)) s

end Sys2Proof.Machine
end

