-- ==== Sys2Proof/Machine/Received.lean ====
section
/-! DEFINITION. The received formats (`30_encoding.md` rules R95, R96, R97, R102, R103): what happens when the card sends
one. The card answers the engine's next exchanges with the format's bytes and the engine makes the exchanges that receive it.
The engine receives nothing of a response or a data phase while the card is not selected (`10_state.md` rule R23). -/

namespace Sys2Proof.Machine

/-- The card sends `bytes` and the engine receives them by `f`, if the card is selected (rules R23, R151). -/
def receive (bytes : List Byte) (f : State → State) (s : State) : State := if s.cs then f (feed bytes s) else s

/-- RESP_A (rule R95), received by RespA. -/
def execRespFormatA (flags : BitVec 7) (s : State) : Host.Outcome State Fault Refusal :=
  live (receive [statusByte flags] fun s => (respA s).andThen fun s => deliver (.byte s.r1) s) s

/-- RESP_B (rule R96), received by RespB. -/
def execRespFormatB (flags : BitVec 7) (second : Byte) (s : State) : Host.Outcome State Fault Refusal :=
  live (receive [statusByte flags, second] fun s => (respB s).andThen fun s => deliver (.status2 s.r1 s.r2) s) s

/-- RESP_CD (rule R97), received by RespCD. -/
def execRespFormatCD (flags : BitVec 7) (payload : Word32) (s : State) : Host.Outcome State Fault Refusal :=
  live (receive (statusByte flags :: be32bytes payload) fun s =>
    (respCD s).andThen fun s => deliver (.statusPayload s.r1 s.payload) s) s

/-- START_TOKEN (rule R102), received by the token wait that is running, or by one poll of WaitToken. -/
def execStartToken (s : State) : Host.Outcome State Fault Refusal :=
  live (fun s => receive [s.cfg.startToken] (fun s =>
    match s.waiting with
    | some (.token n k) => waitToken n k s
    | _ => deliver .done (atPhase .pToken (xchg Config.filler s))) s) s

/-- DRESP (rule R103), received by the exchange that latches `wresp` (rule R208). -/
def execDresp (code : Byte) (s : State) : Host.Outcome State Fault Refusal :=
  live (receive [code] fun s =>
    deliver (.byte code) (atPhase .pWResp { xchg Config.filler s with wresp := reply Config.filler s })) s

end Sys2Proof.Machine
end

