-- ==== Sys2Proof/Machine/Registers.lean ====
section
/-! DEFINITION. The rows of the Register Decoder (`45_register_decoder.md` rule R230): each returns its record and writes no
engine state. -/

namespace Sys2Proof.Machine

/-- DecodeCID (rule R232). -/
def execDecodeCid (raw : List Byte) (s : State) : Host.Outcome State Fault Refusal :=
  live (fun s => deliver (.cid (decodeCid s.cfg.layouts.cid raw)) s) s

/-- DecodeCSD (rule R240). -/
def execDecodeCsd (raw : List Byte) (s : State) : Host.Outcome State Fault Refusal :=
  live (fun s => deliver (.csd (decodeCsd s.cfg.layouts.csd raw)) s) s

/-- DecodeOCR (rule R250). -/
def execDecodeOcr (value : Word32) (s : State) : Host.Outcome State Fault Refusal :=
  live (fun s => deliver (.ocr (decodeOcr s.cfg.layouts.ocr value)) s) s

/-- DecodeSCR (rule R255). -/
def execDecodeScr (raw : List Byte) (s : State) : Host.Outcome State Fault Refusal :=
  live (fun s => deliver (.scr (decodeScr s.cfg.layouts.scr raw)) s) s

/-- DecodeSSR (rule R260). -/
def execDecodeSsr (raw : List Byte) (s : State) : Host.Outcome State Fault Refusal :=
  live (fun s => deliver (.ssr (decodeSsr s.cfg.layouts.ssr raw)) s) s

end Sys2Proof.Machine
end

