-- ==== Sys2Proof/Machine/Dispatch.lean ====
section
/-! DEFINITION. The dispatch of an instruction to its meaning: one arm per constructor of `Instr`. -/

namespace Sys2Proof.Machine

/-- The meaning of an instruction. -/
def exec (i : Instr) (s : State) : Host.Outcome State Fault Refusal :=
  match i with
  | .cmd0 => Sys2Proof.Machine.execCmd0 s
  | .cmd8 => Sys2Proof.Machine.execCmd8 s
  | .cmd9 => Sys2Proof.Machine.execCmd9 s
  | .cmd10 => Sys2Proof.Machine.execCmd10 s
  | .acmd13 => Sys2Proof.Machine.execAcmd13 s
  | .cmd16 => Sys2Proof.Machine.execCmd16 s
  | .cmd17 index => Sys2Proof.Machine.execCmd17 index s
  | .cmd24 index => Sys2Proof.Machine.execCmd24 index s
  | .acmd41 => Sys2Proof.Machine.execAcmd41 s
  | .acmd51 => Sys2Proof.Machine.execAcmd51 s
  | .cmd55 => Sys2Proof.Machine.execCmd55 s
  | .cmd58 => Sys2Proof.Machine.execCmd58 s
  | .init => Sys2Proof.Machine.execInit s
  | .readSector index => Sys2Proof.Machine.execReadSector index s
  | .writeSector index data => Sys2Proof.Machine.execWriteSector index data s
  | .eraseSector index => Sys2Proof.Machine.execEraseSector index s
  | .readCid => Sys2Proof.Machine.execReadCid s
  | .readCsd => Sys2Proof.Machine.execReadCsd s
  | .readOcr => Sys2Proof.Machine.execReadOcr s
  | .readScr => Sys2Proof.Machine.execReadScr s
  | .readSsr => Sys2Proof.Machine.execReadSsr s
  | .reserved9 => Sys2Proof.Machine.execReserved9 s
  | .reserved10 => Sys2Proof.Machine.execReserved10 s
  | .reserved11 => Sys2Proof.Machine.execReserved11 s
  | .reserved12 => Sys2Proof.Machine.execReserved12 s
  | .reserved13 => Sys2Proof.Machine.execReserved13 s
  | .reserved14 => Sys2Proof.Machine.execReserved14 s
  | .reserved15 => Sys2Proof.Machine.execReserved15 s
  | .crc7 bytes => Sys2Proof.Machine.execCrc7 bytes s
  | .crcByte bytes => Sys2Proof.Machine.execCrcByte bytes s
  | .frame idx arg => Sys2Proof.Machine.execFrame idx arg s
  | .issueCommand idx arg => Sys2Proof.Machine.execIssueCommand idx arg s
  | .pollStatus => Sys2Proof.Machine.execPollStatus s
  | .respA => Sys2Proof.Machine.execRespA s
  | .respB => Sys2Proof.Machine.execRespB s
  | .respCD => Sys2Proof.Machine.execRespCD s
  | .waitToken => Sys2Proof.Machine.execWaitToken s
  | .fetchBlock n => Sys2Proof.Machine.execFetchBlock n s
  | .sectorRead index => Sys2Proof.Machine.execSectorRead index s
  | .sectorWrite index data => Sys2Proof.Machine.execSectorWrite index data s
  | .eraseSectorOp index => Sys2Proof.Machine.execEraseSectorOp index s
  | .regRead idx shape n => Sys2Proof.Machine.execRegRead idx shape n s
  | .decodeCid raw => Sys2Proof.Machine.execDecodeCid raw s
  | .decodeCsd raw => Sys2Proof.Machine.execDecodeCsd raw s
  | .decodeOcr value => Sys2Proof.Machine.execDecodeOcr value s
  | .decodeScr raw => Sys2Proof.Machine.execDecodeScr raw s
  | .decodeSsr raw => Sys2Proof.Machine.execDecodeSsr raw s
  | .select => Sys2Proof.Machine.execSelect s
  | .deselect => Sys2Proof.Machine.execDeselect s
  | .xchg t => Sys2Proof.Machine.execXchg t s
  | .delayMs n => Sys2Proof.Machine.execDelayMs n s
  | .respFormatA flags => Sys2Proof.Machine.execRespFormatA flags s
  | .respFormatB flags second => Sys2Proof.Machine.execRespFormatB flags second s
  | .respFormatCD flags payload => Sys2Proof.Machine.execRespFormatCD flags payload s
  | .startToken => Sys2Proof.Machine.execStartToken s
  | .dresp code => Sys2Proof.Machine.execDresp code s

end Sys2Proof.Machine
end

