-- ==== Sys2Proof/Machine/Step.lean ====
section
/-! DEFINITION. One step of the machine. The engine fetches no instructions from a memory (`20_memory.md` rule R63): the
next instruction is the word at the request port, taken in IDLE (`46_host_operations.md` rule R280). -/

namespace Sys2Proof.Machine

/-- One step. The reset event may come at any time and is the only way out of FAULT (rules R313, R340). In FAULT nothing
happens, and a request starts nothing (rule R311). In the middle of an operation the operation goes on, and a request made
meanwhile is refused (rule R294). Otherwise the word at the port, if there is one, is taken, decoded and run; with none
the engine waits in IDLE (rule R326). -/
def step (s : State) : Host.Outcome State Fault Refusal :=
  if s.resetRequest then .next (applyReset s)
  else
    match s.fault with
    | some _ => .next { s with port := none }
    | none =>
      match s.waiting with
      | some w => .next (resume w { s with port := none })
      | none =>
        match s.port with
        | none => .next s
        | some p =>
          match decode s.cfg p with
          | .ok i => exec i { s with port := none }
          | .error e => .refused (.undecodable e)

/-- `s` with a word of the opcode table at the request port and no reset event; an operation that stands in a wait is taken
out of the way, since the port is read in IDLE only. -/
def State.withFetchWord (s : State) (nbits w : Nat) : State :=
  let s := { s with resetRequest := false, port := tableWord s.cfg nbits w }
  if s.waiting.isSome then { s with waiting := none, seq := ⟨.idle, none⟩ } else s

end Sys2Proof.Machine
end

