-- ==== Sys2Proof/Machine/Sequencer.lean ====
section
/-! DEFINITION. The sequencer one advance at a time (`10_state.md` rule R24): "`seq` advances only as the pseudocode of the operation
rules says, each `;` in the pseudocode being one advance, each loop a transfer back to the loop head". An operation is the list of its
advances. Every statement of the pseudocode is an advance of its own, be it followed by a `;` or by the end of its line: an exchange,
with its position; a write of a register or of a loop's count; a test, which chooses what follows; a transfer `seq <- X`; a transfer
back to a loop's head. A step of the machine (`Machine/Step.lean`) is the run of such a list to its end.

DESIGN CHOICE (log entry 3): a `return` from one operation to the next and an assignment to a name of the pseudocode that no register
holds are part of the advance they stand beside, and the count `n` of an unbounded loop stands in `State.waiting`. The advances that no
pseudocode has are the model's own: those of the dispatch, of a received format's arrival, of the entry into OP_READ, OP_WRITE and
OP_REGREAD, of leaving a transaction, of the return to IDLE and of a row's answer.
DESIGN CHOICE (log entry 27): the position of a byte is held from the byte's own exchange on. -/

namespace Sys2Proof.Machine

/-- One advance: its effect, and the advances it puts before those that follow, chosen in the state it starts from: what a
conditional skips to, the next turn of a loop, or the rest of an exchange that goes on with the byte received. -/
inductive Advance
  | mk (effect : State → State) (more : State → List Advance)

/-- Where the engine is: its state and the advances still to make. -/
structure Position where
  state : State
  todo : List Advance

/-- One advance. Nothing follows a `raise` (rule R308). -/
def Position.advance (p : Position) : Position :=
  match p.todo with
  | [] => p
  | .mk effect more :: rest =>
    let s := effect p.state
    ⟨s, if s.fault.isSome then [] else more p.state ++ rest⟩

/-- A statement of the pseudocode without a transfer. -/
def act (f : State → State) : Advance := .mk f fun _ => []

/-- A transfer: the advances that follow depend on the state. -/
def transfer (f : State → List Advance) : Advance := .mk id f

/-- `XchgN`, byte by byte from position `k`: the exchanges of `ts`, then what is done with the bytes received (rule R322).
DESIGN CHOICE (log entry 27): rule R24 says of the phase that it is "the byte position inside the current transaction", and leaves open
whether it names the byte about to be exchanged or the one just exchanged. Here the phase of byte `k` is set together with the
exchange of byte `k`: it names the byte just exchanged, and until the first exchange the phase is the one held before. -/
def exchanges (at_ : Nat → Phase) (k : Nat) (ts got : List Byte) (next : List Byte → List Advance) : List Advance :=
  match ts with
  | [] => next got
  | t :: ts => [.mk (fun s => atPhase (at_ k) (xchg t s)) fun s => exchanges at_ (k + 1) ts (got ++ [reply t s]) next]

/-- `XchgN` of a byte string that is read from the state when its first byte is exchanged, otherwise as `exchanges`. An empty string,
which no rule has, is one advance without effect (log entry 20). -/
def exchangesOf (at_ : Nat → Phase) (ts : State → List Byte) (next : List Byte → List Advance) : List Advance :=
  [.mk
    (fun s =>
      match ts s with
      | [] => s
      | t :: _ => atPhase (at_ 0) (xchg t s))
    fun s =>
      match ts s with
      | [] => next []
      | t :: ts => exchanges at_ 1 ts [reply t s] next]

/-- `Deselect()` (rule R321) as the end of a transaction, and the advance that leaves the transaction, after which `seq` has no phase
(log entry 27). -/
def deselectSeq : List Advance := [act requestDeselect, act leaveTransaction]

/-- One message bit through the register `crc` (rule R122): the shift, then the conditional exclusive-or, which the feedback taken
before the shift selects. -/
def crcBitSeq (d : Bool) : List Advance :=
  [.mk (fun s => { s with crc := s.crc <<< 1 }) fun s =>
    [act fun t => if d ^^ s.crc.msb then { t with crc := t.crc ^^^ Config.crc7Poly } else t]]

/-- `CRC7(B)` bit by bit (rule R122). -/
def crcSeq (bytes : List Byte) : List Advance :=
  act (fun s => { s with crc := 0 }) :: (messageBits bytes).flatMap crcBitSeq

/-- `Frame(idx, arg)` (rule R141). -/
def frameSeq (idx : BitVec 6) (arg : Word32) : List Advance :=
  crcSeq (frameBody idx arg) ++ [act fun s => { s with frame := frameBytes idx arg }]

/-- `IssueCommand(idx, arg)` (rule R143). -/
def issueCommandSeq (idx : BitVec 6) (arg : Word32) : List Advance :=
  frameSeq idx arg ++ [act select] ++ exchanges .pFrame 0 (frameBytes idx arg) [] fun _ => []

/-- The loop of the status poll with `k` attempts left (rule R152): the exchange, the count, the test for a status byte, and
otherwise the test of the bound, from which the sequencer is back at the loop's head while an attempt is left. -/
def pollSeq : Nat → List Advance
  | 0 => [act fun s => raise (.respTimeout (frameIdx s.frame)) s]
  | k + 1 =>
    [.mk (fun s => atPhase (.pPoll (s.pollCnt.toNat + 1)) (xchg Config.filler s)) fun s =>
      let b := reply Config.filler s
      [act fun s => { s with pollCnt := s.pollCnt + 1 },
        transfer fun _ => if isStatus b then [act fun s => { s with r1 := b }] else [transfer fun _ => pollSeq k]]]

/-- `PollStatus()` (rule R152), and `RespA()` (rule R153). -/
def pollStatusSeq : List Advance := act (fun s => { s with pollCnt := 0 }) :: pollSeq Config.respPollMax

/-- `RespB()` (rule R154). -/
def respBSeq : List Advance := pollStatusSeq ++ [act secondByte]

/-- `RespCD()` (rule R155). -/
def respCDSeq : List Advance :=
  pollStatusSeq ++ exchanges .pExtra 0 (List.replicate 4 Config.filler) [] fun e => [act fun s => { s with payload := be32List e }]

/-- The classifier operation of a shape (rules R150, R157). -/
def respShapeSeq : Shape → List Advance
  | .a => pollStatusSeq
  | .b => respBSeq
  | .cd => respCDSeq
  | .other code => [act (raise (.unimplemented (.shape code)))]

/-- A whole transaction with a Shape A response (rule R158). -/
def transactASeq (idx : BitVec 6) (arg : Word32) : List Advance := issueCommandSeq idx arg ++ pollStatusSeq ++ deselectSeq

/-- A whole transaction with a Shape C/D response (rule R158). -/
def transactCDSeq (idx : BitVec 6) (arg : Word32) : List Advance := issueCommandSeq idx arg ++ respCDSeq ++ deselectSeq

/-- The data phase after the token (rule R203). -/
def receiveBlockSeq (n : Nat) : List Advance :=
  (exchangesOf .pData (fun s => s.filler.take n) fun data => [act fun s => { s with buf := data ++ s.buf.drop n }]) ++
    exchangesOf .pCrc (fun s => s.filler.take Config.blockCrcBytes) fun _ => []

/-- What follows a block (rules R203, R204, R212, R186). -/
def afterBlockSeq (n : Nat) : AfterBlock → List Advance
  | .fetchOnly => [act fun s => complete (.bytes (s.buf.take n)) s]
  | .dataPhase | .readSector => deselectSeq ++ [act fun s => complete (.bytes (s.buf.take n)) s]
  | .readCid => deselectSeq ++ [act fun s => complete (.cid (decodeCid s.cfg.layouts.cid (s.buf.take n))) s]
  | .readCsd => deselectSeq ++ [act fun s => complete (.csd (decodeCsd s.cfg.layouts.csd (s.buf.take n))) s]
  | .readScr => deselectSeq ++ [act fun s => complete (.scr (decodeScr s.cfg.layouts.scr (s.buf.take n))) s]
  | .readSsr => deselectSeq ++ [act fun s => complete (.ssr (decodeSsr s.cfg.layouts.ssr (s.buf.take n))) s]
  | .initCsd =>
    deselectSeq ++
      [act fun s =>
          { s with sectorCount := sectorCountOf (decodeCsd s.cfg.layouts.csd (s.buf.take n)) s.cfg.sectorCountBias },
        act (complete .done)]

/-- What follows the start token. -/
def afterTokenSeq : AfterToken → List Advance
  | .ret => [act (complete .done)]
  | .block n k => receiveBlockSeq n ++ afterBlockSeq n k

/-- `exit loop`: the loop's count is no longer held. -/
def leaveLoop (s : State) : State := { s with waiting := none }

/-- The test of a loop's bound: it raises TIMEOUT at the bound (rule R301, code 7). -/
def boundTest (bound : State → Option Nat) (n : Nat) (loop : LoopName) : Advance :=
  act fun s => if bound s = some n then raise (.timeout loop) s else s

/-- The end of a turn of an unbounded loop, its transfer back to the head (rule R190 b): the step ends here, and the next one
starts at the loop's head (`resumeSeq`). -/
def backToHead : Advance := transfer fun _ => []

/-- The token wait from its loop's head, after `n` polls (rule R202): the exchange, the count, the test for the token, the test of
the bound, the transfer back. -/
def waitTokenSeq (n : Nat) (k : AfterToken) : List Advance :=
  [.mk (fun s => atPhase .pToken (xchg Config.filler s)) fun s =>
    let b := reply Config.filler s
    [act (waitAt (.token (n + 1) k)),
      transfer fun s =>
        if b = s.cfg.startToken then act leaveLoop :: afterTokenSeq k
        else [boundTest (·.cfg.tokenWaitMax) (n + 1) .token, backToHead]]]

/-- `WaitToken()` (rule R202), from its `n <- 0`. -/
def tokenSeq (k : AfterToken) : List Advance := act (waitAt (.token 0 k)) :: waitTokenSeq 0 k

/-- A data command up to its status-byte test (rules R204, R208, R212). -/
def openedSeq (idx : BitVec 6) (arg : Word32) (shape : Shape) : List Advance :=
  issueCommandSeq idx arg ++ respShapeSeq shape ++ [act (checkR1 idx)]

/-- `SectorRead(index)` (rule R204). -/
def sectorReadSeq (k : AfterBlock) (index : Word32) : List Advance :=
  openedSeq 17 index .a ++ tokenSeq (.block Config.sectorBytes k)

/-- `RegRead(idx, shape, n)` (rules R157, R212). -/
def regReadSeq (k : AfterBlock) (idx : BitVec 6) (shape : Shape) (n : Nat) : List Advance :=
  match shape with
  | .other code => [act (raise (.unimplemented (.shape code)))]
  | _ => openedSeq idx Config.zeroArg shape ++ tokenSeq (.block n k)

/-- The prefix transaction (rules R92, R179). -/
def prefixSeq : List Advance := transactASeq 55 Config.zeroArg

/-- A register read by an application command (rules R290, R291). -/
def appRegReadSeq (k : AfterBlock) (idx : BitVec 6) (shape : Shape) (n : Nat) : List Advance :=
  prefixSeq ++ regReadSeq k idx shape n

/-- The outbound block (rules R101, R208). -/
def sendBlockSeq (data : List Byte) : List Advance :=
  [act fun s => atPhase .pGap (xchg Config.filler s),
    act fun s => atPhase .pWToken (xchg s.cfg.startToken s)] ++
  exchanges .pWData 0 data [] (fun _ => []) ++
  exchangesOf .pWCrc (fun s => [s.cfg.writeCrc0, s.cfg.writeCrc1]) (fun _ => []) ++
  [act fun s => atPhase .pWResp { xchg Config.filler s with wresp := reply Config.filler s }]

/-- The busy wait from its loop's head, after `n` polls (rule R208), and the write's end (rule R209). -/
def busyWaitSeq (n : Nat) : List Advance :=
  [.mk (fun s => atPhase .pBusy (xchg Config.filler s)) fun s =>
    let b := reply Config.filler s
    [act (waitAt (.busy (n + 1))),
      transfer fun _ =>
        if b = Config.filler then act leaveLoop :: deselectSeq ++ [act checkWresp, act (complete .done)]
        else [boundTest (·.cfg.busyWaitMax) (n + 1) .busy, backToHead]]]

/-- `SectorWrite(index, D)` (rule R208). -/
def sectorWriteSeq (index : Word32) (data : List Byte) : List Advance :=
  openedSeq 24 index .a ++ sendBlockSeq data ++ act (waitAt (.busy 0)) :: busyWaitSeq 0

/-- State Reset (rule R172): its `Deselect()` ends no transaction. -/
def initResetSeq : List Advance :=
  [act requestDeselect] ++ List.replicate Config.resetFillerBytes (act (xchg Config.filler)) ++ [act (delayMs Config.resetDelayMs)]

/-- State GoIdle (rules R174, R175). -/
def goIdleSeq : List Advance :=
  transactASeq 0 Config.zeroArg ++ [act fun s => if s.r1 = 0x01#8 then s else raise (.unexpectedStatus 0 s.r1) s]

/-- State SendInterfaceCondition (rules R177, R178). -/
def sendIfCondSeq : List Advance :=
  transactCDSeq 8 Config.checkArg ++
    [act fun s => if s.payload &&& Config.checkEchoMask = Config.checkArg then s else raise (.ifcondMismatch s.payload) s]

/-- State ReadOperatingConditions (rule R182). -/
def readOcrSeq : List Advance := transactCDSeq 58 Config.zeroArg ++ [act fun s => { s with ocrRaw := s.payload }]

/-- The byte-addressing path (rule R184). -/
def byteAddressingSeq : List Advance :=
  [transfer fun s => if s.cfg.initCmd16Issued then transactASeq 16 Config.blocklenArg else [],
    act fun s => raise (.addressingUnsupported s.ocrRaw) s]

/-- State Branch (rule R184), with its transfer to Terminal. -/
def branchSeq : List Advance :=
  [transfer fun s => if (decodeOcr s.cfg.layouts.ocr s.ocrRaw).ccs = 1 then [act (enter .iTerminal)] else byteAddressingSeq]

/-- State Terminal (rules R185, R186). -/
def terminalSeq : List Advance :=
  [act fun s => { s with initialized := true },
    transfer fun s => if s.cfg.initFetchCsd then regReadSeq .initCsd 9 .a 16 else [act (complete .done)]]

/-- The states after the activation loop (rule R171). -/
def afterActivateSeq : List Advance := readOcrSeq ++ (act (enter .iBranch) :: branchSeq ++ terminalSeq)

/-- ActivateInit from its loop's head, after `n` iterations (rules R179, R180): the two transactions, the count, the test of the status
byte, the test of the bound, the delay, the transfer back. -/
def activateSeq (n : Nat) : List Advance :=
  prefixSeq ++ transactASeq 41 Config.hcsArg ++
    [act (waitAt (.activate (n + 1))),
      transfer fun s =>
        if s.r1 = 0x00#8 then act (enter .iReadOcr) :: act leaveLoop :: afterActivateSeq
        else [boundTest (·.cfg.acmd41IterMax) (n + 1) .acmd41, act (delayMs Config.acmd41DelayMs), backToHead]]

/-- INIT (rules R171, R187). -/
def initSeq : List Advance :=
  act (enter .iReset) :: initResetSeq ++ act (enter .iGoIdle) :: goIdleSeq ++ act (enter .iIfCond) :: sendIfCondSeq ++
    act (enter .iActivate) :: act (waitAt (.activate 0)) :: activateSeq 0

/-- The next turn of the loop an operation stands in (rule R190 b); of the activation loop "`I_ACTIVATE` again" (rule R171). -/
def resumeSeq : Wait → List Advance
  | .token n k => waitTokenSeq n k
  | .busy n => busyWaitSeq n
  | .activate n => act (enter .iActivate) :: activateSeq n

/-- The dispatch of a host operation (rules R281, R294): the test of `busy`, the latch (rule R26), the guard, and after it the body.
DESIGN CHOICE (log entry 3): that these three are the dispatch's advances; the tests of the fault latch and of the operation code are
part of the choice of the instruction (`Position.start`). -/
def startOpSeq (code : BitVec 4) (latch : State → State) (body : State → List Advance) : List Advance :=
  [transfer fun s =>
    if s.busy then []
    else
      [act fun s => latch { s with op := code },
        .mk (fun s => if code != 0 && s.cfg.requireInit && !s.initialized then raise (.notInitialized code) s else s) body]]

/-- The bytes of a received format and the advances that receive them (rules R23, R151). DESIGN CHOICE (log entries 3, 6): the test of
`cs` and the arrival of the bytes are advances of their own. -/
def receiveSeq (bytes : State → List Byte) (body : State → List Advance) : List Advance :=
  [transfer fun s => if s.cs then act (fun s => feed (bytes s) s) :: body s else []]

/-- The advances of an instruction. -/
def sequence : Instr → List Advance
  | .cmd0 => transactASeq 0 Config.zeroArg ++ [act fun s => deliver (.byte s.r1) s]
  | .cmd8 => transactCDSeq 8 Config.checkArg ++ [act fun s => deliver (.statusPayload s.r1 s.payload) s]
  | .cmd9 => act (enter .opRegRead) :: regReadSeq .dataPhase 9 .a 16
  | .cmd10 => act (enter .opRegRead) :: regReadSeq .dataPhase 10 .a 16
  | .acmd13 => act (enter .opRegRead) :: appRegReadSeq .dataPhase 13 .b 64
  | .cmd16 => transactASeq 16 Config.blocklenArg ++ [act fun s => deliver (.byte s.r1) s]
  | .cmd17 index => act (enter .opRead) :: sectorReadSeq .dataPhase index
  | .cmd24 index => [.mk (enter .opWrite) fun s => sectorWriteSeq index s.wdata]
  | .acmd41 => prefixSeq ++ transactASeq 41 Config.hcsArg ++ [act fun s => deliver (.byte s.r1) s]
  | .acmd51 => act (enter .opRegRead) :: appRegReadSeq .dataPhase 51 .a 8
  | .cmd55 => prefixSeq ++ [act fun s => deliver (.byte s.r1) s]
  | .cmd58 => transactCDSeq 58 Config.zeroArg ++ [act fun s => deliver (.statusPayload s.r1 s.payload) s]
  | .init => startOpSeq 0 id fun _ => initSeq
  | .readSector index =>
    startOpSeq 1 (fun s => { s with opArg := index }) fun s => act (enter .opRead) :: sectorReadSeq .readSector s.opArg
  | .writeSector index data =>
    startOpSeq 2 (fun s => { s with opArg := index, wdata := data }) fun s =>
      act (enter .opWrite) :: sectorWriteSeq s.opArg s.wdata
  | .eraseSector _ => [act (rejectOp .erase)]
  | .readCid => startOpSeq 4 id fun _ => act (enter .opRegRead) :: regReadSeq .readCid 10 .a 16
  | .readCsd => startOpSeq 5 id fun _ => act (enter .opRegRead) :: regReadSeq .readCsd 9 .a 16
  | .readOcr => startOpSeq 6 id fun _ =>
      act (enter .opRegRead) :: transactCDSeq 58 Config.zeroArg ++
        [act fun s => complete (.ocr (decodeOcr s.cfg.layouts.ocr s.payload)) s]
  | .readScr => startOpSeq 7 id fun _ => act (enter .opRegRead) :: appRegReadSeq .readScr 51 .a 8
  | .readSsr => startOpSeq 8 id fun _ => act (enter .opRegRead) :: appRegReadSeq .readSsr 13 .b 64
  | .reserved9 => [act (rejectOp (.opCode 9))]
  | .reserved10 => [act (rejectOp (.opCode 10))]
  | .reserved11 => [act (rejectOp (.opCode 11))]
  | .reserved12 => [act (rejectOp (.opCode 12))]
  | .reserved13 => [act (rejectOp (.opCode 13))]
  | .reserved14 => [act (rejectOp (.opCode 14))]
  | .reserved15 => [act (rejectOp (.opCode 15))]
  | .crc7 bytes => crcSeq bytes ++ [act (deliver (.checksum (crc7 bytes)))]
  | .crcByte bytes => crcSeq bytes ++ [act (deliver (.byte (crcByte bytes)))]
  | .frame idx arg => frameSeq idx arg ++ [act (deliver (.bytes (frameBytes idx arg)))]
  | .issueCommand idx arg => issueCommandSeq idx arg ++ [act (deliver .done)]
  | .pollStatus => pollStatusSeq ++ [act fun s => deliver (.byte s.r1) s]
  | .respA => pollStatusSeq ++ [act fun s => deliver (.byte s.r1) s]
  | .respB => respBSeq ++ [act fun s => deliver (.status2 s.r1 s.r2) s]
  | .respCD => respCDSeq ++ [act fun s => deliver (.statusPayload s.r1 s.payload) s]
  | .waitToken => act (enter .opRegRead) :: tokenSeq .ret
  | .fetchBlock n => act (enter .opRegRead) :: tokenSeq (.block n .fetchOnly)
  | .sectorRead index => act (enter .opRead) :: sectorReadSeq .dataPhase index
  | .sectorWrite index data => act (enter .opWrite) :: sectorWriteSeq index data
  | .eraseSectorOp _ => [act eraseSector]
  | .regRead idx shape n => act (enter .opRegRead) :: regReadSeq .dataPhase idx shape n
  | .decodeCid raw => [act fun s => deliver (.cid (decodeCid s.cfg.layouts.cid raw)) s]
  | .decodeCsd raw => [act fun s => deliver (.csd (decodeCsd s.cfg.layouts.csd raw)) s]
  | .decodeOcr value => [act fun s => deliver (.ocr (decodeOcr s.cfg.layouts.ocr value)) s]
  | .decodeScr raw => [act fun s => deliver (.scr (decodeScr s.cfg.layouts.scr raw)) s]
  | .decodeSsr raw => [act fun s => deliver (.ssr (decodeSsr s.cfg.layouts.ssr raw)) s]
  | .select => [act select, act (deliver .done)]
  | .deselect => deselectSeq ++ [act (deliver .done)]
  | .xchg t => [act fun s => deliver (.byte (reply t s)) (xchg t s)]
  | .delayMs n => [act (delayMs n), act (deliver .done)]
  | .respFormatA flags =>
    receiveSeq (fun _ => [statusByte flags]) fun _ => pollStatusSeq ++ [act fun s => deliver (.byte s.r1) s]
  | .respFormatB flags second =>
    receiveSeq (fun _ => [statusByte flags, second]) fun _ => respBSeq ++ [act fun s => deliver (.status2 s.r1 s.r2) s]
  | .respFormatCD flags payload =>
    receiveSeq (fun _ => statusByte flags :: be32bytes payload) fun _ =>
      respCDSeq ++ [act fun s => deliver (.statusPayload s.r1 s.payload) s]
  | .startToken =>
    receiveSeq (fun s => [s.cfg.startToken]) fun s =>
      match s.waiting with
      | some (.token n k) => waitTokenSeq n k
      | _ => [act fun s => atPhase .pToken (xchg Config.filler s), act (deliver .done)]
  | .dresp code =>
    receiveSeq (fun _ => [code]) fun _ =>
      [act fun s => atPhase .pWResp { xchg Config.filler s with wresp := reply Config.filler s }, act (deliver (.byte code))]

/-- Where a step starts: the instruction at the port or the loop to resume, as `step` chooses it. -/
def Position.start (s : State) : Position :=
  if s.resetRequest then ⟨s, [act applyReset]⟩
  else
    match s.fault with
    | some _ => ⟨{ s with port := none }, []⟩
    | none =>
      match s.waiting with
      | some w => ⟨{ s with port := none }, resumeSeq w⟩
      | none =>
        match s.port with
        | none => ⟨s, []⟩
        | some p =>
          match decode s.cfg p with
          | .ok i => ⟨{ s with port := none }, sequence i⟩
          | .error _ => ⟨s, []⟩

/-- The state after `n` advances of a step from `s`: between two advances of a step too, and there a reset event may come
(rule R340). -/
def advanced (n : Nat) (s : State) : State := (Position.advance^[n] (Position.start s)).state

end Sys2Proof.Machine
end

