-- ==== Sys2Proof/Safety.lean ====
section
/-! DEFINITION. What counts as a safe run, and the terms the statements use: the selection bracket of the link trace
(`70_reset_and_hazards.md` rule R350), the invariant of the engine's state, and what a card's answers to one transaction are, with the
state the rules give after them. -/

namespace Sys2Proof.Machine

/-- Where in the selection bracket a link trace ends. -/
inductive Bracket
  /-- Deselected. -/
  | closed
  /-- Selected, the bytes of the command frame transmitted so far. -/
  | framing (sent : List Byte)
  /-- Selected, the command frame complete. -/
  | body
  /-- The bracket was broken. -/
  | broken
deriving DecidableEq, Repr

/-- Whether six bytes are one of the command frames of rule R90: they meet rule R93 and have the index and the argument of a
row of the table. -/
def emitted (f : List Byte) : Bool :=
  match decodeFrame f with
  | .ok _ => true
  | .error _ => false

/-- Rule R350 as an automaton over the events: directly after a `SEL` comes one command frame, one of the twelve of rule R90; then
response and data bytes up to the `DESEL`; outside the bracket only filler is transmitted (rule R23). -/
def Bracket.next : Bracket → LinkEvent → Bracket
  | .closed, .sel => .framing []
  | .closed, .desel => .closed
  | .closed, .x t _ => if t = Config.filler then .closed else .broken
  | .closed, .delay _ => .closed
  | .framing sent, .x t _ =>
    if sent.length = 5 then if emitted (sent ++ [t]) then .body else .broken else .framing (sent ++ [t])
  | .framing _, .sel | .framing _, .desel | .framing _, .delay _ => .broken
  | .body, .x _ _ => .body
  | .body, .desel => .closed
  | .body, .sel | .body, .delay _ => .broken
  | .broken, _ => .broken

/-- The bracket of a trace, newest event first. -/
def bracketOf : List LinkEvent → Bracket
  | [] => .closed
  | e :: past => (bracketOf past).next e

/-- The bracket is intact and open exactly while the card is selected. -/
def State.bracketed (s : State) : Prop := bracketOf s.trace = if s.cs then .body else .closed

/-- A wait that an operation started at the port can stand in. -/
def Wait.portOk : Wait → Bool
  | .token _ (.block n k) => blockLengthOk n && k != .fetchOnly
  | .token _ .ret => false
  | .busy _ => true
  | .activate _ => true

/-- Whether the card is selected in a wait. -/
def Wait.selected : Wait → Bool
  | .token _ _ => true
  | .busy _ => true
  | .activate _ => false

/-- The invariant of the engine between two steps. -/
structure Inv (s : State) : Prop where
  /-- The filler buffer is all ones (rules R21, R213). -/
  filler : s.filler = Config.fillerBuffer
  bufLength : s.buf.length = Config.sectorBytes
  wdataLength : s.wdata.length = Config.sectorBytes
  frameLength : s.frame.length = 6
  /-- `poll_cnt` counts 0 to 8 (rule R25). -/
  pollCnt : s.pollCnt.toNat ≤ Config.respPollMax
  /-- `seq` is FAULT exactly while a fault is latched (rule R24). -/
  faultSeq : s.fault.isSome = true ↔ s.seq.main = .fault
  /-- A faulted engine runs nothing (rule R311). -/
  faultWait : s.fault.isSome = true → s.waiting = none
  /-- An engine that runs an operation between two steps stands in one of the three unbounded loops (rule R330). -/
  busyWait : s.busy = s.waiting.isSome
  waitOk : ∀ w, s.waiting = some w → w.portOk = true
  /-- Without a fault the card is selected only inside a data phase (rules R23, R158). -/
  selected : s.fault = none → s.cs = (s.waiting.map Wait.selected).getD false
  /-- The descriptor fetch of INIT comes after `initialized` is set (rules R185, R186). -/
  fetching : ∀ n k, s.waiting = some (.token n (.block k .initCsd)) → s.initialized = true
  /-- `sector_count` is written after `initialized` (rules R185, R186). -/
  counted : s.initialized = false → s.sectorCount = 0
  bracketed : s.bracketed

/-- The events of an exchange that transmits `ts` and receives `rs`, in order of time (rule R322). -/
def exchangeEvents (ts rs : List Byte) : List LinkEvent := List.zipWith .x ts rs

/-- The events of receiving `rs` while transmitting filler (rule R351), in order of time. -/
def receiveEvents (rs : List Byte) : List LinkEvent := rs.map (.x Config.filler)

/-- A card's answers to one command: during the six frame bytes, then the bytes the status poll skips, then the status
byte (rules R143, R152). -/
structure CardReply where
  frameAns : List Byte
  skip : List Byte
  status : Byte
deriving DecidableEq, Repr

/-- The answers are as many as the frame has bytes, at most seven are skipped, the skipped ones are no status byte and the last
is one (rules R152, R156). -/
def CardReply.ok (c : CardReply) : Bool :=
  c.frameAns.length == 6 && decide (c.skip.length ≤ 7) && c.skip.all (fun b => !isStatus b) && isStatus c.status

/-- The answers in order of time. -/
def CardReply.bytes (c : CardReply) : List Byte := c.frameAns ++ (c.skip ++ [c.status])

/-- The link events of a command and its status byte, in order of time (rules R143, R152). -/
def CardReply.events (idx : BitVec 6) (arg : Word32) (c : CardReply) : List LinkEvent :=
  .sel :: (exchangeEvents (frameBytes idx arg) c.frameAns ++ receiveEvents (c.skip ++ [c.status]))

/-- The state after a command and its status byte, the transaction still open; `rest` is what the card answers next. -/
def afterReply (idx : BitVec 6) (arg : Word32) (c : CardReply) (rest : List Byte) (s : State) : State :=
  { s with
    frame := frameBytes idx arg
    crc := crc7 (frameBody idx arg)
    cs := true
    seq := ⟨s.seq.main, some (.pPoll (c.skip.length + 1))⟩
    pollCnt := BitVec.ofNat 4 (c.skip.length + 1)
    r1 := c.status
    rx := rest
    trace := (c.events idx arg).reverse ++ s.trace }

/-- The state after the card has answered `rs` to filler bytes, its next answers being `rest`. -/
def afterReceive (rs rest : List Byte) (s : State) : State :=
  { s with rx := rest, trace := (receiveEvents rs).reverse ++ s.trace }

/-- The state after a transaction has been closed (rule R158). -/
def afterDeselect (s : State) : State :=
  { s with cs := false, seq := ⟨s.seq.main, none⟩, trace := .desel :: s.trace }

/-- The state after a transaction with a Shape A response and no data phase (rule R158). -/
def afterTransactA (idx : BitVec 6) (arg : Word32) (c : CardReply) (rest : List Byte) (s : State) : State :=
  afterDeselect (afterReply idx arg c rest s)

/-- The state after a transaction with a Shape C/D response whose payload bytes are `e` (rules R155, R158). -/
def afterTransactCD (idx : BitVec 6) (arg : Word32) (c : CardReply) (e rest : List Byte) (s : State) : State :=
  afterDeselect { afterReceive e rest (afterReply idx arg c rest s) with payload := be32List e }

/-- The state after an inbound block: `early` are the bytes before the start token, `trail` the two trailing bytes (rules R202,
R203). -/
def afterInbound (token : Byte) (early data trail rest : List Byte) (s : State) : State :=
  { afterReceive (early ++ token :: (data ++ trail)) rest s with buf := data ++ s.buf.drop data.length }

/-- The state after the gap, the token, the data, the checksum field and the acceptance byte of an outbound block (rule
R208); `ans` is what the card answers meanwhile and is ignored. -/
def afterOutbound (data ans : List Byte) (accept : Byte) (rest : List Byte) (s : State) : State :=
  { s with
    wresp := accept
    rx := rest
    trace :=
      .x Config.filler accept ::
        (exchangeEvents
            (Config.filler :: s.cfg.startToken :: (data ++ [s.cfg.writeCrc0, s.cfg.writeCrc1])) ans).reverse ++ s.trace }

/-- The state after an operation has ended (rules R280, R295). -/
def afterEnd (r : Result) (s : State) : State :=
  { s with result := some r, seq := ⟨.idle, none⟩, waiting := none }

/-- The state after a fault has been raised (rule R310). -/
def afterFatal (r : Fatal) (s : State) : State :=
  { s with fault := some r, seq := ⟨.fault, none⟩, waiting := none }

/-- The state after a command whose status poll found no status byte (rules R143, R152, R302): six frame bytes, eight polls, the card
still selected, the fault latched. -/
def afterNoStatus (idx : BitVec 6) (arg : Word32) (frameAns polls rest : List Byte) (s : State) : State :=
  afterFatal (.respTimeout idx)
    { s with
      frame := frameBytes idx arg
      crc := crc7 (frameBody idx arg)
      cs := true
      pollCnt := 8
      rx := rest
      trace := (.sel :: (exchangeEvents (frameBytes idx arg) frameAns ++ receiveEvents polls)).reverse ++ s.trace }

/-- The state in the token wait of a block of `n` bytes after one byte that was not the start token (rule R202). -/
def afterFirstPoll (m : SeqState) (n : Nat) (k : AfterBlock) (b : Byte) (rest : List Byte) (s : State) : State :=
  { afterReceive [b] rest s with waiting := some (.token 1 (.block n k)), seq := ⟨m, some .pToken⟩ }

/-- The state after INIT's state Reset (rule R172), `clocks` received during its filler bytes. -/
def afterClocks (clocks : List Byte) (s : State) : State :=
  { s with
    op := 0
    cs := false
    trace := .delay Config.resetDelayMs :: (receiveEvents clocks).reverse ++ .desel :: s.trace }

/-- The state after INIT's states Reset, GoIdle and SendInterfaceCondition, all answered as they must be (rules R172 to R178). -/
def afterIfCond (clocks : List Byte) (c0 c8 : CardReply) (echo rest : List Byte) (s : State) : State :=
  afterTransactCD 8 Config.checkArg c8 echo rest (afterTransactA 0 Config.zeroArg c0 [] (afterClocks clocks s))

/-- The state after the iteration that ends the activation loop and the state ReadOperatingConditions (rules R179, R182). -/
def afterOcr (c55 c41 c58 : CardReply) (ocr rest : List Byte) (s : State) : State :=
  { afterTransactCD 58 Config.zeroArg c58 ocr rest
      (afterTransactA 41 Config.hcsArg c41 [] (afterTransactA 55 Config.zeroArg c55 [] s)) with
    ocrRaw := be32List ocr }

/-- A host operation with code `code` starts: steps 1 and 4 of the dispatch let it through and no operation runs (rules R281,
R294). -/
def State.starts (code : BitVec 4) (s : State) : Prop :=
  s.fault = none ∧ s.busy = false ∧ (code = 0 ∨ s.cfg.requireInit = false ∨ s.initialized = true)

/-- The state after a command with a Shape A response and its inbound block, the transaction closed (rules R204, R212). -/
def afterFetch (idx : BitVec 6) (arg : Word32) (c : CardReply) (early data trail rest : List Byte) (s : State) : State :=
  afterDeselect (afterInbound s.cfg.startToken early data trail rest (afterReply idx arg c [] s))

/-- The same with a Shape B response whose second byte is `b` (rules R154, R212). -/
def afterFetchB (idx : BitVec 6) (arg : Word32) (c : CardReply) (b : Byte) (early data trail rest : List Byte) (s : State) :
    State :=
  afterDeselect (afterInbound s.cfg.startToken early data trail rest
    { afterReceive [b] [] (afterReply idx arg c [] s) with r2 := b })

/-- The state after command 24, its block and the busy wait, the transaction closed: `ans` is received during gap, token, data
and checksum field, `busy` are the busy bytes (rule R208). -/
def afterWrite (index : Word32) (c : CardReply) (data ans : List Byte) (accept : Byte) (busy rest : List Byte) (s : State) :
    State :=
  afterDeselect (afterReceive (busy ++ [Config.filler]) rest
    (afterOutbound data ans accept [] (afterReply 24 index c [] s)))

/-- The link events of a whole transaction: the command, its status byte, the bytes `more` received after it, the deselection
(rule R158). -/
def CardReply.transaction (idx : BitVec 6) (arg : Word32) (c : CardReply) (more : List Byte) : List LinkEvent :=
  c.events idx arg ++ receiveEvents more ++ [.desel]

/-- A card's answers to a whole INIT (rule R187): the reset clocks, commands 0 and 8, the iterations of the activation loop
that do not end it and the one that does, command 58, and the descriptor fetch. -/
structure InitAnswers where
  clocks : List Byte
  c0 : CardReply
  c8 : CardReply
  echo : List Byte
  retries : List (CardReply × CardReply)
  last : CardReply × CardReply
  c58 : CardReply
  ocr : List Byte
  c9 : CardReply
  early : List Byte
  csd : List Byte
  trail : List Byte
deriving DecidableEq, Repr

/-- The answers of the handshake bring a card to block addressing: command 0 answers 0x01, the echo is right, the loop goes on
while the status byte is not 0x00, the capacity bit is set (rules R175, R178, R180, R184). -/
def InitAnswers.handshakeOk (cfg : Params) (a : InitAnswers) : Bool :=
  a.clocks.length == 10 && a.c0.ok && a.c0.status == 0x01 && a.c8.ok && a.echo.length == 4 &&
    (be32List a.echo &&& Config.checkEchoMask) == Config.checkArg &&
    a.retries.all (fun p => p.1.ok && p.2.ok && p.2.status != 0) && a.last.1.ok && a.last.2.ok && a.last.2.status == 0 &&
    a.c58.ok && a.ocr.length == 4 && (decodeOcr cfg.layouts.ocr (be32List a.ocr)).ccs == 1

/-- The answers to the descriptor fetch (rules R186, R212). -/
def InitAnswers.fetchOk (cfg : Params) (a : InitAnswers) : Bool :=
  a.c9.ok && (!cfg.r1Check || a.c9.status == 0) && a.early.all (fun b => b != cfg.startToken) && a.csd.length == 16 &&
    a.trail.length == 2

/-- The answers of the handshake, in order of time. -/
def InitAnswers.handshakeBytes (a : InitAnswers) : List Byte :=
  a.clocks ++ a.c0.bytes ++ a.c8.bytes ++ a.echo ++ a.retries.flatMap (fun p => p.1.bytes ++ p.2.bytes) ++
    a.last.1.bytes ++ a.last.2.bytes ++ a.c58.bytes ++ a.ocr

/-- The answers of the descriptor fetch, in order of time. -/
def InitAnswers.fetchBytes (token : Byte) (a : InitAnswers) : List Byte :=
  a.c9.bytes ++ a.early ++ token :: (a.csd ++ a.trail)

/-- The two transactions of one iteration of the activation loop (rule R179). -/
def iterationEvents (p : CardReply × CardReply) : List LinkEvent :=
  p.1.transaction 55 Config.zeroArg [] ++ p.2.transaction 41 Config.hcsArg []

/-- The link events of the handshake, in order of time (rule R187): `0 -> 8 -> (55,41)* -> 58`. -/
def InitAnswers.handshakeEvents (a : InitAnswers) : List LinkEvent :=
  .desel :: receiveEvents a.clocks ++ [.delay Config.resetDelayMs] ++ a.c0.transaction 0 Config.zeroArg [] ++
    a.c8.transaction 8 Config.checkArg a.echo ++
    a.retries.flatMap (fun p => iterationEvents p ++ [.delay Config.acmd41DelayMs]) ++ iterationEvents a.last ++
    a.c58.transaction 58 Config.zeroArg a.ocr

/-- The link events of the descriptor fetch (rules R186, R212). -/
def InitAnswers.fetchEvents (token : Byte) (a : InitAnswers) : List LinkEvent :=
  a.c9.transaction 9 Config.zeroArg (a.early ++ token :: (a.csd ++ a.trail))

/-- The state after an INIT that does not fetch the descriptor (rules R185, R187). -/
def afterHandshake (a : InitAnswers) (rest : List Byte) (s : State) : State :=
  { s with
    op := 0
    initialized := true
    cs := false
    seq := ⟨.idle, none⟩
    waiting := none
    frame := frameBytes 58 Config.zeroArg
    crc := crc7 (frameBody 58 Config.zeroArg)
    pollCnt := BitVec.ofNat 4 (a.c58.skip.length + 1)
    r1 := a.c58.status
    payload := be32List a.ocr
    ocrRaw := be32List a.ocr
    rx := rest
    trace := a.handshakeEvents.reverse ++ s.trace
    result := some .done }

/-- The state after an INIT that fetches the descriptor (rules R186, R187). -/
def afterInit (a : InitAnswers) (rest : List Byte) (s : State) : State :=
  { afterHandshake a rest s with
    sectorCount := sectorCountOf (decodeCsd s.cfg.layouts.csd a.csd) s.cfg.sectorCountBias
    frame := frameBytes 9 Config.zeroArg
    crc := crc7 (frameBody 9 Config.zeroArg)
    pollCnt := BitVec.ofNat 4 (a.c9.skip.length + 1)
    r1 := a.c9.status
    buf := a.csd ++ s.buf.drop 16
    trace := (a.handshakeEvents ++ a.fetchEvents s.cfg.startToken).reverse ++ s.trace }

/-! ### The positions of a step (rule R24) -/

/-- What the next advance puts on the link, in order of time, each event with the position held after the advance. -/
def Position.puts (p : Position) : List (Seq × LinkEvent) :=
  let q := p.advance.state
  (q.trace.take (q.trace.length - p.state.trace.length)).reverse.map fun e => (q.seq, e)

/-- What the next `n` advances put on the link, each event with the position held at it. -/
def Position.walk : Nat → Position → List (Seq × LinkEvent)
  | 0, _ => []
  | n + 1, p => p.puts ++ p.advance.walk n

/-- The step from `s`, from its start to its end, puts exactly the events of `w` on the link, each while the position beside it is
held. -/
def State.walks (s : State) (w : List (Seq × LinkEvent)) : Prop :=
  ∃ n t, step s = .next t ∧ Position.advance^[n] (Position.start s) = ⟨t, []⟩ ∧ (Position.start s).walk n = w

/-- The events `es` at the positions `ps` of a transaction in the state `m`. -/
def atPhases (m : SeqState) (ps : List Phase) (es : List LinkEvent) : List (Seq × LinkEvent) :=
  List.zipWith (fun p e => (⟨m, some p⟩, e)) ps es

/-- The events `es` while no transaction runs. -/
def outside (m : SeqState) (es : List LinkEvent) : List (Seq × LinkEvent) := es.map fun e => (⟨m, none⟩, e)

/-- The positions of a command and the polls up to its status byte, which comes after `n` polls (rules R143, R152). -/
def replyPhases (n : Nat) : List Phase := (List.range 6).map .pFrame ++ (List.range (n + 1)).map fun i => .pPoll (i + 1)

/-- The positions of the four bytes after the status byte (rule R155). -/
def extraPhases : List Phase := (List.range 4).map .pExtra

/-- The positions of the token and an inbound block of `n` bytes (rules R202, R203). -/
def blockPhases (n : Nat) : List Phase := .pToken :: (List.range n).map .pData ++ (List.range 2).map .pCrc

/-- The positions of an outbound block of `n` bytes up to the acceptance byte (rule R208). -/
def writePhases (n : Nat) : List Phase :=
  .pGap :: .pWToken :: (List.range n).map .pWData ++ (List.range 2).map .pWCrc ++ [.pWResp]

/-- The positions of a transaction in the state `m` that is not closed yet: the selection, before which there is no phase, the
command with its polls, then the events `more` at the positions `ps`. -/
def CardReply.walk (m : SeqState) (idx : BitVec 6) (arg : Word32) (c : CardReply) (ps : List Phase) (more : List LinkEvent) :
    List (Seq × LinkEvent) :=
  outside m [.sel] ++
    atPhases m (replyPhases c.skip.length ++ ps)
      (exchangeEvents (frameBytes idx arg) c.frameAns ++ receiveEvents (c.skip ++ [c.status]) ++ more)

/-- The same to its deselection (rule R158). -/
def CardReply.wholeWalk (m : SeqState) (idx : BitVec 6) (arg : Word32) (c : CardReply) (ps : List Phase) (more : List LinkEvent) :
    List (Seq × LinkEvent) :=
  c.walk m idx arg (ps ++ [.pDesel]) (more ++ [.desel])

/-- The positions of one iteration of the activation loop (rule R179). -/
def iterationWalk (p : CardReply × CardReply) : List (Seq × LinkEvent) :=
  p.1.wholeWalk .iActivate 55 Config.zeroArg [] [] ++ p.2.wholeWalk .iActivate 41 Config.hcsArg [] []

/-- A card that answers no status byte: what it answers during the six frame bytes and to the eight polls (rule R152). -/
structure NoReply where
  frameAns : List Byte
  polls : List Byte
deriving DecidableEq, Repr

/-- Six answers and eight, none of the eight a status byte. -/
def NoReply.ok (q : NoReply) : Bool :=
  q.frameAns.length == 6 && q.polls.length == 8 && q.polls.all fun b => !isStatus b

/-- The answers in order of time. -/
def NoReply.bytes (q : NoReply) : List Byte := q.frameAns ++ q.polls

/-- The positions of a command that finds no status byte, from its selection to the eighth poll (rules R143, R152). -/
def NoReply.walk (m : SeqState) (idx : BitVec 6) (arg : Word32) (q : NoReply) : List (Seq × LinkEvent) :=
  outside m [.sel] ++
    atPhases m (replyPhases 7) (exchangeEvents (frameBytes idx arg) q.frameAns ++ receiveEvents q.polls)

/-- One turn of the token wait: the bytes polled, their positions and their events. Another byte than the token; the token of the
row WaitToken; the token with its block, after which the row FetchBlock does not deselect and the others do (rules R202, R203). -/
inductive TokenTurn (token : Byte) : AfterToken → List Byte → List Phase → List LinkEvent → Prop
  | other {k : AfterToken} {b : Byte} : b ≠ token → TokenTurn token k [b] [.pToken] (receiveEvents [b])
  | token : TokenTurn token .ret [token] [.pToken] (receiveEvents [token])
  | fetchOnly {n : Nat} {data trail : List Byte} : data.length = n → 0 < n → n ≤ 512 → trail.length = 2 →
      TokenTurn token (.block n .fetchOnly) (token :: (data ++ trail)) (blockPhases n) (receiveEvents (token :: (data ++ trail)))
  | block {n : Nat} {k : AfterBlock} {data trail : List Byte} : data.length = n → 0 < n → n ≤ 512 → trail.length = 2 →
      k ≠ .fetchOnly →
      TokenTurn token (.block n k) (token :: (data ++ trail)) (blockPhases n ++ [.pDesel])
        (receiveEvents (token :: (data ++ trail)) ++ [.desel])

/-- What follows the status byte of a read in the step: nothing, when R1_CHECK refuses it, and otherwise the first turn of the token
wait (rules R204, R212, R283). -/
inductive ReadTurn (cfg : Params) (status : Byte) (k : AfterToken) : List Byte → List Phase → List LinkEvent → Prop
  | refused : cfg.r1Check = true → status ≠ 0 → ReadTurn cfg status k [] [] []
  | turn {bs : List Byte} {ps : List Phase} {es : List LinkEvent} : (cfg.r1Check = false ∨ status = 0) →
      TokenTurn cfg.startToken k bs ps es → ReadTurn cfg status k bs ps es

/-- The answers in the states Branch and Terminal and the positions held, by the capacity bit `ccs` (rules R184 to R186): byte addressing,
without and with command 16, and block addressing, without and with the descriptor fetch. -/
inductive BranchTurn (cfg : Params) (ccs : BitVec 1) : List Byte → List (Seq × LinkEvent) → Prop
  | byte : ccs = 0 → cfg.initCmd16Issued = false → BranchTurn cfg ccs [] []
  | noReply16 {q : NoReply} : ccs = 0 → cfg.initCmd16Issued = true → q.ok = true →
      BranchTurn cfg ccs q.bytes (q.walk .iBranch 16 Config.blocklenArg)
  | byte16 {c : CardReply} : ccs = 0 → cfg.initCmd16Issued = true → c.ok = true →
      BranchTurn cfg ccs c.bytes (c.wholeWalk .iBranch 16 Config.blocklenArg [] [])
  | block : ccs = 1 → cfg.initFetchCsd = false → BranchTurn cfg ccs [] []
  | noReply9 {q : NoReply} : ccs = 1 → cfg.initFetchCsd = true → q.ok = true →
      BranchTurn cfg ccs q.bytes (q.walk .iTerminal 9 Config.zeroArg)
  | fetch {c : CardReply} {bs : List Byte} {ps : List Phase} {es : List LinkEvent} : ccs = 1 → cfg.initFetchCsd = true →
      c.ok = true → ReadTurn cfg c.status (.block 16 .initCsd) bs ps es →
      BranchTurn cfg ccs (c.bytes ++ bs) (c.walk .iTerminal 9 Config.zeroArg ps es)

/-- One turn of the activation loop after `n` others, with the states that follow it in the step when it ends the loop: the answers and
the positions held (rules R171, R179 to R186). At the bound the delay of a turn that does not end the loop falls away. -/
inductive ActivateTurn (cfg : Params) (n : Nat) : List Byte → List (Seq × LinkEvent) → Prop
  | noReply55 {q : NoReply} : q.ok = true → ActivateTurn cfg n q.bytes (q.walk .iActivate 55 Config.zeroArg)
  | noReply41 {c : CardReply} {q : NoReply} : c.ok = true → q.ok = true →
      ActivateTurn cfg n (c.bytes ++ q.bytes)
        (c.wholeWalk .iActivate 55 Config.zeroArg [] [] ++ q.walk .iActivate 41 Config.hcsArg)
  | again {p : CardReply × CardReply} : p.1.ok = true → p.2.ok = true → p.2.status ≠ 0 →
      ActivateTurn cfg n (p.1.bytes ++ p.2.bytes)
        (iterationWalk p ++ if cfg.acmd41IterMax = some (n + 1) then [] else outside .iActivate [.delay Config.acmd41DelayMs])
  | noReply58 {p : CardReply × CardReply} {q : NoReply} : p.1.ok = true → p.2.ok = true → p.2.status = 0 → q.ok = true →
      ActivateTurn cfg n (p.1.bytes ++ p.2.bytes ++ q.bytes) (iterationWalk p ++ q.walk .iReadOcr 58 Config.zeroArg)
  | last {p : CardReply × CardReply} {c : CardReply} {ocr bs : List Byte} {w : List (Seq × LinkEvent)} : p.1.ok = true →
      p.2.ok = true → p.2.status = 0 → c.ok = true → ocr.length = 4 →
      BranchTurn cfg (decodeOcr cfg.layouts.ocr (be32List ocr)).ccs bs w →
      ActivateTurn cfg n (p.1.bytes ++ p.2.bytes ++ c.bytes ++ ocr ++ bs)
        (iterationWalk p ++ c.wholeWalk .iReadOcr 58 Config.zeroArg extraPhases (receiveEvents ocr) ++ w)

end Sys2Proof.Machine
end

