-- ==== Sys2Proof/Certificates/Slice0/Obligations.lean ====
section
/-! DEFINITION. The statements about the engine. A statement about an instruction gives its next state in full: the fields it
names are as they are written, and every other field of the state is unchanged, which is its frame. The card's answers are
taken from `State.rx`, which holds any answers; `rest` is what the card answers afterwards. -/

open Sys2Proof Sys2Proof.Machine

/-! ### Encoding -/

/-- Decoding the word of a well-formed instruction gives the instruction back, with every operand, whatever the engine's
parameters (rules R80 to R82, R90, R93, R95 to R97, R102, R103, R110). That a command frame is also a word the port takes is the
model's choice (log entry 10). -/
def Obligations.DecodeEncode : Prop :=
  ∀ (cfg : Params) (i : Instr) (p : PortWord), i.wellFormed = true → encode cfg i = some p → decode cfg p = .ok i

/-- A word has one meaning and no word is read by chance: an instruction decoded from bytes is well-formed and has those
bytes and no others (rules R80, R93, R95, R105, R106), and one decoded from a host word has that operation code and, as far as
it uses them, those operands (rules R26, R110); operands it does not use are ignored. What the port takes and refuses is the
model's choice (log entries 5, 10, 19). -/
def Obligations.EncodeDecode : Prop :=
  ∀ (cfg : Params) (p : PortWord) (i : Instr), decode cfg p = .ok i →
    i.wellFormed = true ∧
      match p with
      | .hostop h =>
        h.operandsIn i ∧ ∃ h', encode cfg i = some (.hostop h') ∧ h'.op = h.op ∧ decode cfg (.hostop h') = .ok i
      | _ => encode cfg i = some p

/-- Words written out from the spec's tables: the ten constant frames of rule R91, the two commands with a variable argument,
the sixteen operation codes of rule R110, the received formats (rules R95 to R97, R102, R103). The operation codes are the
spec's decision D2, and that a command frame is a word the port takes is the model's choice (log entry 10). -/
def Obligations.WordsOfTheSpec : Prop :=
  ∀ cfg : Params,
    (decode cfg (.cmd48 [0x40, 0x00, 0x00, 0x00, 0x00, 0x95]) = .ok .cmd0 ∧
      decode cfg (.cmd48 [0x48, 0x00, 0x00, 0x01, 0xAA, 0x87]) = .ok .cmd8 ∧
      decode cfg (.cmd48 [0x49, 0x00, 0x00, 0x00, 0x00, 0xAF]) = .ok .cmd9 ∧
      decode cfg (.cmd48 [0x4A, 0x00, 0x00, 0x00, 0x00, 0x1B]) = .ok .cmd10 ∧
      decode cfg (.cmd48 [0x4D, 0x00, 0x00, 0x00, 0x00, 0x0D]) = .ok .acmd13 ∧
      decode cfg (.cmd48 [0x50, 0x00, 0x00, 0x02, 0x00, 0x15]) = .ok .cmd16 ∧
      decode cfg (.cmd48 [0x69, 0x40, 0x00, 0x00, 0x00, 0x77]) = .ok .acmd41 ∧
      decode cfg (.cmd48 [0x73, 0x00, 0x00, 0x00, 0x00, 0xC7]) = .ok .acmd51 ∧
      decode cfg (.cmd48 [0x77, 0x00, 0x00, 0x00, 0x00, 0x65]) = .ok .cmd55 ∧
      decode cfg (.cmd48 [0x7A, 0x00, 0x00, 0x00, 0x00, 0xFD]) = .ok .cmd58 ∧
      decode cfg (.cmd48 [0x51, 0x00, 0x00, 0x00, 0x10, 0x67]) = .ok (.cmd17 0x10) ∧
      decode cfg (.cmd48 [0x58, 0x00, 0x00, 0xAB, 0xCD, 0x27]) = .ok (.cmd24 0xABCD)) ∧
    (∀ (arg : Word32) (data : List Byte),
      decode cfg (.hostop ⟨0, arg, data⟩) = .ok .init ∧
        decode cfg (.hostop ⟨1, arg, data⟩) = .ok (.readSector arg) ∧
        (data.length = 512 → decode cfg (.hostop ⟨2, arg, data⟩) = .ok (.writeSector arg data)) ∧
        decode cfg (.hostop ⟨3, arg, data⟩) = .ok (.eraseSector arg) ∧
        decode cfg (.hostop ⟨4, arg, data⟩) = .ok .readCid ∧
        decode cfg (.hostop ⟨5, arg, data⟩) = .ok .readCsd ∧
        decode cfg (.hostop ⟨6, arg, data⟩) = .ok .readOcr ∧
        decode cfg (.hostop ⟨7, arg, data⟩) = .ok .readScr ∧
        decode cfg (.hostop ⟨8, arg, data⟩) = .ok .readSsr ∧
        decode cfg (.hostop ⟨9, arg, data⟩) = .ok .reserved9 ∧
        decode cfg (.hostop ⟨10, arg, data⟩) = .ok .reserved10 ∧
        decode cfg (.hostop ⟨11, arg, data⟩) = .ok .reserved11 ∧
        decode cfg (.hostop ⟨12, arg, data⟩) = .ok .reserved12 ∧
        decode cfg (.hostop ⟨13, arg, data⟩) = .ok .reserved13 ∧
        decode cfg (.hostop ⟨14, arg, data⟩) = .ok .reserved14 ∧
        decode cfg (.hostop ⟨15, arg, data⟩) = .ok .reserved15) ∧
    decode cfg (.respA [0x01]) = .ok (.respFormatA 0x01) ∧
    decode cfg (.respA [0x80]) = .error .notStatus ∧
    decode cfg (.respB [0x05, 0xC3]) = .ok (.respFormatB 0x05 0xC3) ∧
    decode cfg (.respCD [0x00, 0xC0, 0xFF, 0x80, 0x00]) = .ok (.respFormatCD 0 0xC0FF8000) ∧
    (cfg.startToken = 0xFE → decode cfg (.token [0xFE]) = .ok .startToken) ∧
    decode cfg (.dresp [0xE5]) = .ok (.dresp 0xE5)

/-! ### The step and the machine as a whole -/

/-- In IDLE a step takes the word at the request port and runs the instruction it is, as `exec` does, with the port empty
(rules R280, R281), and without a word nothing happens (rule R326). The request port is the model's choice (log entry 5), and
so is that a word that is no instruction is refused (log entry 10). -/
def Obligations.StepRunsDecoded : Prop :=
  ∀ s : State, s.resetRequest = false → s.fault = none → s.waiting = none →
    (∀ p i, s.port = some p → decode s.cfg p = .ok i → step s = exec i { s with port := none }) ∧
      (∀ p e, s.port = some p → decode s.cfg p = .error e → step s = .refused (.undecodable e)) ∧
      (s.port = none → step s = .next s)

/-- The values rule R34 gives the state after reset, and what the host then reads (rules R28, R301, R312, R315): no fault, whose
code is 0, not initialized, no sectors, not busy. The values are the spec's decisions D4 and D25; that no result has been delivered yet is
the value of the model's own field (log entries 2, 11). -/
def Obligations.ResetState : Prop :=
  State.reset.filler = List.replicate 512 0xFF ∧
    State.reset.initialized = false ∧ State.reset.sectorCount = 0 ∧ State.reset.fault = none ∧ State.reset.cs = false ∧
    State.reset.seq = ⟨.idle, none⟩ ∧ State.reset.waiting = none ∧ State.reset.trace = [] ∧
    State.reset.busy = false ∧ State.reset.mode = .uninitialized ∧ faultCode State.reset.fault = 0 ∧
    State.reset.hostView = { fault := none, initialized := false, sectorCount := 0, busy := false, result := none }

/-- The reset event, in any state, also in FAULT and in the middle of an operation: the engine's state takes the values of
rule R34, nothing is sent, and what is not the engine's state stays: link handle, parameters, the environment (rules R340,
R341). The values and the event are the spec's decision D25; the form of the event, and that the environment's memory of what
happened before it is a free value, are the model's choice (log entries 1, 13). -/
def Obligations.ResetEvent : Prop :=
  ∀ s : State, s.resetRequest = true →
    ∃ t, step s = .next t ∧
      t.filler = List.replicate 512 0xFF ∧ t.initialized = false ∧ t.sectorCount = 0 ∧ t.fault = none ∧ t.cs = false ∧
      t.seq = ⟨.idle, none⟩ ∧ t.waiting = none ∧ t.trace = [] ∧ t.busy = false ∧ t.mode = .uninitialized ∧
      t.port = none ∧ t.resetRequest = false ∧ t.cfg = s.cfg ∧ t.link = s.link ∧ t.rx = s.rx ∧ t.envCount = s.envCount ∧
      t.envMemory = Config.cardMemory s.envMemory s.envCount s.trace

/-- The invariant holds after reset. It rests on the model's choices of a reset state (log entries 2, 4). -/
def Obligations.InvReset : Prop := Inv State.reset

/-- Every step keeps the invariant: the filler buffer is all ones, `seq` is FAULT exactly while a fault is latched, an
operation that runs between two steps stands in an unbounded loop, and every command on the link is one of the twelve of
rule R90 in a bracket of its own (rules R21, R23 to R25, R90, R93, R330, R350). The phases and waits are the model's choice
(log entry 3). -/
def Obligations.InvStep : Prop := ∀ s t : State, Inv s → step s = .next t → Inv t

/-- Every instruction has a next state in every state: nothing in the engine traps but by the latch (rules R106, R310). A
step never stops with a fault, and is refused only when the engine is idle and the word at the port is no instruction. That
a step refuses a word that is no instruction is the model's choice (log entry 10). -/
def Obligations.EveryStepAnswers : Prop :=
  (∀ (i : Instr) (s : State), ∃ t, exec i s = .next t) ∧
    ∀ s : State, (∃ t, step s = .next t) ∨
      ∃ p e, s.resetRequest = false ∧ s.fault = none ∧ s.waiting = none ∧ s.port = some p ∧ decode s.cfg p = .error e ∧
        step s = .refused (.undecodable e)

/-- The latch is sticky: in FAULT no instruction changes anything, and a step only drops the request (rule R311). The latch
is the spec's decision D4, that the request is dropped is the model's reading (log entry 12). -/
def Obligations.FaultSticky : Prop :=
  ∀ (s : State) (r : Fatal), s.fault = some r →
    (∀ i, exec i s = .next s) ∧ (s.resetRequest = false → step s = .next { s with port := none })

/-- What raising a fault does, whatever raised it: the record is latched, `seq` is FAULT, the operation has ended without a
result, and the session state other than INIT's own two writes is as it was (rules R308, R310). What the host then reads (rules R28,
R312): the record, under the code of its reason (rule R301), the mode, no operation running, and the result of the operation that last
delivered one. The latch is the spec's decision D4, codes 6 to 8 its decisions D17, D19, D20, D31, and `result` is the model's own field
(log entry 11). -/
def Obligations.FaultEntry : Prop :=
  ∀ (i : Instr) (s t : State) (r : Fatal), s.fault = none → exec i s = .next t → t.fault = some r →
    t.seq = ⟨.fault, none⟩ ∧ t.waiting = none ∧ t.result = s.result ∧ t.cfg = s.cfg ∧ t.link = s.link ∧
      t.filler = s.filler ∧ (s.initialized = true → t.initialized = true) ∧
      t.hostView =
        { fault := some r, initialized := t.initialized, sectorCount := t.sectorCount, busy := false, result := s.result } ∧
      t.mode = .faulted ∧
      faultCode t.fault =
        match r with
        | .respTimeout _ => 1
        | .unexpectedStatus _ _ => 2
        | .ifcondMismatch _ => 3
        | .addressingUnsupported _ => 4
        | .unimplemented _ => 5
        | .notInitialized _ => 6
        | .timeout _ => 7
        | .writeRejected _ => 8

/-- What no instruction writes, that `initialized` is never cleared (rule R21: only reset does that), and that the link trace only
grows (rule R12). That request port and reset event are the environment's to write is the model's choice (log entries 5, 13). -/
def Obligations.SessionState : Prop :=
  ∀ (i : Instr) (s t : State), exec i s = .next t →
    t.cfg = s.cfg ∧ t.link = s.link ∧ t.filler = s.filler ∧ t.port = s.port ∧ t.resetRequest = s.resetRequest ∧
      (s.initialized = true → t.initialized = true) ∧ ∃ events, t.trace = events ++ s.trace

/-- `initialized`, `sector_count` and `ocr_raw` are written by INIT alone (rules R21, R25, R185, R186, R287, R289). -/
def Obligations.OnlyInitWrites : Prop :=
  ∀ (i : Instr) (s t : State), i ≠ .init → s.waiting = none → exec i s = .next t →
    t.initialized = s.initialized ∧ t.sectorCount = s.sectorCount ∧ t.ocrRaw = s.ocrRaw

/-- While an operation runs, the latched request does not change (rule R26), and a request made meanwhile is refused: the
operation goes on as without it, and a host operation's meaning changes nothing (rule R294). That a second request is
refused is the spec's own text of rule R294 and the model's reading of it (log entry 12). -/
def Obligations.RunningOperation : Prop :=
  (∀ (s t : State) (w : Wait), s.resetRequest = false → s.waiting = some w → step s = .next t →
    t.op = s.op ∧ t.opArg = s.opArg ∧ t.wdata = s.wdata) ∧
    (∀ (s : State) (w : Wait) (p : Option PortWord), s.resetRequest = false → s.fault = none → s.waiting = some w →
      step { s with port := p } = step s) ∧
    ∀ (i : Instr) (h : HostWord) (s : State), decode s.cfg (.hostop h) = .ok i → s.busy = true → exec i s = .next s

/-- The modes and how they are left without a reset: from faulted never; from initialized to faulted only; from uninitialized to
initialized only by INIT, in the step that takes its request or ends its activation loop (rules R185, R313, R315). The guard
behind the modes is the spec's decision D20; that a command frame at the port changes no mode either rests on log entry 7. -/
def Obligations.Modes : Prop :=
  ∀ s t : State, s.resetRequest = false → step s = .next t →
    (s.mode = .faulted → t.mode = .faulted ∧ t.fault = s.fault) ∧
      (s.mode = .initialized → t.mode = .initialized ∨ t.mode = .faulted) ∧
      (s.mode = .uninitialized → t.mode = .initialized →
        (∃ n, s.waiting = some (.activate n)) ∨ ∃ h, s.port = some (.hostop h) ∧ h.op = 0)

/-! ### The dispatch -/

/-- ERASE_SECTOR, the reserved codes, the row EraseSector, and a register read with a shape the classifier does not have:
their effect is the fault UNIMPLEMENTED, with no link event, also on an engine that is not initialized (rules R157, R211,
R281, R292, R293, R305). The clauses on reserved codes rest on the spec's
decision D2, those on other shapes on its decision D33, the latch on its decision D4. -/
def Obligations.Unimplemented : Prop :=
  ∀ (s : State) (index : Word32), s.fault = none →
    exec (.eraseSectorOp index) s = .next (afterFatal (.unimplemented .erase) s) ∧
      (∀ idx code n,
        exec (.regRead idx (.other code) n) s = .next (afterFatal (.unimplemented (.shape code)) s)) ∧
      (s.busy = false →
        exec (.eraseSector index) s = .next (afterFatal (.unimplemented .erase) s) ∧
          exec .reserved9 s = .next (afterFatal (.unimplemented (.opCode 9)) s) ∧
          exec .reserved10 s = .next (afterFatal (.unimplemented (.opCode 10)) s) ∧
          exec .reserved11 s = .next (afterFatal (.unimplemented (.opCode 11)) s) ∧
          exec .reserved12 s = .next (afterFatal (.unimplemented (.opCode 12)) s) ∧
          exec .reserved13 s = .next (afterFatal (.unimplemented (.opCode 13)) s) ∧
          exec .reserved14 s = .next (afterFatal (.unimplemented (.opCode 14)) s) ∧
          exec .reserved15 s = .next (afterFatal (.unimplemented (.opCode 15)) s))

/-- Every operation but INIT and those of `Unimplemented` raises NOT_INITIALIZED on an engine that is not initialized,
before any link event, when REQUIRE_INIT (rules R281, R282). The operation was started (rule R301), so its request is latched
(rule R26): that reading is the model's (log entry 21). The guard is the spec's decision D20. -/
def Obligations.NotInitialized : Prop :=
  ∀ (s : State) (index : Word32) (data : List Byte), s.fault = none → s.busy = false → s.cfg.requireInit = true →
    s.initialized = false →
      exec (.readSector index) s = .next (afterFatal (.notInitialized 1) { s with op := 1, opArg := index }) ∧
        exec (.writeSector index data) s =
          .next (afterFatal (.notInitialized 2) { s with op := 2, opArg := index, wdata := data }) ∧
        exec .readCid s = .next (afterFatal (.notInitialized 4) { s with op := 4 }) ∧
        exec .readCsd s = .next (afterFatal (.notInitialized 5) { s with op := 5 }) ∧
        exec .readOcr s = .next (afterFatal (.notInitialized 6) { s with op := 6 }) ∧
        exec .readScr s = .next (afterFatal (.notInitialized 7) { s with op := 7 }) ∧
        exec .readSsr s = .next (afterFatal (.notInitialized 8) { s with op := 8 })

/-! ### The Checksum Engine and the framer -/

/-- CRC7 and CrcByte write `crc` and return the checksum, and the checksum with the end bit, whose low bit is always 1
(rules R120, R121, R124); the corner case of rule R124 and the two required vectors (rule R126). That a row delivers its value in
`result` is the model's choice (log entry 11). -/
def Obligations.ChecksumRows : Prop :=
  (∀ (s : State) (bytes : List Byte), s.fault = none →
    exec (.crc7 bytes) s = .next { s with crc := crc7 bytes, result := some (.checksum (crc7 bytes)) } ∧
      exec (.crcByte bytes) s = .next { s with crc := crc7 bytes, result := some (.byte (crc7 bytes ++ 1#1)) }) ∧
    (∀ n, crcByte (List.replicate n 0) = 0x01) ∧
    crc7 [0x40, 0x00, 0x00, 0x00, 0x00] = 0x4A ∧ crcByte [0x40, 0x00, 0x00, 0x00, 0x00] = 0x95 ∧
    crc7 [0x48, 0x00, 0x00, 0x01, 0xAA] = 0x43 ∧ crcByte [0x48, 0x00, 0x00, 0x01, 0xAA] = 0x87

/-- The checksum is the remainder of rule R121: `M(x) * x^7` is a multiple of `G(x) = x^7 + x^3 + 1` and the checksum. With
the corner cases and the example of the rule. For lengths other than five the definition is the spec's decision D38. -/
def Obligations.ChecksumIsRemainder : Prop :=
  (∀ bytes : List Byte, ∃ q : List Bool,
    gf2Poly (messageBits bytes) * 2 ^ 7 = gf2Mul q 0x89 ^^^ (crc7 bytes).toNat) ∧
    crc7 [] = 0 ∧ (∀ n, crc7 (List.replicate n 0) = 0) ∧ (∀ n bytes, crc7 (List.replicate n 0 ++ bytes) = crc7 bytes) ∧
    crc7 [0x40, 0, 0, 0, 0] = 0x4A

/-- The bit-serial form (rule R122): one bit through the register, and a byte more is its eight bits, bit 7 first. -/
def Obligations.ChecksumBitSerial : Prop :=
  (∀ (crc : BitVec 7) (d : Bool), let fb := d ^^ crc.getLsbD 6
    (crcShift crc d).getLsbD 0 = fb ∧ (crcShift crc d).getLsbD 3 = (crc.getLsbD 2 ^^ fb) ∧
      (crcShift crc d).getLsbD 1 = crc.getLsbD 0 ∧ (crcShift crc d).getLsbD 2 = crc.getLsbD 1 ∧
      (crcShift crc d).getLsbD 4 = crc.getLsbD 3 ∧ (crcShift crc d).getLsbD 5 = crc.getLsbD 4 ∧
      (crcShift crc d).getLsbD 6 = crc.getLsbD 5) ∧
    crc7 [] = 0 ∧
    ∀ (bytes : List Byte) (b : Byte), crc7 (bytes ++ [b]) =
      crcShift (crcShift (crcShift (crcShift (crcShift (crcShift (crcShift (crcShift (crc7 bytes) (b.getLsbD 7))
        (b.getLsbD 6)) (b.getLsbD 5)) (b.getLsbD 4)) (b.getLsbD 3)) (b.getLsbD 2)) (b.getLsbD 1)) (b.getLsbD 0)

/-- The shift-based form with 0x89 (rule R123): after every byte the 8-bit register is the checksum shifted left by one, and the
result byte is `CrcByte`. -/
def Obligations.ChecksumShiftForm : Prop :=
  ∀ bytes : List Byte, crcShiftBytes bytes = crc7 bytes ++ 0#1 ∧ crcShiftBytes bytes ||| 0x01 = crcByte bytes

/-- Properties of rule R125: linearity (b), the table of single bits of a five-byte input (c), the self-check (d), that two
messages of equal length, at most 15 bytes, that differ in one or in two bits have different checksums (e), the low bit (f). -/
def Obligations.ChecksumProperties : Prop :=
  (∀ a b : List Byte, a.length = b.length → crc7 (List.zipWith (· ^^^ ·) a b) = crc7 a ^^^ crc7 b) ∧
    (List.range 40).map (fun k => (crc7 (natBytes 5 (2 ^ k))).toNat) =
      [0x09, 0x12, 0x24, 0x48, 0x19, 0x32, 0x64, 0x41, 0x0B, 0x16, 0x2C, 0x58, 0x39, 0x72, 0x6D, 0x53, 0x2F, 0x5E, 0x35, 0x6A,
        0x5D, 0x33, 0x66, 0x45, 0x03, 0x06, 0x0C, 0x18, 0x30, 0x60, 0x49, 0x1B, 0x36, 0x6C, 0x51, 0x2B, 0x56, 0x25, 0x4A, 0x1D] ∧
    (∀ bytes : List Byte, crcBits (crc7 bytes) ((List.range 7).map fun i => (crc7 bytes).getLsbD (6 - i)) = 0) ∧
    (∀ a b : List Byte, a.length = b.length → a.length ≤ 15 →
      ((List.zip (messageBits a) (messageBits b)).countP (fun p => p.1 != p.2) = 1 ∨
        (List.zip (messageBits a) (messageBits b)).countP (fun p => p.1 != p.2) = 2) →
        crc7 a ≠ crc7 b) ∧
    ∀ bytes : List Byte, (crcByte bytes).getLsbD 0 = true ∧ (crcByte bytes) >>> 1 = (crc7 bytes).setWidth 8

/-- The checksum byte (rule R124): the seven bits of the checksum and below them a 1, for any input; it is this byte that the
framer puts last in a frame; an all-zero input gives 0x01; the rule's example. -/
def Obligations.ChecksumByte : Prop :=
  (∀ bytes : List Byte, crcByte bytes = ((crc7 bytes).setWidth 8 <<< 1) ||| 1 ∧
    (crcByte bytes).extractLsb' 1 7 = crc7 bytes ∧ (crcByte bytes).getLsbD 0 = true) ∧
    (∀ (idx : BitVec 6) (arg : Word32), (frameBytes idx arg).drop 5 = [crcByte ((frameBytes idx arg).take 5)]) ∧
    (∀ n, crcByte (List.replicate n 0) = 0x01) ∧
    crcByte [0x48, 0x00, 0x00, 0x01, 0xAA] = ((0x43#8 <<< 1) ||| 1) ∧ crcByte [0x48, 0x00, 0x00, 0x01, 0xAA] = 0x87

/-- Frame builds the six bytes of rule R82, returns them and writes nothing but `frame`, `crc` and the value returned (rules R81,
R82, R141). That a row delivers its value in `result` is the model's choice (log entry 11). -/
def Obligations.FrameRow : Prop :=
  ∀ (s : State) (idx : BitVec 6) (arg : Word32), s.fault = none →
    let body : List Byte := [0x40#8 ||| idx.setWidth 8, arg.extractLsb' 24 8, arg.extractLsb' 16 8, arg.extractLsb' 8 8,
      arg.extractLsb' 0 8]
    exec (.frame idx arg) s =
      .next { s with
        frame := body ++ [crc7 body ++ 1#1], crc := crc7 body, result := some (.bytes (body ++ [crc7 body ++ 1#1])) }

/-- The six bytes of a frame (rule R82), for any index and argument: the start byte, the argument big-endian and as it is, the
checksum of the first five bytes with the end bit; the first byte is in 0x40 to 0x7F and the last is odd. So a frame meets the
conditions on a frame, and index and argument are read back from it: no two commands have one frame. -/
def Obligations.FrameConditions : Prop :=
  ∀ (idx : BitVec 6) (arg : Word32), let f := frameBytes idx arg
    (f.length = 6 ∧ f.getD 0 0 = 0x40#8 ||| idx.setWidth 8 ∧ f.getD 1 0 = arg.extractLsb' 24 8 ∧
      f.getD 2 0 = arg.extractLsb' 16 8 ∧ f.getD 3 0 = arg.extractLsb' 8 8 ∧ f.getD 4 0 = arg.extractLsb' 0 8 ∧
      f.getD 5 0 = ((crc7 (f.take 5)).setWidth 8 <<< 1) ||| 1 ∧
      0x40 ≤ (f.getD 0 0).toNat ∧ (f.getD 0 0).toNat ≤ 0x7F ∧ (f.getD 5 0).toNat % 2 = 1) ∧
    ((f.getD 0 0).extractLsb' 6 2 = 0b01#2 ∧ (f.getD 5 0).getLsbD 0 = true ∧
      (f.getD 5 0).extractLsb' 1 7 = crc7 (f.take 5) ∧ (f.getD 0 0).extractLsb' 0 6 = idx ∧ be32List (f.drop 1) = arg ∧
      ∀ (idx' : BitVec 6) (arg' : Word32), f = frameBytes idx' arg' → idx = idx' ∧ arg = arg')

/-! ### The link -/

/-- The link primitives: one event each, `Select` and `Deselect` write `cs`, and the byte an exchange receives is the environment's (rules
R11, R12, R23, R321 to R323). `Deselect` also leaves `seq` without a phase (rule R24): a primitive run as a row is no part of a transaction
that goes on, and where the phase ends is the model's choice (log entry 27). What a row delivers in `result`, `done` or the byte received, is
its choice too (log entry 11). -/
def Obligations.LinkPrimitives : Prop :=
  ∀ (s : State) (t : Byte) (n : Nat), s.fault = none →
    exec .select s = .next { s with cs := true, trace := .sel :: s.trace, result := some .done } ∧
      exec .deselect s =
        .next { s with cs := false, trace := .desel :: s.trace, seq := ⟨s.seq.main, none⟩, result := some .done } ∧
      exec (.delayMs n) s = .next { s with trace := .delay n :: s.trace, result := some .done } ∧
      (∀ (r : Byte) (rest : List Byte), s.rx = r :: rest →
        exec (.xchg t) s = .next { s with rx := rest, trace := .x t r :: s.trace, result := some (.byte r) }) ∧
      (s.rx = [] → ∃ r, exec (.xchg t) s =
        .next { s with envCount := s.envCount + 1, trace := .x t r :: s.trace, result := some (.byte r) })

/-- IssueCommand, whatever the card answers: the frame is built, exactly seven events, `SEL` and the six frame bytes, and
the card stays selected (rules R143, R144). Running it on a card that is selected already is the model's choice (log entry
8), and so is that the row delivers `done` (log entry 11). -/
def Obligations.IssueCommandRow : Prop :=
  ∀ (s : State) (idx : BitVec 6) (arg : Word32), s.fault = none →
    ∃ ans : List Byte, ans.length = 6 ∧
      exec (.issueCommand idx arg) s =
        .next { s with
          frame := frameBytes idx arg
          crc := crc7 (frameBody idx arg)
          cs := true
          seq := ⟨s.seq.main, some (.pFrame 5)⟩
          trace := (exchangeEvents (frameBytes idx arg) ans).reverse ++ .sel :: s.trace
          rx := s.rx.drop 6
          envCount := s.envCount + (6 - s.rx.length)
          result := some .done }

/-- PollStatus and RespA, whatever the card answers (rules R152, R153): N + 1 exchanges of filler if the first N answers, N
at most 7, have bit 7 set and the next has not, and that byte is the status byte; eight exchanges and the fault RESP_TIMEOUT
otherwise. Running the classifier on a card that is not selected, which the precondition of rule R151 rules out, is the
model's choice (log entry 8), and so is where the value is delivered (log entry 11). -/
def Obligations.StatusPoll : Prop :=
  ∀ s : State, s.fault = none →
    exec .respA s = exec .pollStatus s ∧
      ∃ skip : List Byte, (∀ b ∈ skip, b.msb = true) ∧
        ((∃ status : Byte, skip.length ≤ 7 ∧ status.msb = false ∧
            exec .pollStatus s =
              .next { s with
                pollCnt := BitVec.ofNat 4 (skip.length + 1)
                r1 := status
                seq := ⟨s.seq.main, some (.pPoll (skip.length + 1))⟩
                trace := (receiveEvents (skip ++ [status])).reverse ++ s.trace
                rx := s.rx.drop (skip.length + 1)
                envCount := s.envCount + (skip.length + 1 - s.rx.length)
                result := some (.byte status) }) ∨
          (skip.length = 8 ∧
            exec .pollStatus s =
              .next (afterFatal (.respTimeout (frameIdx s.frame))
                { s with
                  pollCnt := 8
                  trace := (receiveEvents skip).reverse ++ s.trace
                  rx := s.rx.drop 8
                  envCount := s.envCount + (8 - s.rx.length) })))

/-- The three classifier operations with a card that answers `skip`, at most seven bytes with bit 7 set, and a status byte:
the exchanges made and the values returned (rules R152 to R156). Running the classifier on a card that is not selected is
the model's choice (log entry 8), and so is where the value is delivered (log entry 11). -/
def Obligations.ResponseRows : Prop :=
  ∀ (s : State) (skip : List Byte) (status b e0 e1 e2 e3 : Byte) (rest : List Byte), s.fault = none → skip.length ≤ 7 →
    (∀ x ∈ skip, x.msb = true) → status.msb = false →
      let t : State := { s with
        pollCnt := BitVec.ofNat 4 (skip.length + 1)
        r1 := status
        rx := rest }
      (s.rx = skip ++ status :: rest →
        exec .pollStatus s =
            .next { t with
              seq := ⟨s.seq.main, some (.pPoll (skip.length + 1))⟩
              trace := (receiveEvents (skip ++ [status])).reverse ++ s.trace
              result := some (.byte status) } ∧
          exec .respA s =
            .next { t with
              seq := ⟨s.seq.main, some (.pPoll (skip.length + 1))⟩
              trace := (receiveEvents (skip ++ [status])).reverse ++ s.trace
              result := some (.byte status) }) ∧
        (s.rx = skip ++ status :: b :: rest →
          exec .respB s =
            .next { t with
              r2 := b
              seq := ⟨s.seq.main, some (.pExtra 0)⟩
              trace := (receiveEvents (skip ++ [status, b])).reverse ++ s.trace
              result := some (.status2 status b) }) ∧
        (s.rx = skip ++ status :: e0 :: e1 :: e2 :: e3 :: rest →
          exec .respCD s =
            .next { t with
              payload := e0 ++ e1 ++ e2 ++ e3
              seq := ⟨s.seq.main, some (.pExtra 3)⟩
              trace := (receiveEvents (skip ++ [status, e0, e1, e2, e3])).reverse ++ s.trace
              result := some (.statusPayload status (e0 ++ e1 ++ e2 ++ e3)) })

/-- Eight answers with bit 7 set: exactly eight exchanges, then RESP_TIMEOUT with the index of the command, the card as selected
as it was (rules R152, R302). The same of whole transactions, both commands of an application command among them: the six frame bytes,
eight polls, the fault, no DESEL, and nothing after it. And of each transaction of INIT (rule R189): commands 0, 8, 55, 41, 58, 16 and 9,
from the request and, from 55 on, also in the turn of the activation loop that a step resumes; at command 9 `initialized` is set and
`sector_count` is as it was. Running the classifier on a card that is not selected is the model's choice (log entry 8), a command row as a
whole transaction too (log entry 7), and so are RegRead of lengths that no rule has (log entry 20) and one turn of the activation loop a
step (log entry 3). Of INIT, Reset, the exact test of command 0,
command 16 before the fault and the descriptor fetch are the spec's decisions D8, D9, D15, D16, and where the capacity bit stands is its
decision D22 (statement DecodeOtherRows). -/
def Obligations.ResponseTimeout : Prop :=
  ∀ (s : State) (frameAns polls rest : List Byte) (idx : BitVec 6) (arg index : Word32) (data : List Byte) (n : Nat),
    s.fault = none → frameAns.length = 6 → polls.length = 8 → (∀ b ∈ polls, b.msb = true) →
      (s.frame = frameBytes idx arg → s.rx = polls ++ rest →
        let t : State := { s with
          fault := some (.respTimeout idx)
          seq := ⟨.fault, none⟩
          waiting := none
          pollCnt := 8
          rx := rest
          trace := (receiveEvents polls).reverse ++ s.trace }
        exec .pollStatus s = .next t ∧ exec .respA s = .next t ∧ exec .respB s = .next t ∧ exec .respCD s = .next t) ∧
      (s.rx = frameAns ++ (polls ++ rest) →
        (exec .cmd0 s = .next (afterNoStatus 0 0 frameAns polls rest s) ∧
          exec .cmd8 s = .next (afterNoStatus 8 0x1AA frameAns polls rest s) ∧
          exec .cmd9 s = .next (afterNoStatus 9 0 frameAns polls rest s) ∧
          exec .cmd10 s = .next (afterNoStatus 10 0 frameAns polls rest s) ∧
          exec .cmd16 s = .next (afterNoStatus 16 512 frameAns polls rest s) ∧
          exec (.cmd17 index) s = .next (afterNoStatus 17 index frameAns polls rest s) ∧
          exec (.cmd24 index) s = .next (afterNoStatus 24 index frameAns polls rest s) ∧
          exec .cmd55 s = .next (afterNoStatus 55 0 frameAns polls rest s) ∧
          exec .cmd58 s = .next (afterNoStatus 58 0 frameAns polls rest s) ∧
          exec .acmd13 s = .next (afterNoStatus 55 0 frameAns polls rest s) ∧
          exec .acmd41 s = .next (afterNoStatus 55 0 frameAns polls rest s) ∧
          exec .acmd51 s = .next (afterNoStatus 55 0 frameAns polls rest s)) ∧
        (exec (.sectorRead index) s = .next (afterNoStatus 17 index frameAns polls rest s) ∧
          exec (.sectorWrite index data) s = .next (afterNoStatus 24 index frameAns polls rest s) ∧
          exec (.regRead idx .a n) s = .next (afterNoStatus idx 0 frameAns polls rest s) ∧
          exec (.regRead idx .b n) s = .next (afterNoStatus idx 0 frameAns polls rest s)) ∧
        (s.starts 1 →
          exec (.readSector index) s =
            .next (afterNoStatus 17 index frameAns polls rest { s with op := 1, opArg := index })) ∧
        (s.starts 2 →
          exec (.writeSector index data) s =
            .next (afterNoStatus 24 index frameAns polls rest { s with op := 2, opArg := index, wdata := data })) ∧
        (s.starts 4 → exec .readCid s = .next (afterNoStatus 10 0 frameAns polls rest { s with op := 4 })) ∧
        (s.starts 5 → exec .readCsd s = .next (afterNoStatus 9 0 frameAns polls rest { s with op := 5 })) ∧
        (s.starts 6 → exec .readOcr s = .next (afterNoStatus 58 0 frameAns polls rest { s with op := 6 })) ∧
        (s.starts 7 → exec .readScr s = .next (afterNoStatus 55 0 frameAns polls rest { s with op := 7 })) ∧
        (s.starts 8 → exec .readSsr s = .next (afterNoStatus 55 0 frameAns polls rest { s with op := 8 }))) ∧
      (∀ c55 : CardReply, c55.ok = true → s.rx = c55.bytes ++ (frameAns ++ (polls ++ rest)) →
        exec .acmd13 s = .next (afterNoStatus 13 0 frameAns polls rest (afterTransactA 55 0 c55 [] s)) ∧
          exec .acmd41 s = .next (afterNoStatus 41 0x40000000 frameAns polls rest (afterTransactA 55 0 c55 [] s)) ∧
          exec .acmd51 s = .next (afterNoStatus 51 0 frameAns polls rest (afterTransactA 55 0 c55 [] s)) ∧
          (s.starts 7 →
            exec .readScr s =
              .next (afterNoStatus 51 0 frameAns polls rest (afterTransactA 55 0 c55 [] { s with op := 7 }))) ∧
          (s.starts 8 →
            exec .readSsr s =
              .next (afterNoStatus 13 0 frameAns polls rest (afterTransactA 55 0 c55 [] { s with op := 8 })))) ∧
      let turn := fun (o : Host.Outcome State Fault Refusal) (before : List Byte) (u : State) =>
        let silent := frameAns ++ (polls ++ rest)
        (s.rx = before ++ silent → o = .next (afterNoStatus 55 0 frameAns polls rest u)) ∧
          ∀ (c55 c41 c58 : CardReply) (ocr : List Byte), c55.ok = true →
            (s.rx = before ++ (c55.bytes ++ silent) →
              o = .next (afterNoStatus 41 0x40000000 frameAns polls rest (afterTransactA 55 0 c55 [] u))) ∧
            (c41.ok = true → c41.status = 0 →
              (s.rx = before ++ (c55.bytes ++ (c41.bytes ++ silent)) →
                o = .next (afterNoStatus 58 0 frameAns polls rest
                  (afterTransactA 41 0x40000000 c41 [] (afterTransactA 55 0 c55 [] u)))) ∧
              (c58.ok = true → ocr.length = 4 →
                s.rx = before ++ (c55.bytes ++ (c41.bytes ++ (c58.bytes ++ (ocr ++ silent)))) →
                  let ccs := (decodeOcr s.cfg.layouts.ocr (be32List ocr)).ccs
                  (ccs = 0 → s.cfg.initCmd16Issued = true →
                    o = .next (afterNoStatus 16 512 frameAns polls rest (afterOcr c55 c41 c58 ocr [] u))) ∧
                    (ccs = 1 → s.cfg.initFetchCsd = true →
                      o = .next (afterNoStatus 9 0 frameAns polls rest
                        { afterOcr c55 c41 c58 ocr [] u with initialized := true }))))
      (∀ k, s.resetRequest = false → s.waiting = some (.activate k) → turn (step s) [] { s with port := none }) ∧
        ∀ clocks : List Byte, s.busy = false → clocks.length = 10 →
          (s.rx = clocks ++ (frameAns ++ (polls ++ rest)) →
            exec .init s = .next (afterNoStatus 0 0 frameAns polls rest (afterClocks clocks s))) ∧
          ∀ (c0 c8 : CardReply) (echo : List Byte), c0.ok = true → c0.status = 0x01 →
            (s.rx = clocks ++ (c0.bytes ++ (frameAns ++ (polls ++ rest))) →
              exec .init s =
                .next (afterNoStatus 8 0x1AA frameAns polls rest (afterTransactA 0 0 c0 [] (afterClocks clocks s)))) ∧
            (c8.ok = true → echo.length = 4 → be32List echo &&& 0xFFF = 0x1AA →
              turn (exec .init s) (clocks ++ (c0.bytes ++ (c8.bytes ++ echo))) (afterIfCond clocks c0 c8 echo [] s))

/-! ### Transactions -/

/-- Commands 0, 16 and 55: the transaction with a Shape A response, closed before the status byte is returned; and command 41
after its prefix, whose response is discarded (rules R90, R92, R111, R158, R174, R179, R184, R354). That a command row is its
whole transaction, and that the row of an application command sends its prefix, is the model's choice (log entry 7). -/
def Obligations.ShapeACommands : Prop :=
  ∀ (s : State) (c : CardReply) (rest : List Byte), s.fault = none → c.ok = true →
    (s.rx = c.bytes ++ rest →
      exec .cmd0 s = .next { afterTransactA 0 0 c rest s with result := some (.byte c.status) } ∧
        exec .cmd16 s = .next { afterTransactA 16 512 c rest s with result := some (.byte c.status) } ∧
        exec .cmd55 s = .next { afterTransactA 55 0 c rest s with result := some (.byte c.status) }) ∧
      ∀ c55 : CardReply, c55.ok = true → s.rx = c55.bytes ++ (c.bytes ++ rest) →
        exec .acmd41 s =
          .next { afterTransactA 41 0x40000000 c rest (afterTransactA 55 0 c55 [] s) with
            result := some (.byte c.status) }

/-! ### Byte order and transactions with a payload -/

/-- Byte strings (rule R9): `be32` puts the first byte first, `be32bytes` is its inverse, and each is the inverse of the other;
the byte of index 0 is the first in time when a string is exchanged, and the first one received has the lowest index in `buf`. -/
def Obligations.ByteOrder : Prop :=
  (∀ b0 b1 b2 b3 : Byte,
    be32 b0 b1 b2 b3 =
        (b0.setWidth 32 <<< 24) ||| (b1.setWidth 32 <<< 16) ||| (b2.setWidth 32 <<< 8) ||| b3.setWidth 32 ∧
      be32bytes (be32 b0 b1 b2 b3) = [b0, b1, b2, b3]) ∧
    (∀ v : Word32,
      be32bytes v = [v.extractLsb' 24 8, v.extractLsb' 16 8, v.extractLsb' 8 8, v.extractLsb' 0 8] ∧
        be32List (be32bytes v) = v) ∧
    (∀ (ts : List Byte) (s : State), ∃ rs : List Byte, rs.length = ts.length ∧
      (xchgN ts s).trace = (exchangeEvents ts rs).reverse ++ s.trace) ∧
    ∀ (n : Nat) (s : State), s.filler = Config.fillerBuffer → n ≤ 512 →
      ∃ rs trail : List Byte, rs.length = n ∧ trail.length = 2 ∧ (receiveBlock n s).buf = rs ++ s.buf.drop n ∧
        (receiveBlock n s).trace = (receiveEvents (rs ++ trail)).reverse ++ s.trace

/-- Commands 8 and 58: the transaction with a Shape C/D response, the payload big-endian; READ_OCR delivers it decoded and
does not write `ocr_raw` (rules R90, R155, R158, R177, R182, R289). That a command row is its whole transaction is the
model's choice (log entry 7). -/
def Obligations.ShapeCDCommands : Prop :=
  ∀ (s : State) (c : CardReply) (e0 e1 e2 e3 : Byte) (rest : List Byte), s.fault = none → c.ok = true →
    s.rx = c.bytes ++ ([e0, e1, e2, e3] ++ rest) →
      exec .cmd8 s =
          .next { afterTransactCD 8 0x1AA c [e0, e1, e2, e3] rest s with
            result := some (.statusPayload c.status (e0 ++ e1 ++ e2 ++ e3)) } ∧
        exec .cmd58 s =
          .next { afterTransactCD 58 0 c [e0, e1, e2, e3] rest s with
            result := some (.statusPayload c.status (e0 ++ e1 ++ e2 ++ e3)) } ∧
        (s.starts 6 →
          exec .readOcr s =
            .next (afterEnd (.ocr (decodeOcr s.cfg.layouts.ocr (e0 ++ e1 ++ e2 ++ e3)))
              { afterTransactCD 58 0 c [e0, e1, e2, e3] rest s with op := 6 }))

/-! ### Data phases -/

/-- One poll of the token wait (rules R105, R202): the start token ends it, with the bound reached any other byte is
TIMEOUT, otherwise the engine goes on waiting, whatever the byte is. The bound is the spec's decision D31. The model's choices are one poll a
step (log entry 3), that the row run alone stands in OP_REGREAD (log entry 7), that it runs on a card that is not selected (log entry 8) and
the value `done` (log entry 11). -/
def Obligations.TokenWait : Prop :=
  ∀ (s : State) (b : Byte) (rest : List Byte), s.fault = none → s.rx = b :: rest →
    (b = s.cfg.startToken → exec .waitToken s = .next (afterEnd .done (afterReceive [b] rest s))) ∧
      (b ≠ s.cfg.startToken → s.cfg.tokenWaitMax ≠ some 1 →
        exec .waitToken s =
          .next { afterReceive [b] rest s with
            seq := ⟨.opRegRead, some .pToken⟩, waiting := some (.token 1 .ret) }) ∧
      (b ≠ s.cfg.startToken → s.cfg.tokenWaitMax = some 1 →
        exec .waitToken s = .next (afterFatal (.timeout .token) (afterReceive [b] rest s)))

/-- FetchBlock (rule R203): when the token comes at once, the n bytes after it, in order and unexamined, the two trailing bytes
discarded, and the rest of `buf` keeps what it held; with another byte first it is in the token wait, from which statement
TokenWaitRun goes on. The model's choices are that the row run alone stands in OP_REGREAD (log entry 7), that it runs on a card that is
not selected (log entry 8), its effect for lengths that no rule has (log entry 20) and, with a late token, one poll a step (log entry 3). -/
def Obligations.FetchBlockRow : Prop :=
  ∀ (s : State) (data : List Byte) (t0 t1 b : Byte) (n : Nat) (rest : List Byte), s.fault = none →
    (s.filler = Config.fillerBuffer → data.length ≤ 512 → s.rx = s.cfg.startToken :: (data ++ (t0 :: t1 :: rest)) →
      exec (.fetchBlock data.length) s =
        .next { s with
          seq := ⟨.idle, none⟩
          waiting := none
          buf := data ++ s.buf.drop data.length
          rx := rest
          trace := (receiveEvents (s.cfg.startToken :: (data ++ [t0, t1]))).reverse ++ s.trace
          result := some (.bytes data) }) ∧
      (b ≠ s.cfg.startToken → s.cfg.tokenWaitMax ≠ some 1 → s.rx = b :: rest →
        exec (.fetchBlock n) s = .next (afterFirstPoll .opRegRead n .fetchOnly b rest s))

/-- SectorRead, command 17 and READ_SECTOR: when the token comes at once, the 512 bytes that follow it, unmodified and in
order, whatever the trailing bytes, and the transaction closed; with another byte first, the token wait, from which statement
TokenWaitRun goes on (rules R202, R204, R284). That the row CMD17 is its whole transaction is the model's choice (log entry
7), and so is, with a late token, one poll a step (log entry 3). -/
def Obligations.SectorReadRows : Prop :=
  ∀ (s : State) (index : Word32) (c : CardReply) (data trail rest : List Byte), s.fault = none → c.ok = true →
    (s.cfg.r1Check = false ∨ c.status = 0) →
    (s.filler = Config.fillerBuffer → data.length = 512 → trail.length = 2 →
      s.rx = c.bytes ++ (s.cfg.startToken :: (data ++ (trail ++ rest))) →
        exec (.sectorRead index) s = .next (afterEnd (.bytes data) (afterFetch 17 index c [] data trail rest s)) ∧
          exec (.cmd17 index) s = .next (afterEnd (.bytes data) (afterFetch 17 index c [] data trail rest s)) ∧
          (s.starts 1 →
            exec (.readSector index) s =
              .next (afterEnd (.bytes data) (afterFetch 17 index c [] data trail rest { s with op := 1, opArg := index })))) ∧
      ∀ b : Byte, b ≠ s.cfg.startToken → s.cfg.tokenWaitMax ≠ some 1 → s.rx = c.bytes ++ (b :: rest) →
        exec (.sectorRead index) s = .next (afterFirstPoll .opRead 512 .dataPhase b rest (afterReply 17 index c [] s)) ∧
          exec (.cmd17 index) s = .next (afterFirstPoll .opRead 512 .dataPhase b rest (afterReply 17 index c [] s)) ∧
          (s.starts 1 →
            exec (.readSector index) s =
              .next (afterFirstPoll .opRead 512 .readSector b rest
                (afterReply 17 index c [] { s with op := 1, opArg := index })))

/-- RegRead, commands 9 and 10, READ_CID and READ_CSD: when the token comes at once, the bytes that follow it; with another byte
first, the token wait, from which statement TokenWaitRun goes on. With Shape B the second status byte goes to `r2` and is not
tested (rules R154, R202, R212, R286, R287). That the rows CMD9 and CMD10 are whole transactions is the model's choice (log
entry 7), and so are the effect for lengths that no rule has (log entry 20) and, with a late token, one poll a step (log entry 3). -/
def Obligations.RegisterReadRows : Prop :=
  ∀ (s : State) (idx : BitVec 6) (c : CardReply) (second : Byte) (data trail rest : List Byte), s.fault = none →
    c.ok = true → (s.cfg.r1Check = false ∨ c.status = 0) →
    (s.filler = Config.fillerBuffer → data.length ≤ 512 → trail.length = 2 →
      (s.rx = c.bytes ++ (s.cfg.startToken :: (data ++ (trail ++ rest))) →
        exec (.regRead idx .a data.length) s = .next (afterEnd (.bytes data) (afterFetch idx 0 c [] data trail rest s)) ∧
          (data.length = 16 →
            exec .cmd9 s = .next (afterEnd (.bytes data) (afterFetch 9 0 c [] data trail rest s)) ∧
              exec .cmd10 s = .next (afterEnd (.bytes data) (afterFetch 10 0 c [] data trail rest s)) ∧
              (s.starts 4 →
                exec .readCid s =
                  .next (afterEnd (.cid (decodeCid s.cfg.layouts.cid data))
                    (afterFetch 10 0 c [] data trail rest { s with op := 4 }))) ∧
              (s.starts 5 →
                exec .readCsd s =
                  .next (afterEnd (.csd (decodeCsd s.cfg.layouts.csd data))
                    (afterFetch 9 0 c [] data trail rest { s with op := 5 }))))) ∧
      (s.rx = c.bytes ++ (second :: s.cfg.startToken :: (data ++ (trail ++ rest))) →
        exec (.regRead idx .b data.length) s =
          .next (afterEnd (.bytes data) (afterFetchB idx 0 c second [] data trail rest s)))) ∧
    ∀ (b : Byte) (n : Nat), b ≠ s.cfg.startToken → s.cfg.tokenWaitMax ≠ some 1 →
      (s.rx = c.bytes ++ (b :: rest) →
        exec (.regRead idx .a n) s = .next (afterFirstPoll .opRegRead n .dataPhase b rest (afterReply idx 0 c [] s)) ∧
          exec .cmd9 s = .next (afterFirstPoll .opRegRead 16 .dataPhase b rest (afterReply 9 0 c [] s)) ∧
          exec .cmd10 s = .next (afterFirstPoll .opRegRead 16 .dataPhase b rest (afterReply 10 0 c [] s)) ∧
          (s.starts 4 →
            exec .readCid s =
              .next (afterFirstPoll .opRegRead 16 .readCid b rest (afterReply 10 0 c [] { s with op := 4 }))) ∧
          (s.starts 5 →
            exec .readCsd s =
              .next (afterFirstPoll .opRegRead 16 .readCsd b rest (afterReply 9 0 c [] { s with op := 5 })))) ∧
      (s.rx = c.bytes ++ (second :: b :: rest) →
        exec (.regRead idx .b n) s =
          .next (afterFirstPoll .opRegRead n .dataPhase b rest
            { afterReceive [second] [] (afterReply idx 0 c [] s) with r2 := second }))

/-- The sequencer (rules R24, R190). (1) From the position where a step starts, a number of advances, one for each statement of the
pseudocode, leads to the state the step gives, with none left to make. (2) An advance of a step puts at most one event on the link, so no
operation is one advance. (3) Each piece of a transaction holds each of its positions, whatever the card answers: a byte's position with the
byte exchanged and no later one. (4) From `Position.start`, a step holds these positions at its link events, all of them and no others: a
step that runs READ_SECTOR, WRITE_SECTOR, READ_CID, READ_CSD, READ_OCR, READ_SCR, READ_SSR or INIT from the request, and a step that
resumes one of the three loops, blocks being of 1 to 512 bytes. Each is stated for all the card can answer: a command that finds no status
byte, a status byte that is refused, a wrong echo, a turn that ends its loop or not or reaches the bound, a write accepted or rejected, byte
addressing with and without command 16, INIT with and without the descriptor fetch. The `Deselect` of INIT's Reset and a selection have no
phase (log entry 27). The model's choices are that a step makes all its advances and what is an advance beside the `;` (log entry 3), that
the position of a byte is held from its exchange on (log entry 27), the state a row run alone stands in (log entry 7) and, in (3), the block
and data lengths that no rule has (log entry 20). -/
def Obligations.StepAdvances : Prop :=
  (∀ s t : State, s.filler = Config.fillerBuffer → step s = .next t →
    ∃ n, Position.advance^[n] (Position.start s) = ⟨t, []⟩) ∧
    (∀ (s : State) (n : Nat), s.resetRequest = false →
      (advanced (n + 1) s).trace = (advanced n s).trace ∨ ∃ e, (advanced (n + 1) s).trace = e :: (advanced n s).trace) ∧
    (∀ s : State, s.fault = none →
      (∀ (idx : BitVec 6) (arg : Word32) (k : Nat), k < 6 →
        (Position.advance^[k + 84] ⟨s, issueCommandSeq idx arg⟩).state =
          atPhase (.pFrame k) (xchgN ((frameBytes idx arg).take (k + 1)) (select (buildFrame idx arg s)))) ∧
        (∀ i, i < 8 → (∀ b ∈ replies (List.replicate i 0xFF) s, isStatus b = false) →
          (Position.advance^[4 * i + 2] ⟨s, pollStatusSeq⟩).state =
            atPhase (.pPoll (i + 1)) (xchgN (List.replicate (i + 1) 0xFF) { s with pollCnt := BitVec.ofNat 4 i })) ∧
        ((pollStatus s).fault = none →
          (∃ n, (Position.advance^[n] ⟨s, respBSeq⟩).state =
            atPhase (.pExtra 0) { xchg 0xFF (pollStatus s) with r2 := reply 0xFF (pollStatus s) }) ∧
          ∀ k, k < 4 → ∃ n, (Position.advance^[n] ⟨s, respCDSeq⟩).state =
            atPhase (.pExtra k) (xchgN (List.replicate (k + 1) 0xFF) (pollStatus s))) ∧
        (∀ n k, (Position.advance ⟨s, waitTokenSeq n k⟩).state = atPhase .pToken (xchg 0xFF s)) ∧
        (∀ n, s.filler = Config.fillerBuffer → n ≤ 512 →
          (∀ k, k < n → (Position.advance^[k + 1] ⟨s, receiveBlockSeq n⟩).state =
            atPhase (.pData k) (xchgN (List.replicate (k + 1) 0xFF) s)) ∧
          ∀ k, k < 2 → (Position.advance^[max n 1 + k + 2] ⟨s, receiveBlockSeq n⟩).state =
            atPhase (.pCrc k)
              { xchgN (List.replicate (n + (k + 1)) 0xFF) s with
                buf := replies (List.replicate n 0xFF) s ++ s.buf.drop n }) ∧
        (∀ data : List Byte,
          let head := [0xFF, s.cfg.startToken]
          let crc := [s.cfg.writeCrc0, s.cfg.writeCrc1]
          (Position.advance ⟨s, sendBlockSeq data⟩).state = atPhase .pGap (xchg 0xFF s) ∧
            (Position.advance^[2] ⟨s, sendBlockSeq data⟩).state = atPhase .pWToken (xchgN head s) ∧
            (∀ k, k < data.length → (Position.advance^[k + 3] ⟨s, sendBlockSeq data⟩).state =
              atPhase (.pWData k) (xchgN (head ++ data.take (k + 1)) s)) ∧
            (∀ k, k < 2 → (Position.advance^[data.length + k + 3] ⟨s, sendBlockSeq data⟩).state =
              atPhase (.pWCrc k) (xchgN (head ++ data ++ crc.take (k + 1)) s)) ∧
            (Position.advance^[data.length + 5] ⟨s, sendBlockSeq data⟩).state =
              atPhase .pWResp
                { xchgN (head ++ data ++ crc ++ [0xFF]) s with
                  wresp := reply 0xFF (xchgN (head ++ data ++ crc) s) }) ∧
        (∀ n, (Position.advance ⟨s, busyWaitSeq n⟩).state = atPhase .pBusy (xchg 0xFF s)) ∧
        (Position.advance ⟨s, deselectSeq⟩).state =
          { s with cs := false, seq := ⟨s.seq.main, s.seq.phase.map fun _ => .pDesel⟩, trace := .desel :: s.trace }) ∧
    (∀ (s : State) (h : HostWord) (q : NoReply) (c c55 : CardReply) (bs : List Byte) (ps : List Phase) (es : List LinkEvent)
      (rest : List Byte), s.resetRequest = false → s.waiting = none → s.port = some (.hostop h) → s.filler = Config.fillerBuffer →
      q.ok = true → c.ok = true → c55.ok = true → s.starts h.op →
        let p := c55.wholeWalk .opRegRead 55 0 [] []
        (h.op = 1 →
          (s.rx = q.bytes ++ rest → s.walks (q.walk .opRead 17 h.arg)) ∧
            (ReadTurn s.cfg c.status (.block 512 .readSector) bs ps es → s.rx = c.bytes ++ (bs ++ rest) →
              s.walks (c.walk .opRead 17 h.arg ps es))) ∧
          (h.op = 2 → h.wdata.length = 512 →
            (s.rx = q.bytes ++ rest → s.walks (q.walk .opWrite 24 h.arg)) ∧
              (s.cfg.r1Check = true → c.status ≠ 0 → s.rx = c.bytes ++ rest → s.walks (c.walk .opWrite 24 h.arg [] [])) ∧
              ∀ (ans : List Byte) (accept b : Byte), s.cfg.r1Check = false ∨ c.status = 0 → ans.length = 516 →
                s.rx = c.bytes ++ (ans ++ (accept :: b :: rest)) →
                  s.walks (c.walk .opWrite 24 h.arg (writePhases 512 ++ (.pBusy :: if b = 0xFF then [.pDesel] else []))
                    (exchangeEvents (0xFF :: s.cfg.startToken :: (h.wdata ++ [s.cfg.writeCrc0, s.cfg.writeCrc1])) ans ++
                      receiveEvents [accept] ++ (receiveEvents [b] ++ if b = 0xFF then [.desel] else [])))) ∧
          (h.op = 4 →
            (s.rx = q.bytes ++ rest → s.walks (q.walk .opRegRead 10 0)) ∧
              (ReadTurn s.cfg c.status (.block 16 .readCid) bs ps es → s.rx = c.bytes ++ (bs ++ rest) →
                s.walks (c.walk .opRegRead 10 0 ps es))) ∧
          (h.op = 5 →
            (s.rx = q.bytes ++ rest → s.walks (q.walk .opRegRead 9 0)) ∧
              (ReadTurn s.cfg c.status (.block 16 .readCsd) bs ps es → s.rx = c.bytes ++ (bs ++ rest) →
                s.walks (c.walk .opRegRead 9 0 ps es))) ∧
          (h.op = 6 →
            (s.rx = q.bytes ++ rest → s.walks (q.walk .opRegRead 58 0)) ∧
              (bs.length = 4 → s.rx = c.bytes ++ (bs ++ rest) →
                s.walks (c.wholeWalk .opRegRead 58 0 extraPhases (receiveEvents bs)))) ∧
          (h.op = 7 →
            (s.rx = q.bytes ++ rest → s.walks (q.walk .opRegRead 55 0)) ∧
              (s.rx = c55.bytes ++ (q.bytes ++ rest) → s.walks (p ++ q.walk .opRegRead 51 0)) ∧
              (ReadTurn s.cfg c.status (.block 8 .readScr) bs ps es → s.rx = c55.bytes ++ (c.bytes ++ (bs ++ rest)) →
                s.walks (p ++ c.walk .opRegRead 51 0 ps es))) ∧
          (h.op = 8 →
            (s.rx = q.bytes ++ rest → s.walks (q.walk .opRegRead 55 0)) ∧
              (s.rx = c55.bytes ++ (q.bytes ++ rest) → s.walks (p ++ q.walk .opRegRead 13 0)) ∧
              ∀ b : Byte, ReadTurn s.cfg c.status (.block 64 .readSsr) bs ps es →
                s.rx = c55.bytes ++ (c.bytes ++ (b :: (bs ++ rest))) →
                  s.walks (p ++ c.walk .opRegRead 13 0 (.pExtra 0 :: ps) (receiveEvents [b] ++ es)))) ∧
    (∀ (s : State) (h : HostWord) (q : NoReply) (clocks : List Byte) (c0 c8 : CardReply) (echo bs : List Byte)
      (w : List (Seq × LinkEvent)) (rest : List Byte), s.resetRequest = false → s.waiting = none → s.port = some (.hostop h) →
      s.filler = Config.fillerBuffer → h.op = 0 → s.starts 0 → clocks.length = 10 → q.ok = true → c0.ok = true → c8.ok = true →
      echo.length = 4 →
        let reset := outside .iReset (.desel :: receiveEvents clocks ++ [.delay 1])
        let idle := reset ++ c0.wholeWalk .iGoIdle 0 0 [] []
        let cond := idle ++ c8.wholeWalk .iIfCond 8 0x1AA extraPhases (receiveEvents echo)
        (s.rx = clocks ++ (q.bytes ++ rest) → s.walks (reset ++ q.walk .iGoIdle 0 0)) ∧
          (c0.status ≠ 0x01 → s.rx = clocks ++ (c0.bytes ++ rest) → s.walks idle) ∧
          (c0.status = 0x01 →
            (s.rx = clocks ++ (c0.bytes ++ (q.bytes ++ rest)) → s.walks (idle ++ q.walk .iIfCond 8 0x1AA)) ∧
              (be32List echo &&& 0xFFF ≠ 0x1AA → s.rx = clocks ++ (c0.bytes ++ (c8.bytes ++ (echo ++ rest))) → s.walks cond) ∧
              (be32List echo &&& 0xFFF = 0x1AA → ActivateTurn s.cfg 0 bs w →
                s.rx = clocks ++ (c0.bytes ++ (c8.bytes ++ (echo ++ (bs ++ rest)))) → s.walks (cond ++ w)))) ∧
    ∀ (s : State) (n : Nat) (bs rest : List Byte), s.resetRequest = false → s.fault = none → s.filler = Config.fillerBuffer →
      s.rx = bs ++ rest →
        (∀ k ps es, s.waiting = some (.token n k) → TokenTurn s.cfg.startToken k bs ps es →
          s.walks (atPhases s.seq.main ps es)) ∧
          (∀ b, s.waiting = some (.busy n) → bs = [b] →
            s.walks (atPhases s.seq.main (.pBusy :: if b = 0xFF then [.pDesel] else [])
              (receiveEvents [b] ++ if b = 0xFF then [.desel] else []))) ∧
          ∀ w, s.waiting = some (.activate n) → ActivateTurn s.cfg n bs w → s.walks w

/-- Application command 51 and READ_SCR: the prefix transaction, then the fetch of 8 bytes when the token comes at once, and
with another byte first the token wait, from which statement TokenWaitRun goes on (rules R92, R111, R202, R290). That the row
ACMD51 sends its prefix is the model's choice (log entry 7), and so is, with a late token, one poll a step (log entry 3). -/
def Obligations.ScrRows : Prop :=
  ∀ (s : State) (c55 c : CardReply) (data trail rest : List Byte), s.fault = none → c55.ok = true → c.ok = true →
    (s.cfg.r1Check = false ∨ c.status = 0) →
    (s.filler = Config.fillerBuffer → data.length = 8 → trail.length = 2 →
      s.rx = c55.bytes ++ (c.bytes ++ (s.cfg.startToken :: (data ++ (trail ++ rest)))) →
        exec .acmd51 s =
            .next (afterEnd (.bytes data) (afterFetch 51 0 c [] data trail rest (afterTransactA 55 0 c55 [] s))) ∧
          (s.starts 7 →
            exec .readScr s =
              .next (afterEnd (.scr (decodeScr s.cfg.layouts.scr data))
                (afterFetch 51 0 c [] data trail rest (afterTransactA 55 0 c55 [] { s with op := 7 }))))) ∧
      ∀ b : Byte, b ≠ s.cfg.startToken → s.cfg.tokenWaitMax ≠ some 1 → s.rx = c55.bytes ++ (c.bytes ++ (b :: rest)) →
        exec .acmd51 s =
            .next (afterFirstPoll .opRegRead 8 .dataPhase b rest (afterReply 51 0 c [] (afterTransactA 55 0 c55 [] s))) ∧
          (s.starts 7 →
            exec .readScr s =
              .next (afterFirstPoll .opRegRead 8 .readScr b rest
                (afterReply 51 0 c [] (afterTransactA 55 0 c55 [] { s with op := 7 }))))

/-- Application command 13 and READ_SSR: the prefix transaction, the Shape B response, then the fetch of 64 bytes when the token
comes at once, and with another byte first the token wait, from which statement TokenWaitRun goes on (rules R92, R111, R202,
R291). That the row ACMD13 sends its prefix is the model's choice (log entry 7), and so is, with a late token, one poll a step (log
entry 3). -/
def Obligations.SsrRows : Prop :=
  ∀ (s : State) (c55 c : CardReply) (second : Byte) (data trail rest : List Byte), s.fault = none → c55.ok = true →
    c.ok = true → (s.cfg.r1Check = false ∨ c.status = 0) →
    (s.filler = Config.fillerBuffer → data.length = 64 → trail.length = 2 →
      s.rx = c55.bytes ++ (c.bytes ++ (second :: s.cfg.startToken :: (data ++ (trail ++ rest)))) →
        exec .acmd13 s =
            .next (afterEnd (.bytes data)
              (afterFetchB 13 0 c second [] data trail rest (afterTransactA 55 0 c55 [] s))) ∧
          (s.starts 8 →
            exec .readSsr s =
              .next (afterEnd (.ssr (decodeSsr s.cfg.layouts.ssr data))
                (afterFetchB 13 0 c second [] data trail rest (afterTransactA 55 0 c55 [] { s with op := 8 }))))) ∧
      ∀ b : Byte, b ≠ s.cfg.startToken → s.cfg.tokenWaitMax ≠ some 1 →
        s.rx = c55.bytes ++ (c.bytes ++ (second :: b :: rest)) →
          exec .acmd13 s =
              .next (afterFirstPoll .opRegRead 64 .dataPhase b rest
                { afterReceive [second] [] (afterReply 13 0 c [] (afterTransactA 55 0 c55 [] s)) with r2 := second }) ∧
            (s.starts 8 →
              exec .readSsr s =
                .next (afterFirstPoll .opRegRead 64 .readSsr b rest
                  { afterReceive [second] [] (afterReply 13 0 c [] (afterTransactA 55 0 c55 [] { s with op := 8 })) with
                    r2 := second }))

/-- SectorWrite, command 24 and WRITE_SECTOR: one gap byte, the token, the data as it is, the constant checksum field, the acceptance
byte (whatever it is, or with WRESP_CHECK one that accepts; the others are statement WriteRejected), and the busy wait: with a card that
is idle at the first busy poll, and with one that is busy for K polls, K steps later (rules R101, R208, R209, R285, R352). Command 24
sends the latched `wdata`. The checksum field is the spec's decision D18; that command 24 is a whole transaction and sends `wdata` is the
model's choice (log entry 7), and so are one poll a step (log entry 3) and the value `done` (log entry 11). -/
def Obligations.SectorWriteRows : Prop :=
  ∀ (s : State) (index : Word32) (data : List Byte) (c : CardReply) (ans : List Byte) (accept : Byte) (rest : List Byte),
    s.fault = none → c.ok = true → (s.cfg.r1Check = false ∨ c.status = 0) → data.length = 512 → ans.length = 516 →
    (s.cfg.wrespCheck = false ∨ accept &&& 0x1F = 0x05) →
    (s.rx = c.bytes ++ (ans ++ (accept :: 0xFF :: rest)) →
      exec (.sectorWrite index data) s = .next (afterEnd .done (afterWrite index c data ans accept [] rest s)) ∧
        (s.wdata = data →
          exec (.cmd24 index) s = .next (afterEnd .done (afterWrite index c data ans accept [] rest s))) ∧
        (s.starts 2 →
          exec (.writeSector index data) s =
            .next (afterEnd .done
              (afterWrite index c data ans accept [] rest { s with op := 2, opArg := index, wdata := data })))) ∧
      ∀ busy : List Byte, s.resetRequest = false → s.port = none → s.cfg.busyWaitMax = none → (∀ b ∈ busy, b ≠ 0xFF) →
        s.rx = c.bytes ++ (ans ++ (accept :: (busy ++ 0xFF :: rest))) →
          (∃ t, exec (.sectorWrite index data) s = .next t ∧
            core.run busy.length t = .next (afterEnd .done (afterWrite index c data ans accept busy rest s))) ∧
            (s.wdata = data → ∃ t, exec (.cmd24 index) s = .next t ∧
              core.run busy.length t = .next (afterEnd .done (afterWrite index c data ans accept busy rest s))) ∧
            (s.starts 2 → ∃ t, exec (.writeSector index data) s = .next t ∧
              core.run busy.length t =
                .next (afterEnd .done
                  (afterWrite index c data ans accept busy rest { s with op := 2, opArg := index, wdata := data })))

/-- With WRESP_CHECK a write that was not accepted is WRITE_REJECTED, after the busy wait and with the transaction closed
(rule R209): of SectorWrite, of command 24, which sends the latched `wdata`, and of WRITE_SECTOR, with a card that is idle at
the first busy poll and with one that is busy for K polls, K steps later. The check is the spec's decision D19; that command 24
is a whole transaction and sends `wdata` is the model's choice (log entry 7), one poll a step too (log entry 3). -/
def Obligations.WriteRejected : Prop :=
  ∀ (s : State) (index : Word32) (data : List Byte) (c : CardReply) (ans : List Byte) (accept : Byte) (rest : List Byte),
    s.fault = none → c.ok = true → (s.cfg.r1Check = false ∨ c.status = 0) → data.length = 512 → ans.length = 516 →
    s.cfg.wrespCheck = true → accept &&& 0x1F ≠ 0x05 →
    (s.rx = c.bytes ++ (ans ++ (accept :: 0xFF :: rest)) →
      exec (.sectorWrite index data) s =
          .next (afterFatal (.writeRejected accept) (afterWrite index c data ans accept [] rest s)) ∧
        (s.wdata = data →
          exec (.cmd24 index) s =
            .next (afterFatal (.writeRejected accept) (afterWrite index c data ans accept [] rest s))) ∧
        (s.starts 2 →
          exec (.writeSector index data) s =
            .next (afterFatal (.writeRejected accept)
              (afterWrite index c data ans accept [] rest { s with op := 2, opArg := index, wdata := data })))) ∧
      ∀ busy : List Byte, s.resetRequest = false → s.port = none → s.cfg.busyWaitMax = none → (∀ b ∈ busy, b ≠ 0xFF) →
        s.rx = c.bytes ++ (ans ++ (accept :: (busy ++ 0xFF :: rest))) →
          (∃ t, exec (.sectorWrite index data) s = .next t ∧
            core.run busy.length t =
              .next (afterFatal (.writeRejected accept) (afterWrite index c data ans accept busy rest s))) ∧
            (s.wdata = data → ∃ t, exec (.cmd24 index) s = .next t ∧
              core.run busy.length t =
                .next (afterFatal (.writeRejected accept) (afterWrite index c data ans accept busy rest s))) ∧
            (s.starts 2 → ∃ t, exec (.writeSector index data) s = .next t ∧
              core.run busy.length t =
                .next (afterFatal (.writeRejected accept)
                  (afterWrite index c data ans accept busy rest { s with op := 2, opArg := index, wdata := data })))

/-- The status-byte test of the six data commands, in the internal operations, the command rows, the host operations and INIT's
descriptor fetch: with R1_CHECK a status byte that is not 0x00 is UNEXPECTED_STATUS inside the transaction, with `cs` left at 1 and nothing
of the data phase done (rules R283, R303). Of the fetch (rules R186, R189): from the request, and in the turn of the activation loop that a
step resumes and that ends the loop; `initialized` is set then and `sector_count` is as it was. The check is the spec's decision D17, Reset,
the exact test of command 0 and the fetch its decisions D8, D9, D16, where the capacity bit stands its decision D22; that a command row is
its whole transaction, with the prefix of an application command, and that command 24 is one are the model's choice (log entry 7), and so
are one turn of the activation loop a step (log entry 3) and RegRead of lengths that no rule has (log entry 20). -/
def Obligations.UnexpectedStatus : Prop :=
  ∀ (s : State) (index : Word32) (data : List Byte) (idx : BitVec 6) (n : Nat) (c : CardReply) (second : Byte)
    (rest : List Byte),
    s.fault = none → s.cfg.r1Check = true → c.ok = true → c.status ≠ 0 →
      (s.rx = c.bytes ++ rest →
        (exec (.sectorRead index) s = .next (afterFatal (.unexpectedStatus 17 c.status) (afterReply 17 index c rest s)) ∧
          exec (.sectorWrite index data) s =
            .next (afterFatal (.unexpectedStatus 24 c.status) (afterReply 24 index c rest s)) ∧
          exec (.regRead idx .a n) s =
            .next (afterFatal (.unexpectedStatus idx c.status) (afterReply idx 0 c rest s)) ∧
          exec (.cmd17 index) s = .next (afterFatal (.unexpectedStatus 17 c.status) (afterReply 17 index c rest s)) ∧
          exec (.cmd24 index) s = .next (afterFatal (.unexpectedStatus 24 c.status) (afterReply 24 index c rest s)) ∧
          exec .cmd9 s = .next (afterFatal (.unexpectedStatus 9 c.status) (afterReply 9 0 c rest s)) ∧
          exec .cmd10 s = .next (afterFatal (.unexpectedStatus 10 c.status) (afterReply 10 0 c rest s))) ∧
        (s.starts 1 →
          exec (.readSector index) s =
            .next (afterFatal (.unexpectedStatus 17 c.status)
              (afterReply 17 index c rest { s with op := 1, opArg := index }))) ∧
        (s.starts 2 →
          exec (.writeSector index data) s =
            .next (afterFatal (.unexpectedStatus 24 c.status)
              (afterReply 24 index c rest { s with op := 2, opArg := index, wdata := data }))) ∧
        (s.starts 4 →
          exec .readCid s =
            .next (afterFatal (.unexpectedStatus 10 c.status) (afterReply 10 0 c rest { s with op := 4 }))) ∧
        (s.starts 5 →
          exec .readCsd s =
            .next (afterFatal (.unexpectedStatus 9 c.status) (afterReply 9 0 c rest { s with op := 5 })))) ∧
      (s.rx = c.bytes ++ (second :: rest) →
        exec (.regRead idx .b n) s =
          .next (afterFatal (.unexpectedStatus idx c.status)
            { afterReceive [second] rest (afterReply idx 0 c [] s) with r2 := second })) ∧
      ∀ c55 : CardReply, c55.ok = true →
        (s.rx = c55.bytes ++ (c.bytes ++ rest) →
          exec .acmd51 s =
              .next (afterFatal (.unexpectedStatus 51 c.status)
                (afterReply 51 0 c rest (afterTransactA 55 0 c55 [] s))) ∧
            (s.starts 7 →
              exec .readScr s =
                .next (afterFatal (.unexpectedStatus 51 c.status)
                  (afterReply 51 0 c rest (afterTransactA 55 0 c55 [] { s with op := 7 }))))) ∧
          (s.rx = c55.bytes ++ (c.bytes ++ (second :: rest)) →
            exec .acmd13 s =
                .next (afterFatal (.unexpectedStatus 13 c.status)
                  { afterReceive [second] rest (afterReply 13 0 c [] (afterTransactA 55 0 c55 [] s)) with r2 := second }) ∧
              (s.starts 8 →
                exec .readSsr s =
                  .next (afterFatal (.unexpectedStatus 13 c.status)
                    { afterReceive [second] rest (afterReply 13 0 c [] (afterTransactA 55 0 c55 [] { s with op := 8 })) with
                      r2 := second }))) ∧
        ∀ (c41 c58 : CardReply) (ocr : List Byte), c41.ok = true → c41.status = 0 → c58.ok = true → ocr.length = 4 →
          (decodeOcr s.cfg.layouts.ocr (be32List ocr)).ccs = 1 → s.cfg.initFetchCsd = true →
            let answers := c55.bytes ++ (c41.bytes ++ (c58.bytes ++ (ocr ++ (c.bytes ++ rest))))
            let ends := fun u => Host.Outcome.next
              (afterFatal (.unexpectedStatus 9 c.status)
                (afterReply 9 0 c rest { afterOcr c55 c41 c58 ocr [] u with initialized := true }))
            (∀ k, s.resetRequest = false → s.waiting = some (.activate k) → s.rx = answers → step s = ends { s with port := none }) ∧
              ∀ (clocks : List Byte) (c0 c8 : CardReply) (echo : List Byte), s.busy = false → clocks.length = 10 →
                c0.ok = true → c0.status = 0x01 → c8.ok = true → echo.length = 4 → be32List echo &&& 0xFFF = 0x1AA →
                s.rx = clocks ++ (c0.bytes ++ (c8.bytes ++ (echo ++ answers))) →
                  exec .init s = ends (afterIfCond clocks c0 c8 echo [] s)

/-- The optional bounds: a turn that reaches its loop's bound without ending the loop is TIMEOUT (rules R180, R202, R208, R301). Of a
turn that a step resumes, and of the first turn, which the instruction itself makes: with TOKEN_WAIT_MAX = 1 in WaitToken, FetchBlock,
SectorRead, RegRead (Shapes A, B), the command rows, the host reads and INIT's descriptor fetch (its first turn also in a step that
resumes the activation loop and ends it); with BUSY_WAIT_MAX = 1 in SectorWrite, command 24 and WRITE_SECTOR; with ACMD41_ITER_MAX = 1 in
INIT. The bounds are the spec's decision D31, INIT's Reset, test of command 0 and descriptor fetch its decisions D8, D9, D16, where the
capacity bit stands its decision D22; that a command row is its whole transaction, with the prefix of an application command, and that
command 24 sends `wdata` is the model's choice (log entry 7), and so are one turn a step (log entry 3), a fetch on a card that is not
selected (log entry 8) and the effect for lengths that no rule has (log entry 20). -/
def Obligations.LoopBounds : Prop :=
  (∀ (s : State) (n : Nat) (b : Byte) (rest : List Byte), s.resetRequest = false → s.fault = none → s.rx = b :: rest →
    (∀ k, s.waiting = some (.token n k) → s.cfg.tokenWaitMax = some (n + 1) → b ≠ s.cfg.startToken →
      step s = .next (afterFatal (.timeout .token) (afterReceive [b] rest { s with port := none }))) ∧
      (s.waiting = some (.busy n) → s.cfg.busyWaitMax = some (n + 1) → b ≠ 0xFF →
        step s = .next (afterFatal (.timeout .busy) (afterReceive [b] rest { s with port := none }))) ∧
      (∀ c55 c41 more, s.waiting = some (.activate n) → s.cfg.acmd41IterMax = some (n + 1) → c55.ok = true →
        c41.ok = true → c41.status ≠ 0 → s.rx = c55.bytes ++ (c41.bytes ++ more) →
          step s =
            .next (afterFatal (.timeout .acmd41)
              (afterTransactA 41 0x40000000 c41 more (afterTransactA 55 0 c55 [] { s with port := none }))))) ∧
    (∀ (s : State) (n : Nat) (a : InitAnswers) (b : Byte) (rest : List Byte), s.resetRequest = false → s.fault = none →
      s.waiting = some (.activate n) → s.cfg.tokenWaitMax = some 1 → b ≠ s.cfg.startToken → a.handshakeOk s.cfg = true →
      s.cfg.initFetchCsd = true → a.c9.ok = true → s.cfg.r1Check = false ∨ a.c9.status = 0 →
      s.rx = a.last.1.bytes ++ (a.last.2.bytes ++ (a.c58.bytes ++ (a.ocr ++ (a.c9.bytes ++ (b :: rest))))) →
        step s =
          .next (afterFatal (.timeout .token)
            (afterReceive [b] rest (afterReply 9 0 a.c9 []
              { afterOcr a.last.1 a.last.2 a.c58 a.ocr [] { s with port := none } with initialized := true })))) ∧
    (∀ (s : State) (index : Word32) (idx : BitVec 6) (n : Nat) (c : CardReply) (b : Byte) (rest : List Byte), s.fault = none →
      s.cfg.tokenWaitMax = some 1 → b ≠ s.cfg.startToken →
        let ends := fun u : State => Host.Outcome.next (afterFatal (.timeout .token) (afterReceive [b] rest u))
        (s.rx = b :: rest → exec .waitToken s = ends s ∧ exec (.fetchBlock n) s = ends s) ∧
          (c.ok = true → s.cfg.r1Check = false ∨ c.status = 0 →
            (s.rx = c.bytes ++ (b :: rest) →
              exec (.sectorRead index) s = ends (afterReply 17 index c [] s) ∧
                exec (.regRead idx .a n) s = ends (afterReply idx 0 c [] s) ∧
                exec (.cmd17 index) s = ends (afterReply 17 index c [] s) ∧
                exec .cmd9 s = ends (afterReply 9 0 c [] s) ∧ exec .cmd10 s = ends (afterReply 10 0 c [] s) ∧
                (s.starts 1 →
                  exec (.readSector index) s = ends (afterReply 17 index c [] { s with op := 1, opArg := index })) ∧
                (s.starts 4 → exec .readCid s = ends (afterReply 10 0 c [] { s with op := 4 })) ∧
                (s.starts 5 → exec .readCsd s = ends (afterReply 9 0 c [] { s with op := 5 }))) ∧
              ∀ second : Byte,
                (s.rx = c.bytes ++ (second :: b :: rest) →
                  exec (.regRead idx .b n) s =
                    ends { afterReceive [second] [] (afterReply idx 0 c [] s) with r2 := second }) ∧
                  ∀ c55 : CardReply, c55.ok = true →
                    (s.rx = c55.bytes ++ (c.bytes ++ (b :: rest)) →
                      exec .acmd51 s = ends (afterReply 51 0 c [] (afterTransactA 55 0 c55 [] s)) ∧
                        (s.starts 7 →
                          exec .readScr s = ends (afterReply 51 0 c [] (afterTransactA 55 0 c55 [] { s with op := 7 })))) ∧
                      (s.rx = c55.bytes ++ (c.bytes ++ (second :: b :: rest)) →
                        exec .acmd13 s =
                            ends { afterReceive [second] [] (afterReply 13 0 c [] (afterTransactA 55 0 c55 [] s)) with
                              r2 := second } ∧
                          (s.starts 8 →
                            exec .readSsr s =
                              ends { afterReceive [second] []
                                (afterReply 13 0 c [] (afterTransactA 55 0 c55 [] { s with op := 8 })) with r2 := second })))) ∧
    (∀ (s : State) (index : Word32) (data ans : List Byte) (accept b : Byte) (c : CardReply) (rest : List Byte), s.fault = none →
      c.ok = true → s.cfg.r1Check = false ∨ c.status = 0 → s.cfg.busyWaitMax = some 1 → b ≠ 0xFF → data.length = 512 →
      ans.length = 516 → s.rx = c.bytes ++ (ans ++ (accept :: b :: rest)) →
        let t := fun u : State =>
          Host.Outcome.next (afterFatal (.timeout .busy)
            (afterReceive [b] rest (afterOutbound data ans accept [] (afterReply 24 index c [] u))))
        exec (.sectorWrite index data) s = t s ∧ (s.wdata = data → exec (.cmd24 index) s = t s) ∧
          (s.starts 2 → exec (.writeSector index data) s = t { s with op := 2, opArg := index, wdata := data })) ∧
    (∀ (s : State) (clocks echo rest : List Byte) (c0 c8 c55 c41 : CardReply), s.fault = none → s.busy = false →
      s.cfg.acmd41IterMax = some 1 → clocks.length = 10 → c0.ok = true → c0.status = 0x01 → c8.ok = true → echo.length = 4 →
      be32List echo &&& 0xFFF = 0x1AA → c55.ok = true → c41.ok = true → c41.status ≠ 0 →
      s.rx = clocks ++ (c0.bytes ++ (c8.bytes ++ (echo ++ (c55.bytes ++ (c41.bytes ++ rest))))) →
        exec .init s =
          .next (afterFatal (.timeout .acmd41)
            (afterTransactA 41 0x40000000 c41 rest (afterTransactA 55 0 c55 []
              (afterTransactCD 8 0x1AA c8 echo [] (afterTransactA 0 0 c0 [] (afterClocks clocks s))))))) ∧
    ∀ (s : State) (a : InitAnswers) (b : Byte) (rest : List Byte), s.fault = none → s.busy = false →
      s.cfg.tokenWaitMax = some 1 → b ≠ s.cfg.startToken → a.handshakeOk s.cfg = true → a.retries = [] →
      s.cfg.initFetchCsd = true → a.c9.ok = true → s.cfg.r1Check = false ∨ a.c9.status = 0 →
      s.rx = a.handshakeBytes ++ (a.c9.bytes ++ (b :: rest)) →
        exec .init s =
          .next (afterFatal (.timeout .token)
            (afterReceive [b] rest (afterReply 9 0 a.c9 [] { afterHandshake a [] s with result := s.result })))

/-- Without a bound the three loops go on as long as the card does not end them: the operation never returns, no fault is
latched, and each byte, or each iteration, is recorded (rule R330). One turn a step is the model's choice (log entry 3). -/
def Obligations.Hangs : Prop :=
  ∀ (s : State) (rest : List Byte), s.resetRequest = false → s.fault = none → s.port = none →
    (∀ (bs : List Byte) (n : Nat) (k : AfterToken), bs ≠ [] → s.waiting = some (.token n k) → s.cfg.tokenWaitMax = none →
      (∀ b ∈ bs, b ≠ s.cfg.startToken) → s.rx = bs ++ rest →
        core.run bs.length s =
          .next { afterReceive bs rest s with
            waiting := some (.token (n + bs.length) k), seq := ⟨s.seq.main, some .pToken⟩ }) ∧
      (∀ (bs : List Byte) (n : Nat), bs ≠ [] → s.waiting = some (.busy n) → s.cfg.busyWaitMax = none →
        (∀ b ∈ bs, b ≠ 0xFF) → s.rx = bs ++ rest →
          core.run bs.length s =
            .next { afterReceive bs rest s with
              waiting := some (.busy (n + bs.length)), seq := ⟨s.seq.main, some .pBusy⟩ }) ∧
      ∀ (its : List (CardReply × CardReply)) (n : Nat), its ≠ [] → s.waiting = some (.activate n) →
        s.cfg.acmd41IterMax = none → (∀ p ∈ its, p.1.ok = true ∧ p.2.ok = true ∧ p.2.status ≠ 0) →
        s.rx = its.flatMap (fun p => p.1.bytes ++ p.2.bytes) ++ rest →
          ∃ t, core.run its.length s = .next t ∧ t.fault = none ∧ t.busy = true ∧
            t.waiting = some (.activate (n + its.length)) ∧ t.rx = rest ∧
            t.trace = (its.flatMap (fun p => iterationEvents p ++ [.delay 10])).reverse ++ s.trace

/-! ### INIT -/

/-- INIT on a card with block addressing, in the step that ends the activation loop, with and without the descriptor fetch (rules R171 to
R187): of the first iteration, which the request itself makes, and of one that a step resumes. When the descriptor's token comes at once INIT
is complete: `initialized` is set, `sector_count` computed, the engine idle; with another byte first it is in the token wait, from which
statement TokenWaitRun goes on. One turn of a loop a step is the model's choice (log entry 3), and so is the value `done` (log entry 11). The
fetch in Terminal is the spec's decision D16, the Reset bytes its decision D8, the exact test of command 0 its decision D9, where the fields
of the registers stand its decision D22. -/
def Obligations.InitCompletes : Prop :=
  ∀ (s : State) (a : InitAnswers) (b : Byte) (rest : List Byte), s.fault = none → s.filler = Config.fillerBuffer →
    a.handshakeOk s.cfg = true →
      (s.busy = false → a.retries = [] →
        (s.cfg.initFetchCsd = false → s.rx = a.handshakeBytes ++ rest → exec .init s = .next (afterHandshake a rest s)) ∧
          (s.cfg.initFetchCsd = true → a.fetchOk s.cfg = true → a.early = [] →
            s.rx = a.handshakeBytes ++ (a.fetchBytes s.cfg.startToken ++ rest) → exec .init s = .next (afterInit a rest s)) ∧
          (s.cfg.initFetchCsd = true → a.fetchOk s.cfg = true → b ≠ s.cfg.startToken → s.cfg.tokenWaitMax ≠ some 1 →
            s.rx = a.handshakeBytes ++ (a.c9.bytes ++ (b :: rest)) →
              exec .init s =
                .next (afterFirstPoll .iTerminal 16 .initCsd b rest
                  (afterReply 9 0 a.c9 [] { afterHandshake a [] s with result := s.result })))) ∧
      ∀ n, s.resetRequest = false → s.waiting = some (.activate n) →
        let loop := fun more => a.last.1.bytes ++ (a.last.2.bytes ++ (a.c58.bytes ++ (a.ocr ++ more)))
        let u := fun more => { afterOcr a.last.1 a.last.2 a.c58 a.ocr more { s with port := none } with initialized := true }
        (s.cfg.initFetchCsd = false → s.rx = loop rest → step s = .next (afterEnd .done (u rest))) ∧
          (s.cfg.initFetchCsd = true → a.fetchOk s.cfg = true → a.early = [] →
            s.rx = loop (a.fetchBytes s.cfg.startToken ++ rest) →
              step s =
                .next (afterEnd .done
                  { afterFetch 9 0 a.c9 [] a.csd a.trail rest (u []) with
                    sectorCount := sectorCountOf (decodeCsd s.cfg.layouts.csd a.csd) s.cfg.sectorCountBias })) ∧
          (s.cfg.initFetchCsd = true → a.fetchOk s.cfg = true → b ≠ s.cfg.startToken → s.cfg.tokenWaitMax ≠ some 1 →
            s.rx = loop (a.c9.bytes ++ (b :: rest)) →
              step s = .next (afterFirstPoll .iTerminal 16 .initCsd b rest (afterReply 9 0 a.c9 [] (u []))))

/-- The whole of INIT from the request: the commands 0, 8, (55, 41)*, 58 with L iterations of the activation loop, and with the
descriptor fetch command 9 with T bytes before the start token, end in L steps, and with the fetch in L + T steps, with `initialized` set,
with the fetch `sector_count` computed from the descriptor, and the engine idle (rules R171 to R187). The steps are the model's choice (log
entries 3, 5), and so is the value `done` (log entry 11). Reset is the spec's decision D8, the exact test of command 0 its decision D9, the
descriptor fetch its decision D16, where the fields of the registers stand its decision D22. -/
def Obligations.InitRun : Prop :=
  ∀ (s : State) (a : InitAnswers) (h : HostWord) (rest : List Byte), s.resetRequest = false → s.fault = none →
    s.busy = false → s.waiting = none → s.port = some (.hostop h) → h.op = 0 → s.cfg.acmd41IterMax = none →
    a.handshakeOk s.cfg = true →
      (s.cfg.initFetchCsd = false → s.rx = a.handshakeBytes ++ rest →
        core.run (a.retries.length + 1) s = .next (afterHandshake a rest { s with port := none })) ∧
        (s.cfg.initFetchCsd = true → s.filler = Config.fillerBuffer → s.cfg.tokenWaitMax = none → a.fetchOk s.cfg = true →
          s.rx = a.handshakeBytes ++ (a.fetchBytes s.cfg.startToken ++ rest) →
            core.run (a.retries.length + 1 + a.early.length) s = .next (afterInit a rest { s with port := none }))

/-- INIT's tests of commands 0 and 8: command 0 must answer 0x01 exactly, which is the spec's decision D9, and command 8 must echo;
each failure is latched with the transaction closed (rules R175, R178, R303, R304). The third test, of the capacity bit, is statement
ByteAddressing. The order of the events in Reset is the spec's decision D8. -/
def Obligations.InitFaults : Prop :=
  ∀ (s : State) (clocks rest : List Byte) (c0 c8 : CardReply) (echo : List Byte), s.fault = none → s.busy = false →
    clocks.length = 10 → c0.ok = true →
      (c0.status ≠ 0x01 → s.rx = clocks ++ (c0.bytes ++ rest) →
        exec .init s =
          .next (afterFatal (.unexpectedStatus 0 c0.status) (afterTransactA 0 0 c0 rest (afterClocks clocks s)))) ∧
        (c0.status = 0x01 → c8.ok = true → echo.length = 4 → be32List echo &&& 0xFFF ≠ 0x1AA →
          s.rx = clocks ++ (c0.bytes ++ (c8.bytes ++ (echo ++ rest))) →
            exec .init s =
              .next (afterFatal (.ifcondMismatch (be32List echo))
                (afterTransactCD 8 0x1AA c8 echo rest (afterTransactA 0 0 c0 [] (afterClocks clocks s)))))

/-- The byte-addressing path, when the capacity bit of the operating conditions is 0: command 16 is put on the link if
INIT_CMD16_ISSUED, and then the fault ADDRESSING_UNSUPPORTED is raised; `initialized` is not set (rules R184, R304). Stated of
the iteration that ends the activation loop, be it the first one of INIT or one that goes on from a wait. Command 16 before the
fault is the spec's decision D15, where the capacity bit stands its decision D22 (statement DecodeOtherRows), the exact test
of command 0 its decision D9. -/
def Obligations.ByteAddressing : Prop :=
  ∀ (s : State) (n : Nat) (c0 c8 c55 c41 c58 c16 : CardReply) (clocks echo ocr rest : List Byte), s.fault = none →
    c55.ok = true → c41.ok = true → c41.status = 0 → c58.ok = true → ocr.length = 4 →
    (decodeOcr s.cfg.layouts.ocr (be32List ocr)).ccs = 0 →
      let t := fun more u => { afterTransactCD 58 0 c58 ocr more
        (afterTransactA 41 0x40000000 c41 [] (afterTransactA 55 0 c55 [] u)) with ocrRaw := be32List ocr }
      (s.resetRequest = false → s.waiting = some (.activate n) →
        (s.cfg.initCmd16Issued = false → s.rx = c55.bytes ++ (c41.bytes ++ (c58.bytes ++ (ocr ++ rest))) →
          step s = .next (afterFatal (.addressingUnsupported (be32List ocr)) (t rest { s with port := none }))) ∧
          (s.cfg.initCmd16Issued = true → c16.ok = true →
            s.rx = c55.bytes ++ (c41.bytes ++ (c58.bytes ++ (ocr ++ (c16.bytes ++ rest)))) →
              step s =
                .next (afterFatal (.addressingUnsupported (be32List ocr))
                  (afterTransactA 16 512 c16 rest (t [] { s with port := none }))))) ∧
        (s.busy = false → clocks.length = 10 → c0.ok = true → c0.status = 0x01 → c8.ok = true → echo.length = 4 →
          be32List echo &&& 0xFFF = 0x1AA →
            let u := afterTransactCD 8 0x1AA c8 echo [] (afterTransactA 0 0 c0 [] (afterClocks clocks s))
            (s.cfg.initCmd16Issued = false →
              s.rx = clocks ++ (c0.bytes ++ (c8.bytes ++ (echo ++
                (c55.bytes ++ (c41.bytes ++ (c58.bytes ++ (ocr ++ rest))))))) →
                exec .init s = .next (afterFatal (.addressingUnsupported (be32List ocr)) (t rest u))) ∧
              (s.cfg.initCmd16Issued = true → c16.ok = true →
                s.rx = clocks ++ (c0.bytes ++ (c8.bytes ++ (echo ++
                  (c55.bytes ++ (c41.bytes ++ (c58.bytes ++ (ocr ++ (c16.bytes ++ rest)))))))) →
                  exec .init s =
                    .next (afterFatal (.addressingUnsupported (be32List ocr)) (afterTransactA 16 512 c16 rest (t [] u)))))

/-! ### Whole operations from the request -/

/-- READ_SECTOR from the request returns exactly the 512 bytes the card sends after the start token, for any status poll,
any T bytes before the token, any trailing field; it makes 6 + (N + 1) + (T + 1) + 512 + 2 exchanges (rules R204, R284,
R360). The steps are the model's choice (log entries 3, 5). -/
def Obligations.ReadSectorRun : Prop :=
  ∀ (s : State) (h : HostWord) (c : CardReply) (early data trail rest : List Byte), s.resetRequest = false →
    s.starts 1 → s.waiting = none → s.port = some (.hostop h) → h.op = 1 → s.filler = Config.fillerBuffer →
    s.cfg.tokenWaitMax = none → c.ok = true → (s.cfg.r1Check = false ∨ c.status = 0) →
    (∀ b ∈ early, b ≠ s.cfg.startToken) → data.length = 512 → trail.length = 2 →
    s.rx = c.bytes ++ (early ++ s.cfg.startToken :: (data ++ (trail ++ rest))) →
      core.run (early.length + 1) s =
        .next (afterEnd (.bytes data)
          (afterFetch 17 h.arg c early data trail rest { s with port := none, op := 1, opArg := h.arg })) ∧
      (afterFetch 17 h.arg c early data trail rest s).trace.length =
        s.trace.length + (6 + (c.skip.length + 1) + (early.length + 1) + 512 + 2) + 2

/-- WRITE_SECTOR from the request, with a card that is busy for K polls: exactly K + 1 busy polls, the data sent as it is,
and 6 + (N + 1) + 1 + 1 + 512 + 2 + 1 + (K + 1) exchanges (rules R208, R285, R360). The steps are the model's choice (log
entries 3, 5), and so is the value `done` (log entry 11); the checksum field is the spec's decision D18. -/
def Obligations.WriteSectorRun : Prop :=
  ∀ (s : State) (h : HostWord) (c : CardReply) (ans : List Byte) (accept : Byte) (busy rest : List Byte),
    s.resetRequest = false → s.starts 2 → s.waiting = none → s.port = some (.hostop h) → h.op = 2 →
    s.cfg.busyWaitMax = none → c.ok = true → (s.cfg.r1Check = false ∨ c.status = 0) → h.wdata.length = 512 →
    ans.length = 516 → (∀ b ∈ busy, b ≠ 0xFF) → (s.cfg.wrespCheck = false ∨ accept &&& 0x1F = 0x05) →
    s.rx = c.bytes ++ (ans ++ (accept :: (busy ++ 0xFF :: rest))) →
      core.run (busy.length + 1) s =
        .next (afterEnd .done
          (afterWrite h.arg c h.wdata ans accept busy rest
            { s with port := none, op := 2, opArg := h.arg, wdata := h.wdata })) ∧
      (afterWrite h.arg c h.wdata ans accept busy rest s).trace.length =
        s.trace.length + (6 + (c.skip.length + 1) + 1 + 1 + 512 + 2 + 1 + (busy.length + 1)) + 2

/-- The token wait of any operation that fetches a block, with T bytes before the token: T + 1 steps, then the operation
goes on with the block in `buf` (rules R202, R203). The steps are the model's choice (log entry 3), and so is the effect for lengths
that no rule has (log entry 20). -/
def Obligations.TokenWaitRun : Prop :=
  ∀ (s : State) (n m : Nat) (k : AfterBlock) (early data trail rest : List Byte), s.resetRequest = false → s.fault = none →
    s.waiting = some (.token n (.block m k)) → s.filler = Config.fillerBuffer → s.cfg.tokenWaitMax = none →
    (∀ b ∈ early, b ≠ s.cfg.startToken) → data.length = m → m ≤ 512 → trail.length = 2 →
    s.rx = early ++ s.cfg.startToken :: (data ++ (trail ++ rest)) →
      core.run (early.length + 1) s =
        .next (afterBlock m k
          { afterInbound s.cfg.startToken early data trail rest s with
            port := none, waiting := none, seq := ⟨s.seq.main, some (.pCrc 1)⟩ })

/-! ### The Register Decoder -/

/-- DecodeCID returns the fields of the engine's layout, which is a parameter, and changes nothing else; with the table of rule
R232 they are these. The table is the spec's decision D22, that the value is in `result` the model's choice (log entry 11), and so is,
in the first clause, the value for a raw buffer that is not 16 bytes long (log entry 20). -/
def Obligations.DecodeCidRow : Prop :=
  (∀ (s : State) (raw : List Byte), s.fault = none →
    exec (.decodeCid raw) s = .next { s with result := some (.cid (decodeCid s.cfg.layouts.cid raw)) }) ∧
  ∀ (s : State) (b0 b1 b2 b3 b4 b5 b6 b7 b8 b9 b10 b11 b12 b13 b14 b15 : Byte), s.fault = none →
    s.cfg.layouts.cid = layoutCid →
    exec (.decodeCid [b0, b1, b2, b3, b4, b5, b6, b7, b8, b9, b10, b11, b12, b13, b14, b15]) s =
      .next { s with
        result := some (.cid
          { mid := b0
            oid := b1 ++ b2
            pnm := b3 ++ b4 ++ b5 ++ b6 ++ b7
            prv := b8
            psn := b9 ++ b10 ++ b11 ++ b12
            mdt := b13.extractLsb' 0 4 ++ b14
            crc := b15.extractLsb' 1 7 }) }

/-- DecodeCSD returns the fields of the engine's layout, which is a parameter, all of them whatever the version, and changes
nothing else; with the table of rule R240 they are these. The table is the spec's decision D22, that the value is in `result`
the model's choice (log entry 11), and so is, in the first clause, the value for a raw buffer that is not 16 bytes long (log entry
20). The component `c_size` is computed by `csdCapacity` (log entry 24, statement SectorCount). -/
def Obligations.DecodeCsdRow : Prop :=
  (∀ (s : State) (raw : List Byte), s.fault = none →
    exec (.decodeCsd raw) s = .next { s with result := some (.csd (decodeCsd s.cfg.layouts.csd raw)) }) ∧
  ∀ (s : State) (b0 b1 b2 b3 b4 b5 b6 b7 b8 b9 b10 b11 b12 b13 b14 b15 : Byte), s.fault = none →
    s.cfg.layouts.csd = layoutCsd →
    exec (.decodeCsd [b0, b1, b2, b3, b4, b5, b6, b7, b8, b9, b10, b11, b12, b13, b14, b15]) s =
      .next { s with
        result := some (.csd
          { csd_structure := b0.extractLsb' 6 2
            taac := b1
            nsac := b2
            tran_speed := b3
            ccc := b4 ++ b5.extractLsb' 4 4
            read_bl_len := b5.extractLsb' 0 4
            read_bl_partial := b6.extractLsb' 7 1
            write_blk_misalign := b6.extractLsb' 6 1
            read_blk_misalign := b6.extractLsb' 5 1
            dsr_imp := b6.extractLsb' 4 1
            c_size_v1 := b6.extractLsb' 0 2 ++ b7 ++ b8.extractLsb' 6 2
            vdd_r_curr_min := b8.extractLsb' 3 3
            vdd_r_curr_max := b8.extractLsb' 0 3
            vdd_w_curr_min := b9.extractLsb' 5 3
            vdd_w_curr_max := b9.extractLsb' 2 3
            c_size_mult := b9.extractLsb' 0 2 ++ b10.extractLsb' 7 1
            c_size_v2 := b7.extractLsb' 0 6 ++ b8 ++ b9
            erase_blk_en := b10.extractLsb' 6 1
            sector_size := b10.extractLsb' 0 6 ++ b11.extractLsb' 7 1
            wp_grp_size := b11.extractLsb' 0 7
            wp_grp_enable := b12.extractLsb' 7 1
            r2w_factor := b12.extractLsb' 2 3
            write_bl_len := b12.extractLsb' 0 2 ++ b13.extractLsb' 6 2
            write_bl_partial := b13.extractLsb' 5 1
            file_format_grp := b14.extractLsb' 7 1
            copy := b14.extractLsb' 6 1
            perm_write_protect := b14.extractLsb' 5 1
            tmp_write_protect := b14.extractLsb' 4 1
            file_format := b14.extractLsb' 2 2
            crc := b15.extractLsb' 1 7 }) }

/-- DecodeOCR, DecodeSCR and DecodeSSR return the fields of the engine's layouts, which are parameters, and change nothing else;
with the tables of rules R250, R255 and R260 they are these. The last clause is of the status flags of the latest response (rules R28,
R95): with the table of rule R95 they are the bits of `r1`, from bit 0 up. The tables are the spec's decision D22, the voltage window its
decision D23, that the value is in `result` the model's choice (log entry 11), and so is, in the first clauses of SCR and SSR, the value
for a raw buffer that is not 8 or 64 bytes long (log entry 20), and, with another table, a row of another width (log entry 26). -/
def Obligations.DecodeOtherRows : Prop :=
  (∀ (s : State) (v : Word32) (raw : List Byte), s.fault = none →
    exec (.decodeOcr v) s = .next { s with result := some (.ocr (decodeOcr s.cfg.layouts.ocr v)) } ∧
      exec (.decodeScr raw) s = .next { s with result := some (.scr (decodeScr s.cfg.layouts.scr raw)) } ∧
      exec (.decodeSsr raw) s = .next { s with result := some (.ssr (decodeSsr s.cfg.layouts.ssr raw)) }) ∧
  (∀ (s : State), s.fault = none → s.cfg.layouts = defaultLayouts →
    (∀ v : Word32, exec (.decodeOcr v) s =
      .next { s with
        result := some (.ocr
          { power_up_ready := v.extractLsb' 31 1
            ccs := v.extractLsb' 30 1
            vdd_window := v.extractLsb' 4 20
            raw := v }) }) ∧
      (∀ b0 b1 b2 b3 b4 b5 b6 b7 : Byte, exec (.decodeScr [b0, b1, b2, b3, b4, b5, b6, b7]) s =
        .next { s with
          result := some (.scr
            { scr_structure := b0.extractLsb' 4 4
              sd_spec := b0.extractLsb' 0 4
              data_stat_after_erase := b1.extractLsb' 7 1
              sd_security := b1.extractLsb' 4 3
              sd_bus_widths := b1.extractLsb' 0 4
              sd_spec3 := b2.extractLsb' 7 1
              ex_security := b2.extractLsb' 3 4
              sd_spec4 := b2.extractLsb' 2 1
              sd_specx := b2.extractLsb' 0 2 ++ b3.extractLsb' 6 2
              cmd_support := b3.extractLsb' 0 4 }) }) ∧
      ∀ (b0 b1 b2 b3 b4 b5 b6 b7 b8 b9 b10 b11 b12 b13 : Byte) (more : List Byte), more.length = 50 →
        exec (.decodeSsr (b0 :: b1 :: b2 :: b3 :: b4 :: b5 :: b6 :: b7 :: b8 :: b9 :: b10 :: b11 :: b12 :: b13 :: more)) s =
          .next { s with
            result := some (.ssr
              { dat_bus_width := b0.extractLsb' 6 2
                secured_mode := b0.extractLsb' 5 1
                sd_card_type := b2 ++ b3
                size_of_protected_area := b4 ++ b5 ++ b6 ++ b7
                speed_class := b8
                performance_move := b9
                au_size := b10.extractLsb' 4 4
                erase_size := b11 ++ b12
                erase_timeout := b13.extractLsb' 2 6
                erase_offset := b13.extractLsb' 0 2 }) }) ∧
  ∀ s : State, s.cfg.layouts = defaultLayouts →
    s.statusFlags =
      { idleState := s.r1.getLsbD 0
        eraseReset := s.r1.getLsbD 1
        illegalCommand := s.r1.getLsbD 2
        checksumError := s.r1.getLsbD 3
        eraseSequenceError := s.r1.getLsbD 4
        addressError := s.r1.getLsbD 5
        parameterError := s.r1.getLsbD 6 }

/-- Decoding what was packed gives the record back, for every record, with the spec's own layouts; the capacity descriptor with
its version's own rows, the fields of the other version aside (rule R266). The packers take bit 0, the model's choice (log
entry 18), and the operating conditions are packed without the row of all 32 bits, so that `raw` comes back as the word packed:
the model's choice (log entry 25). -/
def Obligations.DecodePack : Prop :=
  (∀ (e : BitVec 1) (r : CID), decodeCid layoutCid (packCid layoutCid e r) = r) ∧
    (∀ r : SCR, decodeScr layoutScr (packScr layoutScr r) = r) ∧
    (∀ r : SSR, decodeSsr layoutSsr (packSsr layoutSsr r) = r) ∧
    (∀ r : OCR, decodeOcr layoutOcr (packOcr layoutOcr r) = { r with raw := packOcr layoutOcr r }) ∧
    ∀ (e : BitVec 1) (r : CSD), let d := decodeCsd layoutCsd (packCsd layoutCsd e r)
      (r.csd_structure = 0 → { d with c_size_v2 := r.c_size_v2 } = r) ∧
        (r.csd_structure ≠ 0 →
          { d with
            c_size_v1 := r.c_size_v1, vdd_r_curr_min := r.vdd_r_curr_min, vdd_r_curr_max := r.vdd_r_curr_max
            vdd_w_curr_min := r.vdd_w_curr_min, vdd_w_curr_max := r.vdd_w_curr_max, c_size_mult := r.c_size_mult } = r)

/-- Packing what was decoded gives the register with its reserved bits cleared, for every register, with the spec's own layouts
(rule R266); bit 0 of the identification and capacity registers is the one given to the packer, the model's choice (log entry
18), and that the operating conditions are packed without the row of all 32 bits is the model's choice too (log entry 25). -/
def Obligations.PackDecode : Prop :=
  (∀ (e : BitVec 1) (raw : List Byte), raw.length = 16 →
    packCid layoutCid e (decodeCid layoutCid raw) =
        natBytes 16 ((rawNat raw &&& fieldMask (cidFields layoutCid)) ||| e.toNat) ∧
      packCsd layoutCsd e (decodeCsd layoutCsd raw) =
        natBytes 16
          ((rawNat raw &&& fieldMask (csdFields layoutCsd (decodeCsd layoutCsd raw).csd_structure)) ||| e.toNat)) ∧
    (∀ raw : List Byte, raw.length = 8 →
      packScr layoutScr (decodeScr layoutScr raw) = natBytes 8 (rawNat raw &&& fieldMask (scrFields layoutScr))) ∧
    (∀ raw : List Byte, raw.length = 64 →
      packSsr layoutSsr (decodeSsr layoutSsr raw) = natBytes 64 (rawNat raw &&& fieldMask (ssrFields layoutSsr))) ∧
    ∀ v : Word32,
      packOcr layoutOcr (decodeOcr layoutOcr v) = BitVec.ofNat 32 (v.toNat &&& fieldMask (ocrFields layoutOcr))

/-- The capacity field by version and the sector count computed from it, which fits 32 bits with bias 0 (rules R14, R186,
R242, R243). The choice by version is the spec's decision D24, the width and the bias its decision D37. -/
def Obligations.SectorCount : Prop :=
  ∀ c : CSD,
    (c.csd_structure = 0 → (csdCapacity c).toNat = c.c_size_v1.toNat) ∧
      (c.csd_structure ≠ 0 → csdCapacity c = c.c_size_v2) ∧
      (sectorCountOf c 0).toNat = (csdCapacity c).toNat * 1024 ∧
      (csdCapacity c = 0x3FFFFF → sectorCountOf c 1 = 0)

/-! ### The received formats -/

/-- The received formats with the card selected: the bytes of the format are received while filler is transmitted, and the value of
the format is latched (rules R95 to R97, R102, R103). That a row of the table runs the operation that receives it is the
model's choice (log entry 6). -/
def Obligations.ReceivedFormats : Prop :=
  ∀ (s : State) (flags : BitVec 7) (second : Byte) (payload : Word32) (code : Byte), s.fault = none → s.cs = true →
    exec (.respFormatA flags) s =
        .next { s with
          pollCnt := 1
          r1 := 0#1 ++ flags
          seq := ⟨s.seq.main, some (.pPoll 1)⟩
          trace := .x 0xFF (0#1 ++ flags) :: s.trace
          result := some (.byte (0#1 ++ flags)) } ∧
      exec (.respFormatB flags second) s =
        .next { s with
          pollCnt := 1
          r1 := 0#1 ++ flags
          r2 := second
          seq := ⟨s.seq.main, some (.pExtra 0)⟩
          trace := .x 0xFF second :: .x 0xFF (0#1 ++ flags) :: s.trace
          result := some (.status2 (0#1 ++ flags) second) } ∧
      exec (.respFormatCD flags payload) s =
        .next { s with
          pollCnt := 1
          r1 := 0#1 ++ flags
          payload := payload
          seq := ⟨s.seq.main, some (.pExtra 3)⟩
          trace := .x 0xFF (payload.extractLsb' 0 8) :: .x 0xFF (payload.extractLsb' 8 8) ::
            .x 0xFF (payload.extractLsb' 16 8) :: .x 0xFF (payload.extractLsb' 24 8) :: .x 0xFF (0#1 ++ flags) :: s.trace
          result := some (.statusPayload (0#1 ++ flags) payload) } ∧
      exec (.dresp code) s =
        .next { s with
          wresp := code
          seq := ⟨s.seq.main, some .pWResp⟩
          trace := .x 0xFF code :: s.trace
          result := some (.byte code) } ∧
      (s.waiting = none →
        exec .startToken s =
          .next { s with
            seq := ⟨s.seq.main, some .pToken⟩
            trace := .x 0xFF s.cfg.startToken :: s.trace
            result := some .done })

/-- Nothing of a response or a data phase is received while the card is not selected (rule R23), and the start token ends the token wait
that is running (rule R202): WaitToken's own, and that of a block, which is then received. The model's choice, log entry 6, and for
block lengths that no rule has log entry 20. -/
def Obligations.ReceivedFormatsElsewhere : Prop :=
  ∀ (s : State) (flags : BitVec 7) (second : Byte) (payload : Word32) (code : Byte), s.fault = none →
    (s.cs = false →
      exec (.respFormatA flags) s = .next s ∧ exec (.respFormatB flags second) s = .next s ∧
        exec (.respFormatCD flags payload) s = .next s ∧ exec (.dresp code) s = .next s ∧ exec .startToken s = .next s) ∧
      ∀ n, s.cs = true →
        (s.waiting = some (.token n .ret) →
          exec .startToken s =
            .next (afterEnd .done { s with trace := .x 0xFF s.cfg.startToken :: s.trace })) ∧
        ∀ (m : Nat) (k : AfterBlock) (data trail rest : List Byte), s.waiting = some (.token n (.block m k)) →
          s.filler = Config.fillerBuffer → data.length = m → m ≤ 512 → trail.length = 2 → s.rx = data ++ (trail ++ rest) →
            exec .startToken s =
              .next (afterBlock m k
                { afterInbound s.cfg.startToken [] data trail rest s with
                  waiting := none, seq := ⟨s.seq.main, some (.pCrc 1)⟩ })
end

