-- ==== Sys2Proof/Laws/After.lean ====
section
/-! SUPPORT. One lemma per field of `State` per state that the statements speak of (`afterReply`, `afterTransactA`,
`afterTransactCD`, `afterReceive`, `afterDeselect`, `afterEnd`, `afterFatal`), each true by `rfl`. -/

namespace Sys2Proof.Machine

@[simp] theorem afterReply_cfg (idx : BitVec 6) (arg : Word32) (c : CardReply) (rest : List Byte) (s : State) :
    (afterReply idx arg c rest s).cfg = s.cfg := rfl
@[simp] theorem afterReply_link (idx : BitVec 6) (arg : Word32) (c : CardReply) (rest : List Byte) (s : State) :
    (afterReply idx arg c rest s).link = s.link := rfl
@[simp] theorem afterReply_filler (idx : BitVec 6) (arg : Word32) (c : CardReply) (rest : List Byte) (s : State) :
    (afterReply idx arg c rest s).filler = s.filler := rfl
@[simp] theorem afterReply_initialized (idx : BitVec 6) (arg : Word32) (c : CardReply) (rest : List Byte) (s : State) :
    (afterReply idx arg c rest s).initialized = s.initialized := rfl
@[simp] theorem afterReply_sectorCount (idx : BitVec 6) (arg : Word32) (c : CardReply) (rest : List Byte) (s : State) :
    (afterReply idx arg c rest s).sectorCount = s.sectorCount := rfl
@[simp] theorem afterReply_fault (idx : BitVec 6) (arg : Word32) (c : CardReply) (rest : List Byte) (s : State) :
    (afterReply idx arg c rest s).fault = s.fault := rfl
@[simp] theorem afterReply_cs (idx : BitVec 6) (arg : Word32) (c : CardReply) (rest : List Byte) (s : State) :
    (afterReply idx arg c rest s).cs = true := rfl
@[simp] theorem afterReply_seq (idx : BitVec 6) (arg : Word32) (c : CardReply) (rest : List Byte) (s : State) :
    (afterReply idx arg c rest s).seq = ⟨s.seq.main, some (.pPoll (c.skip.length + 1))⟩ := rfl
@[simp] theorem afterReply_waiting (idx : BitVec 6) (arg : Word32) (c : CardReply) (rest : List Byte) (s : State) :
    (afterReply idx arg c rest s).waiting = s.waiting := rfl
@[simp] theorem afterReply_op (idx : BitVec 6) (arg : Word32) (c : CardReply) (rest : List Byte) (s : State) :
    (afterReply idx arg c rest s).op = s.op := rfl
@[simp] theorem afterReply_opArg (idx : BitVec 6) (arg : Word32) (c : CardReply) (rest : List Byte) (s : State) :
    (afterReply idx arg c rest s).opArg = s.opArg := rfl
@[simp] theorem afterReply_wdata (idx : BitVec 6) (arg : Word32) (c : CardReply) (rest : List Byte) (s : State) :
    (afterReply idx arg c rest s).wdata = s.wdata := rfl
@[simp] theorem afterReply_crc (idx : BitVec 6) (arg : Word32) (c : CardReply) (rest : List Byte) (s : State) :
    (afterReply idx arg c rest s).crc = crc7 (frameBody idx arg) := rfl
@[simp] theorem afterReply_frame (idx : BitVec 6) (arg : Word32) (c : CardReply) (rest : List Byte) (s : State) :
    (afterReply idx arg c rest s).frame = frameBytes idx arg := rfl
@[simp] theorem afterReply_pollCnt (idx : BitVec 6) (arg : Word32) (c : CardReply) (rest : List Byte) (s : State) :
    (afterReply idx arg c rest s).pollCnt = BitVec.ofNat 4 (c.skip.length + 1) := rfl
@[simp] theorem afterReply_r1 (idx : BitVec 6) (arg : Word32) (c : CardReply) (rest : List Byte) (s : State) :
    (afterReply idx arg c rest s).r1 = c.status := rfl
@[simp] theorem afterReply_r2 (idx : BitVec 6) (arg : Word32) (c : CardReply) (rest : List Byte) (s : State) :
    (afterReply idx arg c rest s).r2 = s.r2 := rfl
@[simp] theorem afterReply_payload (idx : BitVec 6) (arg : Word32) (c : CardReply) (rest : List Byte) (s : State) :
    (afterReply idx arg c rest s).payload = s.payload := rfl
@[simp] theorem afterReply_ocrRaw (idx : BitVec 6) (arg : Word32) (c : CardReply) (rest : List Byte) (s : State) :
    (afterReply idx arg c rest s).ocrRaw = s.ocrRaw := rfl
@[simp] theorem afterReply_buf (idx : BitVec 6) (arg : Word32) (c : CardReply) (rest : List Byte) (s : State) :
    (afterReply idx arg c rest s).buf = s.buf := rfl
@[simp] theorem afterReply_wresp (idx : BitVec 6) (arg : Word32) (c : CardReply) (rest : List Byte) (s : State) :
    (afterReply idx arg c rest s).wresp = s.wresp := rfl
@[simp] theorem afterReply_trace (idx : BitVec 6) (arg : Word32) (c : CardReply) (rest : List Byte) (s : State) :
    (afterReply idx arg c rest s).trace = (c.events idx arg).reverse ++ s.trace := rfl
@[simp] theorem afterReply_resetRequest (idx : BitVec 6) (arg : Word32) (c : CardReply) (rest : List Byte) (s : State) :
    (afterReply idx arg c rest s).resetRequest = s.resetRequest := rfl
@[simp] theorem afterReply_port (idx : BitVec 6) (arg : Word32) (c : CardReply) (rest : List Byte) (s : State) :
    (afterReply idx arg c rest s).port = s.port := rfl
@[simp] theorem afterReply_result (idx : BitVec 6) (arg : Word32) (c : CardReply) (rest : List Byte) (s : State) :
    (afterReply idx arg c rest s).result = s.result := rfl
@[simp] theorem afterReply_rx (idx : BitVec 6) (arg : Word32) (c : CardReply) (rest : List Byte) (s : State) :
    (afterReply idx arg c rest s).rx = rest := rfl
@[simp] theorem afterReply_envCount (idx : BitVec 6) (arg : Word32) (c : CardReply) (rest : List Byte) (s : State) :
    (afterReply idx arg c rest s).envCount = s.envCount := rfl
@[simp] theorem afterReply_envMemory (idx : BitVec 6) (arg : Word32) (c : CardReply) (rest : List Byte) (s : State) :
    (afterReply idx arg c rest s).envMemory = s.envMemory := rfl

@[simp] theorem afterTransactA_cfg (idx : BitVec 6) (arg : Word32) (c : CardReply) (rest : List Byte) (s : State) :
    (afterTransactA idx arg c rest s).cfg = s.cfg := rfl
@[simp] theorem afterTransactA_link (idx : BitVec 6) (arg : Word32) (c : CardReply) (rest : List Byte) (s : State) :
    (afterTransactA idx arg c rest s).link = s.link := rfl
@[simp] theorem afterTransactA_filler (idx : BitVec 6) (arg : Word32) (c : CardReply) (rest : List Byte) (s : State) :
    (afterTransactA idx arg c rest s).filler = s.filler := rfl
@[simp] theorem afterTransactA_initialized (idx : BitVec 6) (arg : Word32) (c : CardReply) (rest : List Byte) (s : State) :
    (afterTransactA idx arg c rest s).initialized = s.initialized := rfl
@[simp] theorem afterTransactA_sectorCount (idx : BitVec 6) (arg : Word32) (c : CardReply) (rest : List Byte) (s : State) :
    (afterTransactA idx arg c rest s).sectorCount = s.sectorCount := rfl
@[simp] theorem afterTransactA_fault (idx : BitVec 6) (arg : Word32) (c : CardReply) (rest : List Byte) (s : State) :
    (afterTransactA idx arg c rest s).fault = s.fault := rfl
@[simp] theorem afterTransactA_cs (idx : BitVec 6) (arg : Word32) (c : CardReply) (rest : List Byte) (s : State) :
    (afterTransactA idx arg c rest s).cs = false := rfl
@[simp] theorem afterTransactA_seq (idx : BitVec 6) (arg : Word32) (c : CardReply) (rest : List Byte) (s : State) :
    (afterTransactA idx arg c rest s).seq = ⟨s.seq.main, none⟩ := rfl
@[simp] theorem afterTransactA_waiting (idx : BitVec 6) (arg : Word32) (c : CardReply) (rest : List Byte) (s : State) :
    (afterTransactA idx arg c rest s).waiting = s.waiting := rfl
@[simp] theorem afterTransactA_op (idx : BitVec 6) (arg : Word32) (c : CardReply) (rest : List Byte) (s : State) :
    (afterTransactA idx arg c rest s).op = s.op := rfl
@[simp] theorem afterTransactA_opArg (idx : BitVec 6) (arg : Word32) (c : CardReply) (rest : List Byte) (s : State) :
    (afterTransactA idx arg c rest s).opArg = s.opArg := rfl
@[simp] theorem afterTransactA_wdata (idx : BitVec 6) (arg : Word32) (c : CardReply) (rest : List Byte) (s : State) :
    (afterTransactA idx arg c rest s).wdata = s.wdata := rfl
@[simp] theorem afterTransactA_crc (idx : BitVec 6) (arg : Word32) (c : CardReply) (rest : List Byte) (s : State) :
    (afterTransactA idx arg c rest s).crc = crc7 (frameBody idx arg) := rfl
@[simp] theorem afterTransactA_frame (idx : BitVec 6) (arg : Word32) (c : CardReply) (rest : List Byte) (s : State) :
    (afterTransactA idx arg c rest s).frame = frameBytes idx arg := rfl
@[simp] theorem afterTransactA_pollCnt (idx : BitVec 6) (arg : Word32) (c : CardReply) (rest : List Byte) (s : State) :
    (afterTransactA idx arg c rest s).pollCnt = BitVec.ofNat 4 (c.skip.length + 1) := rfl
@[simp] theorem afterTransactA_r1 (idx : BitVec 6) (arg : Word32) (c : CardReply) (rest : List Byte) (s : State) :
    (afterTransactA idx arg c rest s).r1 = c.status := rfl
@[simp] theorem afterTransactA_r2 (idx : BitVec 6) (arg : Word32) (c : CardReply) (rest : List Byte) (s : State) :
    (afterTransactA idx arg c rest s).r2 = s.r2 := rfl
@[simp] theorem afterTransactA_payload (idx : BitVec 6) (arg : Word32) (c : CardReply) (rest : List Byte) (s : State) :
    (afterTransactA idx arg c rest s).payload = s.payload := rfl
@[simp] theorem afterTransactA_ocrRaw (idx : BitVec 6) (arg : Word32) (c : CardReply) (rest : List Byte) (s : State) :
    (afterTransactA idx arg c rest s).ocrRaw = s.ocrRaw := rfl
@[simp] theorem afterTransactA_buf (idx : BitVec 6) (arg : Word32) (c : CardReply) (rest : List Byte) (s : State) :
    (afterTransactA idx arg c rest s).buf = s.buf := rfl
@[simp] theorem afterTransactA_wresp (idx : BitVec 6) (arg : Word32) (c : CardReply) (rest : List Byte) (s : State) :
    (afterTransactA idx arg c rest s).wresp = s.wresp := rfl
@[simp] theorem afterTransactA_trace (idx : BitVec 6) (arg : Word32) (c : CardReply) (rest : List Byte) (s : State) :
    (afterTransactA idx arg c rest s).trace = .desel :: ((c.events idx arg).reverse ++ s.trace) := rfl
@[simp] theorem afterTransactA_resetRequest (idx : BitVec 6) (arg : Word32) (c : CardReply) (rest : List Byte) (s : State) :
    (afterTransactA idx arg c rest s).resetRequest = s.resetRequest := rfl
@[simp] theorem afterTransactA_port (idx : BitVec 6) (arg : Word32) (c : CardReply) (rest : List Byte) (s : State) :
    (afterTransactA idx arg c rest s).port = s.port := rfl
@[simp] theorem afterTransactA_result (idx : BitVec 6) (arg : Word32) (c : CardReply) (rest : List Byte) (s : State) :
    (afterTransactA idx arg c rest s).result = s.result := rfl
@[simp] theorem afterTransactA_rx (idx : BitVec 6) (arg : Word32) (c : CardReply) (rest : List Byte) (s : State) :
    (afterTransactA idx arg c rest s).rx = rest := rfl
@[simp] theorem afterTransactA_envCount (idx : BitVec 6) (arg : Word32) (c : CardReply) (rest : List Byte) (s : State) :
    (afterTransactA idx arg c rest s).envCount = s.envCount := rfl
@[simp] theorem afterTransactA_envMemory (idx : BitVec 6) (arg : Word32) (c : CardReply) (rest : List Byte) (s : State) :
    (afterTransactA idx arg c rest s).envMemory = s.envMemory := rfl

@[simp] theorem afterTransactCD_cfg (idx : BitVec 6) (arg : Word32) (c : CardReply) (e rest : List Byte) (s : State) :
    (afterTransactCD idx arg c e rest s).cfg = s.cfg := rfl
@[simp] theorem afterTransactCD_link (idx : BitVec 6) (arg : Word32) (c : CardReply) (e rest : List Byte) (s : State) :
    (afterTransactCD idx arg c e rest s).link = s.link := rfl
@[simp] theorem afterTransactCD_filler (idx : BitVec 6) (arg : Word32) (c : CardReply) (e rest : List Byte) (s : State) :
    (afterTransactCD idx arg c e rest s).filler = s.filler := rfl
@[simp] theorem afterTransactCD_initialized (idx : BitVec 6) (arg : Word32) (c : CardReply) (e rest : List Byte) (s : State) :
    (afterTransactCD idx arg c e rest s).initialized = s.initialized := rfl
@[simp] theorem afterTransactCD_sectorCount (idx : BitVec 6) (arg : Word32) (c : CardReply) (e rest : List Byte) (s : State) :
    (afterTransactCD idx arg c e rest s).sectorCount = s.sectorCount := rfl
@[simp] theorem afterTransactCD_fault (idx : BitVec 6) (arg : Word32) (c : CardReply) (e rest : List Byte) (s : State) :
    (afterTransactCD idx arg c e rest s).fault = s.fault := rfl
@[simp] theorem afterTransactCD_cs (idx : BitVec 6) (arg : Word32) (c : CardReply) (e rest : List Byte) (s : State) :
    (afterTransactCD idx arg c e rest s).cs = false := rfl
@[simp] theorem afterTransactCD_seq (idx : BitVec 6) (arg : Word32) (c : CardReply) (e rest : List Byte) (s : State) :
    (afterTransactCD idx arg c e rest s).seq = ⟨s.seq.main, none⟩ := rfl
@[simp] theorem afterTransactCD_waiting (idx : BitVec 6) (arg : Word32) (c : CardReply) (e rest : List Byte) (s : State) :
    (afterTransactCD idx arg c e rest s).waiting = s.waiting := rfl
@[simp] theorem afterTransactCD_op (idx : BitVec 6) (arg : Word32) (c : CardReply) (e rest : List Byte) (s : State) :
    (afterTransactCD idx arg c e rest s).op = s.op := rfl
@[simp] theorem afterTransactCD_opArg (idx : BitVec 6) (arg : Word32) (c : CardReply) (e rest : List Byte) (s : State) :
    (afterTransactCD idx arg c e rest s).opArg = s.opArg := rfl
@[simp] theorem afterTransactCD_wdata (idx : BitVec 6) (arg : Word32) (c : CardReply) (e rest : List Byte) (s : State) :
    (afterTransactCD idx arg c e rest s).wdata = s.wdata := rfl
@[simp] theorem afterTransactCD_crc (idx : BitVec 6) (arg : Word32) (c : CardReply) (e rest : List Byte) (s : State) :
    (afterTransactCD idx arg c e rest s).crc = crc7 (frameBody idx arg) := rfl
@[simp] theorem afterTransactCD_frame (idx : BitVec 6) (arg : Word32) (c : CardReply) (e rest : List Byte) (s : State) :
    (afterTransactCD idx arg c e rest s).frame = frameBytes idx arg := rfl
@[simp] theorem afterTransactCD_pollCnt (idx : BitVec 6) (arg : Word32) (c : CardReply) (e rest : List Byte) (s : State) :
    (afterTransactCD idx arg c e rest s).pollCnt = BitVec.ofNat 4 (c.skip.length + 1) := rfl
@[simp] theorem afterTransactCD_r1 (idx : BitVec 6) (arg : Word32) (c : CardReply) (e rest : List Byte) (s : State) :
    (afterTransactCD idx arg c e rest s).r1 = c.status := rfl
@[simp] theorem afterTransactCD_r2 (idx : BitVec 6) (arg : Word32) (c : CardReply) (e rest : List Byte) (s : State) :
    (afterTransactCD idx arg c e rest s).r2 = s.r2 := rfl
@[simp] theorem afterTransactCD_payload (idx : BitVec 6) (arg : Word32) (c : CardReply) (e rest : List Byte) (s : State) :
    (afterTransactCD idx arg c e rest s).payload = be32List e := rfl
@[simp] theorem afterTransactCD_ocrRaw (idx : BitVec 6) (arg : Word32) (c : CardReply) (e rest : List Byte) (s : State) :
    (afterTransactCD idx arg c e rest s).ocrRaw = s.ocrRaw := rfl
@[simp] theorem afterTransactCD_buf (idx : BitVec 6) (arg : Word32) (c : CardReply) (e rest : List Byte) (s : State) :
    (afterTransactCD idx arg c e rest s).buf = s.buf := rfl
@[simp] theorem afterTransactCD_wresp (idx : BitVec 6) (arg : Word32) (c : CardReply) (e rest : List Byte) (s : State) :
    (afterTransactCD idx arg c e rest s).wresp = s.wresp := rfl
@[simp] theorem afterTransactCD_trace (idx : BitVec 6) (arg : Word32) (c : CardReply) (e rest : List Byte) (s : State) :
    (afterTransactCD idx arg c e rest s).trace = .desel :: ((receiveEvents e).reverse ++ ((c.events idx arg).reverse ++ s.trace)) := rfl
@[simp] theorem afterTransactCD_resetRequest (idx : BitVec 6) (arg : Word32) (c : CardReply) (e rest : List Byte) (s : State) :
    (afterTransactCD idx arg c e rest s).resetRequest = s.resetRequest := rfl
@[simp] theorem afterTransactCD_port (idx : BitVec 6) (arg : Word32) (c : CardReply) (e rest : List Byte) (s : State) :
    (afterTransactCD idx arg c e rest s).port = s.port := rfl
@[simp] theorem afterTransactCD_result (idx : BitVec 6) (arg : Word32) (c : CardReply) (e rest : List Byte) (s : State) :
    (afterTransactCD idx arg c e rest s).result = s.result := rfl
@[simp] theorem afterTransactCD_rx (idx : BitVec 6) (arg : Word32) (c : CardReply) (e rest : List Byte) (s : State) :
    (afterTransactCD idx arg c e rest s).rx = rest := rfl
@[simp] theorem afterTransactCD_envCount (idx : BitVec 6) (arg : Word32) (c : CardReply) (e rest : List Byte) (s : State) :
    (afterTransactCD idx arg c e rest s).envCount = s.envCount := rfl
@[simp] theorem afterTransactCD_envMemory (idx : BitVec 6) (arg : Word32) (c : CardReply) (e rest : List Byte) (s : State) :
    (afterTransactCD idx arg c e rest s).envMemory = s.envMemory := rfl

@[simp] theorem afterReceive_cfg (rs rest : List Byte) (s : State) : (afterReceive rs rest s).cfg = s.cfg := rfl
@[simp] theorem afterReceive_link (rs rest : List Byte) (s : State) : (afterReceive rs rest s).link = s.link := rfl
@[simp] theorem afterReceive_filler (rs rest : List Byte) (s : State) : (afterReceive rs rest s).filler = s.filler := rfl
@[simp] theorem afterReceive_initialized (rs rest : List Byte) (s : State) :
    (afterReceive rs rest s).initialized = s.initialized := rfl
@[simp] theorem afterReceive_sectorCount (rs rest : List Byte) (s : State) :
    (afterReceive rs rest s).sectorCount = s.sectorCount := rfl
@[simp] theorem afterReceive_fault (rs rest : List Byte) (s : State) : (afterReceive rs rest s).fault = s.fault := rfl
@[simp] theorem afterReceive_cs (rs rest : List Byte) (s : State) : (afterReceive rs rest s).cs = s.cs := rfl
@[simp] theorem afterReceive_seq (rs rest : List Byte) (s : State) : (afterReceive rs rest s).seq = s.seq := rfl
@[simp] theorem afterReceive_waiting (rs rest : List Byte) (s : State) : (afterReceive rs rest s).waiting = s.waiting := rfl
@[simp] theorem afterReceive_op (rs rest : List Byte) (s : State) : (afterReceive rs rest s).op = s.op := rfl
@[simp] theorem afterReceive_opArg (rs rest : List Byte) (s : State) : (afterReceive rs rest s).opArg = s.opArg := rfl
@[simp] theorem afterReceive_wdata (rs rest : List Byte) (s : State) : (afterReceive rs rest s).wdata = s.wdata := rfl
@[simp] theorem afterReceive_crc (rs rest : List Byte) (s : State) : (afterReceive rs rest s).crc = s.crc := rfl
@[simp] theorem afterReceive_frame (rs rest : List Byte) (s : State) : (afterReceive rs rest s).frame = s.frame := rfl
@[simp] theorem afterReceive_pollCnt (rs rest : List Byte) (s : State) : (afterReceive rs rest s).pollCnt = s.pollCnt := rfl
@[simp] theorem afterReceive_r1 (rs rest : List Byte) (s : State) : (afterReceive rs rest s).r1 = s.r1 := rfl
@[simp] theorem afterReceive_r2 (rs rest : List Byte) (s : State) : (afterReceive rs rest s).r2 = s.r2 := rfl
@[simp] theorem afterReceive_payload (rs rest : List Byte) (s : State) : (afterReceive rs rest s).payload = s.payload := rfl
@[simp] theorem afterReceive_ocrRaw (rs rest : List Byte) (s : State) : (afterReceive rs rest s).ocrRaw = s.ocrRaw := rfl
@[simp] theorem afterReceive_buf (rs rest : List Byte) (s : State) : (afterReceive rs rest s).buf = s.buf := rfl
@[simp] theorem afterReceive_wresp (rs rest : List Byte) (s : State) : (afterReceive rs rest s).wresp = s.wresp := rfl
@[simp] theorem afterReceive_trace (rs rest : List Byte) (s : State) :
    (afterReceive rs rest s).trace = (receiveEvents rs).reverse ++ s.trace := rfl
@[simp] theorem afterReceive_resetRequest (rs rest : List Byte) (s : State) :
    (afterReceive rs rest s).resetRequest = s.resetRequest := rfl
@[simp] theorem afterReceive_port (rs rest : List Byte) (s : State) : (afterReceive rs rest s).port = s.port := rfl
@[simp] theorem afterReceive_result (rs rest : List Byte) (s : State) : (afterReceive rs rest s).result = s.result := rfl
@[simp] theorem afterReceive_rx (rs rest : List Byte) (s : State) : (afterReceive rs rest s).rx = rest := rfl
@[simp] theorem afterReceive_envCount (rs rest : List Byte) (s : State) :
    (afterReceive rs rest s).envCount = s.envCount := rfl
@[simp] theorem afterReceive_envMemory (rs rest : List Byte) (s : State) :
    (afterReceive rs rest s).envMemory = s.envMemory := rfl

@[simp] theorem afterDeselect_cfg (s : State) : (afterDeselect s).cfg = s.cfg := rfl
@[simp] theorem afterDeselect_link (s : State) : (afterDeselect s).link = s.link := rfl
@[simp] theorem afterDeselect_filler (s : State) : (afterDeselect s).filler = s.filler := rfl
@[simp] theorem afterDeselect_initialized (s : State) : (afterDeselect s).initialized = s.initialized := rfl
@[simp] theorem afterDeselect_sectorCount (s : State) : (afterDeselect s).sectorCount = s.sectorCount := rfl
@[simp] theorem afterDeselect_fault (s : State) : (afterDeselect s).fault = s.fault := rfl
@[simp] theorem afterDeselect_cs (s : State) : (afterDeselect s).cs = false := rfl
@[simp] theorem afterDeselect_seq (s : State) : (afterDeselect s).seq = ⟨s.seq.main, none⟩ := rfl
@[simp] theorem afterDeselect_waiting (s : State) : (afterDeselect s).waiting = s.waiting := rfl
@[simp] theorem afterDeselect_op (s : State) : (afterDeselect s).op = s.op := rfl
@[simp] theorem afterDeselect_opArg (s : State) : (afterDeselect s).opArg = s.opArg := rfl
@[simp] theorem afterDeselect_wdata (s : State) : (afterDeselect s).wdata = s.wdata := rfl
@[simp] theorem afterDeselect_crc (s : State) : (afterDeselect s).crc = s.crc := rfl
@[simp] theorem afterDeselect_frame (s : State) : (afterDeselect s).frame = s.frame := rfl
@[simp] theorem afterDeselect_pollCnt (s : State) : (afterDeselect s).pollCnt = s.pollCnt := rfl
@[simp] theorem afterDeselect_r1 (s : State) : (afterDeselect s).r1 = s.r1 := rfl
@[simp] theorem afterDeselect_r2 (s : State) : (afterDeselect s).r2 = s.r2 := rfl
@[simp] theorem afterDeselect_payload (s : State) : (afterDeselect s).payload = s.payload := rfl
@[simp] theorem afterDeselect_ocrRaw (s : State) : (afterDeselect s).ocrRaw = s.ocrRaw := rfl
@[simp] theorem afterDeselect_buf (s : State) : (afterDeselect s).buf = s.buf := rfl
@[simp] theorem afterDeselect_wresp (s : State) : (afterDeselect s).wresp = s.wresp := rfl
@[simp] theorem afterDeselect_trace (s : State) : (afterDeselect s).trace = .desel :: s.trace := rfl
@[simp] theorem afterDeselect_resetRequest (s : State) : (afterDeselect s).resetRequest = s.resetRequest := rfl
@[simp] theorem afterDeselect_port (s : State) : (afterDeselect s).port = s.port := rfl
@[simp] theorem afterDeselect_result (s : State) : (afterDeselect s).result = s.result := rfl
@[simp] theorem afterDeselect_rx (s : State) : (afterDeselect s).rx = s.rx := rfl
@[simp] theorem afterDeselect_envCount (s : State) : (afterDeselect s).envCount = s.envCount := rfl
@[simp] theorem afterDeselect_envMemory (s : State) : (afterDeselect s).envMemory = s.envMemory := rfl

@[simp] theorem afterEnd_cfg (r : Result) (s : State) : (afterEnd r s).cfg = s.cfg := rfl
@[simp] theorem afterEnd_link (r : Result) (s : State) : (afterEnd r s).link = s.link := rfl
@[simp] theorem afterEnd_filler (r : Result) (s : State) : (afterEnd r s).filler = s.filler := rfl
@[simp] theorem afterEnd_initialized (r : Result) (s : State) : (afterEnd r s).initialized = s.initialized := rfl
@[simp] theorem afterEnd_sectorCount (r : Result) (s : State) : (afterEnd r s).sectorCount = s.sectorCount := rfl
@[simp] theorem afterEnd_fault (r : Result) (s : State) : (afterEnd r s).fault = s.fault := rfl
@[simp] theorem afterEnd_cs (r : Result) (s : State) : (afterEnd r s).cs = s.cs := rfl
@[simp] theorem afterEnd_seq (r : Result) (s : State) : (afterEnd r s).seq = ⟨.idle, none⟩ := rfl
@[simp] theorem afterEnd_waiting (r : Result) (s : State) : (afterEnd r s).waiting = none := rfl
@[simp] theorem afterEnd_op (r : Result) (s : State) : (afterEnd r s).op = s.op := rfl
@[simp] theorem afterEnd_opArg (r : Result) (s : State) : (afterEnd r s).opArg = s.opArg := rfl
@[simp] theorem afterEnd_wdata (r : Result) (s : State) : (afterEnd r s).wdata = s.wdata := rfl
@[simp] theorem afterEnd_crc (r : Result) (s : State) : (afterEnd r s).crc = s.crc := rfl
@[simp] theorem afterEnd_frame (r : Result) (s : State) : (afterEnd r s).frame = s.frame := rfl
@[simp] theorem afterEnd_pollCnt (r : Result) (s : State) : (afterEnd r s).pollCnt = s.pollCnt := rfl
@[simp] theorem afterEnd_r1 (r : Result) (s : State) : (afterEnd r s).r1 = s.r1 := rfl
@[simp] theorem afterEnd_r2 (r : Result) (s : State) : (afterEnd r s).r2 = s.r2 := rfl
@[simp] theorem afterEnd_payload (r : Result) (s : State) : (afterEnd r s).payload = s.payload := rfl
@[simp] theorem afterEnd_ocrRaw (r : Result) (s : State) : (afterEnd r s).ocrRaw = s.ocrRaw := rfl
@[simp] theorem afterEnd_buf (r : Result) (s : State) : (afterEnd r s).buf = s.buf := rfl
@[simp] theorem afterEnd_wresp (r : Result) (s : State) : (afterEnd r s).wresp = s.wresp := rfl
@[simp] theorem afterEnd_trace (r : Result) (s : State) : (afterEnd r s).trace = s.trace := rfl
@[simp] theorem afterEnd_resetRequest (r : Result) (s : State) : (afterEnd r s).resetRequest = s.resetRequest := rfl
@[simp] theorem afterEnd_port (r : Result) (s : State) : (afterEnd r s).port = s.port := rfl
@[simp] theorem afterEnd_result (r : Result) (s : State) : (afterEnd r s).result = some r := rfl
@[simp] theorem afterEnd_rx (r : Result) (s : State) : (afterEnd r s).rx = s.rx := rfl
@[simp] theorem afterEnd_envCount (r : Result) (s : State) : (afterEnd r s).envCount = s.envCount := rfl
@[simp] theorem afterEnd_envMemory (r : Result) (s : State) : (afterEnd r s).envMemory = s.envMemory := rfl

@[simp] theorem afterFatal_cfg (r : Fatal) (s : State) : (afterFatal r s).cfg = s.cfg := rfl
@[simp] theorem afterFatal_link (r : Fatal) (s : State) : (afterFatal r s).link = s.link := rfl
@[simp] theorem afterFatal_filler (r : Fatal) (s : State) : (afterFatal r s).filler = s.filler := rfl
@[simp] theorem afterFatal_initialized (r : Fatal) (s : State) : (afterFatal r s).initialized = s.initialized := rfl
@[simp] theorem afterFatal_sectorCount (r : Fatal) (s : State) : (afterFatal r s).sectorCount = s.sectorCount := rfl
@[simp] theorem afterFatal_fault (r : Fatal) (s : State) : (afterFatal r s).fault = some r := rfl
@[simp] theorem afterFatal_cs (r : Fatal) (s : State) : (afterFatal r s).cs = s.cs := rfl
@[simp] theorem afterFatal_seq (r : Fatal) (s : State) : (afterFatal r s).seq = ⟨.fault, none⟩ := rfl
@[simp] theorem afterFatal_waiting (r : Fatal) (s : State) : (afterFatal r s).waiting = none := rfl
@[simp] theorem afterFatal_op (r : Fatal) (s : State) : (afterFatal r s).op = s.op := rfl
@[simp] theorem afterFatal_opArg (r : Fatal) (s : State) : (afterFatal r s).opArg = s.opArg := rfl
@[simp] theorem afterFatal_wdata (r : Fatal) (s : State) : (afterFatal r s).wdata = s.wdata := rfl
@[simp] theorem afterFatal_crc (r : Fatal) (s : State) : (afterFatal r s).crc = s.crc := rfl
@[simp] theorem afterFatal_frame (r : Fatal) (s : State) : (afterFatal r s).frame = s.frame := rfl
@[simp] theorem afterFatal_pollCnt (r : Fatal) (s : State) : (afterFatal r s).pollCnt = s.pollCnt := rfl
@[simp] theorem afterFatal_r1 (r : Fatal) (s : State) : (afterFatal r s).r1 = s.r1 := rfl
@[simp] theorem afterFatal_r2 (r : Fatal) (s : State) : (afterFatal r s).r2 = s.r2 := rfl
@[simp] theorem afterFatal_payload (r : Fatal) (s : State) : (afterFatal r s).payload = s.payload := rfl
@[simp] theorem afterFatal_ocrRaw (r : Fatal) (s : State) : (afterFatal r s).ocrRaw = s.ocrRaw := rfl
@[simp] theorem afterFatal_buf (r : Fatal) (s : State) : (afterFatal r s).buf = s.buf := rfl
@[simp] theorem afterFatal_wresp (r : Fatal) (s : State) : (afterFatal r s).wresp = s.wresp := rfl
@[simp] theorem afterFatal_trace (r : Fatal) (s : State) : (afterFatal r s).trace = s.trace := rfl
@[simp] theorem afterFatal_resetRequest (r : Fatal) (s : State) : (afterFatal r s).resetRequest = s.resetRequest := rfl
@[simp] theorem afterFatal_port (r : Fatal) (s : State) : (afterFatal r s).port = s.port := rfl
@[simp] theorem afterFatal_result (r : Fatal) (s : State) : (afterFatal r s).result = s.result := rfl
@[simp] theorem afterFatal_rx (r : Fatal) (s : State) : (afterFatal r s).rx = s.rx := rfl
@[simp] theorem afterFatal_envCount (r : Fatal) (s : State) : (afterFatal r s).envCount = s.envCount := rfl
@[simp] theorem afterFatal_envMemory (r : Fatal) (s : State) : (afterFatal r s).envMemory = s.envMemory := rfl

end Sys2Proof.Machine
end

