-- ==== Sys2Proof/Laws/Checksum.lean ====
section
/-! SUPPORT. One step of the checksum register as arithmetic over GF(2) (rules R121, R122, R123): what a bit does to the
remainder, that the step is linear, and that eight rotations of the shift-based form are eight steps. -/

namespace Sys2Proof

theorem two_mul_xor (a b : Nat) : 2 * (a ^^^ b) = (2 * a) ^^^ (2 * b) := by
  have h := Nat.shiftLeft_xor_distrib (a := a) (b := b) (i := 1)
  simpa [Nat.shiftLeft_eq, Nat.mul_comm] using h

theorem xor_mul_128 (a b : Nat) : (a ^^^ b) * 128 = (a * 128) ^^^ (b * 128) := by
  have h := Nat.shiftLeft_xor_distrib (a := a) (b := b) (i := 7)
  simpa [Nat.shiftLeft_eq] using h

theorem crcShift_div : ∀ (c : BitVec 7) (d : Bool),
    (2 * c.toNat) ^^^ (d.toNat * 128) = (if d ^^ c.msb then 0x89 else 0) ^^^ (crcShift c d).toNat := by decide +kernel

theorem xor_cancel_mid {w : Nat} (a b g : BitVec w) : (a ^^^ g) ^^^ (b ^^^ g) = a ^^^ b := by
  rw [BitVec.xor_comm b g, BitVec.xor_assoc, ← BitVec.xor_assoc g g b, BitVec.xor_self, BitVec.zero_xor]

theorem xor_swap_right {w : Nat} (a b g : BitVec w) : (a ^^^ b) ^^^ g = (a ^^^ g) ^^^ b := by
  rw [BitVec.xor_assoc, BitVec.xor_comm b g, BitVec.xor_assoc]

theorem crcRotate_xor (x y : Byte) : crcRotate (x ^^^ y) = crcRotate x ^^^ crcRotate y := by
  have hm : (x ^^^ y).msb = (x.msb ^^ y.msb) := BitVec.msb_xor
  have hs : ∀ a b : Byte, (a ^^^ b) <<< 1 = a <<< 1 ^^^ b <<< 1 := fun a b => BitVec.shiftLeft_xor_distrib ..
  unfold crcRotate
  rw [hm]
  cases x.msb <;> cases y.msb <;> simp only [Bool.xor_false, Bool.xor_true, Bool.not_true, Bool.not_false, Bool.false_eq_true, if_false, if_true, hs]
  · rw [BitVec.xor_assoc]
  · rw [xor_swap_right]
  · rw [xor_cancel_mid]

theorem crcRotate_register : ∀ c : BitVec 7, crcRotate (c ++ 0#1) = crcShift c false ++ 0#1 := by decide +kernel

theorem crcRotate_byte : ∀ b : Byte, crcRotate b = b <<< 1 ^^^ (if b.msb then 0x12 else 0) := by decide +kernel

theorem crcShift_bit : ∀ (c : BitVec 7) (d : Bool), crcShift c d ++ 0#1 = (crcShift c false ++ 0#1) ^^^ (if d then (0x12 : Byte) else 0) := by decide +kernel

theorem crcRotate_step (c : BitVec 7) (b : Byte) : crcRotate ((c ++ 0#1) ^^^ b) = (crcShift c b.msb ++ 0#1) ^^^ (b <<< 1) := by
  rw [crcRotate_xor, crcRotate_register, crcRotate_byte, crcShift_bit c b.msb, BitVec.xor_comm (b <<< 1), BitVec.xor_assoc]

theorem crcShift_xor (a b : BitVec 7) (d e : Bool) : crcShift (a ^^^ b) (d ^^ e) = crcShift a d ^^^ crcShift b e := by
  have hm : (a ^^^ b).msb = (a.msb ^^ b.msb) := BitVec.msb_xor
  have hs : ∀ a b : BitVec 7, (a ^^^ b) <<< 1 = a <<< 1 ^^^ b <<< 1 := fun a b => BitVec.shiftLeft_xor_distrib ..
  have hd : ((d ^^ e) ^^ (a.msb ^^ b.msb)) = ((d ^^ a.msb) ^^ (e ^^ b.msb)) := by cases d <;> cases e <;> cases a.msb <;> cases b.msb <;> rfl
  unfold crcShift
  rw [hm, hd]
  cases (d ^^ a.msb) <;> cases (e ^^ b.msb) <;> simp only [Bool.xor_false, Bool.xor_true, Bool.not_true, Bool.not_false, Bool.false_eq_true, if_false, if_true, hs]
  · rw [BitVec.xor_assoc]
  · rw [xor_swap_right]
  · rw [xor_cancel_mid]

theorem messageBits_length (xs : List Byte) : (messageBits xs).length = 8 * xs.length := by
  induction xs with
  | nil => rfl
  | cons x xs ih => simp [messageBits, byteBits] at ih ⊢; omega

theorem messageBits_xor (xs ys : List Byte) (h : xs.length = ys.length) :
    messageBits (List.zipWith (· ^^^ ·) xs ys) = List.zipWith (· ^^ ·) (messageBits xs) (messageBits ys) := by
  induction xs generalizing ys with
  | nil => cases ys with
    | nil => rfl
    | cons y ys => simp at h
  | cons x xs ih => cases ys with
    | nil => simp at h
    | cons y ys =>
      have := ih ys (by simpa using h)
      simp [messageBits, byteBits] at this ⊢
      exact this

end Sys2Proof
end

