-- ==== Sys2Proof/Laws/State.lean ====
section
/-! SUPPORT. One lemma per field of `State` per update of the shared operations, each true by `rfl`, so that no later
proof unfolds a record update. -/

namespace Sys2Proof.Machine

@[simp] theorem select_cfg (s : State) : (select s).cfg = s.cfg := rfl
@[simp] theorem select_link (s : State) : (select s).link = s.link := rfl
@[simp] theorem select_filler (s : State) : (select s).filler = s.filler := rfl
@[simp] theorem select_initialized (s : State) : (select s).initialized = s.initialized := rfl
@[simp] theorem select_sectorCount (s : State) : (select s).sectorCount = s.sectorCount := rfl
@[simp] theorem select_fault (s : State) : (select s).fault = s.fault := rfl
@[simp] theorem select_cs (s : State) : (select s).cs = true := rfl
@[simp] theorem select_seq (s : State) : (select s).seq = s.seq := rfl
@[simp] theorem select_waiting (s : State) : (select s).waiting = s.waiting := rfl
@[simp] theorem select_op (s : State) : (select s).op = s.op := rfl
@[simp] theorem select_opArg (s : State) : (select s).opArg = s.opArg := rfl
@[simp] theorem select_wdata (s : State) : (select s).wdata = s.wdata := rfl
@[simp] theorem select_crc (s : State) : (select s).crc = s.crc := rfl
@[simp] theorem select_frame (s : State) : (select s).frame = s.frame := rfl
@[simp] theorem select_pollCnt (s : State) : (select s).pollCnt = s.pollCnt := rfl
@[simp] theorem select_r1 (s : State) : (select s).r1 = s.r1 := rfl
@[simp] theorem select_r2 (s : State) : (select s).r2 = s.r2 := rfl
@[simp] theorem select_payload (s : State) : (select s).payload = s.payload := rfl
@[simp] theorem select_ocrRaw (s : State) : (select s).ocrRaw = s.ocrRaw := rfl
@[simp] theorem select_buf (s : State) : (select s).buf = s.buf := rfl
@[simp] theorem select_wresp (s : State) : (select s).wresp = s.wresp := rfl
@[simp] theorem select_trace (s : State) : (select s).trace = .sel :: s.trace := rfl
@[simp] theorem select_resetRequest (s : State) : (select s).resetRequest = s.resetRequest := rfl
@[simp] theorem select_port (s : State) : (select s).port = s.port := rfl
@[simp] theorem select_result (s : State) : (select s).result = s.result := rfl
@[simp] theorem select_rx (s : State) : (select s).rx = s.rx := rfl
@[simp] theorem select_envCount (s : State) : (select s).envCount = s.envCount := rfl
@[simp] theorem select_envMemory (s : State) : (select s).envMemory = s.envMemory := rfl

@[simp] theorem deselect_cfg (s : State) : (deselect s).cfg = s.cfg := rfl
@[simp] theorem deselect_link (s : State) : (deselect s).link = s.link := rfl
@[simp] theorem deselect_filler (s : State) : (deselect s).filler = s.filler := rfl
@[simp] theorem deselect_initialized (s : State) : (deselect s).initialized = s.initialized := rfl
@[simp] theorem deselect_sectorCount (s : State) : (deselect s).sectorCount = s.sectorCount := rfl
@[simp] theorem deselect_fault (s : State) : (deselect s).fault = s.fault := rfl
@[simp] theorem deselect_cs (s : State) : (deselect s).cs = false := rfl
@[simp] theorem deselect_seq (s : State) : (deselect s).seq = { s.seq with phase := none } := rfl
@[simp] theorem deselect_waiting (s : State) : (deselect s).waiting = s.waiting := rfl
@[simp] theorem deselect_op (s : State) : (deselect s).op = s.op := rfl
@[simp] theorem deselect_opArg (s : State) : (deselect s).opArg = s.opArg := rfl
@[simp] theorem deselect_wdata (s : State) : (deselect s).wdata = s.wdata := rfl
@[simp] theorem deselect_crc (s : State) : (deselect s).crc = s.crc := rfl
@[simp] theorem deselect_frame (s : State) : (deselect s).frame = s.frame := rfl
@[simp] theorem deselect_pollCnt (s : State) : (deselect s).pollCnt = s.pollCnt := rfl
@[simp] theorem deselect_r1 (s : State) : (deselect s).r1 = s.r1 := rfl
@[simp] theorem deselect_r2 (s : State) : (deselect s).r2 = s.r2 := rfl
@[simp] theorem deselect_payload (s : State) : (deselect s).payload = s.payload := rfl
@[simp] theorem deselect_ocrRaw (s : State) : (deselect s).ocrRaw = s.ocrRaw := rfl
@[simp] theorem deselect_buf (s : State) : (deselect s).buf = s.buf := rfl
@[simp] theorem deselect_wresp (s : State) : (deselect s).wresp = s.wresp := rfl
@[simp] theorem deselect_trace (s : State) : (deselect s).trace = .desel :: s.trace := rfl
@[simp] theorem deselect_resetRequest (s : State) : (deselect s).resetRequest = s.resetRequest := rfl
@[simp] theorem deselect_port (s : State) : (deselect s).port = s.port := rfl
@[simp] theorem deselect_result (s : State) : (deselect s).result = s.result := rfl
@[simp] theorem deselect_rx (s : State) : (deselect s).rx = s.rx := rfl
@[simp] theorem deselect_envCount (s : State) : (deselect s).envCount = s.envCount := rfl
@[simp] theorem deselect_envMemory (s : State) : (deselect s).envMemory = s.envMemory := rfl

@[simp] theorem delayMs_cfg (n : Nat) (s : State) : (delayMs n s).cfg = s.cfg := rfl
@[simp] theorem delayMs_link (n : Nat) (s : State) : (delayMs n s).link = s.link := rfl
@[simp] theorem delayMs_filler (n : Nat) (s : State) : (delayMs n s).filler = s.filler := rfl
@[simp] theorem delayMs_initialized (n : Nat) (s : State) : (delayMs n s).initialized = s.initialized := rfl
@[simp] theorem delayMs_sectorCount (n : Nat) (s : State) : (delayMs n s).sectorCount = s.sectorCount := rfl
@[simp] theorem delayMs_fault (n : Nat) (s : State) : (delayMs n s).fault = s.fault := rfl
@[simp] theorem delayMs_cs (n : Nat) (s : State) : (delayMs n s).cs = s.cs := rfl
@[simp] theorem delayMs_seq (n : Nat) (s : State) : (delayMs n s).seq = s.seq := rfl
@[simp] theorem delayMs_waiting (n : Nat) (s : State) : (delayMs n s).waiting = s.waiting := rfl
@[simp] theorem delayMs_op (n : Nat) (s : State) : (delayMs n s).op = s.op := rfl
@[simp] theorem delayMs_opArg (n : Nat) (s : State) : (delayMs n s).opArg = s.opArg := rfl
@[simp] theorem delayMs_wdata (n : Nat) (s : State) : (delayMs n s).wdata = s.wdata := rfl
@[simp] theorem delayMs_crc (n : Nat) (s : State) : (delayMs n s).crc = s.crc := rfl
@[simp] theorem delayMs_frame (n : Nat) (s : State) : (delayMs n s).frame = s.frame := rfl
@[simp] theorem delayMs_pollCnt (n : Nat) (s : State) : (delayMs n s).pollCnt = s.pollCnt := rfl
@[simp] theorem delayMs_r1 (n : Nat) (s : State) : (delayMs n s).r1 = s.r1 := rfl
@[simp] theorem delayMs_r2 (n : Nat) (s : State) : (delayMs n s).r2 = s.r2 := rfl
@[simp] theorem delayMs_payload (n : Nat) (s : State) : (delayMs n s).payload = s.payload := rfl
@[simp] theorem delayMs_ocrRaw (n : Nat) (s : State) : (delayMs n s).ocrRaw = s.ocrRaw := rfl
@[simp] theorem delayMs_buf (n : Nat) (s : State) : (delayMs n s).buf = s.buf := rfl
@[simp] theorem delayMs_wresp (n : Nat) (s : State) : (delayMs n s).wresp = s.wresp := rfl
@[simp] theorem delayMs_trace (n : Nat) (s : State) : (delayMs n s).trace = .delay n :: s.trace := rfl
@[simp] theorem delayMs_resetRequest (n : Nat) (s : State) : (delayMs n s).resetRequest = s.resetRequest := rfl
@[simp] theorem delayMs_port (n : Nat) (s : State) : (delayMs n s).port = s.port := rfl
@[simp] theorem delayMs_result (n : Nat) (s : State) : (delayMs n s).result = s.result := rfl
@[simp] theorem delayMs_rx (n : Nat) (s : State) : (delayMs n s).rx = s.rx := rfl
@[simp] theorem delayMs_envCount (n : Nat) (s : State) : (delayMs n s).envCount = s.envCount := rfl
@[simp] theorem delayMs_envMemory (n : Nat) (s : State) : (delayMs n s).envMemory = s.envMemory := rfl

@[simp] theorem atPhase_cfg (p : Phase) (s : State) : (atPhase p s).cfg = s.cfg := rfl
@[simp] theorem atPhase_link (p : Phase) (s : State) : (atPhase p s).link = s.link := rfl
@[simp] theorem atPhase_filler (p : Phase) (s : State) : (atPhase p s).filler = s.filler := rfl
@[simp] theorem atPhase_initialized (p : Phase) (s : State) : (atPhase p s).initialized = s.initialized := rfl
@[simp] theorem atPhase_sectorCount (p : Phase) (s : State) : (atPhase p s).sectorCount = s.sectorCount := rfl
@[simp] theorem atPhase_fault (p : Phase) (s : State) : (atPhase p s).fault = s.fault := rfl
@[simp] theorem atPhase_cs (p : Phase) (s : State) : (atPhase p s).cs = s.cs := rfl
@[simp] theorem atPhase_seq (p : Phase) (s : State) : (atPhase p s).seq = { s.seq with phase := some p } := rfl
@[simp] theorem atPhase_waiting (p : Phase) (s : State) : (atPhase p s).waiting = s.waiting := rfl
@[simp] theorem atPhase_op (p : Phase) (s : State) : (atPhase p s).op = s.op := rfl
@[simp] theorem atPhase_opArg (p : Phase) (s : State) : (atPhase p s).opArg = s.opArg := rfl
@[simp] theorem atPhase_wdata (p : Phase) (s : State) : (atPhase p s).wdata = s.wdata := rfl
@[simp] theorem atPhase_crc (p : Phase) (s : State) : (atPhase p s).crc = s.crc := rfl
@[simp] theorem atPhase_frame (p : Phase) (s : State) : (atPhase p s).frame = s.frame := rfl
@[simp] theorem atPhase_pollCnt (p : Phase) (s : State) : (atPhase p s).pollCnt = s.pollCnt := rfl
@[simp] theorem atPhase_r1 (p : Phase) (s : State) : (atPhase p s).r1 = s.r1 := rfl
@[simp] theorem atPhase_r2 (p : Phase) (s : State) : (atPhase p s).r2 = s.r2 := rfl
@[simp] theorem atPhase_payload (p : Phase) (s : State) : (atPhase p s).payload = s.payload := rfl
@[simp] theorem atPhase_ocrRaw (p : Phase) (s : State) : (atPhase p s).ocrRaw = s.ocrRaw := rfl
@[simp] theorem atPhase_buf (p : Phase) (s : State) : (atPhase p s).buf = s.buf := rfl
@[simp] theorem atPhase_wresp (p : Phase) (s : State) : (atPhase p s).wresp = s.wresp := rfl
@[simp] theorem atPhase_trace (p : Phase) (s : State) : (atPhase p s).trace = s.trace := rfl
@[simp] theorem atPhase_resetRequest (p : Phase) (s : State) : (atPhase p s).resetRequest = s.resetRequest := rfl
@[simp] theorem atPhase_port (p : Phase) (s : State) : (atPhase p s).port = s.port := rfl
@[simp] theorem atPhase_result (p : Phase) (s : State) : (atPhase p s).result = s.result := rfl
@[simp] theorem atPhase_rx (p : Phase) (s : State) : (atPhase p s).rx = s.rx := rfl
@[simp] theorem atPhase_envCount (p : Phase) (s : State) : (atPhase p s).envCount = s.envCount := rfl
@[simp] theorem atPhase_envMemory (p : Phase) (s : State) : (atPhase p s).envMemory = s.envMemory := rfl

@[simp] theorem enter_cfg (m : SeqState) (s : State) : (enter m s).cfg = s.cfg := rfl
@[simp] theorem enter_link (m : SeqState) (s : State) : (enter m s).link = s.link := rfl
@[simp] theorem enter_filler (m : SeqState) (s : State) : (enter m s).filler = s.filler := rfl
@[simp] theorem enter_initialized (m : SeqState) (s : State) : (enter m s).initialized = s.initialized := rfl
@[simp] theorem enter_sectorCount (m : SeqState) (s : State) : (enter m s).sectorCount = s.sectorCount := rfl
@[simp] theorem enter_fault (m : SeqState) (s : State) : (enter m s).fault = s.fault := rfl
@[simp] theorem enter_cs (m : SeqState) (s : State) : (enter m s).cs = s.cs := rfl
@[simp] theorem enter_seq (m : SeqState) (s : State) : (enter m s).seq = ⟨m, none⟩ := rfl
@[simp] theorem enter_waiting (m : SeqState) (s : State) : (enter m s).waiting = s.waiting := rfl
@[simp] theorem enter_op (m : SeqState) (s : State) : (enter m s).op = s.op := rfl
@[simp] theorem enter_opArg (m : SeqState) (s : State) : (enter m s).opArg = s.opArg := rfl
@[simp] theorem enter_wdata (m : SeqState) (s : State) : (enter m s).wdata = s.wdata := rfl
@[simp] theorem enter_crc (m : SeqState) (s : State) : (enter m s).crc = s.crc := rfl
@[simp] theorem enter_frame (m : SeqState) (s : State) : (enter m s).frame = s.frame := rfl
@[simp] theorem enter_pollCnt (m : SeqState) (s : State) : (enter m s).pollCnt = s.pollCnt := rfl
@[simp] theorem enter_r1 (m : SeqState) (s : State) : (enter m s).r1 = s.r1 := rfl
@[simp] theorem enter_r2 (m : SeqState) (s : State) : (enter m s).r2 = s.r2 := rfl
@[simp] theorem enter_payload (m : SeqState) (s : State) : (enter m s).payload = s.payload := rfl
@[simp] theorem enter_ocrRaw (m : SeqState) (s : State) : (enter m s).ocrRaw = s.ocrRaw := rfl
@[simp] theorem enter_buf (m : SeqState) (s : State) : (enter m s).buf = s.buf := rfl
@[simp] theorem enter_wresp (m : SeqState) (s : State) : (enter m s).wresp = s.wresp := rfl
@[simp] theorem enter_trace (m : SeqState) (s : State) : (enter m s).trace = s.trace := rfl
@[simp] theorem enter_resetRequest (m : SeqState) (s : State) : (enter m s).resetRequest = s.resetRequest := rfl
@[simp] theorem enter_port (m : SeqState) (s : State) : (enter m s).port = s.port := rfl
@[simp] theorem enter_result (m : SeqState) (s : State) : (enter m s).result = s.result := rfl
@[simp] theorem enter_rx (m : SeqState) (s : State) : (enter m s).rx = s.rx := rfl
@[simp] theorem enter_envCount (m : SeqState) (s : State) : (enter m s).envCount = s.envCount := rfl
@[simp] theorem enter_envMemory (m : SeqState) (s : State) : (enter m s).envMemory = s.envMemory := rfl

@[simp] theorem xchg_cfg (t : Byte) (s : State) : (xchg t s).cfg = s.cfg := rfl
@[simp] theorem xchg_link (t : Byte) (s : State) : (xchg t s).link = s.link := rfl
@[simp] theorem xchg_filler (t : Byte) (s : State) : (xchg t s).filler = s.filler := rfl
@[simp] theorem xchg_initialized (t : Byte) (s : State) : (xchg t s).initialized = s.initialized := rfl
@[simp] theorem xchg_sectorCount (t : Byte) (s : State) : (xchg t s).sectorCount = s.sectorCount := rfl
@[simp] theorem xchg_fault (t : Byte) (s : State) : (xchg t s).fault = s.fault := rfl
@[simp] theorem xchg_cs (t : Byte) (s : State) : (xchg t s).cs = s.cs := rfl
@[simp] theorem xchg_seq (t : Byte) (s : State) : (xchg t s).seq = s.seq := rfl
@[simp] theorem xchg_waiting (t : Byte) (s : State) : (xchg t s).waiting = s.waiting := rfl
@[simp] theorem xchg_op (t : Byte) (s : State) : (xchg t s).op = s.op := rfl
@[simp] theorem xchg_opArg (t : Byte) (s : State) : (xchg t s).opArg = s.opArg := rfl
@[simp] theorem xchg_wdata (t : Byte) (s : State) : (xchg t s).wdata = s.wdata := rfl
@[simp] theorem xchg_crc (t : Byte) (s : State) : (xchg t s).crc = s.crc := rfl
@[simp] theorem xchg_frame (t : Byte) (s : State) : (xchg t s).frame = s.frame := rfl
@[simp] theorem xchg_pollCnt (t : Byte) (s : State) : (xchg t s).pollCnt = s.pollCnt := rfl
@[simp] theorem xchg_r1 (t : Byte) (s : State) : (xchg t s).r1 = s.r1 := rfl
@[simp] theorem xchg_r2 (t : Byte) (s : State) : (xchg t s).r2 = s.r2 := rfl
@[simp] theorem xchg_payload (t : Byte) (s : State) : (xchg t s).payload = s.payload := rfl
@[simp] theorem xchg_ocrRaw (t : Byte) (s : State) : (xchg t s).ocrRaw = s.ocrRaw := rfl
@[simp] theorem xchg_buf (t : Byte) (s : State) : (xchg t s).buf = s.buf := rfl
@[simp] theorem xchg_wresp (t : Byte) (s : State) : (xchg t s).wresp = s.wresp := rfl
@[simp] theorem xchg_trace (t : Byte) (s : State) : (xchg t s).trace = .x t (reply t s) :: s.trace := rfl
@[simp] theorem xchg_resetRequest (t : Byte) (s : State) : (xchg t s).resetRequest = s.resetRequest := rfl
@[simp] theorem xchg_port (t : Byte) (s : State) : (xchg t s).port = s.port := rfl
@[simp] theorem xchg_result (t : Byte) (s : State) : (xchg t s).result = s.result := rfl
@[simp] theorem xchg_rx (t : Byte) (s : State) : (xchg t s).rx = s.rx.tail := rfl
@[simp] theorem xchg_envCount (t : Byte) (s : State) : (xchg t s).envCount = if s.rx.isEmpty then s.envCount + 1 else s.envCount := rfl
@[simp] theorem xchg_envMemory (t : Byte) (s : State) : (xchg t s).envMemory = s.envMemory := rfl

@[simp] theorem feed_cfg (bytes : List Byte) (s : State) : (feed bytes s).cfg = s.cfg := rfl
@[simp] theorem feed_link (bytes : List Byte) (s : State) : (feed bytes s).link = s.link := rfl
@[simp] theorem feed_filler (bytes : List Byte) (s : State) : (feed bytes s).filler = s.filler := rfl
@[simp] theorem feed_initialized (bytes : List Byte) (s : State) : (feed bytes s).initialized = s.initialized := rfl
@[simp] theorem feed_sectorCount (bytes : List Byte) (s : State) : (feed bytes s).sectorCount = s.sectorCount := rfl
@[simp] theorem feed_fault (bytes : List Byte) (s : State) : (feed bytes s).fault = s.fault := rfl
@[simp] theorem feed_cs (bytes : List Byte) (s : State) : (feed bytes s).cs = s.cs := rfl
@[simp] theorem feed_seq (bytes : List Byte) (s : State) : (feed bytes s).seq = s.seq := rfl
@[simp] theorem feed_waiting (bytes : List Byte) (s : State) : (feed bytes s).waiting = s.waiting := rfl
@[simp] theorem feed_op (bytes : List Byte) (s : State) : (feed bytes s).op = s.op := rfl
@[simp] theorem feed_opArg (bytes : List Byte) (s : State) : (feed bytes s).opArg = s.opArg := rfl
@[simp] theorem feed_wdata (bytes : List Byte) (s : State) : (feed bytes s).wdata = s.wdata := rfl
@[simp] theorem feed_crc (bytes : List Byte) (s : State) : (feed bytes s).crc = s.crc := rfl
@[simp] theorem feed_frame (bytes : List Byte) (s : State) : (feed bytes s).frame = s.frame := rfl
@[simp] theorem feed_pollCnt (bytes : List Byte) (s : State) : (feed bytes s).pollCnt = s.pollCnt := rfl
@[simp] theorem feed_r1 (bytes : List Byte) (s : State) : (feed bytes s).r1 = s.r1 := rfl
@[simp] theorem feed_r2 (bytes : List Byte) (s : State) : (feed bytes s).r2 = s.r2 := rfl
@[simp] theorem feed_payload (bytes : List Byte) (s : State) : (feed bytes s).payload = s.payload := rfl
@[simp] theorem feed_ocrRaw (bytes : List Byte) (s : State) : (feed bytes s).ocrRaw = s.ocrRaw := rfl
@[simp] theorem feed_buf (bytes : List Byte) (s : State) : (feed bytes s).buf = s.buf := rfl
@[simp] theorem feed_wresp (bytes : List Byte) (s : State) : (feed bytes s).wresp = s.wresp := rfl
@[simp] theorem feed_trace (bytes : List Byte) (s : State) : (feed bytes s).trace = s.trace := rfl
@[simp] theorem feed_resetRequest (bytes : List Byte) (s : State) : (feed bytes s).resetRequest = s.resetRequest := rfl
@[simp] theorem feed_port (bytes : List Byte) (s : State) : (feed bytes s).port = s.port := rfl
@[simp] theorem feed_result (bytes : List Byte) (s : State) : (feed bytes s).result = s.result := rfl
@[simp] theorem feed_rx (bytes : List Byte) (s : State) : (feed bytes s).rx = bytes ++ s.rx := rfl
@[simp] theorem feed_envCount (bytes : List Byte) (s : State) : (feed bytes s).envCount = s.envCount := rfl
@[simp] theorem feed_envMemory (bytes : List Byte) (s : State) : (feed bytes s).envMemory = s.envMemory := rfl

@[simp] theorem deliver_cfg (r : Result) (s : State) : (deliver r s).cfg = s.cfg := rfl
@[simp] theorem deliver_link (r : Result) (s : State) : (deliver r s).link = s.link := rfl
@[simp] theorem deliver_filler (r : Result) (s : State) : (deliver r s).filler = s.filler := rfl
@[simp] theorem deliver_initialized (r : Result) (s : State) : (deliver r s).initialized = s.initialized := rfl
@[simp] theorem deliver_sectorCount (r : Result) (s : State) : (deliver r s).sectorCount = s.sectorCount := rfl
@[simp] theorem deliver_fault (r : Result) (s : State) : (deliver r s).fault = s.fault := rfl
@[simp] theorem deliver_cs (r : Result) (s : State) : (deliver r s).cs = s.cs := rfl
@[simp] theorem deliver_seq (r : Result) (s : State) : (deliver r s).seq = s.seq := rfl
@[simp] theorem deliver_waiting (r : Result) (s : State) : (deliver r s).waiting = s.waiting := rfl
@[simp] theorem deliver_op (r : Result) (s : State) : (deliver r s).op = s.op := rfl
@[simp] theorem deliver_opArg (r : Result) (s : State) : (deliver r s).opArg = s.opArg := rfl
@[simp] theorem deliver_wdata (r : Result) (s : State) : (deliver r s).wdata = s.wdata := rfl
@[simp] theorem deliver_crc (r : Result) (s : State) : (deliver r s).crc = s.crc := rfl
@[simp] theorem deliver_frame (r : Result) (s : State) : (deliver r s).frame = s.frame := rfl
@[simp] theorem deliver_pollCnt (r : Result) (s : State) : (deliver r s).pollCnt = s.pollCnt := rfl
@[simp] theorem deliver_r1 (r : Result) (s : State) : (deliver r s).r1 = s.r1 := rfl
@[simp] theorem deliver_r2 (r : Result) (s : State) : (deliver r s).r2 = s.r2 := rfl
@[simp] theorem deliver_payload (r : Result) (s : State) : (deliver r s).payload = s.payload := rfl
@[simp] theorem deliver_ocrRaw (r : Result) (s : State) : (deliver r s).ocrRaw = s.ocrRaw := rfl
@[simp] theorem deliver_buf (r : Result) (s : State) : (deliver r s).buf = s.buf := rfl
@[simp] theorem deliver_wresp (r : Result) (s : State) : (deliver r s).wresp = s.wresp := rfl
@[simp] theorem deliver_trace (r : Result) (s : State) : (deliver r s).trace = s.trace := rfl
@[simp] theorem deliver_resetRequest (r : Result) (s : State) : (deliver r s).resetRequest = s.resetRequest := rfl
@[simp] theorem deliver_port (r : Result) (s : State) : (deliver r s).port = s.port := rfl
@[simp] theorem deliver_result (r : Result) (s : State) : (deliver r s).result = some r := rfl
@[simp] theorem deliver_rx (r : Result) (s : State) : (deliver r s).rx = s.rx := rfl
@[simp] theorem deliver_envCount (r : Result) (s : State) : (deliver r s).envCount = s.envCount := rfl
@[simp] theorem deliver_envMemory (r : Result) (s : State) : (deliver r s).envMemory = s.envMemory := rfl

@[simp] theorem complete_cfg (r : Result) (s : State) : (complete r s).cfg = s.cfg := rfl
@[simp] theorem complete_link (r : Result) (s : State) : (complete r s).link = s.link := rfl
@[simp] theorem complete_filler (r : Result) (s : State) : (complete r s).filler = s.filler := rfl
@[simp] theorem complete_initialized (r : Result) (s : State) : (complete r s).initialized = s.initialized := rfl
@[simp] theorem complete_sectorCount (r : Result) (s : State) : (complete r s).sectorCount = s.sectorCount := rfl
@[simp] theorem complete_fault (r : Result) (s : State) : (complete r s).fault = s.fault := rfl
@[simp] theorem complete_cs (r : Result) (s : State) : (complete r s).cs = s.cs := rfl
@[simp] theorem complete_seq (r : Result) (s : State) : (complete r s).seq = ⟨.idle, none⟩ := rfl
@[simp] theorem complete_waiting (r : Result) (s : State) : (complete r s).waiting = none := rfl
@[simp] theorem complete_op (r : Result) (s : State) : (complete r s).op = s.op := rfl
@[simp] theorem complete_opArg (r : Result) (s : State) : (complete r s).opArg = s.opArg := rfl
@[simp] theorem complete_wdata (r : Result) (s : State) : (complete r s).wdata = s.wdata := rfl
@[simp] theorem complete_crc (r : Result) (s : State) : (complete r s).crc = s.crc := rfl
@[simp] theorem complete_frame (r : Result) (s : State) : (complete r s).frame = s.frame := rfl
@[simp] theorem complete_pollCnt (r : Result) (s : State) : (complete r s).pollCnt = s.pollCnt := rfl
@[simp] theorem complete_r1 (r : Result) (s : State) : (complete r s).r1 = s.r1 := rfl
@[simp] theorem complete_r2 (r : Result) (s : State) : (complete r s).r2 = s.r2 := rfl
@[simp] theorem complete_payload (r : Result) (s : State) : (complete r s).payload = s.payload := rfl
@[simp] theorem complete_ocrRaw (r : Result) (s : State) : (complete r s).ocrRaw = s.ocrRaw := rfl
@[simp] theorem complete_buf (r : Result) (s : State) : (complete r s).buf = s.buf := rfl
@[simp] theorem complete_wresp (r : Result) (s : State) : (complete r s).wresp = s.wresp := rfl
@[simp] theorem complete_trace (r : Result) (s : State) : (complete r s).trace = s.trace := rfl
@[simp] theorem complete_resetRequest (r : Result) (s : State) : (complete r s).resetRequest = s.resetRequest := rfl
@[simp] theorem complete_port (r : Result) (s : State) : (complete r s).port = s.port := rfl
@[simp] theorem complete_result (r : Result) (s : State) : (complete r s).result = some r := rfl
@[simp] theorem complete_rx (r : Result) (s : State) : (complete r s).rx = s.rx := rfl
@[simp] theorem complete_envCount (r : Result) (s : State) : (complete r s).envCount = s.envCount := rfl
@[simp] theorem complete_envMemory (r : Result) (s : State) : (complete r s).envMemory = s.envMemory := rfl

@[simp] theorem waitAt_cfg (w : Wait) (s : State) : (waitAt w s).cfg = s.cfg := rfl
@[simp] theorem waitAt_link (w : Wait) (s : State) : (waitAt w s).link = s.link := rfl
@[simp] theorem waitAt_filler (w : Wait) (s : State) : (waitAt w s).filler = s.filler := rfl
@[simp] theorem waitAt_initialized (w : Wait) (s : State) : (waitAt w s).initialized = s.initialized := rfl
@[simp] theorem waitAt_sectorCount (w : Wait) (s : State) : (waitAt w s).sectorCount = s.sectorCount := rfl
@[simp] theorem waitAt_fault (w : Wait) (s : State) : (waitAt w s).fault = s.fault := rfl
@[simp] theorem waitAt_cs (w : Wait) (s : State) : (waitAt w s).cs = s.cs := rfl
@[simp] theorem waitAt_seq (w : Wait) (s : State) : (waitAt w s).seq = s.seq := rfl
@[simp] theorem waitAt_waiting (w : Wait) (s : State) : (waitAt w s).waiting = some w := rfl
@[simp] theorem waitAt_op (w : Wait) (s : State) : (waitAt w s).op = s.op := rfl
@[simp] theorem waitAt_opArg (w : Wait) (s : State) : (waitAt w s).opArg = s.opArg := rfl
@[simp] theorem waitAt_wdata (w : Wait) (s : State) : (waitAt w s).wdata = s.wdata := rfl
@[simp] theorem waitAt_crc (w : Wait) (s : State) : (waitAt w s).crc = s.crc := rfl
@[simp] theorem waitAt_frame (w : Wait) (s : State) : (waitAt w s).frame = s.frame := rfl
@[simp] theorem waitAt_pollCnt (w : Wait) (s : State) : (waitAt w s).pollCnt = s.pollCnt := rfl
@[simp] theorem waitAt_r1 (w : Wait) (s : State) : (waitAt w s).r1 = s.r1 := rfl
@[simp] theorem waitAt_r2 (w : Wait) (s : State) : (waitAt w s).r2 = s.r2 := rfl
@[simp] theorem waitAt_payload (w : Wait) (s : State) : (waitAt w s).payload = s.payload := rfl
@[simp] theorem waitAt_ocrRaw (w : Wait) (s : State) : (waitAt w s).ocrRaw = s.ocrRaw := rfl
@[simp] theorem waitAt_buf (w : Wait) (s : State) : (waitAt w s).buf = s.buf := rfl
@[simp] theorem waitAt_wresp (w : Wait) (s : State) : (waitAt w s).wresp = s.wresp := rfl
@[simp] theorem waitAt_trace (w : Wait) (s : State) : (waitAt w s).trace = s.trace := rfl
@[simp] theorem waitAt_resetRequest (w : Wait) (s : State) : (waitAt w s).resetRequest = s.resetRequest := rfl
@[simp] theorem waitAt_port (w : Wait) (s : State) : (waitAt w s).port = s.port := rfl
@[simp] theorem waitAt_result (w : Wait) (s : State) : (waitAt w s).result = s.result := rfl
@[simp] theorem waitAt_rx (w : Wait) (s : State) : (waitAt w s).rx = s.rx := rfl
@[simp] theorem waitAt_envCount (w : Wait) (s : State) : (waitAt w s).envCount = s.envCount := rfl
@[simp] theorem waitAt_envMemory (w : Wait) (s : State) : (waitAt w s).envMemory = s.envMemory := rfl

@[simp] theorem computeCrc_cfg (bytes : List Byte) (s : State) : (computeCrc bytes s).cfg = s.cfg := rfl
@[simp] theorem computeCrc_link (bytes : List Byte) (s : State) : (computeCrc bytes s).link = s.link := rfl
@[simp] theorem computeCrc_filler (bytes : List Byte) (s : State) : (computeCrc bytes s).filler = s.filler := rfl
@[simp] theorem computeCrc_initialized (bytes : List Byte) (s : State) : (computeCrc bytes s).initialized = s.initialized := rfl
@[simp] theorem computeCrc_sectorCount (bytes : List Byte) (s : State) : (computeCrc bytes s).sectorCount = s.sectorCount := rfl
@[simp] theorem computeCrc_fault (bytes : List Byte) (s : State) : (computeCrc bytes s).fault = s.fault := rfl
@[simp] theorem computeCrc_cs (bytes : List Byte) (s : State) : (computeCrc bytes s).cs = s.cs := rfl
@[simp] theorem computeCrc_seq (bytes : List Byte) (s : State) : (computeCrc bytes s).seq = s.seq := rfl
@[simp] theorem computeCrc_waiting (bytes : List Byte) (s : State) : (computeCrc bytes s).waiting = s.waiting := rfl
@[simp] theorem computeCrc_op (bytes : List Byte) (s : State) : (computeCrc bytes s).op = s.op := rfl
@[simp] theorem computeCrc_opArg (bytes : List Byte) (s : State) : (computeCrc bytes s).opArg = s.opArg := rfl
@[simp] theorem computeCrc_wdata (bytes : List Byte) (s : State) : (computeCrc bytes s).wdata = s.wdata := rfl
@[simp] theorem computeCrc_crc (bytes : List Byte) (s : State) : (computeCrc bytes s).crc = crc7 bytes := rfl
@[simp] theorem computeCrc_frame (bytes : List Byte) (s : State) : (computeCrc bytes s).frame = s.frame := rfl
@[simp] theorem computeCrc_pollCnt (bytes : List Byte) (s : State) : (computeCrc bytes s).pollCnt = s.pollCnt := rfl
@[simp] theorem computeCrc_r1 (bytes : List Byte) (s : State) : (computeCrc bytes s).r1 = s.r1 := rfl
@[simp] theorem computeCrc_r2 (bytes : List Byte) (s : State) : (computeCrc bytes s).r2 = s.r2 := rfl
@[simp] theorem computeCrc_payload (bytes : List Byte) (s : State) : (computeCrc bytes s).payload = s.payload := rfl
@[simp] theorem computeCrc_ocrRaw (bytes : List Byte) (s : State) : (computeCrc bytes s).ocrRaw = s.ocrRaw := rfl
@[simp] theorem computeCrc_buf (bytes : List Byte) (s : State) : (computeCrc bytes s).buf = s.buf := rfl
@[simp] theorem computeCrc_wresp (bytes : List Byte) (s : State) : (computeCrc bytes s).wresp = s.wresp := rfl
@[simp] theorem computeCrc_trace (bytes : List Byte) (s : State) : (computeCrc bytes s).trace = s.trace := rfl
@[simp] theorem computeCrc_resetRequest (bytes : List Byte) (s : State) : (computeCrc bytes s).resetRequest = s.resetRequest := rfl
@[simp] theorem computeCrc_port (bytes : List Byte) (s : State) : (computeCrc bytes s).port = s.port := rfl
@[simp] theorem computeCrc_result (bytes : List Byte) (s : State) : (computeCrc bytes s).result = s.result := rfl
@[simp] theorem computeCrc_rx (bytes : List Byte) (s : State) : (computeCrc bytes s).rx = s.rx := rfl
@[simp] theorem computeCrc_envCount (bytes : List Byte) (s : State) : (computeCrc bytes s).envCount = s.envCount := rfl
@[simp] theorem computeCrc_envMemory (bytes : List Byte) (s : State) : (computeCrc bytes s).envMemory = s.envMemory := rfl

@[simp] theorem buildFrame_cfg (idx : BitVec 6) (arg : Word32) (s : State) : (buildFrame idx arg s).cfg = s.cfg := rfl
@[simp] theorem buildFrame_link (idx : BitVec 6) (arg : Word32) (s : State) : (buildFrame idx arg s).link = s.link := rfl
@[simp] theorem buildFrame_filler (idx : BitVec 6) (arg : Word32) (s : State) : (buildFrame idx arg s).filler = s.filler := rfl
@[simp] theorem buildFrame_initialized (idx : BitVec 6) (arg : Word32) (s : State) : (buildFrame idx arg s).initialized = s.initialized := rfl
@[simp] theorem buildFrame_sectorCount (idx : BitVec 6) (arg : Word32) (s : State) : (buildFrame idx arg s).sectorCount = s.sectorCount := rfl
@[simp] theorem buildFrame_fault (idx : BitVec 6) (arg : Word32) (s : State) : (buildFrame idx arg s).fault = s.fault := rfl
@[simp] theorem buildFrame_cs (idx : BitVec 6) (arg : Word32) (s : State) : (buildFrame idx arg s).cs = s.cs := rfl
@[simp] theorem buildFrame_seq (idx : BitVec 6) (arg : Word32) (s : State) : (buildFrame idx arg s).seq = s.seq := rfl
@[simp] theorem buildFrame_waiting (idx : BitVec 6) (arg : Word32) (s : State) : (buildFrame idx arg s).waiting = s.waiting := rfl
@[simp] theorem buildFrame_op (idx : BitVec 6) (arg : Word32) (s : State) : (buildFrame idx arg s).op = s.op := rfl
@[simp] theorem buildFrame_opArg (idx : BitVec 6) (arg : Word32) (s : State) : (buildFrame idx arg s).opArg = s.opArg := rfl
@[simp] theorem buildFrame_wdata (idx : BitVec 6) (arg : Word32) (s : State) : (buildFrame idx arg s).wdata = s.wdata := rfl
@[simp] theorem buildFrame_crc (idx : BitVec 6) (arg : Word32) (s : State) : (buildFrame idx arg s).crc = crc7 (frameBody idx arg) := rfl
@[simp] theorem buildFrame_frame (idx : BitVec 6) (arg : Word32) (s : State) : (buildFrame idx arg s).frame = frameBytes idx arg := rfl
@[simp] theorem buildFrame_pollCnt (idx : BitVec 6) (arg : Word32) (s : State) : (buildFrame idx arg s).pollCnt = s.pollCnt := rfl
@[simp] theorem buildFrame_r1 (idx : BitVec 6) (arg : Word32) (s : State) : (buildFrame idx arg s).r1 = s.r1 := rfl
@[simp] theorem buildFrame_r2 (idx : BitVec 6) (arg : Word32) (s : State) : (buildFrame idx arg s).r2 = s.r2 := rfl
@[simp] theorem buildFrame_payload (idx : BitVec 6) (arg : Word32) (s : State) : (buildFrame idx arg s).payload = s.payload := rfl
@[simp] theorem buildFrame_ocrRaw (idx : BitVec 6) (arg : Word32) (s : State) : (buildFrame idx arg s).ocrRaw = s.ocrRaw := rfl
@[simp] theorem buildFrame_buf (idx : BitVec 6) (arg : Word32) (s : State) : (buildFrame idx arg s).buf = s.buf := rfl
@[simp] theorem buildFrame_wresp (idx : BitVec 6) (arg : Word32) (s : State) : (buildFrame idx arg s).wresp = s.wresp := rfl
@[simp] theorem buildFrame_trace (idx : BitVec 6) (arg : Word32) (s : State) : (buildFrame idx arg s).trace = s.trace := rfl
@[simp] theorem buildFrame_resetRequest (idx : BitVec 6) (arg : Word32) (s : State) : (buildFrame idx arg s).resetRequest = s.resetRequest := rfl
@[simp] theorem buildFrame_port (idx : BitVec 6) (arg : Word32) (s : State) : (buildFrame idx arg s).port = s.port := rfl
@[simp] theorem buildFrame_result (idx : BitVec 6) (arg : Word32) (s : State) : (buildFrame idx arg s).result = s.result := rfl
@[simp] theorem buildFrame_rx (idx : BitVec 6) (arg : Word32) (s : State) : (buildFrame idx arg s).rx = s.rx := rfl
@[simp] theorem buildFrame_envCount (idx : BitVec 6) (arg : Word32) (s : State) : (buildFrame idx arg s).envCount = s.envCount := rfl
@[simp] theorem buildFrame_envMemory (idx : BitVec 6) (arg : Word32) (s : State) : (buildFrame idx arg s).envMemory = s.envMemory := rfl

end Sys2Proof.Machine
end

