-- ==== Sys2Proof/Laws/Ops.lean ====
section
/-! SUPPORT. One lemma per shared operation that says once what it does: sequencing and raising, the exchanges, the command
framer, the status poll, the transactions, the data phases. The lemmas about a card's answers take them from `State.rx`. -/

namespace Sys2Proof.Machine

variable {s : State} {f g : State → State} {r : Fatal} {b t : Byte} {rest : List Byte}

/-! ### Sequencing and raising -/

theorem andThen_of_none (h : s.fault = none) : s.andThen f = f s := by simp [State.andThen, h]

theorem andThen_of_fault (h : s.fault = some r) : s.andThen f = s := by simp [State.andThen, h]

theorem live_of_none (h : s.fault = none) : live f s = .next (f s) := by simp [live, andThen_of_none h]

theorem live_of_fault (h : s.fault = some r) : live f s = .next s := by simp [live, andThen_of_fault h]

theorem raise_of_none (h : s.fault = none) : raise r s = afterFatal r s := by simp [raise, h, afterFatal]

theorem raise_of_fault {r' : Fatal} (h : s.fault = some r') : raise r s = s := by simp [raise, h]

theorem rowOp_of_none {m : SeqState} (h : s.fault = none) : rowOp m f s = .next (f (enter m s)) := by
  simp [rowOp, live_of_none h]

theorem startOp_of_ready {code : BitVec 4} {latch : State → State} (hb : s.busy = false)
    (hc : (latch { s with op := code }).cfg = s.cfg) (hs : (latch { s with op := code }).initialized = s.initialized)
    (hi : code = 0 ∨ s.cfg.requireInit = false ∨ s.initialized = true) :
    startOp code latch f s = f (latch { s with op := code }) := by
  rcases hi with rfl | h | h <;> simp_all [startOp]

/-- Sequencing is associative: a raise ends all that follows it (rule R308). -/
theorem andThen_assoc : (s.andThen f).andThen g = s.andThen fun s => (f s).andThen g := by
  cases h : s.fault <;> simp [State.andThen, h]

@[simp] theorem andThen_afterFatal : (afterFatal r s).andThen f = afterFatal r s := rfl

/-- A host operation that the dispatch lets through (rule R281). -/
theorem live_startOp {code : BitVec 4} {latch : State → State} (h : s.starts code)
    (hc : (latch { s with op := code }).cfg = s.cfg) (hi : (latch { s with op := code }).initialized = s.initialized) :
    live (startOp code latch f) s = .next (f (latch { s with op := code })) :=
  (live_of_none h.1).trans (congrArg _ (startOp_of_ready h.2.1 hc hi h.2.2))

/-- `Deselect()` in one update (rules R158, R321). -/
theorem deselect_eq (s : State) : deselect s = afterDeselect s := rfl

/-! ### Exchanges -/

theorem reply_cons (h : s.rx = b :: rest) : reply t s = b := by simp [reply, h]

theorem xchg_cons (h : s.rx = b :: rest) :
    xchg t s = { s with rx := rest, trace := .x t b :: s.trace } := by
  simp [xchg, h, reply]

@[simp] theorem xchgN_nil : xchgN [] s = s := rfl

theorem xchgN_append (ts us : List Byte) (s : State) : xchgN (ts ++ us) s = xchgN us (xchgN ts s) := by
  induction ts generalizing s with
  | nil => rfl
  | cons t ts ih => exact ih _

@[simp] theorem replies_length (ts : List Byte) (s : State) : (replies ts s).length = ts.length := by
  induction ts generalizing s with
  | nil => rfl
  | cons t ts ih => simp [replies, ih]

/-- An exchange of a byte string writes the answers left, the count of unscripted answers and the trace, nothing else. -/
theorem xchgN_eq (ts : List Byte) (s : State) :
    xchgN ts s =
      { s with rx := (xchgN ts s).rx, envCount := (xchgN ts s).envCount, trace := (xchgN ts s).trace } := by
  induction ts generalizing s with
  | nil => rfl
  | cons t ts ih =>
    have h := ih (xchg t s)
    simpa [xchgN, xchg] using h

/-- An exchange of `n` bytes is `n` events, one per byte in index order (rule R322). -/
theorem xchgN_trace (ts : List Byte) (s : State) :
    (xchgN ts s).trace = (exchangeEvents ts (replies ts s)).reverse ++ s.trace := by
  induction ts generalizing s with
  | nil => rfl
  | cons t ts ih => simp [xchgN, replies, exchangeEvents] at *; simp [ih]

theorem xchgN_rx {ts rs : List Byte} (hlen : ts.length = rs.length) (h : s.rx = rs ++ rest) :
    xchgN ts s = { s with rx := rest, trace := (exchangeEvents ts rs).reverse ++ s.trace } := by
  induction ts generalizing s rs with
  | nil =>
    obtain rfl : rs = [] := List.length_eq_zero_iff.mp hlen.symm
    subst h
    rfl
  | cons t ts ih =>
    match rs, hlen with
    | r :: rs, hlen =>
      have h0 : s.rx = r :: (rs ++ rest) := h
      rw [xchgN, xchg_cons h0, ih (rs := rs) (by simpa using hlen) rfl]
      simp [exchangeEvents]

theorem replies_rx {ts rs : List Byte} (hlen : ts.length = rs.length) (h : s.rx = rs ++ rest) :
    replies ts s = rs := by
  induction ts generalizing s rs with
  | nil => exact (List.length_eq_zero_iff.mp hlen.symm).symm
  | cons t ts ih =>
    match rs, hlen with
    | r :: rs, hlen =>
      have h0 : s.rx = r :: (rs ++ rest) := h
      rw [replies, reply_cons h0, ih (rs := rs) (by simpa using hlen) (by simp [h0])]

theorem exchangeEvents_replicate (rs : List Byte) :
    exchangeEvents (List.replicate rs.length Config.filler) rs = receiveEvents rs := by
  induction rs with
  | nil => rfl
  | cons r rs ih => simpa [exchangeEvents, receiveEvents, List.replicate_succ] using ih

theorem frameBytes_length (idx : BitVec 6) (arg : Word32) : (frameBytes idx arg).length = 6 := rfl

/-! ### A command and its status byte -/

/-- `IssueCommand` (rule R143) when the card's next six answers are scripted. -/
theorem issueCommand_rx {idx : BitVec 6} {arg : Word32} {ans : List Byte} (hlen : ans.length = 6) (h : s.rx = ans ++ rest) :
    issueCommand idx arg s =
      { s with
        frame := frameBytes idx arg
        crc := crc7 (frameBody idx arg)
        cs := true
        seq := ⟨s.seq.main, some (.pFrame 5)⟩
        rx := rest
        trace := (exchangeEvents (frameBytes idx arg) ans).reverse ++ .sel :: s.trace } := by
  have hx : (select (buildFrame idx arg s)).rx = ans ++ rest := h
  simp only [issueCommand, select_frame, buildFrame_frame]
  rw [xchgN_rx (by rw [frameBytes_length, hlen]) hx]
  rfl

theorem frameIdx_frameBytes (idx : BitVec 6) (arg : Word32) : frameIdx (frameBytes idx arg) = idx := by
  simp only [frameIdx, frameBytes, frameBody, startByte, List.cons_append, List.getD_cons_zero]
  ext i hi
  simp [BitVec.getElem_extractLsb', show i < 8 by omega, hi]
  interval_cases i <;> simp

/-- The poll when the card's answers bring a status byte within the attempts left (rule R152). -/
theorem pollLoop_rx {k : Nat} {skip : List Byte} {status : Byte} (hk : skip.length < k) (hskip : ∀ b ∈ skip, isStatus b = false)
    (hst : isStatus status = true) (h : s.rx = skip ++ (status :: rest))
    (hc : s.pollCnt.toNat + k ≤ 8) :
    pollLoop k s =
      { s with
        seq := ⟨s.seq.main, some (.pPoll (s.pollCnt.toNat + skip.length + 1))⟩
        pollCnt := BitVec.ofNat 4 (s.pollCnt.toNat + skip.length + 1)
        r1 := status
        rx := rest
        trace := (receiveEvents (skip ++ [status])).reverse ++ s.trace } := by
  induction skip generalizing s k with
  | nil =>
    match k, hk with
    | k + 1, _ =>
      have h0 : s.rx = status :: rest := h
      have hp : s.pollCnt + 1 = BitVec.ofNat 4 (s.pollCnt.toNat + 1) := by
        apply BitVec.eq_of_toNat_eq; simp [BitVec.toNat_add]
      simp only [pollLoop, reply_cons h0, xchg_cons h0, hst, if_true, hp]
      rfl
  | cons b skip ih =>
    match k, hk with
    | k + 1, hk =>
      have h0 : s.rx = b :: (skip ++ status :: rest) := h
      have hb : isStatus b = false := hskip b (by simp)
      have hp : (s.pollCnt.toNat + 1) % 16 = s.pollCnt.toNat + 1 := by omega
      rw [pollLoop]
      simp only [reply_cons h0, xchg_cons h0, hb, Bool.false_eq_true, if_false]
      rw [ih (by simpa using hk) (fun c hc => hskip c (by simp [hc])) (by rfl) (by simp; omega)]
      simp [atPhase, hp, receiveEvents, Nat.add_assoc, Nat.add_comm 1]

/-- The poll when eight answers bring no status byte: exactly the attempts left are made and the fault is raised (rule R302). -/
theorem pollLoop_timeout {k : Nat} {skip : List Byte} (hk : skip.length = k) (hskip : ∀ b ∈ skip, isStatus b = false)
    (h : s.rx = skip ++ rest) (hf : s.fault = none) (hc : s.pollCnt.toNat + k ≤ 8) :
    pollLoop k s =
      afterFatal (.respTimeout (frameIdx s.frame))
        { s with
          pollCnt := BitVec.ofNat 4 (s.pollCnt.toNat + k)
          rx := rest
          trace := (receiveEvents skip).reverse ++ s.trace } := by
  induction skip generalizing s k with
  | nil =>
    subst hk
    have h0 : s.rx = rest := h
    simp [pollLoop, raise_of_none hf, afterFatal, receiveEvents, ← h0]
  | cons b skip ih =>
    match k, hk with
    | k + 1, hk =>
      have h0 : s.rx = b :: (skip ++ rest) := h
      have hb : isStatus b = false := hskip b (by simp)
      have hp : (s.pollCnt.toNat + 1) % 16 = s.pollCnt.toNat + 1 := by omega
      rw [pollLoop]
      simp only [reply_cons h0, xchg_cons h0, hb, Bool.false_eq_true, if_false]
      rw [ih (by simpa using hk) (fun c hc => hskip c (by simp [hc])) (by rfl) (by exact hf) (by simp; omega)]
      simp [atPhase, afterFatal, hp, receiveEvents, Nat.add_assoc, Nat.add_comm 1]

end Sys2Proof.Machine
end

