-- ==== Sys2Proof/Laws/Transactions.lean ====
section
/-! SUPPORT. What a transaction and a data phase do when the card's answers are scripted in `State.rx`: each is one
explicit next state. -/

namespace Sys2Proof.Machine

variable {s : State} {rest : List Byte} {c : CardReply} {idx : BitVec 6} {arg : Word32}

theorem CardReply.ok_iff :
    c.ok = true ↔ c.frameAns.length = 6 ∧ c.skip.length ≤ 7 ∧ (∀ b ∈ c.skip, isStatus b = false) ∧ isStatus c.status = true := by
  simp [CardReply.ok, and_assoc]

/-- A command and its Shape A response (rules R143, R153). -/
theorem command_rx (hc : c.ok = true) (hf : s.fault = none) (h : s.rx = c.bytes ++ rest) :
    (issueCommand idx arg s).andThen respA = afterReply idx arg c rest s := by
  obtain ⟨h6, h7, hskip, hst⟩ := CardReply.ok_iff.mp hc
  have h' : s.rx = c.frameAns ++ (c.skip ++ (c.status :: rest)) := by simpa [CardReply.bytes] using h
  rw [issueCommand_rx h6 h', andThen_of_none (by exact hf), respA, pollStatus,
    pollLoop_rx (skip := c.skip) (status := c.status) (rest := rest) (by simp [Config.respPollMax]; omega) hskip hst rfl
      (by simp [Config.respPollMax])]
  simp [afterReply, CardReply.events]

/-- A whole Shape A transaction with no data phase (rule R158). -/
theorem transactA_rx (hc : c.ok = true) (hf : s.fault = none) (h : s.rx = c.bytes ++ rest) :
    transactA idx arg s = afterTransactA idx arg c rest s := by
  rw [transactA, command_rx hc hf h, andThen_of_none (by exact hf)]
  rfl

/-- The payload of a Shape C/D response (rule R155). -/
theorem payloadBytes_rx {e : List Byte} (he : e.length = 4) (h : s.rx = e ++ rest) :
    payloadBytes s =
      { afterReceive e rest s with payload := be32List e, seq := ⟨s.seq.main, some (.pExtra 3)⟩ } := by
  have hlen : (List.replicate 4 Config.filler).length = e.length := by simp [he]
  have hev : exchangeEvents (List.replicate 4 Config.filler) e = receiveEvents e := by
    rw [← he]; exact exchangeEvents_replicate e
  simp only [payloadBytes]
  rw [xchgN_rx hlen h, replies_rx hlen h, hev]
  rfl

/-- A command and its Shape C/D response, the transaction still open (rule R155). -/
theorem commandCD_rx {e : List Byte} (hc : c.ok = true) (he : e.length = 4) (hf : s.fault = none)
    (h : s.rx = c.bytes ++ (e ++ rest)) :
    (issueCommand idx arg s).andThen respCD =
      { afterReceive e rest (afterReply idx arg c (e ++ rest) s) with
        payload := be32List e, seq := ⟨s.seq.main, some (.pExtra 3)⟩ } := by
  have h0 : (issueCommand idx arg s).andThen respCD = ((issueCommand idx arg s).andThen respA).andThen payloadBytes := by
    unfold State.andThen respCD respA State.andThen
    cases hi : (issueCommand idx arg s).fault <;> simp [hi]
  rw [h0, command_rx hc hf h, andThen_of_none (by exact hf), payloadBytes_rx he rfl]
  rfl

/-- A whole Shape C/D transaction (rules R155, R158). -/
theorem transactCD_rx {e : List Byte} (hc : c.ok = true) (he : e.length = 4) (hf : s.fault = none)
    (h : s.rx = c.bytes ++ (e ++ rest)) :
    transactCD idx arg s = afterTransactCD idx arg c e rest s := by
  rw [transactCD, commandCD_rx hc he hf h, andThen_of_none (by exact hf)]
  rfl

/-- A command and its Shape B response, the transaction still open (rule R154). -/
theorem commandB_rx {b : Byte} (hc : c.ok = true) (hf : s.fault = none) (h : s.rx = c.bytes ++ (b :: rest)) :
    (issueCommand idx arg s).andThen respB =
      { afterReceive [b] rest (afterReply idx arg c (b :: rest) s) with
        r2 := b, seq := ⟨s.seq.main, some (.pExtra 0)⟩ } := by
  have h0 : (issueCommand idx arg s).andThen respB = ((issueCommand idx arg s).andThen respA).andThen secondByte := by
    unfold State.andThen respB respA State.andThen
    cases hi : (issueCommand idx arg s).fault <;> simp [hi]
  have hx : (afterReply idx arg c (b :: rest) s).rx = b :: rest := rfl
  rw [h0, command_rx hc hf h, andThen_of_none (by exact hf), secondByte, xchg_cons hx, reply_cons hx]
  rfl

/-- The status-byte test passes (rule R283). -/
theorem checkR1_pass (h : s.cfg.r1Check = false ∨ s.r1 = 0) : checkR1 idx s = s := by
  rcases h with h | h <;> simp [checkR1, h]

/-- The status-byte test fails inside the transaction (rules R283, R303). -/
theorem checkR1_fail (hcheck : s.cfg.r1Check = true) (h : s.r1 ≠ 0) (hf : s.fault = none) :
    checkR1 idx s = afterFatal (.unexpectedStatus idx s.r1) s := by
  have h' : (s.r1 != 0) = true := by simpa using h
  simp only [checkR1, hcheck, h', Bool.and_self, if_true, raise_of_none hf]

/-- The data bytes and the two trailing bytes (rule R203). -/
theorem receiveBlock_rx {data : List Byte} {t0 t1 : Byte} (hfil : s.filler = Config.fillerBuffer)
    (hn : data.length ≤ Config.sectorBytes) (h : s.rx = data ++ (t0 :: t1 :: rest)) :
    receiveBlock data.length s =
      { afterReceive (data ++ [t0, t1]) rest s with
        buf := data ++ s.buf.drop data.length, seq := ⟨s.seq.main, some (.pCrc 1)⟩ } := by
  have htake : s.filler.take data.length = List.replicate data.length Config.filler := by
    simp only [hfil, Config.fillerBuffer, List.take_replicate, Nat.min_eq_left hn]
  have hlen : (List.replicate data.length Config.filler).length = data.length := by simp
  have htake2 : s.filler.take Config.blockCrcBytes = List.replicate ([t0, t1] : List Byte).length Config.filler := by
    rw [hfil, Config.fillerBuffer, List.take_replicate]; rfl
  simp only [receiveBlock, htake]
  rw [xchgN_rx hlen h, replies_rx hlen h, exchangeEvents_replicate]
  simp only [atPhase, htake2]
  rw [xchgN_rx (rs := [t0, t1]) (rest := rest) (by simp) (by simp), exchangeEvents_replicate]
  simp [afterReceive, receiveEvents]

/-- The token wait when the next byte is the start token (rule R202). -/
theorem waitToken_token {n : Nat} {k : AfterToken} (h : s.rx = s.cfg.startToken :: rest) :
    waitToken n k s =
      afterToken k { afterReceive [s.cfg.startToken] rest s with waiting := none, seq := ⟨s.seq.main, some .pToken⟩ } := by
  simp [waitToken, reply_cons h, xchg_cons h, atPhase, afterReceive, receiveEvents]

/-- The token wait when the next byte is another one (rules R105, R202): it is ignored and the engine goes on waiting. -/
theorem waitToken_other {n : Nat} {k : AfterToken} {b : Byte} (hb : b ≠ s.cfg.startToken)
    (hmax : s.cfg.tokenWaitMax ≠ some (n + 1)) (h : s.rx = b :: rest) :
    waitToken n k s =
      { afterReceive [b] rest s with waiting := some (.token (n + 1) k), seq := ⟨s.seq.main, some .pToken⟩ } := by
  simp [waitToken, reply_cons h, xchg_cons h, atPhase, hb, hmax, waitAt, afterReceive, receiveEvents]

/-- An inbound block whose token comes at once, going on with `k` (rule R203). -/
theorem waitToken_block {n m : Nat} {k : AfterBlock} {data : List Byte} {t0 t1 : Byte} (hfil : s.filler = Config.fillerBuffer)
    (hn : data.length = m) (hm : m ≤ Config.sectorBytes) (h : s.rx = s.cfg.startToken :: (data ++ (t0 :: t1 :: rest))) :
    waitToken n (.block m k) s =
      afterBlock m k
        { afterInbound s.cfg.startToken [] data [t0, t1] rest s with
          waiting := none, seq := ⟨s.seq.main, some (.pCrc 1)⟩ } := by
  subst hn
  rw [waitToken_token h, afterToken, receiveBlock_rx (by exact hfil) hm rfl]
  simp [afterInbound, afterReceive, receiveEvents]

/-- The outbound block (rule R208): the token and the data are transmitted as they are, whatever the card answers. -/
theorem sendBlock_rx {data ans : List Byte} {accept : Byte} (hlen : ans.length = data.length + 4)
    (h : s.rx = ans ++ (accept :: rest)) :
    sendBlock data s = { afterOutbound data ans accept rest s with seq := ⟨s.seq.main, some .pWResp⟩ } := by
  match ans, hlen with
  | a0 :: a1 :: tail, hlen =>
    have hl : tail.length = data.length + 2 := by simpa using hlen
    obtain ⟨mid, last, rfl, hmid, hlast⟩ : ∃ mid last, tail = mid ++ last ∧ mid.length = data.length ∧ last.length = 2 :=
      ⟨tail.take data.length, tail.drop data.length, by simp, by simp [hl], by simp [hl]⟩
    have h0 : s.rx = a0 :: (a1 :: (mid ++ (last ++ (accept :: rest)))) := by simpa using h
    have hz : exchangeEvents (data ++ [s.cfg.writeCrc0, s.cfg.writeCrc1]) (mid ++ last)
        = exchangeEvents data mid ++ exchangeEvents [s.cfg.writeCrc0, s.cfg.writeCrc1] last := by
      simp [exchangeEvents, List.zipWith_append hmid.symm]
    unfold sendBlock
    rw [xchg_cons h0]
    extract_lets s1 s2 s3 s4
    have e2 : s2 = { s1 with
        seq := ⟨s.seq.main, some .pWToken⟩
        rx := mid ++ (last ++ (accept :: rest))
        trace := .x s.cfg.startToken a1 :: .x Config.filler a0 :: s.trace } := by
      simp only [s2]; rw [xchg_cons (s := s1) (b := a1) (rest := mid ++ (last ++ (accept :: rest))) rfl]; rfl
    have e3 : s3 = { s1 with
        seq := ⟨s.seq.main, some (.pWData (data.length - 1))⟩
        rx := last ++ (accept :: rest)
        trace := (exchangeEvents data mid).reverse ++ (.x s.cfg.startToken a1 :: .x Config.filler a0 :: s.trace) } := by
      simp only [s3]
      rw [xchgN_rx (rs := mid) (rest := last ++ (accept :: rest)) hmid.symm (by rw [e2]), e2]; rfl
    have e4 : s4 = { s1 with
        seq := ⟨s.seq.main, some (.pWCrc 1)⟩
        rx := accept :: rest
        trace := (exchangeEvents [s.cfg.writeCrc0, s.cfg.writeCrc1] last).reverse ++
          ((exchangeEvents data mid).reverse ++ (.x s.cfg.startToken a1 :: .x Config.filler a0 :: s.trace)) } := by
      have hc : s3.cfg = s.cfg := by rw [e3]; rfl
      simp only [s4]
      rw [hc, xchgN_rx (rs := last) (rest := accept :: rest) (by simp [hlast]) (by rw [e3]), e3]; rfl
    have h4 : s4.rx = accept :: rest := by rw [e4]
    have h5 : xchg Config.filler s4 = { s4 with rx := rest, trace := .x Config.filler accept :: s4.trace } := xchg_cons h4
    have hgoal : atPhase .pWResp { xchg Config.filler s4 with wresp := reply Config.filler s4 } =
        { afterOutbound data (a0 :: a1 :: (mid ++ last)) accept rest s with seq := ⟨s.seq.main, some .pWResp⟩ } := by
      rw [h5, reply_cons h4, e4]
      have hx : exchangeEvents (Config.filler :: s.cfg.startToken :: (data ++ [s.cfg.writeCrc0, s.cfg.writeCrc1]))
          (a0 :: a1 :: (mid ++ last)) =
          .x Config.filler a0 :: .x s.cfg.startToken a1 ::
            (exchangeEvents data mid ++ exchangeEvents [s.cfg.writeCrc0, s.cfg.writeCrc1] last) := by
        rw [← hz]; rfl
      simp [afterOutbound, atPhase, hx, s1]
    exact hgoal

/-- The busy wait when the next byte is idle: the transaction is closed, and without WRESP_CHECK the write ends (rules R104, R208, R209). -/
theorem busyWait_idle {n : Nat} (hw : s.cfg.wrespCheck = false ∨ writeAccepted s.wresp = true) (hf : s.fault = none)
    (h : s.rx = Config.filler :: rest) :
    busyWait n s =
      afterEnd .done (afterDeselect (afterReceive [Config.filler] rest s)) := by
  rcases hw with hw | hw <;>
    simp [busyWait, reply_cons h, xchg_cons h, atPhase, checkWresp, hw, State.andThen, hf, deselect_eq, complete, afterEnd,
      afterDeselect, afterReceive, receiveEvents]

/-- The busy wait when the next byte is not idle (rules R104, R208): the engine goes on waiting. -/
theorem busyWait_busy {n : Nat} {b : Byte} (hb : b ≠ Config.filler) (hmax : s.cfg.busyWaitMax ≠ some (n + 1))
    (h : s.rx = b :: rest) :
    busyWait n s =
      { afterReceive [b] rest s with waiting := some (.busy (n + 1)), seq := ⟨s.seq.main, some .pBusy⟩ } := by
  simp [busyWait, reply_cons h, xchg_cons h, atPhase, hb, hmax, waitAt, afterReceive, receiveEvents]

end Sys2Proof.Machine
end

