-- ==== Sys2Proof/Laws/DataPhases.lean ====
section
/-! SUPPORT. The data operations when the answers of the card are scripted in `State.rx`. -/

namespace Sys2Proof.Machine

/-- A data command up to its status-byte test, Shape A (rules R204, R283). -/
theorem opened_rx {s : State} {idx : BitVec 6} {arg : Word32} {c : CardReply} {rest : List Byte} (hc : c.ok = true)
    (hf : s.fault = none)
    (hr : s.cfg.r1Check = false ∨ c.status = 0) (h : s.rx = c.bytes ++ rest) :
    ((issueCommand idx arg s).andThen respA).andThen (checkR1 idx) = afterReply idx arg c rest s := by
  rw [command_rx hc hf h, andThen_of_none (by exact hf), checkR1_pass (by exact hr)]

/-- The same with Shape B (rules R154, R283). -/
theorem openedB_rx {s : State} {idx : BitVec 6} {arg : Word32} {c : CardReply} {b : Byte} {rest : List Byte}
    (hc : c.ok = true) (hf : s.fault = none)
    (hr : s.cfg.r1Check = false ∨ c.status = 0) (h : s.rx = c.bytes ++ (b :: rest)) :
    ((issueCommand idx arg s).andThen respB).andThen (checkR1 idx) =
        { afterReceive [b] rest (afterReply idx arg c (b :: rest) s) with
        r2 := b, seq := ⟨s.seq.main, some (.pExtra 0)⟩ } := by
  rw [commandB_rx hc hf h, andThen_of_none (by exact hf), checkR1_pass (by exact hr)]

/-- SectorRead when the token comes at once (rule R204). -/
theorem sectorRead_rx {s : State} {k : AfterBlock} {index : Word32} {c : CardReply} {data trail rest : List Byte}
    (hf : s.fault = none)
    (hfil : s.filler = Config.fillerBuffer) (hc : c.ok = true) (hr : s.cfg.r1Check = false ∨ c.status = 0)
    (hd : data.length = 512) (ht : trail.length = 2) (h : s.rx = c.bytes ++ (s.cfg.startToken :: (data ++ (trail ++ rest)))) :
    sectorRead k index s =
      afterBlock 512 k { afterInbound s.cfg.startToken [] data trail rest (afterReply 17 index c [] s) with
        waiting := none, seq := ⟨s.seq.main, some (.pCrc 1)⟩ } := by
  match trail, ht with
  | [t0, t1], _ =>
    rw [sectorRead, opened_rx hc hf hr h, andThen_of_none (by exact hf)]
    exact waitToken_block (s := afterReply 17 index c (s.cfg.startToken :: (data ++ (t0 :: t1 :: rest))) s) hfil hd
        (by decide) rfl

/-- RegRead with Shape A when the token comes at once (rule R212). -/
theorem regReadA_rx {s : State} {k : AfterBlock} {idx : BitVec 6} {c : CardReply} {data trail rest : List Byte}
    (hf : s.fault = none)
    (hfil : s.filler = Config.fillerBuffer) (hc : c.ok = true) (hr : s.cfg.r1Check = false ∨ c.status = 0)
    (hd : data.length ≤ 512) (ht : trail.length = 2) (h : s.rx = c.bytes ++ (s.cfg.startToken :: (data ++ (trail ++ rest)))) :
    regRead k idx .a data.length s =
      afterBlock data.length k { afterInbound s.cfg.startToken [] data trail rest (afterReply idx 0 c [] s) with
        waiting := none, seq := ⟨s.seq.main, some (.pCrc 1)⟩ } := by
  match trail, ht with
  | [t0, t1], _ =>
    have : regRead k idx .a data.length s =
        (((issueCommand idx Config.zeroArg s).andThen respA).andThen (checkR1 idx)).andThen
      (waitToken 0 (.block data.length k)) := rfl
    rw [this, opened_rx hc hf hr h, andThen_of_none (by exact hf)]
    exact waitToken_block (s := afterReply idx 0 c (s.cfg.startToken :: (data ++ (t0 :: t1 :: rest))) s) hfil rfl hd rfl

/-- RegRead with Shape B when the token comes at once (rule R212). -/
theorem regReadB_rx {s : State} {k : AfterBlock} {idx : BitVec 6} {c : CardReply} {b : Byte} {data trail rest : List Byte}
    (hf : s.fault = none)
    (hfil : s.filler = Config.fillerBuffer) (hc : c.ok = true) (hr : s.cfg.r1Check = false ∨ c.status = 0)
    (hd : data.length ≤ 512) (ht : trail.length = 2)
        (h : s.rx = c.bytes ++ (b :: s.cfg.startToken :: (data ++ (trail ++ rest)))) :
    regRead k idx .b data.length s =
      afterBlock data.length k { afterInbound s.cfg.startToken [] data trail rest
          { afterReceive [b] [] (afterReply idx 0 c [] s) with r2 := b } with
        waiting := none, seq := ⟨s.seq.main, some (.pCrc 1)⟩ } := by
  match trail, ht with
  | [t0, t1], _ =>
    have : regRead k idx .b data.length s =
        (((issueCommand idx Config.zeroArg s).andThen respB).andThen (checkR1 idx)).andThen
      (waitToken 0 (.block data.length k)) := rfl
    rw [this, openedB_rx hc hf hr h, andThen_of_none (by exact hf)]
    exact waitToken_block (s := { afterReceive [b] (s.cfg.startToken :: (data ++ (t0 :: t1 :: rest)))
        (afterReply idx 0 c (b :: s.cfg.startToken :: (data ++ (t0 :: t1 :: rest))) s) with
        r2 := b, seq := ⟨s.seq.main, some (.pExtra 0)⟩ }) hfil rfl hd rfl

/-- An inbound block whose bytes are the result. -/
theorem afterBlock_bytes {s : State} (k : AfterBlock) (hk : k = .dataPhase ∨ k = .readSector) {index : Word32} {idx}
    {c : CardReply} {data trail rest : List Byte} (ph : Option Phase) :
    afterBlock data.length k { afterInbound s.cfg.startToken [] data trail rest (afterReply idx index c [] s) with
        waiting := none, seq := ⟨s.seq.main, ph⟩ } = afterEnd (.bytes data) (afterFetch idx index c [] data trail rest s) :=
            by
  rcases hk with rfl | rfl <;> simp [afterBlock, complete, deselect_eq, afterEnd, afterFetch, afterDeselect, afterInbound,
      afterReceive, afterReply]

/-- SectorWrite up to the busy wait (rule R208). -/
theorem sectorWrite_rx {s : State} {index : Word32} {data ans rest : List Byte} {accept : Byte} {c : CardReply}
    (hf : s.fault = none) (hc : c.ok = true)
    (hr : s.cfg.r1Check = false ∨ c.status = 0) (hans : ans.length = data.length + 4)
        (h : s.rx = c.bytes ++ (ans ++ (accept :: rest))) :
    sectorWrite index data s = busyWait 0
        { afterOutbound data ans accept rest (afterReply 24 index c [] s) with seq := ⟨s.seq.main, some .pWResp⟩ } := by
  have e : (afterReply 24 index c (ans ++ (accept :: rest)) s).andThen (sendBlock data) =
      { afterOutbound data ans accept rest (afterReply 24 index c [] s) with seq := ⟨s.seq.main, some .pWResp⟩ } :=
    (andThen_of_none (s := afterReply 24 index c (ans ++ (accept :: rest)) s) hf).trans
      (sendBlock_rx (s := afterReply 24 index c (ans ++ (accept :: rest)) s) hans rfl)
  rw [sectorWrite, opened_rx hc hf hr h, e, andThen_of_none (by exact hf)]

/-- One iteration of the activation loop (rule R179). -/
theorem activateOnce_rx {s : State} {c55 c41 : CardReply} {rest : List Byte} (hf : s.fault = none) (h55 : c55.ok = true)
    (h41 : c41.ok = true)
    (h : s.rx = c55.bytes ++ (c41.bytes ++ rest)) :
    activateOnce s = afterTransactA 41 Config.hcsArg c41 rest (afterTransactA 55 0 c55 [] s) := by
  rw [activateOnce, prefixTransaction, transactA_rx h55 hf h, andThen_of_none (by exact hf),
      transactA_rx h41 (by exact hf) rfl]
  rfl

end Sys2Proof.Machine
end

