-- ==== Sys2Proof/Laws/Layout.lean ====
section
/-! SUPPORT. Byte strings as numbers, slices of them, and the rows of a layout table: a row of a packed register is the value
packed there, and packing the rows of a register gives the register without its other bits. -/

namespace Sys2Proof

theorem rawNat_append (xs ys : List Byte) : rawNat (xs ++ ys) = rawNat xs * 256 ^ ys.length + rawNat ys := by
  induction ys using List.reverseRecOn with
  | nil => simp [rawNat]
  | append_singleton ys y ih =>
    have h : rawNat (xs ++ (ys ++ [y])) = rawNat (xs ++ ys) * 256 + y.toNat := by simp [rawNat]
    have h' : rawNat (ys ++ [y]) = rawNat ys * 256 + y.toNat := by simp [rawNat]
    rw [h, h', ih, List.length_append, List.length_singleton, Nat.pow_succ]
    ring

theorem rawNat_cons (b : Byte) (bs : List Byte) : rawNat (b :: bs) = b.toNat * 256 ^ bs.length + rawNat bs := by
  have h : rawNat [b] = b.toNat := by simp [rawNat]
  rw [← List.singleton_append, rawNat_append, h]

theorem rawNat_lt (bs : List Byte) : rawNat bs < 256 ^ bs.length := by
  induction bs with
  | nil => simp [rawNat]
  | cons b bs ih =>
    have hb : b.toNat < 256 := b.isLt
    rw [rawNat_cons, List.length_cons, Nat.pow_succ]
    nlinarith [Nat.zero_le (256 ^ bs.length)]

/-- A bit of a byte string: bit `i` is bit `i % 8` of the byte `i / 8` from its end (rule R10). -/
theorem rawNat_testBit (bs : List Byte) (i : Nat) (hi : i < 8 * bs.length) :
    (rawNat bs).testBit i = (bs.getD (bs.length - 1 - i / 8) 0).getLsbD (i % 8) := by
  induction bs with
  | nil => simp at hi
  | cons b bs ih =>
    have hp : (256 : Nat) ^ bs.length = 2 ^ (8 * bs.length) := by rw [Nat.pow_mul]
    have hlt : rawNat bs < 2 ^ (8 * bs.length) := hp ▸ rawNat_lt bs
    rw [rawNat_cons, hp, Nat.mul_comm, Nat.testBit_two_pow_mul_add _ hlt]
    simp only [List.length_cons] at hi ⊢
    by_cases h : i < 8 * bs.length
    · rw [if_pos h, ih h]
      have hd : i / 8 < bs.length := Nat.div_lt_of_lt_mul (by omega)
      have he : bs.length + 1 - 1 - i / 8 = (bs.length - 1 - i / 8) + 1 := by omega
      rw [he, List.getD_cons_succ]
    · have hd : i / 8 = bs.length := by omega
      have hm : i - 8 * bs.length = i % 8 := by omega
      rw [if_neg h, hm, hd]
      simp [BitVec.getLsbD]

theorem natBytes_length (n v : Nat) : (natBytes n v).length = n := by
  induction n with
  | zero => rfl
  | succ n ih => simp [natBytes, ih]

/-- The bytes of a number, read back as one (rule R10). -/
theorem rawNat_natBytes (n v : Nat) : rawNat (natBytes n v) = v % 256 ^ n := by
  induction n with
  | zero => simp [natBytes, rawNat, Nat.mod_one]
  | succ n ih =>
    have hp : (256 : Nat) ^ n = 2 ^ (8 * n) := by rw [Nat.pow_mul]
    rw [natBytes, rawNat_cons, natBytes_length, ih, BitVec.toNat_ofNat, Nat.shiftRight_eq_div_pow, ← hp]
    rw [show (256 : Nat) ^ (n + 1) = 256 ^ n * 2 ^ 8 from Nat.pow_succ .., Nat.mod_mul (a := 256 ^ n) (b := 2 ^ 8),
      Nat.mul_comm, Nat.add_comm]

theorem natBytes_rawNat (bs : List Byte) : natBytes bs.length (rawNat bs) = bs := by
  have hz : ∀ (bs : List Byte) (h : Nat), natBytes bs.length (h * 256 ^ bs.length + rawNat bs) = bs := by
    intro bs
    induction bs with
    | nil => intro h; rfl
    | cons b bs ih =>
      intro h
      have hp : (256 : Nat) ^ bs.length = 2 ^ (8 * bs.length) := by rw [Nat.pow_mul]
      have e : h * 256 ^ (bs.length + 1) + rawNat (b :: bs) = (h * 256 + b.toNat) * 256 ^ bs.length + rawNat bs := by
        rw [rawNat_cons, Nat.pow_succ]; ring
      rw [List.length_cons, natBytes, e, ih, Nat.shiftRight_eq_div_pow, ← hp,
        Nat.add_comm _ (rawNat bs), Nat.add_mul_div_right _ _ (Nat.pow_pos (by norm_num)),
        Nat.div_eq_of_lt (rawNat_lt bs), Nat.zero_add]
      congr 1
      apply BitVec.eq_of_toNat_eq
      rw [BitVec.toNat_ofNat, Nat.add_comm, Nat.mul_comm]
      have hb := b.isLt
      omega
  simpa using hz bs 0

/-- A row of a register, bit by bit. -/
theorem Field.getLsbD_get (w : Nat) (f : Field) (v i : Nat) (hw : w = f.hi - f.lo + 1) :
    (f.get w v).getLsbD i = (decide (i < w) && v.testBit (f.lo + i)) := by
  simp only [Field.get, BitVec.getLsbD_ofNat, sliceNat, Nat.testBit_mod_two_pow, Nat.testBit_shiftRight, hw]
  by_cases h : i < f.hi - f.lo + 1 <;> simp [h]

theorem Field.toNat_get (w : Nat) (f : Field) (v : Nat) (hw : w = f.hi - f.lo + 1) :
    (f.get w v).toNat = sliceNat v f.hi f.lo := by
  rw [Field.get, BitVec.toNat_ofNat, hw]
  exact Nat.mod_eq_of_lt (Nat.mod_lt _ (Nat.pow_pos (by norm_num)))

/-- Two rows share no bit. -/
def Field.apart (f g : Field) : Bool := decide (f.hi < g.lo) || decide (g.hi < f.lo)

/-- Values in place of their rows: each below `2 ^ width`. -/
def packed (parts : List (Field × Nat)) : Nat := xorAll (parts.map fun p => p.2 <<< p.1.lo)

theorem packed_testBit (parts : List (Field × Nat)) (i : Nat)
    (hfit : ∀ p ∈ parts, p.2 < 2 ^ (p.1.hi - p.1.lo + 1) ∧ p.1.lo ≤ p.1.hi)
    (hout : ∀ p ∈ parts, ¬ (p.1.lo ≤ i ∧ i ≤ p.1.hi)) : (packed parts).testBit i = false := by
  induction parts with
  | nil => simp [packed, xorAll]
  | cons p parts ih =>
    have hp := hfit p (by simp)
    have hi := hout p (by simp)
    have hz : (p.2 <<< p.1.lo).testBit i = false := by
      rw [Nat.testBit_shiftLeft]
      by_cases h : p.1.lo ≤ i
      · have : p.2.testBit (i - p.1.lo) = false :=
          Nat.testBit_lt_two_pow (lt_of_lt_of_le hp.1 (Nat.pow_le_pow_right (by norm_num) (by omega)))
        simp [this]
      · simp [h]
    have hrec := ih (fun q hq => hfit q (by simp [hq])) (fun q hq => hout q (by simp [hq]))
    have hx : packed (p :: parts) = (p.2 <<< p.1.lo) ^^^ packed parts := rfl
    rw [hx, Nat.testBit_xor, hz, hrec]
    rfl

/-- A row of packed values is the value packed there (rule R266). -/
theorem sliceNat_packed (parts : List (Field × Nat)) (f : Field) (x : Nat) (hmem : (f, x) ∈ parts)
    (hfit : ∀ p ∈ parts, p.2 < 2 ^ (p.1.hi - p.1.lo + 1) ∧ p.1.lo ≤ p.1.hi)
    (hapart : parts.Pairwise fun p q => p.1.apart q.1 = true) : sliceNat (packed parts) f.hi f.lo = x := by
  have hx := (hfit _ hmem).1
  have hle := (hfit _ hmem).2
  simp only at hx hle
  apply Nat.eq_of_testBit_eq
  intro i
  rw [sliceNat, Nat.testBit_mod_two_pow, Nat.testBit_shiftRight]
  by_cases hi : i < f.hi - f.lo + 1
  · simp only [hi, decide_true, Bool.true_and]
    clear hx
    induction parts with
    | nil => simp at hmem
    | cons p parts ih =>
      have hpk : packed (p :: parts) = (p.2 <<< p.1.lo) ^^^ packed parts := rfl
      rw [hpk, Nat.testBit_xor]
      obtain ⟨hhead, htail⟩ := List.pairwise_cons.mp hapart
      rcases List.mem_cons.mp hmem with rfl | hin
      · rw [packed_testBit parts _ (fun q hq => hfit q (by simp [hq])) ?_]
        · simp [Nat.testBit_shiftLeft]
        · intro q hq
          have := hhead q hq
          simp [Field.apart] at this
          omega
      · rw [ih hin (fun q hq => hfit q (by simp [hq])) htail]
        have hz := packed_testBit [p] (f.lo + i) (fun q hq => hfit q (by simp at hq; simp [hq])) (by
          intro q hq
          simp at hq
          subst hq
          have := hhead _ hin
          simp [Field.apart] at this
          omega)
        simp only [packed, xorAll, List.map_cons, List.map_nil, List.foldr_cons, List.foldr_nil, Nat.xor_zero] at hz
        rw [hz]; simp
  · simp only [hi, decide_false, Bool.false_and]
    exact (Nat.testBit_lt_two_pow (lt_of_lt_of_le hx (Nat.pow_le_pow_right (by norm_num) (by omega)))).symm

theorem Field.ones_testBit (f : Field) (i : Nat) (hle : f.lo ≤ f.hi) :
    f.ones.testBit i = (decide (f.lo ≤ i) && decide (i ≤ f.hi)) := by
  rw [Field.ones, Nat.testBit_shiftLeft, Nat.testBit_two_pow_sub_one]
  by_cases h : f.lo ≤ i
  · simp [h]; omega
  · simp [h]

/-- The rows of a register, packed, are the register without its other bits (rule R266). -/
theorem packed_slices (fields : List Field) (v : Nat) (hle : ∀ f ∈ fields, f.lo ≤ f.hi)
    (hapart : fields.Pairwise fun f g => f.apart g = true) :
    packed (fields.map fun f => (f, sliceNat v f.hi f.lo)) = v &&& fieldMask fields := by
  induction fields with
  | nil => simp [packed, xorAll, fieldMask]
  | cons f fields ih =>
    obtain ⟨hhead, htail⟩ := List.pairwise_cons.mp hapart
    have hpk : packed ((f :: fields).map fun f => (f, sliceNat v f.hi f.lo)) =
        (sliceNat v f.hi f.lo <<< f.lo) ^^^ packed (fields.map fun f => (f, sliceNat v f.hi f.lo)) := rfl
    have hmask : fieldMask (f :: fields) = f.ones ||| fieldMask fields := rfl
    rw [hpk, ih (fun g hg => hle g (by simp [hg])) htail, hmask]
    have hf := hle f (by simp)
    have hother : ∀ i, f.lo ≤ i → i ≤ f.hi → (fieldMask fields).testBit i = false := by
      intro i h1 h2
      clear ih hpk hmask htail hapart
      induction fields with
      | nil => simp [fieldMask]
      | cons g fields ihf =>
        have hg := hhead g (by simp)
        have hm : fieldMask (g :: fields) = g.ones ||| fieldMask fields := rfl
        rw [hm, Nat.testBit_or, Field.ones_testBit g i (hle g (by simp)),
          ihf (fun h hh => hle h (by simp at hh; rcases hh with rfl | hh <;> simp [*])) (fun h hh => hhead h (by simp [hh]))]
        simp [Field.apart] at hg
        rcases hg with hg | hg
        · have : ¬ g.lo ≤ i := by omega
          simp [this]
        · have : ¬ i ≤ g.hi := by omega
          simp [this]
    apply Nat.eq_of_testBit_eq
    intro i
    rw [Nat.testBit_xor, Nat.testBit_and, Nat.testBit_and, Nat.testBit_or, Field.ones_testBit f i hf, Nat.testBit_shiftLeft,
      sliceNat, Nat.testBit_mod_two_pow, Nat.testBit_shiftRight]
    by_cases h1 : f.lo ≤ i
    · by_cases h2 : i ≤ f.hi
      · have e : f.lo + (i - f.lo) = i := by omega
        have l : i - f.lo < f.hi - f.lo + 1 := by omega
        simp [h1, h2, e, l, hother i h1 h2]
      · have l : ¬ i - f.lo < f.hi - f.lo + 1 := by omega
        simp [h1, h2, l]
    · simp [h1]

end Sys2Proof
end

