-- ==== Sys2Proof/Laws/Decoders.lean ====
section
/-! SUPPORT. The register decoder: a bit of a field, fields of appended bytes, and packed registers as lists of rows and values. -/

namespace Sys2Proof

/-! ### Fields of bytes -/

theorem aq40 (a : BitVec (8+8+8+8)) (b : BitVec 8) (i : Nat) : @BitVec.getLsbD 40
    (a ++ b) i = if i < 8 then b.getLsbD i else a.getLsbD (i - 8) := BitVec.getLsbD_append ..

theorem aq32 (a : BitVec (8+8+8)) (b : BitVec 8) (i : Nat) : @BitVec.getLsbD 32
    (a ++ b) i = if i < 8 then b.getLsbD i else a.getLsbD (i - 8) := BitVec.getLsbD_append ..

theorem aq12 (a : BitVec (2+8)) (b : BitVec 2) (i : Nat) : @BitVec.getLsbD 12
    (a ++ b) i = if i < 2 then b.getLsbD i else a.getLsbD (i - 2) := BitVec.getLsbD_append ..

theorem aq22 (a : BitVec (6+8)) (b : BitVec 8) (i : Nat) : @BitVec.getLsbD 22
    (a ++ b) i = if i < 8 then b.getLsbD i else a.getLsbD (i - 8) := BitVec.getLsbD_append ..

theorem ap8_8 (a : BitVec 8) (b : BitVec 8) (i : Nat) : @BitVec.getLsbD 16
    (a ++ b) i = if i < 8 then b.getLsbD i else a.getLsbD (i - 8) := BitVec.getLsbD_append ..

theorem ap16_8 (a : BitVec 16) (b : BitVec 8) (i : Nat) : @BitVec.getLsbD 24
    (a ++ b) i = if i < 8 then b.getLsbD i else a.getLsbD (i - 8) := BitVec.getLsbD_append ..

theorem ap24_8 (a : BitVec 24) (b : BitVec 8) (i : Nat) : @BitVec.getLsbD 32
    (a ++ b) i = if i < 8 then b.getLsbD i else a.getLsbD (i - 8) := BitVec.getLsbD_append ..

theorem ap32_8 (a : BitVec 32) (b : BitVec 8) (i : Nat) : @BitVec.getLsbD 40
    (a ++ b) i = if i < 8 then b.getLsbD i else a.getLsbD (i - 8) := BitVec.getLsbD_append ..

theorem ap8_4 (a : BitVec 8) (b : BitVec 4) (i : Nat) : @BitVec.getLsbD 12
    (a ++ b) i = if i < 4 then b.getLsbD i else a.getLsbD (i - 4) := BitVec.getLsbD_append ..

theorem ap4_8 (a : BitVec 4) (b : BitVec 8) (i : Nat) : @BitVec.getLsbD 12
    (a ++ b) i = if i < 8 then b.getLsbD i else a.getLsbD (i - 8) := BitVec.getLsbD_append ..

theorem ap2_8 (a : BitVec 2) (b : BitVec 8) (i : Nat) : @BitVec.getLsbD 10
    (a ++ b) i = if i < 8 then b.getLsbD i else a.getLsbD (i - 8) := BitVec.getLsbD_append ..

theorem ap10_2 (a : BitVec 10) (b : BitVec 2) (i : Nat) : @BitVec.getLsbD 12
    (a ++ b) i = if i < 2 then b.getLsbD i else a.getLsbD (i - 2) := BitVec.getLsbD_append ..

theorem ap2_1 (a : BitVec 2) (b : BitVec 1) (i : Nat) : @BitVec.getLsbD 3
    (a ++ b) i = if i < 1 then b.getLsbD i else a.getLsbD (i - 1) := BitVec.getLsbD_append ..

theorem ap6_8 (a : BitVec 6) (b : BitVec 8) (i : Nat) : @BitVec.getLsbD 14
    (a ++ b) i = if i < 8 then b.getLsbD i else a.getLsbD (i - 8) := BitVec.getLsbD_append ..

theorem ap14_8 (a : BitVec 14) (b : BitVec 8) (i : Nat) : @BitVec.getLsbD 22
    (a ++ b) i = if i < 8 then b.getLsbD i else a.getLsbD (i - 8) := BitVec.getLsbD_append ..

theorem ap6_1 (a : BitVec 6) (b : BitVec 1) (i : Nat) : @BitVec.getLsbD 7
    (a ++ b) i = if i < 1 then b.getLsbD i else a.getLsbD (i - 1) := BitVec.getLsbD_append ..

theorem ap2_2 (a : BitVec 2) (b : BitVec 2) (i : Nat) : @BitVec.getLsbD 4
    (a ++ b) i = if i < 2 then b.getLsbD i else a.getLsbD (i - 2) := BitVec.getLsbD_append ..

/-- A bit of a field of a byte string (rules R10, R231). -/
theorem get_bit (w : Nat) (f : Field) (raw : List Byte) (i : Nat) (hw : w = f.hi - f.lo + 1) (hi : i < w)
    (h : f.lo + i < 8 * raw.length) :
    (f.get w (rawNat raw)).getLsbD i = (raw.getD (raw.length - 1 - (f.lo + i) / 8) 0).getLsbD ((f.lo + i) % 8) := by
  rw [Field.getLsbD_get _ _ _ _ hw, rawNat_testBit _ _ h]; simp [hi]

/-! ### Packed registers -/

theorem sliceNat_mod (v n hi lo : Nat) (h : hi < 8 * n) (hle : lo ≤ hi) : sliceNat (v % 256 ^ n) hi lo = sliceNat v hi lo :=
    by
  apply Nat.eq_of_testBit_eq
  intro i
  have hp : (256 : Nat) ^ n = 2 ^ (8 * n) := by rw [Nat.pow_mul]
  rw [sliceNat, sliceNat, hp, Nat.testBit_mod_two_pow, Nat.testBit_mod_two_pow, Nat.testBit_shiftRight,
      Nat.testBit_shiftRight, Nat.testBit_mod_two_pow]
  by_cases hi' : i < hi - lo + 1
  · have : lo + i < 8 * n := by omega
    simp [hi', this]
  · simp [hi']

/-- The values fit their rows, the rows are apart and inside `n` bytes. -/
def fits (n : Nat) (parts : List (Field × Nat)) : Prop :=
  (∀ p ∈ parts, p.2 < 2 ^ (p.1.hi - p.1.lo + 1) ∧ p.1.lo ≤ p.1.hi) ∧
      (parts.Pairwise fun p q => p.1.apart q.1 = true) ∧ ∀ p ∈ parts, p.1.hi < 8 * n

/-- A row of a packed register (rule R266). -/
theorem get_packed {w n : Nat} {f : Field} {x : BitVec w} {parts : List (Field × Nat)} (hp : fits n parts)
    (hw : w = f.hi - f.lo + 1) (hmem : (f, x.toNat) ∈ parts) :
   f.get w (rawNat (natBytes n (packed parts))) = x := by
  obtain ⟨h1, h2, h3⟩ := hp
  apply BitVec.eq_of_toNat_eq
  rw [Field.toNat_get _ _ _ hw, rawNat_natBytes, sliceNat_mod _ _ _ _ (h3 _ hmem) (h1 _ hmem).2]
  exact sliceNat_packed parts f x.toNat hmem h1 h2

theorem get_packed32 {w : Nat} {f : Field} {x : BitVec w} {parts : List (Field × Nat)} (hp : fits 4 parts)
    (hw : w = f.hi - f.lo + 1) (hmem : (f, x.toNat) ∈ parts) :
   f.get w (BitVec.ofNat 32 (packed parts)).toNat = x := by
  obtain ⟨h1, h2, h3⟩ := hp
  apply BitVec.eq_of_toNat_eq
  rw [Field.toNat_get _ _ _ hw, BitVec.toNat_ofNat, show 2 ^ 32 = 256 ^ 4 by norm_num,
      sliceNat_mod _ _ _ _ (h3 _ hmem) (h1 _ hmem).2]
  exact sliceNat_packed parts f x.toNat hmem h1 h2

theorem packed_slices' {n : Nat} {parts : List (Field × Nat)} {fs : List Field} (v : Nat)
    (h : parts = fs.map fun f => (f, sliceNat v f.hi f.lo)) (hle : ∀ f ∈ fs, f.lo ≤ f.hi)
    (hapart : fs.Pairwise fun f g => f.apart g = true) : natBytes n (packed parts) = natBytes n (v &&& fieldMask fs) := by
  rw [h, packed_slices _ _ hle hapart]

def cidParts (e : BitVec 1) (r : CID) : List (Field × Nat) :=
    [(⟨0, 0⟩, e.toNat), (layoutCid.mid, r.mid.toNat), (layoutCid.oid, r.oid.toNat), (layoutCid.pnm, r.pnm.toNat),
    (layoutCid.prv, r.prv.toNat), (layoutCid.psn, r.psn.toNat), (layoutCid.mdt, r.mdt.toNat), (layoutCid.crc, r.crc.toNat)]

theorem fits_cid (e : BitVec 1) (r : CID) : fits 16 (cidParts e r) := by
  refine ⟨?_, ?_, ?_⟩
  · simp only [cidParts, layoutCid, List.forall_mem_cons, List.not_mem_nil, false_implies, implies_true, and_true]
    refine ⟨⟨BitVec.isLt _, by decide⟩, ⟨BitVec.isLt _, by decide⟩, ⟨BitVec.isLt _, by decide⟩, ⟨BitVec.isLt _, by decide⟩,
        ⟨BitVec.isLt _, by decide⟩, ⟨BitVec.isLt _, by decide⟩, ⟨BitVec.isLt _, by decide⟩, ⟨BitVec.isLt _, by decide⟩⟩
  · simp [cidParts, layoutCid, Field.apart]
  · simp [cidParts, layoutCid]

theorem pack_cid (e : BitVec 1) (r : CID) : packCid layoutCid e r = natBytes 16 (packed (cidParts e r)) :=
    by simp only [packCid, packed, cidParts, List.map, Nat.shiftLeft_zero, Field.put]

def csd1Parts (e : BitVec 1) (r : CSD) : List (Field × Nat) :=
    [(⟨0, 0⟩, e.toNat), (layoutCsd.csd_structure, r.csd_structure.toNat), (layoutCsd.taac, r.taac.toNat),
    (layoutCsd.nsac, r.nsac.toNat), (layoutCsd.tran_speed, r.tran_speed.toNat), (layoutCsd.ccc, r.ccc.toNat),
    (layoutCsd.read_bl_len, r.read_bl_len.toNat), (layoutCsd.read_bl_partial, r.read_bl_partial.toNat),
    (layoutCsd.write_blk_misalign, r.write_blk_misalign.toNat), (layoutCsd.read_blk_misalign, r.read_blk_misalign.toNat),
    (layoutCsd.dsr_imp, r.dsr_imp.toNat), (layoutCsd.erase_blk_en, r.erase_blk_en.toNat),
    (layoutCsd.sector_size, r.sector_size.toNat), (layoutCsd.wp_grp_size, r.wp_grp_size.toNat),
    (layoutCsd.wp_grp_enable, r.wp_grp_enable.toNat), (layoutCsd.r2w_factor, r.r2w_factor.toNat),
    (layoutCsd.write_bl_len, r.write_bl_len.toNat), (layoutCsd.write_bl_partial, r.write_bl_partial.toNat),
    (layoutCsd.file_format_grp, r.file_format_grp.toNat), (layoutCsd.copy, r.copy.toNat),
    (layoutCsd.perm_write_protect, r.perm_write_protect.toNat), (layoutCsd.tmp_write_protect, r.tmp_write_protect.toNat),
    (layoutCsd.file_format, r.file_format.toNat), (layoutCsd.crc, r.crc.toNat), (layoutCsd.c_size_v1, r.c_size_v1.toNat),
    (layoutCsd.vdd_r_curr_min, r.vdd_r_curr_min.toNat), (layoutCsd.vdd_r_curr_max, r.vdd_r_curr_max.toNat),
    (layoutCsd.vdd_w_curr_min, r.vdd_w_curr_min.toNat), (layoutCsd.vdd_w_curr_max, r.vdd_w_curr_max.toNat),
    (layoutCsd.c_size_mult, r.c_size_mult.toNat)]

theorem fits_csd1 (e : BitVec 1) (r : CSD) : fits 16 (csd1Parts e r) := by
  refine ⟨?_, ?_, ?_⟩
  · simp only [csd1Parts, layoutCsd, List.forall_mem_cons, List.not_mem_nil, false_implies, implies_true, and_true]
    refine ⟨⟨BitVec.isLt _, by decide⟩, ⟨BitVec.isLt _, by decide⟩, ⟨BitVec.isLt _, by decide⟩, ⟨BitVec.isLt _, by decide⟩,
        ⟨BitVec.isLt _, by decide⟩, ⟨BitVec.isLt _, by decide⟩, ⟨BitVec.isLt _, by decide⟩, ⟨BitVec.isLt _, by decide⟩,
        ⟨BitVec.isLt _, by decide⟩, ⟨BitVec.isLt _, by decide⟩, ⟨BitVec.isLt _, by decide⟩, ⟨BitVec.isLt _, by decide⟩,
        ⟨BitVec.isLt _, by decide⟩, ⟨BitVec.isLt _, by decide⟩, ⟨BitVec.isLt _, by decide⟩, ⟨BitVec.isLt _, by decide⟩,
        ⟨BitVec.isLt _, by decide⟩, ⟨BitVec.isLt _, by decide⟩, ⟨BitVec.isLt _, by decide⟩, ⟨BitVec.isLt _, by decide⟩,
        ⟨BitVec.isLt _, by decide⟩, ⟨BitVec.isLt _, by decide⟩, ⟨BitVec.isLt _, by decide⟩, ⟨BitVec.isLt _, by decide⟩,
        ⟨BitVec.isLt _, by decide⟩, ⟨BitVec.isLt _, by decide⟩, ⟨BitVec.isLt _, by decide⟩, ⟨BitVec.isLt _, by decide⟩,
        ⟨BitVec.isLt _, by decide⟩, ⟨BitVec.isLt _, by decide⟩⟩
  · simp [csd1Parts, layoutCsd, Field.apart]
  · simp [csd1Parts, layoutCsd]

theorem pack_csd1 (e : BitVec 1) (r : CSD) (h : r.csd_structure = 0) : packCsd layoutCsd e r = natBytes 16 (packed (csd1Parts e r)) :=
    by
  rw [packCsd, if_pos h]
  simp only [packed, csd1Parts, List.map, Nat.shiftLeft_zero, Field.put, csdCommonParts, csdV1Parts, List.cons_append,
      List.nil_append]

def csd2Parts (e : BitVec 1) (r : CSD) : List (Field × Nat) :=
    [(⟨0, 0⟩, e.toNat), (layoutCsd.csd_structure, r.csd_structure.toNat), (layoutCsd.taac, r.taac.toNat),
    (layoutCsd.nsac, r.nsac.toNat), (layoutCsd.tran_speed, r.tran_speed.toNat), (layoutCsd.ccc, r.ccc.toNat),
    (layoutCsd.read_bl_len, r.read_bl_len.toNat), (layoutCsd.read_bl_partial, r.read_bl_partial.toNat),
    (layoutCsd.write_blk_misalign, r.write_blk_misalign.toNat), (layoutCsd.read_blk_misalign, r.read_blk_misalign.toNat),
    (layoutCsd.dsr_imp, r.dsr_imp.toNat), (layoutCsd.erase_blk_en, r.erase_blk_en.toNat),
    (layoutCsd.sector_size, r.sector_size.toNat), (layoutCsd.wp_grp_size, r.wp_grp_size.toNat),
    (layoutCsd.wp_grp_enable, r.wp_grp_enable.toNat), (layoutCsd.r2w_factor, r.r2w_factor.toNat),
    (layoutCsd.write_bl_len, r.write_bl_len.toNat), (layoutCsd.write_bl_partial, r.write_bl_partial.toNat),
    (layoutCsd.file_format_grp, r.file_format_grp.toNat), (layoutCsd.copy, r.copy.toNat),
    (layoutCsd.perm_write_protect, r.perm_write_protect.toNat), (layoutCsd.tmp_write_protect, r.tmp_write_protect.toNat),
    (layoutCsd.file_format, r.file_format.toNat), (layoutCsd.crc, r.crc.toNat), (layoutCsd.c_size_v2, r.c_size_v2.toNat)]

theorem fits_csd2 (e : BitVec 1) (r : CSD) : fits 16 (csd2Parts e r) := by
  refine ⟨?_, ?_, ?_⟩
  · simp only [csd2Parts, layoutCsd, List.forall_mem_cons, List.not_mem_nil, false_implies, implies_true, and_true]
    refine ⟨⟨BitVec.isLt _, by decide⟩, ⟨BitVec.isLt _, by decide⟩, ⟨BitVec.isLt _, by decide⟩, ⟨BitVec.isLt _, by decide⟩,
        ⟨BitVec.isLt _, by decide⟩, ⟨BitVec.isLt _, by decide⟩, ⟨BitVec.isLt _, by decide⟩, ⟨BitVec.isLt _, by decide⟩,
        ⟨BitVec.isLt _, by decide⟩, ⟨BitVec.isLt _, by decide⟩, ⟨BitVec.isLt _, by decide⟩, ⟨BitVec.isLt _, by decide⟩,
        ⟨BitVec.isLt _, by decide⟩, ⟨BitVec.isLt _, by decide⟩, ⟨BitVec.isLt _, by decide⟩, ⟨BitVec.isLt _, by decide⟩,
        ⟨BitVec.isLt _, by decide⟩, ⟨BitVec.isLt _, by decide⟩, ⟨BitVec.isLt _, by decide⟩, ⟨BitVec.isLt _, by decide⟩,
        ⟨BitVec.isLt _, by decide⟩, ⟨BitVec.isLt _, by decide⟩, ⟨BitVec.isLt _, by decide⟩, ⟨BitVec.isLt _, by decide⟩,
        ⟨BitVec.isLt _, by decide⟩⟩
  · simp [csd2Parts, layoutCsd, Field.apart]
  · simp [csd2Parts, layoutCsd]

theorem pack_csd2 (e : BitVec 1) (r : CSD) (h : r.csd_structure ≠ 0) : packCsd layoutCsd e r = natBytes 16 (packed (csd2Parts e r)) :=
    by
  rw [packCsd, if_neg h]
  simp only [packed, csd2Parts, List.map, Nat.shiftLeft_zero, Field.put, csdCommonParts, csdV2Parts, List.cons_append,
      List.nil_append]

def scrParts (r : SCR) : List (Field × Nat) :=
    [(layoutScr.scr_structure, r.scr_structure.toNat), (layoutScr.sd_spec, r.sd_spec.toNat),
    (layoutScr.data_stat_after_erase, r.data_stat_after_erase.toNat), (layoutScr.sd_security, r.sd_security.toNat),
    (layoutScr.sd_bus_widths, r.sd_bus_widths.toNat), (layoutScr.sd_spec3, r.sd_spec3.toNat),
    (layoutScr.ex_security, r.ex_security.toNat), (layoutScr.sd_spec4, r.sd_spec4.toNat),
    (layoutScr.sd_specx, r.sd_specx.toNat), (layoutScr.cmd_support, r.cmd_support.toNat)]

theorem fits_scr (r : SCR) : fits 8 (scrParts r) := by
  refine ⟨?_, ?_, ?_⟩
  · simp only [scrParts, layoutScr, List.forall_mem_cons, List.not_mem_nil, false_implies, implies_true, and_true]
    refine ⟨⟨BitVec.isLt _, by decide⟩, ⟨BitVec.isLt _, by decide⟩, ⟨BitVec.isLt _, by decide⟩, ⟨BitVec.isLt _, by decide⟩,
        ⟨BitVec.isLt _, by decide⟩, ⟨BitVec.isLt _, by decide⟩, ⟨BitVec.isLt _, by decide⟩, ⟨BitVec.isLt _, by decide⟩,
        ⟨BitVec.isLt _, by decide⟩, ⟨BitVec.isLt _, by decide⟩⟩
  · simp [scrParts, layoutScr, Field.apart]
  · simp [scrParts, layoutScr]

theorem pack_scr (r : SCR) : packScr layoutScr r = natBytes 8 (packed (scrParts r)) := rfl

def ssrParts (r : SSR) : List (Field × Nat) :=
    [(layoutSsr.dat_bus_width, r.dat_bus_width.toNat), (layoutSsr.secured_mode, r.secured_mode.toNat),
    (layoutSsr.sd_card_type, r.sd_card_type.toNat), (layoutSsr.size_of_protected_area, r.size_of_protected_area.toNat),
    (layoutSsr.speed_class, r.speed_class.toNat), (layoutSsr.performance_move, r.performance_move.toNat),
    (layoutSsr.au_size, r.au_size.toNat), (layoutSsr.erase_size, r.erase_size.toNat),
    (layoutSsr.erase_timeout, r.erase_timeout.toNat), (layoutSsr.erase_offset, r.erase_offset.toNat)]

theorem fits_ssr (r : SSR) : fits 64 (ssrParts r) := by
  refine ⟨?_, ?_, ?_⟩
  · simp only [ssrParts, layoutSsr, List.forall_mem_cons, List.not_mem_nil, false_implies, implies_true, and_true]
    refine ⟨⟨BitVec.isLt _, by decide⟩, ⟨BitVec.isLt _, by decide⟩, ⟨BitVec.isLt _, by decide⟩, ⟨BitVec.isLt _, by decide⟩,
        ⟨BitVec.isLt _, by decide⟩, ⟨BitVec.isLt _, by decide⟩, ⟨BitVec.isLt _, by decide⟩, ⟨BitVec.isLt _, by decide⟩,
        ⟨BitVec.isLt _, by decide⟩, ⟨BitVec.isLt _, by decide⟩⟩
  · simp [ssrParts, layoutSsr, Field.apart]
  · simp [ssrParts, layoutSsr]

theorem pack_ssr (r : SSR) : packSsr layoutSsr r = natBytes 64 (packed (ssrParts r)) := rfl

def ocrParts (r : OCR) : List (Field × Nat) :=
    [(layoutOcr.power_up_ready, r.power_up_ready.toNat), (layoutOcr.ccs, r.ccs.toNat),
    (layoutOcr.vdd_window, r.vdd_window.toNat)]

theorem fits_ocr (r : OCR) : fits 4 (ocrParts r) := by
  refine ⟨?_, ?_, ?_⟩
  · simp only [ocrParts, layoutOcr, List.forall_mem_cons, List.not_mem_nil, false_implies, implies_true, and_true]
    refine ⟨⟨BitVec.isLt _, by decide⟩, ⟨BitVec.isLt _, by decide⟩, ⟨BitVec.isLt _, by decide⟩⟩
  · simp [ocrParts, layoutOcr, Field.apart]
  · simp [ocrParts, layoutOcr]

end Sys2Proof
end

