-- ==== Sys2Proof/Laws/Encoding.lean ====
section
/-! SUPPORT. The bits of assembled bytes: 32-bit values and their four bytes (rule R9), the checksum byte (rule R124), the status
byte (rule R95), and what a command frame is read back as (rule R93). -/

namespace Sys2Proof.Machine

theorem getLsbD_be32 (a b c d : Byte) (i : Nat) : (be32 a b c d).getLsbD i =
    if i < 8 then d.getLsbD i else if i < 16 then c.getLsbD (i - 8) else if i < 24 then b.getLsbD (i - 16)
    else a.getLsbD (i - 24) := by
  show BitVec.getLsbD (w := 8 + 8 + 8 + 8) (a ++ b ++ c ++ d) i = _
  simp only [BitVec.getLsbD_append, Nat.sub_sub]
  by_cases h1 : i < 8
  · simp [h1]
  · by_cases h2 : i < 16
    · rw [if_neg h1, if_neg h1, if_pos (by omega), if_pos h2]
    · rw [if_neg h1, if_neg h1, if_neg (by omega), if_neg h2]
      by_cases h3 : i < 24
      · rw [if_pos (by omega), if_pos h3]
      · rw [if_neg (by omega), if_neg h3]

theorem be32_be32bytes (v : Word32) : be32List (be32bytes v) = v := by
  simp only [be32List, be32bytes, List.getD_cons_zero, List.getD_cons_succ]
  apply BitVec.eq_of_getLsbD_eq
  intro i hi
  simp only [getLsbD_be32, BitVec.getLsbD_extractLsb']
  split
  · simp_all
  · split
    · rw [show 8 + (i - 8) = i by omega]; simp; omega
    · split
      · rw [show 16 + (i - 16) = i by omega]; simp; omega
      · rw [show 24 + (i - 24) = i by omega]; simp; omega

theorem be32bytes_be32 (a b c d : Byte) : be32bytes (be32 a b c d) = [a, b, c, d] := by
  simp only [be32bytes, List.cons.injEq, and_true]
  refine ⟨?_, ?_, ?_, ?_⟩ <;>
    (apply BitVec.eq_of_getLsbD_eq; intro i hi
     simp only [BitVec.getLsbD_extractLsb', getLsbD_be32, hi, decide_true, Bool.true_and])
  · rw [if_neg (by omega), if_neg (by omega), if_neg (by omega)]; congr 1; omega
  · rw [if_neg (by omega), if_neg (by omega), if_pos (by omega)]; congr 1; omega
  · rw [if_neg (by omega), if_pos (by omega)]; congr 1; omega
  · rw [if_pos (by omega)]; congr 1; omega

theorem crcByte_getLsbD (bytes : List Byte) (i : Nat) :
    (crcByte bytes).getLsbD i = if i = 0 then true else (crc7 bytes).getLsbD (i - 1) := by
  show BitVec.getLsbD (w := 7 + 1) (crc7 bytes ++ 1#1) i = _
  rw [BitVec.getLsbD_append]
  by_cases h : i = 0
  · subst h; rfl
  · simp [h]

theorem crcByte_extract (bytes : List Byte) : (crcByte bytes).extractLsb' 1 7 = crc7 bytes := by
  apply BitVec.eq_of_getLsbD_eq; intro i hi
  simp [crcByte_getLsbD, hi, -BitVec.getLsbD_eq_getElem]

theorem frameArg_frameBytes (idx : BitVec 6) (arg : Word32) : frameArg (frameBytes idx arg) = arg := by
  have h : frameArg (frameBytes idx arg) = be32List (be32bytes arg) := by
    simp [frameArg, frameBytes, frameBody, be32bytes, be32List]
  rw [h, be32_be32bytes]

theorem statusByte_msb (f : BitVec 7) : (statusByte f).msb = false := by
  rw [BitVec.msb_eq_getLsbD_last]
  show BitVec.getLsbD (w := 1 + 7) (0#1 ++ f) 7 = false
  rw [BitVec.getLsbD_append]; rfl

theorem statusByte_setWidth (f : BitVec 7) : (statusByte f).setWidth 7 = f := by
  apply BitVec.eq_of_getLsbD_eq; intro i hi
  rw [BitVec.getLsbD_setWidth]
  have : (statusByte f).getLsbD i = f.getLsbD i := by
    show BitVec.getLsbD (w := 1 + 7) (0#1 ++ f) i = _
    rw [BitVec.getLsbD_append, if_pos hi]
  simp [this, hi, -BitVec.getLsbD_eq_getElem]

theorem statusByte_of_msb (b : Byte) (h : b.msb = false) : statusByte (b.setWidth 7) = b := by
  apply BitVec.eq_of_getLsbD_eq; intro i hi
  show BitVec.getLsbD (w := 1 + 7) (0#1 ++ b.setWidth 7) i = _
  rw [BitVec.getLsbD_append]
  split
  · simp_all [-BitVec.getLsbD_eq_getElem]
  · have : i = 7 := by omega
    subst this
    have : b.getLsbD 7 = false := by rwa [BitVec.msb_eq_getLsbD_last] at h
    rw [this]; rfl

theorem commandOf_decodeCommand {i : Instr} {idx : BitVec 6} {arg : Word32} (h : commandOf i = some (idx, arg)) :
    decodeCommand idx arg = .ok i := by
  cases i <;> cases h <;> rfl

theorem constCommand_ok {j i : Instr} {idx : BitVec 6} {want arg : Word32} (h : constCommand j idx want arg = .ok i) :
    j = i ∧ arg = want := by
  unfold constCommand at h
  split at h
  · cases h; exact ⟨rfl, by assumption⟩
  · cases h

theorem decodeCommand_ok {idx : BitVec 6} {arg : Word32} {i : Instr} (h : decodeCommand idx arg = .ok i) :
    commandOf i = some (idx, arg) := by
  have hid : idx = BitVec.ofNat 6 idx.toNat := by simp
  unfold decodeCommand at h
  split at h <;> rename_i hn <;>
    first
    | (obtain ⟨rfl, rfl⟩ := constCommand_ok h; rw [hid, hn]; rfl)
    | (cases h; rw [hid, hn]; rfl)
    | cases h

/-- A frame decodes to the row of the table with its index and argument (rules R90, R93). -/
theorem decodeFrame_frameBytes (idx : BitVec 6) (arg : Word32) : decodeFrame (frameBytes idx arg) = decodeCommand idx arg :=
    by
  have h0 : ((frameBytes idx arg).getD 0 0).extractLsb' 6 2 = 0b01#2 := by
    simp only [frameBytes, frameBody, startByte, List.cons_append, List.getD_cons_zero]
    ext i hi
    simp
    interval_cases i <;> simp
  have h5 : ((frameBytes idx arg).getD 5 0).getLsbD 0 = true := (crcByte_getLsbD _ 0).trans rfl
  have hc : ((frameBytes idx arg).getD 5 0).extractLsb' 1 7 = crc7 ((frameBytes idx arg).take 5) := crcByte_extract _
  rw [decodeFrame, if_neg (by simp [frameBytes_length]), if_neg (by simpa using h0), if_neg (by simpa using h5),
    if_neg (by rw [hc]; simp)]
  show decodeCommand (frameIdx _) (frameArg _) = _
  rw [frameIdx_frameBytes, frameArg_frameBytes]

/-- A frame that decodes is the frame of its index and argument (rule R93). -/
theorem frame_of_decodeFrame {f : List Byte} {i : Instr} (h : decodeFrame f = .ok i) : frameBytes (frameIdx f)
    (frameArg f) = f ∧ decodeCommand (frameIdx f) (frameArg f) = .ok i := by
  unfold decodeFrame at h
  split at h <;> try contradiction
  split at h <;> try contradiction
  split at h <;> try contradiction
  split at h <;> try contradiction
  rename_i h6 h0 h5 hc
  refine ⟨?_, h⟩
  simp only [ne_eq, not_not] at h6 h0 hc
  match f, h6 with
  | [f0, f1, f2, f3, f4, f5], _ =>
    have e0 : startByte (frameIdx [f0, f1, f2, f3, f4, f5]) = f0 := by
      simp only [List.getD_cons_zero] at h0
      simp only [startByte, frameIdx, List.getD_cons_zero]
      apply BitVec.eq_of_getLsbD_eq; intro k hk
      have h7 : f0.getLsbD 7 = false := by
        have := congrArg (fun b => b.getLsbD 1) h0; simpa using this
      have h6' : f0.getLsbD 6 = true := by
        have := congrArg (fun b => b.getLsbD 0) h0; simpa using this
      interval_cases k <;> simp_all
    have ea : be32bytes (frameArg [f0, f1, f2, f3, f4, f5]) = [f1, f2, f3, f4] := by
      simp only [frameArg, List.drop_succ_cons, List.drop_zero, be32List, List.getD_cons_zero, List.getD_cons_succ]
      exact be32bytes_be32 _ _ _ _
    have e5 : crcByte [f0, f1, f2, f3, f4] = f5 := by
      simp at h5 hc
      apply BitVec.eq_of_getLsbD_eq; intro k hk
      rw [crcByte_getLsbD, ← hc]
      split
      · simp_all
      · rw [BitVec.getLsbD_extractLsb', show 1 + (k - 1) = k by omega]; simp; omega
    simp [frameBytes, frameBody, e0, ea, e5]

theorem ok_of_ite {α ε : Type} {c : Prop} [Decidable c] {a i : α} {e : ε}
    (h : (if c then Except.ok a else Except.error e) = Except.ok i) :
    c ∧ a = i := by
  split at h
  · cases h; exact ⟨by assumption, rfl⟩
  · cases h

theorem decodeHost_ok {cfg : Params} {w : HostWord} {i : Instr} (h : decodeHost w = .ok i) :
    i.wellFormed = true ∧ w.operandsIn i ∧
      ∃ h', encode cfg i = some (.hostop h') ∧ h'.op = w.op ∧ decode cfg (.hostop h') = .ok i := by
  have hop : w.op = BitVec.ofNat 4 w.op.toNat := by simp
  have h16 : w.op.toNat < 16 := w.op.isLt
  unfold decodeHost at h
  split at h <;> rename_i hn <;>
    first
    | (obtain ⟨hl, rfl⟩ := ok_of_ite h; exact ⟨hl, ⟨rfl, rfl⟩, _, rfl, by rw [hop, hn]; rfl, if_pos hl⟩)
    | (cases h; exact ⟨rfl, trivial, _, rfl, by rw [hop, hn]; rfl, rfl⟩)
    | (cases h; exact ⟨rfl, rfl, _, rfl, by rw [hop, hn]; rfl, rfl⟩)
    | (simp only [imp_false] at *; cases h
       exact ⟨rfl, trivial, _, rfl, by rw [hop, show w.op.toNat = 15 by omega]; rfl, rfl⟩)

end Sys2Proof.Machine
end

