-- ==== Sys2Proof/Laws/Environment.lean ====
section
/-! SUPPORT. The exchanges and the status poll whatever the card answers, scripted or not. -/

namespace Sys2Proof.Machine

theorem xchgN_rx_drop (ts : List Byte) (s : State) : (xchgN ts s).rx = s.rx.drop ts.length := by
  induction ts generalizing s with
  | nil => rfl
  | cons t ts ih => rw [xchgN, ih]; cases h : s.rx <;> simp [xchg, h]

theorem xchgN_envCount (ts : List Byte) (s : State) : (xchgN ts s).envCount = s.envCount + (ts.length - s.rx.length) := by
  induction ts generalizing s with
  | nil => simp
  | cons t ts ih =>
    rw [xchgN, ih]
    cases h : s.rx <;> simp [xchg, h]; omega

/-- An exchange of `n` bytes: the answers used up, the unscripted ones counted, the events (rule R322). -/
theorem xchgN_full (ts : List Byte) (s : State) : xchgN ts s = { s with
    rx := s.rx.drop ts.length, envCount := s.envCount + (ts.length - s.rx.length),
    trace := (exchangeEvents ts (replies ts s)).reverse ++ s.trace } := by
  rw [xchgN_eq, xchgN_rx_drop, xchgN_envCount, xchgN_trace]

theorem isStatus_iff (b : Byte) : isStatus b = !b.msb := rfl

/-- The poll with `k` attempts left, whatever the card answers (rule R152). -/
theorem pollLoop_total (k : Nat) (s : State) (hf : s.fault = none) (hk : s.pollCnt.toNat + k ≤ 8) :
    ∃ skip : List Byte, (∀ b ∈ skip, b.msb = true) ∧
      ((∃ status : Byte, skip.length < k ∧ status.msb = false ∧ pollLoop k s = { s with
          pollCnt := BitVec.ofNat 4 (s.pollCnt.toNat + (skip.length + 1))
          r1 := status
          seq := ⟨s.seq.main, some (.pPoll (s.pollCnt.toNat + (skip.length + 1)))⟩
          trace := (receiveEvents (skip ++ [status])).reverse ++ s.trace
          rx := s.rx.drop (skip.length + 1)
          envCount := s.envCount + (skip.length + 1 - s.rx.length) }) ∨
       (skip.length = k ∧ pollLoop k s = afterFatal (.respTimeout (frameIdx s.frame)) { s with
          pollCnt := BitVec.ofNat 4 (s.pollCnt.toNat + k)
          trace := (receiveEvents skip).reverse ++ s.trace
          rx := s.rx.drop k
          envCount := s.envCount + (k - s.rx.length) })) := by
  induction k generalizing s with
  | zero => exact ⟨[], by simp, .inr ⟨rfl, by simp [pollLoop, raise_of_none hf, receiveEvents]⟩⟩
  | succ k ih =>
    have hp : (s.pollCnt.toNat + 1) % 16 = s.pollCnt.toNat + 1 := by omega
    have hp2 : s.pollCnt + 1 = BitVec.ofNat 4 (s.pollCnt.toNat + 1) := by
      apply BitVec.eq_of_toNat_eq; simp [BitVec.toNat_add]
    by_cases hb : isStatus (reply Config.filler s)
    · refine ⟨[], by simp, .inl ⟨reply Config.filler s, by simp, by simpa [isStatus] using hb, ?_⟩⟩
      simp only [pollLoop, hb, if_true]
      cases hr : s.rx <;> simp [xchg, atPhase, hr, receiveEvents, ← hp2]
    · have hb' : (reply Config.filler s).msb = true := by simpa [isStatus] using hb
      obtain ⟨skip, hs, h⟩ := ih (atPhase (.pPoll (s.pollCnt.toNat + 1)) { xchg Config.filler s with
          pollCnt := s.pollCnt + 1 }) hf (by simp [hp]; omega)
      refine ⟨reply Config.filler s :: skip, by simpa [hb'] using hs, ?_⟩
      have hstep : pollLoop (k + 1) s = pollLoop k
          (atPhase (.pPoll (s.pollCnt.toNat + 1)) { xchg Config.filler s with pollCnt := s.pollCnt + 1 }) := by
        conv_lhs => rw [pollLoop]
        simp only [hb, Bool.false_eq_true, if_false]; rfl
      rw [hstep]
      rcases h with ⟨st, h1, h2, h3⟩ | ⟨h1, h3⟩
      · refine .inl ⟨st, by simpa using h1, h2, h3.trans ?_⟩
        cases hr : s.rx <;> simp [xchg, atPhase, hr, receiveEvents, hp]
        all_goals (try refine ⟨?_, ?_⟩)
        all_goals (try refine ⟨?_, ?_⟩)
        all_goals first | omega | (congr 1; omega)
      · refine .inr ⟨by simpa using h1, h3.trans ?_⟩
        cases hr : s.rx <;> simp [xchg, atPhase, afterFatal, hr, receiveEvents, hp]
        all_goals (try refine ⟨?_, ?_⟩)
        all_goals first | omega | (congr 1; omega)

theorem isStatus_of_msb {b : Byte} (h : b.msb = false) : isStatus b = true := by simp [isStatus, h]

theorem not_isStatus_of_msb {l : List Byte} (h : ∀ b ∈ l, b.msb = true) : ∀ b ∈ l, isStatus b = false := by
  intro b hb; simp [isStatus, h b hb]

/-- The status poll with scripted answers (rule R152). -/
theorem pollStatus_rx {s : State} {skip : List Byte} {status : Byte} {rest : List Byte} (h7 : skip.length ≤ 7)
    (hs : ∀ b ∈ skip, b.msb = true) (hst : status.msb = false) (h : s.rx = skip ++ status :: rest) :
    pollStatus s = { s with
        seq := ⟨s.seq.main, some (.pPoll (skip.length + 1))⟩
        pollCnt := BitVec.ofNat 4 (skip.length + 1)
        r1 := status
        rx := rest
        trace := (receiveEvents (skip ++ [status])).reverse ++ s.trace } := by
  rw [pollStatus, pollLoop_rx (s := { s with pollCnt := 0 }) (skip := skip) (status := status) (rest := rest)
      (by simp [Config.respPollMax]; omega) (not_isStatus_of_msb hs) (isStatus_of_msb hst) h (by simp [Config.respPollMax])]
  simp

end Sys2Proof.Machine
end

