-- ==== Sys2Proof/Laws/Failures.lean ====
section
/-! SUPPORT. The transactions and the data operations with a card that answers no status byte (rule R302), a status byte that is not
zero (rules R283, R303), its start token late (rule R202) or a rejection (rule R209): each is one explicit next state. -/

namespace Sys2Proof.Machine

variable {s : State} {f : State → State} {idx : BitVec 6} {arg : Word32} {frameAns polls rest : List Byte} {c : CardReply} {b : Byte}

/-- A command whose status poll finds no status byte (rules R143, R152, R302). -/
theorem command_noStatus (h6 : frameAns.length = 6) (h8 : polls.length = 8) (hp : ∀ b ∈ polls, isStatus b = false)
    (hf : s.fault = none) (h : s.rx = frameAns ++ (polls ++ rest)) :
    (issueCommand idx arg s).andThen pollStatus = afterNoStatus idx arg frameAns polls rest s := by
  rw [issueCommand_rx h6 h, andThen_of_none (by exact hf), pollStatus, show Config.respPollMax = 8 from rfl,
    pollLoop_timeout (rest := rest) h8 hp (by rfl) (by exact hf) (by simp)]
  simp [afterNoStatus, afterFatal, frameIdx_frameBytes]

@[simp] theorem andThen_afterNoStatus :
    (afterNoStatus idx arg frameAns polls rest s).andThen f = afterNoStatus idx arg frameAns polls rest s := rfl

theorem commandB_noStatus (h6 : frameAns.length = 6) (h8 : polls.length = 8) (hp : ∀ b ∈ polls, isStatus b = false)
    (hf : s.fault = none) (h : s.rx = frameAns ++ (polls ++ rest)) :
    (issueCommand idx arg s).andThen respB = afterNoStatus idx arg frameAns polls rest s :=
  andThen_assoc.symm.trans ((congrArg (State.andThen · secondByte) (command_noStatus h6 h8 hp hf h)).trans rfl)

theorem commandCD_noStatus (h6 : frameAns.length = 6) (h8 : polls.length = 8) (hp : ∀ b ∈ polls, isStatus b = false)
    (hf : s.fault = none) (h : s.rx = frameAns ++ (polls ++ rest)) :
    (issueCommand idx arg s).andThen respCD = afterNoStatus idx arg frameAns polls rest s :=
  andThen_assoc.symm.trans ((congrArg (State.andThen · payloadBytes) (command_noStatus h6 h8 hp hf h)).trans rfl)

theorem transactA_noStatus (h6 : frameAns.length = 6) (h8 : polls.length = 8) (hp : ∀ b ∈ polls, isStatus b = false)
    (hf : s.fault = none) (h : s.rx = frameAns ++ (polls ++ rest)) :
    transactA idx arg s = afterNoStatus idx arg frameAns polls rest s :=
  (congrArg (State.andThen · deselect) (command_noStatus h6 h8 hp hf h)).trans rfl

theorem transactCD_noStatus (h6 : frameAns.length = 6) (h8 : polls.length = 8) (hp : ∀ b ∈ polls, isStatus b = false)
    (hf : s.fault = none) (h : s.rx = frameAns ++ (polls ++ rest)) :
    transactCD idx arg s = afterNoStatus idx arg frameAns polls rest s :=
  (congrArg (State.andThen · deselect) (commandCD_noStatus h6 h8 hp hf h)).trans rfl

theorem sectorRead_noStatus {k : AfterBlock} {index : Word32} (h6 : frameAns.length = 6) (h8 : polls.length = 8)
    (hp : ∀ b ∈ polls, isStatus b = false) (hf : s.fault = none) (h : s.rx = frameAns ++ (polls ++ rest)) :
    sectorRead k index s = afterNoStatus 17 index frameAns polls rest s :=
  (congrArg (fun t : State => (t.andThen (checkR1 17)).andThen (waitToken 0 (.block Config.sectorBytes k)))
    (command_noStatus h6 h8 hp hf h)).trans rfl

theorem sectorWrite_noStatus {data : List Byte} {index : Word32} (h6 : frameAns.length = 6) (h8 : polls.length = 8)
    (hp : ∀ b ∈ polls, isStatus b = false) (hf : s.fault = none) (h : s.rx = frameAns ++ (polls ++ rest)) :
    sectorWrite index data s = afterNoStatus 24 index frameAns polls rest s :=
  (congrArg (fun t : State => ((t.andThen (checkR1 24)).andThen (sendBlock data)).andThen (busyWait 0))
    (command_noStatus h6 h8 hp hf h)).trans rfl

theorem regReadA_noStatus {k : AfterBlock} {n : Nat} (h6 : frameAns.length = 6) (h8 : polls.length = 8)
    (hp : ∀ b ∈ polls, isStatus b = false) (hf : s.fault = none) (h : s.rx = frameAns ++ (polls ++ rest)) :
    regRead k idx .a n s = afterNoStatus idx Config.zeroArg frameAns polls rest s :=
  (congrArg (fun t : State => (t.andThen (checkR1 idx)).andThen (waitToken 0 (.block n k)))
    (command_noStatus h6 h8 hp hf h)).trans rfl

theorem regReadB_noStatus {k : AfterBlock} {n : Nat} (h6 : frameAns.length = 6) (h8 : polls.length = 8)
    (hp : ∀ b ∈ polls, isStatus b = false) (hf : s.fault = none) (h : s.rx = frameAns ++ (polls ++ rest)) :
    regRead k idx .b n s = afterNoStatus idx Config.zeroArg frameAns polls rest s :=
  (congrArg (fun t : State => (t.andThen (checkR1 idx)).andThen (waitToken 0 (.block n k)))
    (commandB_noStatus h6 h8 hp hf h)).trans rfl

/-- An application command whose prefix finds no status byte: its own command is not sent. -/
theorem appRegRead_noPrefix {k : AfterBlock} {shape : Shape} {n : Nat} (h6 : frameAns.length = 6) (h8 : polls.length = 8)
    (hp : ∀ b ∈ polls, isStatus b = false) (hf : s.fault = none) (h : s.rx = frameAns ++ (polls ++ rest)) :
    appRegRead k idx shape n s = afterNoStatus 55 Config.zeroArg frameAns polls rest s :=
  (congrArg (State.andThen · (regRead k idx shape n)) (transactA_noStatus h6 h8 hp hf h)).trans rfl

/-- An application command after its prefix. -/
theorem appRegRead_rx {k : AfterBlock} {shape : Shape} {n : Nat} (hc : c.ok = true) (hf : s.fault = none)
    (h : s.rx = c.bytes ++ rest) :
    appRegRead k idx shape n s = regRead k idx shape n (afterTransactA 55 Config.zeroArg c rest s) := by
  rw [appRegRead, prefixTransaction, transactA_rx hc hf h, andThen_of_none (by exact hf)]

/-- A data command whose status byte does not pass the test, Shape A (rules R283, R303). -/
theorem opened_unexpected (hc : c.ok = true) (hf : s.fault = none) (hr : s.cfg.r1Check = true) (hst : c.status ≠ 0)
    (h : s.rx = c.bytes ++ rest) :
    ((issueCommand idx arg s).andThen respA).andThen (checkR1 idx) =
      afterFatal (.unexpectedStatus idx c.status) (afterReply idx arg c rest s) := by
  rw [command_rx hc hf h, andThen_of_none (by exact hf), checkR1_fail (s := afterReply idx arg c rest s) hr hst hf]; rfl

/-- The same with Shape B (rules R154, R283, R303). -/
theorem openedB_unexpected (hc : c.ok = true) (hf : s.fault = none) (hr : s.cfg.r1Check = true) (hst : c.status ≠ 0)
    (h : s.rx = c.bytes ++ (b :: rest)) :
    ((issueCommand idx arg s).andThen respB).andThen (checkR1 idx) =
      afterFatal (.unexpectedStatus idx c.status) { afterReceive [b] rest (afterReply idx arg c [] s) with r2 := b } := by
  rw [commandB_rx hc hf h, andThen_of_none (by exact hf),
    checkR1_fail (s := { afterReceive [b] rest (afterReply idx arg c (b :: rest) s) with
      r2 := b, seq := ⟨s.seq.main, some (.pExtra 0)⟩ }) hr hst hf]
  rfl

theorem sectorRead_unexpected {k : AfterBlock} {index : Word32} (hc : c.ok = true) (hf : s.fault = none)
    (hr : s.cfg.r1Check = true) (hst : c.status ≠ 0) (h : s.rx = c.bytes ++ rest) :
    sectorRead k index s = afterFatal (.unexpectedStatus 17 c.status) (afterReply 17 index c rest s) := by
  rw [sectorRead, opened_unexpected hc hf hr hst h]; rfl

theorem sectorWrite_unexpected {index : Word32} {data : List Byte} (hc : c.ok = true) (hf : s.fault = none)
    (hr : s.cfg.r1Check = true) (hst : c.status ≠ 0) (h : s.rx = c.bytes ++ rest) :
    sectorWrite index data s = afterFatal (.unexpectedStatus 24 c.status) (afterReply 24 index c rest s) := by
  rw [sectorWrite, opened_unexpected hc hf hr hst h]; rfl

theorem regReadA_unexpected {k : AfterBlock} {n : Nat} (hc : c.ok = true) (hf : s.fault = none)
    (hr : s.cfg.r1Check = true) (hst : c.status ≠ 0) (h : s.rx = c.bytes ++ rest) :
    regRead k idx .a n s = afterFatal (.unexpectedStatus idx c.status) (afterReply idx Config.zeroArg c rest s) :=
  (congrArg (State.andThen · (waitToken 0 (.block n k))) (opened_unexpected hc hf hr hst h)).trans rfl

theorem regReadB_unexpected {k : AfterBlock} {n : Nat} (hc : c.ok = true) (hf : s.fault = none)
    (hr : s.cfg.r1Check = true) (hst : c.status ≠ 0) (h : s.rx = c.bytes ++ (b :: rest)) :
    regRead k idx .b n s = afterFatal (.unexpectedStatus idx c.status)
      { afterReceive [b] rest (afterReply idx Config.zeroArg c [] s) with r2 := b } :=
  (congrArg (State.andThen · (waitToken 0 (.block n k))) (openedB_unexpected hc hf hr hst h)).trans rfl

/-- SectorRead when the first byte polled is not the start token. -/
theorem sectorRead_late {k : AfterBlock} {index : Word32} (hc : c.ok = true) (hf : s.fault = none)
    (hr : s.cfg.r1Check = false ∨ c.status = 0) (hb : b ≠ s.cfg.startToken) (hm : s.cfg.tokenWaitMax ≠ some 1)
    (h : s.rx = c.bytes ++ (b :: rest)) :
    sectorRead k index s = afterFirstPoll s.seq.main 512 k b rest (afterReply 17 index c [] s) := by
  rw [sectorRead, opened_rx hc hf hr h, andThen_of_none (by exact hf)]
  exact waitToken_other (s := afterReply 17 index c (b :: rest) s) hb hm rfl

/-- RegRead when the first byte polled is not the start token, Shape A. -/
theorem regReadA_late {k : AfterBlock} {n : Nat} (hc : c.ok = true) (hf : s.fault = none)
    (hr : s.cfg.r1Check = false ∨ c.status = 0) (hb : b ≠ s.cfg.startToken) (hm : s.cfg.tokenWaitMax ≠ some 1)
    (h : s.rx = c.bytes ++ (b :: rest)) :
    regRead k idx .a n s = afterFirstPoll s.seq.main n k b rest (afterReply idx Config.zeroArg c [] s) :=
  (congrArg (State.andThen · (waitToken 0 (.block n k))) (opened_rx hc hf hr h)).trans
    ((andThen_of_none (s := afterReply idx Config.zeroArg c (b :: rest) s) hf).trans
      (waitToken_other (s := afterReply idx Config.zeroArg c (b :: rest) s) hb hm rfl))

/-- The same with Shape B. -/
theorem regReadB_late {k : AfterBlock} {n : Nat} {b' : Byte} (hc : c.ok = true) (hf : s.fault = none)
    (hr : s.cfg.r1Check = false ∨ c.status = 0) (hb : b ≠ s.cfg.startToken) (hm : s.cfg.tokenWaitMax ≠ some 1)
    (h : s.rx = c.bytes ++ (b' :: b :: rest)) :
    regRead k idx .b n s = afterFirstPoll s.seq.main n k b rest
      { afterReceive [b'] [] (afterReply idx Config.zeroArg c [] s) with r2 := b' } :=
  (congrArg (State.andThen · (waitToken 0 (.block n k))) (openedB_rx hc hf hr h)).trans
    ((andThen_of_none (s := { afterReceive [b'] (b :: rest) (afterReply idx Config.zeroArg c (b' :: b :: rest) s) with
        r2 := b', seq := ⟨s.seq.main, some (.pExtra 0)⟩ }) hf).trans
      (waitToken_other (s := { afterReceive [b'] (b :: rest) (afterReply idx Config.zeroArg c (b' :: b :: rest) s) with
        r2 := b', seq := ⟨s.seq.main, some (.pExtra 0)⟩ }) hb hm rfl))

/-- A turn of the token wait that reaches the bound (rule R202). -/
theorem waitToken_timeout {n : Nat} {k : AfterToken} (hf : s.fault = none) (hb : b ≠ s.cfg.startToken)
    (hm : s.cfg.tokenWaitMax = some (n + 1)) (h : s.rx = b :: rest) :
    waitToken n k s = afterFatal (.timeout .token) (afterReceive [b] rest s) := by
  simp [waitToken, xchg_cons h, reply_cons h, hb, hm, atPhase, raise, hf, afterFatal, afterReceive, receiveEvents]

/-- SectorRead whose first poll reaches the bound. -/
theorem sectorRead_timeout {k : AfterBlock} {index : Word32} (hc : c.ok = true) (hf : s.fault = none)
    (hr : s.cfg.r1Check = false ∨ c.status = 0) (hb : b ≠ s.cfg.startToken) (hm : s.cfg.tokenWaitMax = some 1)
    (h : s.rx = c.bytes ++ (b :: rest)) :
    sectorRead k index s = afterFatal (.timeout .token) (afterReceive [b] rest (afterReply 17 index c [] s)) := by
  rw [sectorRead, opened_rx hc hf hr h, andThen_of_none (by exact hf)]
  exact waitToken_timeout (s := afterReply 17 index c (b :: rest) s) hf hb hm rfl

/-- RegRead whose first poll reaches the bound, Shape A. -/
theorem regReadA_timeout {k : AfterBlock} {n : Nat} (hc : c.ok = true) (hf : s.fault = none)
    (hr : s.cfg.r1Check = false ∨ c.status = 0) (hb : b ≠ s.cfg.startToken) (hm : s.cfg.tokenWaitMax = some 1)
    (h : s.rx = c.bytes ++ (b :: rest)) :
    regRead k idx .a n s = afterFatal (.timeout .token) (afterReceive [b] rest (afterReply idx Config.zeroArg c [] s)) :=
  (congrArg (State.andThen · (waitToken 0 (.block n k))) (opened_rx hc hf hr h)).trans
    ((andThen_of_none (s := afterReply idx Config.zeroArg c (b :: rest) s) hf).trans
      (waitToken_timeout (s := afterReply idx Config.zeroArg c (b :: rest) s) hf hb hm rfl))

/-- The same with Shape B. -/
theorem regReadB_timeout {k : AfterBlock} {n : Nat} {b' : Byte} (hc : c.ok = true) (hf : s.fault = none)
    (hr : s.cfg.r1Check = false ∨ c.status = 0) (hb : b ≠ s.cfg.startToken) (hm : s.cfg.tokenWaitMax = some 1)
    (h : s.rx = c.bytes ++ (b' :: b :: rest)) :
    regRead k idx .b n s = afterFatal (.timeout .token)
      (afterReceive [b] rest { afterReceive [b'] [] (afterReply idx Config.zeroArg c [] s) with r2 := b' }) :=
  (congrArg (State.andThen · (waitToken 0 (.block n k))) (openedB_rx hc hf hr h)).trans
    ((andThen_of_none (s := { afterReceive [b'] (b :: rest) (afterReply idx Config.zeroArg c (b' :: b :: rest) s) with
        r2 := b', seq := ⟨s.seq.main, some (.pExtra 0)⟩ }) hf).trans
      (waitToken_timeout (s := { afterReceive [b'] (b :: rest) (afterReply idx Config.zeroArg c (b' :: b :: rest) s) with
        r2 := b', seq := ⟨s.seq.main, some (.pExtra 0)⟩ }) hf hb hm rfl))

/-- A turn of the busy wait that reaches the bound (rule R208). -/
theorem busyWait_timeout {n : Nat} (hf : s.fault = none) (hb : b ≠ Config.filler) (hm : s.cfg.busyWaitMax = some (n + 1))
    (h : s.rx = b :: rest) : busyWait n s = afterFatal (.timeout .busy) (afterReceive [b] rest s) := by
  simp [busyWait, xchg_cons h, reply_cons h, hb, hm, atPhase, raise, hf, afterFatal, afterReceive, receiveEvents]

/-- SectorWrite whose first busy poll reaches the bound. -/
theorem sectorWrite_timeout {index : Word32} {data ans : List Byte} {accept : Byte} (hc : c.ok = true) (hf : s.fault = none)
    (hr : s.cfg.r1Check = false ∨ c.status = 0) (hb : b ≠ Config.filler) (hm : s.cfg.busyWaitMax = some 1)
    (hans : ans.length = data.length + 4) (h : s.rx = c.bytes ++ (ans ++ (accept :: b :: rest))) :
    sectorWrite index data s = afterFatal (.timeout .busy)
      (afterReceive [b] rest (afterOutbound data ans accept [] (afterReply 24 index c [] s))) :=
  (sectorWrite_rx hf hc hr hans h).trans
    (busyWait_timeout (s := { afterOutbound data ans accept (b :: rest) (afterReply 24 index c [] s) with
      seq := ⟨s.seq.main, some .pWResp⟩ }) hf hb hm rfl)

/-- The busy wait when the write was not accepted (rule R209). -/
theorem busyWait_rejected {n : Nat} (hw : s.cfg.wrespCheck = true) (ha : writeAccepted s.wresp = false) (hf : s.fault = none)
    (h : s.rx = Config.filler :: rest) :
    busyWait n s = afterFatal (.writeRejected s.wresp) (afterDeselect (afterReceive [Config.filler] rest s)) := by
  simp [busyWait, reply_cons h, xchg_cons h, atPhase, checkWresp, hw, ha, State.andThen, hf, deselect_eq, raise, afterFatal,
    afterDeselect, afterReceive, receiveEvents]

end Sys2Proof.Machine
end

