-- ==== Sys2Proof/Laws/Frame.lean ====
section
/-! SUPPORT. The frame of every shared operation and of every instruction: what it leaves as it was (`Keeps`), that a
fault raised in it has left the sequencer in FAULT (`Piece`), and that a result is delivered at the end or not at all (`Ends`). -/

namespace Sys2Proof.Machine

/-- What an operation leaves as it was: the parameters, the link handle, the filler buffer, the inputs, the result, the
latched request unless `req`, the session state unless `ini`; the trace only grows. -/
structure Keeps (req ini : Bool) (s t : State) : Prop where
  cfg : t.cfg = s.cfg
  link : t.link = s.link
  filler : t.filler = s.filler
  port : t.port = s.port
  resetRequest : t.resetRequest = s.resetRequest
  result : t.result = s.result
  request : req = false → t.op = s.op ∧ t.opArg = s.opArg ∧ t.wdata = s.wdata
  initialized : s.initialized = true → t.initialized = true
  session : ini = false → t.initialized = s.initialized ∧ t.sectorCount = s.sectorCount ∧ t.ocrRaw = s.ocrRaw
  trace : ∃ events, t.trace = events ++ s.trace

variable {req ini : Bool} {s t u : State} {f : State → State}

theorem Keeps.refl : Keeps req ini s s :=
  ⟨rfl, rfl, rfl, rfl, rfl, rfl, fun _ => ⟨rfl, rfl, rfl⟩, id, fun _ => ⟨rfl, rfl, rfl⟩, [], rfl⟩

theorem Keeps.trans (h : Keeps req ini s t) (k : Keeps req ini t u) : Keeps req ini s u := by
  obtain ⟨e, he⟩ := h.trace
  obtain ⟨e', he'⟩ := k.trace
  refine ⟨k.cfg.trans h.cfg, k.link.trans h.link, k.filler.trans h.filler, k.port.trans h.port,
    k.resetRequest.trans h.resetRequest, k.result.trans h.result, fun hr => ?_, fun hi => k.initialized (h.initialized hi),
    fun hi => ?_, e' ++ e, by rw [he', he, List.append_assoc]⟩
  · obtain ⟨a, b, c⟩ := h.request hr
    obtain ⟨a', b', c'⟩ := k.request hr
    exact ⟨a'.trans a, b'.trans b, c'.trans c⟩
  · obtain ⟨a, b, c⟩ := h.session hi
    obtain ⟨a', b', c'⟩ := k.session hi
    exact ⟨a'.trans a, b'.trans b, c'.trans c⟩

theorem Keeps.weaken (h : Keeps false false s t) : Keeps req ini s t :=
  ⟨h.cfg, h.link, h.filler, h.port, h.resetRequest, h.result, fun _ => h.request rfl, h.initialized, fun _ => h.session rfl,
    h.trace⟩

/-- A fault entry's sequencer (rule R310). -/
def faultOk (t : State) : Prop := t.fault = none ∨ t.seq = ⟨.fault, none⟩ ∧ t.waiting = none

/-- A piece of an operation: it keeps what `Keeps` says, and if it raised a fault it left the sequencer in FAULT. -/
def Piece (req ini : Bool) (s t : State) : Prop := Keeps req ini s t ∧ faultOk t

/-- An operation: a piece, or a piece and then the delivery of a result. -/
def Ends (req ini : Bool) (s t : State) : Prop :=
  Piece req ini s t ∨ ∃ u r, Keeps req ini s u ∧ u.fault = none ∧ (t = deliver r u ∨ t = complete r u)

theorem Piece.weaken (h : Piece false false s t) : Piece req ini s t := ⟨h.1.weaken, h.2⟩

theorem Piece.andThen (h : Piece req ini s t) (hf : t.fault = none → Piece req ini t (f t)) : Piece req ini s
    (t.andThen f) := by
  unfold State.andThen
  cases ht : t.fault with
  | some r => exact h
  | none => exact ⟨h.1.trans (hf ht).1, (hf ht).2⟩

theorem Ends.of_keeps (h : Keeps req ini s t) (k : Ends req ini t u) : Ends req ini s u := by
  rcases k with ⟨k, hk⟩ | ⟨v, r, k, hv, hu⟩
  · exact .inl ⟨h.trans k, hk⟩
  · exact .inr ⟨v, r, h.trans k, hv, hu⟩

theorem Piece.andThenEnds (h : Piece req ini s t) (hf : t.fault = none → Ends req ini t (f t)) : Ends req ini s
    (t.andThen f) := by
  unfold State.andThen
  cases ht : t.fault with
  | some r => exact .inl h
  | none => exact .of_keeps h.1 (hf ht)

theorem Ends.delivered (h : s.fault = none) (r : Result) : Ends req ini s (deliver r s) := .inr ⟨s, r, .refl, h, .inl rfl⟩
theorem Ends.completed (h : s.fault = none) (r : Result) : Ends req ini s (complete r s) := .inr ⟨s, r, .refl, h, .inr rfl⟩

theorem raise_piece (r : Fatal) (h : s.fault = none) : Piece req ini s (raise r s) := by
  rw [raise_of_none h]
  exact ⟨⟨rfl, rfl, rfl, rfl, rfl, rfl, fun _ => ⟨rfl, rfl, rfl⟩, id, fun _ => ⟨rfl, rfl, rfl⟩, [], rfl⟩, .inr ⟨rfl, rfl⟩⟩

theorem xchg_keeps (b : Byte) : Keeps req ini s (xchg b s) :=
  ⟨rfl, rfl, rfl, rfl, rfl, rfl, fun _ => ⟨rfl, rfl, rfl⟩, id, fun _ => ⟨rfl, rfl, rfl⟩, [_], rfl⟩

theorem xchgN_keeps (ts : List Byte) : Keeps req ini s (xchgN ts s) := by
  induction ts generalizing s with
  | nil => exact .refl
  | cons t ts ih => exact (xchg_keeps t).trans ih

theorem xchgN_fault (ts : List Byte) : (xchgN ts s).fault = s.fault := by rw [xchgN_eq]
theorem xchgN_frame (ts : List Byte) : (xchgN ts s).frame = s.frame := by rw [xchgN_eq]

/-- An update of the datapath registers, the sequencer, the selection or the answers left, with events added. -/
theorem Keeps.of_eq (hc : t.cfg = s.cfg := by rfl) (hl : t.link = s.link := by rfl) (hf : t.filler = s.filler := by rfl)
    (hp : t.port = s.port := by rfl) (hr : t.resetRequest = s.resetRequest := by rfl) (hre : t.result = s.result := by rfl)
    (ho : t.op = s.op := by rfl) (ha : t.opArg = s.opArg := by rfl) (hw : t.wdata = s.wdata := by rfl)
    (hi : t.initialized = s.initialized := by rfl) (hs : t.sectorCount = s.sectorCount := by rfl)
        (hoc : t.ocrRaw = s.ocrRaw := by rfl)
    (events : List LinkEvent := []) (ht : t.trace = events ++ s.trace := by rfl) : Keeps req ini s t :=
  ⟨hc, hl, hf, hp, hr, hre, fun _ => ⟨ho, ha, hw⟩, fun h => hi.trans h, fun _ => ⟨hi, hs, hoc⟩, events, ht⟩

theorem issueCommand_keeps (idx : BitVec 6) (arg : Word32) : Keeps req ini s (issueCommand idx arg s) := by
  have h1 : Keeps req ini s (select (buildFrame idx arg s)) := .of_eq (events := [.sel])
  exact (h1.trans (xchgN_keeps _)).trans .of_eq

theorem issueCommand_fault (idx : BitVec 6) (arg : Word32) : (issueCommand idx arg s).fault = s.fault := by
  show (xchgN _ _).fault = _
  rw [xchgN_fault]; rfl

theorem issueCommand_piece (idx : BitVec 6) (arg : Word32) (h : s.fault = none) : Piece req ini s (issueCommand idx arg s) :=
  ⟨issueCommand_keeps idx arg, .inl ((issueCommand_fault idx arg).trans h)⟩

theorem pollLoop_piece (k : Nat) (h : s.fault = none) : Piece req ini s (pollLoop k s) := by
  induction k generalizing s with
  | zero => exact raise_piece _ h
  | succ k ih =>
    have h1 : Keeps req ini s (atPhase (.pPoll (s.pollCnt.toNat + 1)) { xchg Config.filler s with pollCnt := s.pollCnt + 1 })
        :=
      (xchg_keeps Config.filler).trans .of_eq
    simp only [pollLoop]
    split
    · exact ⟨h1.trans .of_eq, .inl h⟩
    · have := ih (s := atPhase (.pPoll (s.pollCnt.toNat + 1)) { xchg Config.filler s with pollCnt := s.pollCnt + 1 }) h
      exact ⟨h1.trans this.1, this.2⟩

theorem pollStatus_piece (h : s.fault = none) : Piece req ini s (pollStatus s) := by
  have := pollLoop_piece (req := req) (ini := ini) (s := { s with pollCnt := 0 }) Config.respPollMax h
  exact ⟨Keeps.trans .of_eq this.1, this.2⟩

theorem secondByte_piece (h : s.fault = none) : Piece req ini s (secondByte s) :=
  ⟨(xchg_keeps Config.filler).trans .of_eq, .inl h⟩

theorem payloadBytes_piece (h : s.fault = none) : Piece req ini s (payloadBytes s) :=
  ⟨(xchgN_keeps (List.replicate 4 Config.filler)).trans .of_eq, .inl ((xchgN_fault _).trans h)⟩

theorem respB_piece (h : s.fault = none) : Piece req ini s (respB s) := (pollStatus_piece h).andThen secondByte_piece
theorem respCD_piece (h : s.fault = none) : Piece req ini s (respCD s) := (pollStatus_piece h).andThen payloadBytes_piece

theorem respShape_piece (shape : Shape) (h : s.fault = none) : Piece req ini s (respShape shape s) := by
  cases shape with
  | a => exact pollStatus_piece h
  | b => exact respB_piece h
  | cd => exact respCD_piece h
  | other code => exact raise_piece _ h

theorem deselect_piece (h : s.fault = none) : Piece req ini s (deselect s) := ⟨.of_eq (events := [.desel]), .inl h⟩

theorem transactA_piece (idx : BitVec 6) (arg : Word32) (h : s.fault = none) : Piece req ini s (transactA idx arg s) :=
  ((issueCommand_piece idx arg h).andThen pollStatus_piece).andThen deselect_piece
theorem transactCD_piece (idx : BitVec 6) (arg : Word32) (h : s.fault = none) : Piece req ini s (transactCD idx arg s) :=
  ((issueCommand_piece idx arg h).andThen respCD_piece).andThen deselect_piece

theorem checkR1_piece (idx : BitVec 6) (h : s.fault = none) : Piece req ini s (checkR1 idx s) := by
  unfold checkR1
  split
  · exact raise_piece _ h
  · exact ⟨.refl, .inl h⟩

theorem receiveBlock_keeps (n : Nat) : Keeps req ini s (receiveBlock n s) :=
  (((xchgN_keeps (s.filler.take n)).trans .of_eq).trans
    (xchgN_keeps (s := atPhase (.pData (n - 1)) { xchgN (s.filler.take n) s with
        buf := replies (s.filler.take n) s ++ (xchgN (s.filler.take n) s).buf.drop n }) _)).trans .of_eq

theorem receiveBlock_fault (n : Nat) : (receiveBlock n s).fault = s.fault := by
  simp only [receiveBlock, atPhase, xchgN_fault]

theorem afterBlock_ends (n : Nat) (k : AfterBlock) (hi : k = .initCsd → ini = true) (h : s.fault = none) :
    Ends req ini s (afterBlock n k s) := by
  have hd : Keeps req ini s (deselect s) := .of_eq (events := [.desel])
  cases k with
  | fetchOnly => exact .completed h _
  | initCsd =>
    obtain rfl := hi rfl
    refine .of_keeps (t := { deselect s with sectorCount := sectorCountOf (decodeCsd s.cfg.layouts.csd (s.buf.take n)) s.cfg.sectorCountBias })
        ?_ (.completed (by exact h) _)
    exact ⟨rfl, rfl, rfl, rfl, rfl, rfl, fun _ => ⟨rfl, rfl, rfl⟩, id, nofun, [.desel], rfl⟩
  | _ => exact .of_keeps hd (.completed (by exact h) _)

theorem afterToken_ends (k : AfterToken) (hi : ∀ n, k = .block n .initCsd → ini = true) (h : s.fault = none) :
    Ends req ini s (afterToken k s) := by
  cases k with
  | ret => exact .completed h _
  | block n k =>
    exact .of_keeps (receiveBlock_keeps n)
        (afterBlock_ends n k (fun hk => hi n (by rw [hk])) ((receiveBlock_fault n).trans h))

theorem waitToken_ends (n : Nat) (k : AfterToken) (hi : ∀ n, k = .block n .initCsd → ini = true) (h : s.fault = none) :
    Ends req ini s (waitToken n k s) := by
  have h1 : Keeps req ini s (atPhase .pToken (xchg Config.filler s)) := (xchg_keeps Config.filler).trans .of_eq
  simp only [waitToken]
  split
  · refine .of_keeps h1 (.of_keeps (t := { atPhase .pToken (xchg Config.filler s) with waiting := none }) .of_eq
      (afterToken_ends k hi h))
  · split
    · exact .of_keeps h1 (.inl (raise_piece _ h))
    · exact .of_keeps h1 (.inl ⟨.of_eq, .inl h⟩)

theorem opened_piece (idx : BitVec 6) (arg : Word32) (shape : Shape) (h : s.fault = none) :
    Piece req ini s (((issueCommand idx arg s).andThen (respShape shape)).andThen (checkR1 idx)) :=
  ((issueCommand_piece idx arg h).andThen (respShape_piece shape)).andThen (checkR1_piece idx)

theorem sectorRead_ends (k : AfterBlock) (hk : k ≠ .initCsd) (index : Word32) (h : s.fault = none) :
    Ends req ini s (sectorRead k index s) :=
  (opened_piece 17 index .a h).andThenEnds (waitToken_ends _ _ (by rintro n ⟨⟩; exact absurd rfl hk))

theorem regRead_ends (k : AfterBlock) (hi : k = .initCsd → ini = true) (idx : BitVec 6) (shape : Shape) (n : Nat)
    (h : s.fault = none) : Ends req ini s (regRead k idx shape n s) := by
  have key : ∀ shape, Ends req ini s ((((issueCommand idx Config.zeroArg s).andThen (respShape shape)).andThen
      (checkR1 idx)).andThen
      (waitToken 0 (.block n k))) := fun shape =>
    (opened_piece idx Config.zeroArg shape h).andThenEnds (waitToken_ends _ _ (by rintro n ⟨⟩; exact hi rfl))
  cases shape with
  | other code => exact .inl (raise_piece _ h)
  | _ => exact key _

theorem appRegRead_ends (k : AfterBlock) (hk : k ≠ .initCsd) (idx : BitVec 6) (shape : Shape) (n : Nat)
    (h : s.fault = none) : Ends req ini s (appRegRead k idx shape n s) :=
  (transactA_piece 55 Config.zeroArg h).andThenEnds (regRead_ends k (fun hk' => absurd hk' hk) idx shape n)

theorem Keeps.phase (h : Keeps req ini s t) (p : Phase) : Keeps req ini s (atPhase p t) := h.trans .of_eq

theorem Keeps.xchg (h : Keeps req ini s t) (b : Byte) : Keeps req ini s (xchg b t) := h.trans (xchg_keeps b)

theorem Keeps.xchgN (h : Keeps req ini s t) (ts : List Byte) : Keeps req ini s (xchgN ts t) := h.trans (xchgN_keeps ts)

theorem sendBlock_keeps (data : List Byte) : Keeps req ini s (sendBlock data s) :=
  (((((((((Keeps.refl.xchg _).phase _).xchg _).phase _).xchgN _).phase _).xchgN _).phase _).xchg _).trans .of_eq

theorem sendBlock_fault (data : List Byte) : (sendBlock data s).fault = s.fault := by
  simp only [sendBlock, atPhase, xchg, xchgN_fault]

theorem checkWresp_piece (h : s.fault = none) : Piece req ini s (checkWresp s) := by
  unfold checkWresp
  split
  · exact raise_piece _ h
  · exact ⟨.refl, .inl h⟩

theorem busyWait_ends (n : Nat) (h : s.fault = none) : Ends req ini s (busyWait n s) := by
  have h1 : Keeps req ini s (atPhase .pBusy (xchg Config.filler s)) := (xchg_keeps Config.filler).trans .of_eq
  simp only [busyWait]
  split
  · have h2 : Keeps req ini (atPhase .pBusy (xchg Config.filler s))
      (deselect { atPhase .pBusy (xchg Config.filler s) with waiting := none }) := .of_eq (events := [.desel])
    have h3 := checkWresp_piece (req := req) (ini := ini)
        (s := deselect { atPhase .pBusy (xchg Config.filler s) with waiting := none }) h
    exact Piece.andThenEnds ⟨(h1.trans h2).trans h3.1, h3.2⟩ (fun h => .completed (by exact h) _)
  · split
    · exact .of_keeps h1 (.inl (raise_piece _ h))
    · exact .of_keeps h1 (.inl ⟨.of_eq, .inl h⟩)

theorem sectorWrite_ends (index : Word32) (data : List Byte) (h : s.fault = none) : Ends req ini s
    (sectorWrite index data s) :=
  ((opened_piece 24 index .a h).andThen fun h => ⟨sendBlock_keeps data, .inl ((sendBlock_fault data).trans h)⟩).andThenEnds
    (busyWait_ends 0)

theorem activateOnce_piece (h : s.fault = none) : Piece req ini s (activateOnce s) :=
  (transactA_piece 55 Config.zeroArg h).andThen (transactA_piece 41 Config.hcsArg)

theorem enter_keeps (m : SeqState) : Keeps req ini s (enter m s) := .of_eq

theorem Piece.of_keeps (h : Keeps req ini s t) (k : Piece req ini t u) : Piece req ini s u := ⟨h.trans k.1, k.2⟩

theorem terminal_ends (h : s.fault = none) : Ends req true s (terminal s) := by
  have h1 : Keeps req true s (enter .iTerminal { s with initialized := true }) :=
    ⟨rfl, rfl, rfl, rfl, rfl, rfl, fun _ => ⟨rfl, rfl, rfl⟩, fun _ => rfl, nofun, [], rfl⟩
  simp only [terminal]
  split
  · exact .of_keeps h1 (regRead_ends .initCsd (fun _ => rfl) 9 .a 16 h)
  · exact .of_keeps h1 (.completed (by exact h) _)

theorem byteAddressing_piece (h : s.fault = none) : Piece req ini s (byteAddressing s) := by
  unfold byteAddressing
  split
  · exact (transactA_piece 16 Config.blocklenArg h).andThen (raise_piece _)
  · exact Piece.andThen ⟨.refl, .inl h⟩ (raise_piece _)

theorem branch_piece (h : s.fault = none) : Piece req ini s (branch s) := by
  simp only [branch]
  split
  · exact ⟨enter_keeps _, .inl h⟩
  · exact .of_keeps (enter_keeps .iBranch) (byteAddressing_piece h)

theorem readOcrState_piece (h : s.fault = none) : Piece req true s (readOcrState s) := by
  refine Piece.andThen (.of_keeps (enter_keeps .iReadOcr) (transactCD_piece 58 Config.zeroArg (s := enter .iReadOcr s) h))
      fun ht => ⟨?_, .inl ht⟩
  exact ⟨rfl, rfl, rfl, rfl, rfl, rfl, fun _ => ⟨rfl, rfl, rfl⟩, id, nofun, [], rfl⟩

theorem afterActivate_ends (h : s.fault = none) : Ends req true s (afterActivate s) :=
  ((readOcrState_piece h).andThen branch_piece).andThenEnds terminal_ends

theorem activate_ends (n : Nat) (h : s.fault = none) : Ends req true s (activate n s) := by
  refine Piece.andThenEnds (.of_keeps (t := enter .iActivate { s with waiting := none }) .of_eq (activateOnce_piece h))
      fun ht => ?_
  split
  · exact afterActivate_ends ht
  · split
    · exact .inl (raise_piece _ ht)
    · exact .inl ⟨.of_eq (events := [.delay Config.acmd41DelayMs]), .inl ht⟩

theorem initReset_keeps : Keeps req ini s (initReset s) :=
  (Keeps.trans (t := deselect (enter .iReset s)) (.of_eq (events := [.desel])) (xchgN_keeps _)).trans
      (.of_eq (events := [.delay Config.resetDelayMs]))

theorem initReset_fault : (initReset s).fault = s.fault := by
  simp only [initReset, delayMs, xchgN_fault]; rfl

theorem goIdle_piece (h : s.fault = none) : Piece req ini s (goIdle s) :=
  Piece.andThen (.of_keeps (enter_keeps .iGoIdle) (transactA_piece 0 Config.zeroArg (s := enter .iGoIdle s) h)) fun ht => by
    split
    · exact ⟨.refl, .inl ht⟩
    · exact raise_piece _ ht

theorem sendIfCond_piece (h : s.fault = none) : Piece req ini s (sendIfCond s) :=
  Piece.andThen (.of_keeps (enter_keeps .iIfCond) (transactCD_piece 8 Config.checkArg (s := enter .iIfCond s) h)) fun ht => by
    split
    · exact ⟨.refl, .inl ht⟩
    · exact raise_piece _ ht

theorem runInit_ends (h : s.fault = none) : Ends req true s (runInit s) :=
  (Piece.andThen (.of_keeps initReset_keeps (goIdle_piece (initReset_fault.trans h))) sendIfCond_piece).andThenEnds
      (activate_ends 0)

theorem resume_ends (w : Wait) (h : s.fault = none) : Ends req true s (resume w s) := by
  cases w with
  | token n k => exact waitToken_ends n k (fun _ _ => rfl) h
  | busy n => exact busyWait_ends n h
  | activate n => exact activate_ends n h

theorem startOp_ends (code : BitVec 4) (latch body : State → State) (h : s.fault = none)
    (hl : Keeps true ini { s with op := code } (latch { s with op := code })) (hlf : (latch { s with op := code }).fault = none)
    (hb : ∀ t : State, t.fault = none → Ends true ini t (body t)) :
    Ends true ini s (startOp code latch body s) := by
  have h0 : Keeps true ini s { s with op := code } :=
    ⟨rfl, rfl, rfl, rfl, rfl, rfl, nofun, id, fun _ => ⟨rfl, rfl, rfl⟩, [], rfl⟩
  unfold startOp
  split
  · exact .inl ⟨.refl, .inl h⟩
  · dsimp only
    split
    · exact .of_keeps (h0.trans hl) (.inl (raise_piece _ hlf))
    · exact .of_keeps (h0.trans hl) (hb _ hlf)

theorem rejectOp_ends (what : Unimplemented) (h : s.fault = none) : Ends req ini s (rejectOp what s) := by
  unfold rejectOp
  split
  · exact .inl ⟨.refl, .inl h⟩
  · exact .inl (raise_piece _ h)

theorem latch_keeps (arg : Word32) (data : List Byte) : Keeps true ini s { s with opArg := arg, wdata := data } :=
  ⟨rfl, rfl, rfl, rfl, rfl, rfl, nofun, id, fun _ => ⟨rfl, rfl, rfl⟩, [], rfl⟩

theorem receive_ends (bytes : List Byte) (f : State → State) (h : s.fault = none)
    (hf : Ends req ini (feed bytes s) (f (feed bytes s))) :
    Ends req ini s (receive bytes f s) := by
  unfold receive
  split
  · exact .of_keeps (t := feed bytes s) .of_eq hf
  · exact .inl ⟨.refl, .inl h⟩

/-- What any instruction does to the state, without a fault latched before it. -/
theorem exec_ends (i : Instr) (h : s.fault = none) (hi : i = .init ∨ s.waiting ≠ none → ini = true) :
    ∃ t, exec i s = .next t ∧ Ends true ini s t := by
  have hl : ∀ (f : State → State), Ends true ini s (f s) → ∃ t, live f s = .next t ∧ Ends true ini s t :=
    fun f hf => ⟨f s, live_of_none h, hf⟩
  have hr : ∀ (m : SeqState) (f : State → State), Ends true ini (enter m s) (f (enter m s)) → ∃ t,
      rowOp m f s = .next t ∧ Ends true ini s t :=
    fun m f hf => ⟨f (enter m s), rowOp_of_none h, .of_keeps (enter_keeps m) hf⟩
  have he : ∀ m : SeqState, (enter m s).fault = none := fun _ => h
  cases i with
  | cmd0 => exact hl _ ((transactA_piece _ _ h).andThenEnds fun h => .delivered (by exact h) _)
  | cmd8 => exact hl _ ((transactCD_piece _ _ h).andThenEnds fun h => .delivered (by exact h) _)
  | cmd9 => exact hr _ _ (regRead_ends _ (by nofun) _ _ _ (by exact h))
  | cmd10 => exact hr _ _ (regRead_ends _ (by nofun) _ _ _ (by exact h))
  | acmd13 => exact hr _ _ (appRegRead_ends _ (by nofun) _ _ _ (by exact h))
  | cmd16 => exact hl _ ((transactA_piece _ _ h).andThenEnds fun h => .delivered (by exact h) _)
  | cmd17 index => exact hr _ _ (sectorRead_ends _ (by nofun) _ (by exact h))
  | cmd24 index => exact hr _ _ (sectorWrite_ends _ _ (by exact h))
  | acmd41 => exact hl _ ((activateOnce_piece h).andThenEnds fun h => .delivered (by exact h) _)
  | acmd51 => exact hr _ _ (appRegRead_ends _ (by nofun) _ _ _ (by exact h))
  | cmd55 => exact hl _ ((transactA_piece _ _ h).andThenEnds fun h => .delivered (by exact h) _)
  | cmd58 => exact hl _ ((transactCD_piece _ _ h).andThenEnds fun h => .delivered (by exact h) _)
  | init =>
    obtain rfl := hi (.inl rfl)
    exact hl _ (startOp_ends _ _ _ h .refl h fun t ht => runInit_ends ht)
  | readSector index =>
    exact hl _ (startOp_ends _ _ _ h (latch_keeps index _) h fun t ht =>
      .of_keeps (enter_keeps .opRead) (sectorRead_ends _ (by nofun) _ ht))
  | writeSector index data =>
    exact hl _ (startOp_ends _ _ _ h (latch_keeps index data) h fun t ht =>
      .of_keeps (enter_keeps .opWrite) (sectorWrite_ends _ _ ht))
  | eraseSector index => exact hl _ (rejectOp_ends _ h)
  | readCid => exact hl _ (startOp_ends _ _ _ h .refl h fun t ht =>
      .of_keeps (enter_keeps .opRegRead) (regRead_ends _ (by nofun) _ _ _ ht))
  | readCsd => exact hl _ (startOp_ends _ _ _ h .refl h fun t ht =>
      .of_keeps (enter_keeps .opRegRead) (regRead_ends _ (by nofun) _ _ _ ht))
  | readOcr =>
    exact hl _ (startOp_ends _ _ _ h .refl h fun t ht => .of_keeps (enter_keeps .opRegRead)
      ((transactCD_piece _ _ (s := enter .opRegRead t) ht).andThenEnds fun h => .completed (by exact h) _))
  | readScr => exact hl _ (startOp_ends _ _ _ h .refl h fun t ht =>
      .of_keeps (enter_keeps .opRegRead) (appRegRead_ends _ (by nofun) _ _ _ ht))
  | readSsr => exact hl _ (startOp_ends _ _ _ h .refl h fun t ht =>
      .of_keeps (enter_keeps .opRegRead) (appRegRead_ends _ (by nofun) _ _ _ ht))
  | reserved9 | reserved10 | reserved11 | reserved12 | reserved13 | reserved14 | reserved15 => exact hl _ (rejectOp_ends _ h)
  | crc7 bytes => exact hl _ (.of_keeps (t := computeCrc bytes s) .of_eq (.delivered (by exact h) _))
  | crcByte bytes => exact hl _ (.of_keeps (t := computeCrc bytes s) .of_eq (.delivered (by exact h) _))
  | frame idx arg => exact hl _ (.of_keeps (t := buildFrame idx arg s) .of_eq (.delivered (by exact h) _))
  | issueCommand idx arg =>
    exact hl _ (.of_keeps (issueCommand_keeps idx arg) (.delivered ((issueCommand_fault idx arg).trans h) _))
  | pollStatus => exact hl _ ((pollStatus_piece h).andThenEnds fun h => .delivered (by exact h) _)
  | respA => exact hl _ ((pollStatus_piece h).andThenEnds fun h => .delivered (by exact h) _)
  | respB => exact hl _ ((respB_piece h).andThenEnds fun h => .delivered (by exact h) _)
  | respCD => exact hl _ ((respCD_piece h).andThenEnds fun h => .delivered (by exact h) _)
  | waitToken => exact hr _ _ (waitToken_ends _ _ nofun (by exact h))
  | fetchBlock n => exact hr _ _ (waitToken_ends _ _ nofun (by exact h))
  | sectorRead index => exact hr _ _ (sectorRead_ends _ (by nofun) _ (by exact h))
  | sectorWrite index data => exact hr _ _ (sectorWrite_ends _ _ (by exact h))
  | eraseSectorOp index => exact hl _ (.inl (raise_piece _ h))
  | regRead idx shape n => exact hr _ _ (regRead_ends _ (by nofun) _ _ _ (by exact h))
  | decodeCid raw | decodeCsd raw | decodeOcr raw | decodeScr raw | decodeSsr raw => exact hl _ (.delivered (by exact h) _)
  | select => exact hl _ (.of_keeps (t := select s) (.of_eq (events := [.sel])) (.delivered (by exact h) _))
  | deselect => exact hl _ (.of_keeps (t := deselect s) (.of_eq (events := [.desel])) (.delivered (by exact h) _))
  | xchg b => exact hl _ (.of_keeps (xchg_keeps b) (.delivered (by exact h) _))
  | delayMs n => exact hl _ (.of_keeps (t := delayMs n s) (.of_eq (events := [.delay n])) (.delivered (by exact h) _))
  | respFormatA flags => exact hl _ (receive_ends _ _ h
      ((pollStatus_piece (by exact h)).andThenEnds fun h => .delivered (by exact h) _))
  | respFormatB flags second =>
    exact hl _ (receive_ends _ _ h ((respB_piece (by exact h)).andThenEnds fun h => .delivered (by exact h) _))
  | respFormatCD flags payload =>
    exact hl _ (receive_ends _ _ h ((respCD_piece (by exact h)).andThenEnds fun h => .delivered (by exact h) _))
  | startToken =>
    refine hl _ (receive_ends _ _ h ?_)
    show Ends true ini (feed _ s) (match s.waiting with | some (.token n k) => _ | _ => _)
    have hd : Ends true ini (feed [s.cfg.startToken] s)
        (deliver .done (atPhase .pToken (xchg Config.filler (feed [s.cfg.startToken] s)))) :=
      .of_keeps ((xchg_keeps Config.filler).trans .of_eq) (.delivered (by exact h) _)
    split
    · rename_i n k hw
      exact waitToken_ends n k (fun _ _ => hi (.inr (by rw [hw]; nofun))) h
    · exact hd
  | dresp code => exact hl _ (receive_ends _ _ h
      (.of_keeps ((xchg_keeps Config.filler).trans .of_eq) (.delivered (by exact h) _)))

theorem Ends.faulted {req ini s t} (h : Ends req ini s t)
    (hf : t.fault ≠ none) : Keeps req ini s t ∧ t.seq = ⟨.fault, none⟩ ∧ t.waiting = none := by
  rcases h with ⟨h, h'⟩ | ⟨u, r, _, hu, rfl | rfl⟩
  · rcases h' with h' | h'
    · exact absurd h' hf
    · exact ⟨h, h'⟩
  · exact absurd hu hf
  · exact absurd hu hf

theorem Ends.session {req ini s t} (h : Ends req ini s t) :
   t.cfg = s.cfg ∧ t.link = s.link ∧ t.filler = s.filler ∧ t.port = s.port ∧ t.resetRequest = s.resetRequest ∧
      (s.initialized = true → t.initialized = true) ∧ (∃ events, t.trace = events ++ s.trace) ∧
          (ini = false → t.initialized = s.initialized ∧ t.sectorCount = s.sectorCount ∧ t.ocrRaw = s.ocrRaw) ∧
      (req = false → t.op = s.op ∧ t.opArg = s.opArg ∧ t.wdata = s.wdata) := by
  rcases h with ⟨h, -⟩ | ⟨u, r, h, -, rfl | rfl⟩ <;> exact ⟨h.cfg, h.link, h.filler, h.port, h.resetRequest, h.initialized,
      h.trace, h.session, h.request⟩

/-- The token wait writes no `initialized`, not even that of the descriptor fetch (rules R185, R186). -/
theorem waitToken_initialized (n : Nat) (k : AfterToken) (s : State) : (waitToken n k s).initialized = s.initialized := by
  have hr : ∀ n s, (receiveBlock n s).initialized = s.initialized := fun n s =>
    ((receiveBlock_keeps (req := false) (ini := false) n).session rfl).1
  unfold waitToken
  extract_lets b t
  split
  · cases k with
    | ret => rfl
    | block m k => cases k <;> simp [afterToken, afterBlock, hr, t]
  · split
    · simp only [raise]; split <;> rfl
    · rfl

/-- Of the operations that stand in a wait, only INIT's activation loop writes `initialized` (rule R185). -/
theorem resume_initialized (w : Wait) (h : s.fault = none) (hw : ∀ n, w ≠ .activate n) :
    (resume w s).initialized = s.initialized := by
  cases w with
  | token n k => exact waitToken_initialized n k s
  | busy n => exact ((busyWait_ends (req := false) (ini := false) n h).session.2.2.2.2.2.2.2.1 rfl).1
  | activate n => exact absurd rfl (hw n)

theorem exec_faulted (i : Instr) (s : State) (r : Fatal) (h : s.fault = some r) : exec i s = .next s := by
  cases i <;> exact live_of_fault h

theorem decode_init {cfg : Params} {p : PortWord} (h : decode cfg p = .ok .init) : ∃ h, p = .hostop h ∧ h.op = 0 := by
  unfold decode at h
  split at h <;> try (split at h <;> cases h)
  · rename_i w
    refine ⟨w, rfl, ?_⟩
    unfold decodeHost at h
    split at h <;> try (cases h; done)
    · rename_i hn; exact BitVec.eq_of_toNat_eq hn
    · split at h <;> cases h
  · have := decodeCommand_ok (idx := frameIdx _) (arg := frameArg _) (i := .init) (by
      unfold decodeFrame at h
      split at h <;> try contradiction
      split at h <;> try contradiction
      split at h <;> try contradiction
      split at h <;> try contradiction
      exact h)
    cases this
  all_goals cases h

end Sys2Proof.Machine
end

