-- ==== Sys2Proof/Laws/Runs.lean ====
section
/-! SUPPORT. Steps and runs: a step takes the word at the port or resumes the wait, and the three unbounded loops run on as
long as the card does not end them. -/

namespace Sys2Proof.Machine

theorem step_waiting {s : State} {w : Wait} (hr : s.resetRequest = false) (hf : s.fault = none) (hw : s.waiting = some w) :
    step s = .next (resume w { s with port := none }) := by simp [step, hr, hf, hw]

theorem step_port {s : State} {p : PortWord} {i : Instr} (hr : s.resetRequest = false) (hf : s.fault = none)
    (hw : s.waiting = none)
    (hp : s.port = some p) (hd : decode s.cfg p = .ok i) : step s = exec i { s with port := none } :=
        by simp [step, hr, hf, hw, hp, hd]

theorem run_succ (k : Nat) (s : State) (t : State) (h : step s = .next t) : core.run (k + 1) s = core.run k t := by
  have h' : core.step s = .next t := h
  exact (Host.Core.run.eq_2 core s k).trans (by rw [h'])

theorem run_add (j k : Nat) (s t : State) (h : core.run j s = .next t) : core.run (j + k) s = core.run k t := by
  induction j generalizing s with
  | zero => simp only [Nat.zero_add]; cases h; rfl
  | succ j ih =>
    rw [show j + 1 + k = (j + k) + 1 by omega]
    rw [Host.Core.run.eq_2 core s] at h ⊢
    cases hst : core.step s with
    | next s' => rw [hst] at h; exact ih s' h
    | fault r => rw [hst] at h; cases h
    | refused r => rw [hst] at h; cases h

/-- The token wait over bytes that are not the start token (rule R202). -/
theorem tokenRun {bs : List Byte} {s : State} {n : Nat} {k : AfterToken} {rest : List Byte} (hne : bs ≠ [])
    (hr : s.resetRequest = false) (hf : s.fault = none)
    (hw : s.waiting = some (.token n k)) (hm : s.cfg.tokenWaitMax = none) (hb : ∀ b ∈ bs, b ≠ s.cfg.startToken)
        (h : s.rx = bs ++ rest) :
    core.run bs.length s = .next { afterReceive bs rest s with
            port := none, waiting := some (.token (n + bs.length) k), seq := ⟨s.seq.main, some .pToken⟩ } := by
  induction bs generalizing s n with
  | nil => exact absurd rfl hne
  | cons b bs ih =>
    have e := waitToken_other (s := { s with port := none }) (n := n) (k := k) (hb b (by simp)) (by simp [hm]) h
    have hs := (step_waiting hr hf hw).trans (congrArg _ e)
    rw [List.length_cons, run_succ _ _ _ hs]
    cases bs with
    | nil => rfl
    | cons b' bs =>
      rw [ih (by simp) (by exact hr) (by exact hf) (by rfl) (by exact hm) (by exact fun x hx => hb x (by simp [hx])) (by rfl)]
      simp [afterReceive, receiveEvents, Nat.add_assoc, Nat.add_comm 1]

/-- The busy wait over busy bytes (rule R208). -/
theorem busyRun {bs : List Byte} {s : State} {n : Nat} {rest : List Byte} (hne : bs ≠ []) (hr : s.resetRequest = false)
    (hf : s.fault = none)
    (hw : s.waiting = some (.busy n)) (hm : s.cfg.busyWaitMax = none) (hb : ∀ b ∈ bs, b ≠ 0xFF) (h : s.rx = bs ++ rest) :
    core.run bs.length s = .next { afterReceive bs rest s with
            port := none, waiting := some (.busy (n + bs.length)), seq := ⟨s.seq.main, some .pBusy⟩ } := by
  induction bs generalizing s n with
  | nil => exact absurd rfl hne
  | cons b bs ih =>
    have e := busyWait_busy (s := { s with port := none }) (n := n) (hb b (by simp)) (by simp [hm]) h
    have hs := (step_waiting hr hf hw).trans (congrArg _ e)
    rw [List.length_cons, run_succ _ _ _ hs]
    cases bs with
    | nil => rfl
    | cons b' bs =>
      rw [ih (by simp) (by exact hr) (by exact hf) (by rfl) (by exact hm) (by exact fun x hx => hb x (by simp [hx])) (by rfl)]
      simp [afterReceive, receiveEvents, Nat.add_assoc, Nat.add_comm 1]

/-- The busy wait to its end, from the step that makes its first poll (rules R208, R209). -/
theorem busyWait_run {s : State} {n : Nat} {bs rest : List Byte} (hr : s.resetRequest = false) (hf : s.fault = none)
    (hm : s.cfg.busyWaitMax = none) (hb : ∀ b ∈ bs, b ≠ 0xFF) (hw : s.cfg.wrespCheck = false ∨ writeAccepted s.wresp = true)
        (h : s.rx = bs ++ 0xFF :: rest) :
    ∀ u, step u = .next (busyWait n s) → core.run (bs.length + 1) u = .next
        (afterEnd .done (afterDeselect (afterReceive (bs ++ [0xFF]) rest { s with
        port := if bs = [] then s.port else none }))) := by
  induction bs generalizing s n with
  | nil =>
    intro u hu
    rw [show ([] : List Byte).length + 1 = 0 + 1 from rfl, run_succ 0 _ _ hu, busyWait_idle hw hf h]; rfl
  | cons b bs ih =>
    intro u hu
    rw [busyWait_busy (rest := bs ++ 0xFF :: rest) (hb b (by simp)) (by simp [hm]) h] at hu
    rw [List.length_cons, run_succ _ _ _ hu]
    have hs := step_waiting (s := { afterReceive [b] (bs ++ 0xFF :: rest) s with
        waiting := some (.busy (n + 1)), seq := ⟨s.seq.main, some .pBusy⟩ }) hr hf rfl
    refine (ih (s := { { afterReceive [b] (bs ++ 0xFF :: rest) s with
        waiting := some (.busy (n + 1)), seq := ⟨s.seq.main, some .pBusy⟩ } with port := none }) (n := n + 1) hr hf hm
        (fun x hx => hb x (by simp [hx])) hw rfl _ hs).trans ?_
    simp [afterReceive, afterEnd, afterDeselect, receiveEvents]

/-- The token wait and its block, from the step that makes the first poll (rules R202, R203). -/
theorem waitToken_run {u s : State} {n m : Nat} {k : AfterBlock} {early data trail rest : List Byte}
    (hu : step u = .next (waitToken n (.block m k) s))
    (hr : s.resetRequest = false) (hf : s.fault = none) (hp : s.port = none) (hfil : s.filler = Config.fillerBuffer)
        (hm : s.cfg.tokenWaitMax = none)
    (he : ∀ b ∈ early, b ≠ s.cfg.startToken) (hd : data.length = m) (hm512 : m ≤ 512) (ht : trail.length = 2)
    (h : s.rx = early ++ s.cfg.startToken :: (data ++ (trail ++ rest))) :
      core.run (early.length + 1) u =
        .next (afterBlock m k
          { afterInbound s.cfg.startToken early data trail rest s with
            waiting := none, seq := ⟨s.seq.main, some (.pCrc 1)⟩ }) := by
  obtain ⟨t0, t1, rfl⟩ : ∃ t0 t1, trail = [t0, t1] := by
    match trail, ht with
    | [t0, t1], _ => exact ⟨_, _, rfl⟩
  induction early generalizing u s n with
  | nil =>
    rw [show ([] : List Byte).length + 1 = 0 + 1 from rfl, run_succ 0 _ _ hu, waitToken_block hfil hd hm512 h]
    rfl
  | cons b early ih =>
    rw [waitToken_other (rest := early ++ s.cfg.startToken :: (data ++ ([t0, t1] ++ rest))) (he b (by simp))
        (by simp [hm]) h] at hu
    rw [List.length_cons, run_succ _ _ _ hu]
    generalize hv : ({ afterReceive [b] (early ++ s.cfg.startToken :: (data ++ ([t0, t1] ++ rest))) s with
        waiting := some (.token (n + 1) (.block m k)), seq := ⟨s.seq.main, some .pToken⟩ } : State) = v
    have hvp : v.port = none := by rw [← hv]; exact hp
    have hst := step_waiting (s := v) (by rw [← hv]; exact hr) (by rw [← hv]; exact hf) (w := .token (n + 1) (.block m k))
        (by rw [← hv])
    have hvv : ({ v with port := none } : State) = v := by rw [← hvp]
    rw [hvv] at hst
    have hc : v.cfg = s.cfg := by rw [← hv]; rfl
    rw [ih hst (by rw [← hv]; exact hr) (by rw [← hv]; exact hf) hvp (by rw [← hv]; exact hfil) (by rw [hc]; exact hm)
        (by rw [hc]; exact fun x hx => he x (by simp [hx])) (by rw [← hv]; rfl), ← hv]
    simp [afterInbound, afterReceive, receiveEvents]

/-- One iteration of the activation loop and its test (rules R179, R180). -/
theorem activate_rx {s : State} {n : Nat} {c55 c41 : CardReply} {rest : List Byte} (hf : s.fault = none)
    (h55 : c55.ok = true) (h41 : c41.ok = true)
    (h : s.rx = c55.bytes ++ (c41.bytes ++ rest)) :
    activate n s = (fun s : State => if s.r1 = 0x00#8 then afterActivate s
    else if s.cfg.acmd41IterMax = some (n + 1) then raise (.timeout .acmd41) s
    else waitAt (.activate (n + 1)) (delayMs Config.acmd41DelayMs s))
        (afterTransactA 41 Config.hcsArg c41 rest (afterTransactA 55 0 c55 [] (enter .iActivate { s with waiting := none })))
        := by
  rw [activate, activateOnce_rx (s := enter .iActivate { s with waiting := none }) hf h55 h41 h,
      andThen_of_none (by exact hf)]

/-- An iteration that reaches the bound without ending the loop (rule R180). -/
theorem activate_timeout {s : State} {n : Nat} {c55 c41 : CardReply} {rest : List Byte} (hf : s.fault = none)
    (h55 : c55.ok = true) (h41 : c41.ok = true) (hst : c41.status ≠ 0) (hm : s.cfg.acmd41IterMax = some (n + 1))
    (h : s.rx = c55.bytes ++ (c41.bytes ++ rest)) :
    activate n s = afterFatal (.timeout .acmd41) (afterTransactA 41 Config.hcsArg c41 rest (afterTransactA 55 0 c55 [] s)) := by
  rw [activate_rx hf h55 h41 h]
  generalize hu : afterTransactA 41 Config.hcsArg c41 rest
    (afterTransactA 55 0 c55 [] (enter .iActivate { s with waiting := none })) = u
  have h1 : ¬u.r1 = 0x00#8 := by rw [← hu]; exact hst
  have h2 : u.cfg.acmd41IterMax = some (n + 1) := by rw [← hu]; exact hm
  have h3 : u.fault = none := by rw [← hu]; exact hf
  beta_reduce
  rw [if_neg h1, if_pos h2, raise_of_none h3, ← hu]
  rfl

/-- The state after an iteration that does not end the loop. -/
def afterIteration (p : CardReply × CardReply) (n : Nat) (rest : List Byte) (s : State) : State :=
  waitAt (.activate (n + 1)) (delayMs 10
      (afterTransactA 41 Config.hcsArg p.2 rest
      (afterTransactA 55 0 p.1 [] (enter .iActivate { s with waiting := none, port := none }))))

/-- The answers to some iterations. -/
def itsBytes (its : List (CardReply × CardReply)) : List Byte := its.flatMap (fun p => p.1.bytes ++ p.2.bytes)

/-- The state after some iterations that do not end the loop. -/
def afterIterations : List (CardReply × CardReply) → Nat → State → List Byte → State
  | [], _, s, rest => { s with rx := rest }
  | p :: ps, n, s, rest => afterIterations ps (n + 1) (afterIteration p n (itsBytes ps ++ rest) s) rest

theorem iteration_step {p : CardReply × CardReply} {s : State} {n : Nat} {rest : List Byte} (hr : s.resetRequest = false)
    (hf : s.fault = none)
    (hw : s.waiting = some (.activate n)) (hm : s.cfg.acmd41IterMax = none)
        (hb : p.1.ok = true ∧ p.2.ok = true ∧ p.2.status ≠ 0)
    (h : s.rx = p.1.bytes ++ (p.2.bytes ++ rest)) : step s = .next (afterIteration p n rest s) := by
  obtain ⟨h1, h2, h3⟩ := hb
  have e := activate_rx (s := { s with port := none }) (n := n) (c55 := p.1) (c41 := p.2) (rest := rest) hf h1 h2 h
  have : ∀ t : State, t.r1 = p.2.status → t.cfg = s.cfg → (if t.r1 = 0x00#8 then afterActivate t
      else if t.cfg.acmd41IterMax = some (n + 1) then raise (.timeout .acmd41) t
      else waitAt (.activate (n + 1)) (delayMs Config.acmd41DelayMs t)) = waitAt (.activate (n + 1))
          (delayMs Config.acmd41DelayMs t) := by
      intro t h1 h2
      rw [if_neg (by rw [h1]; exact h3), if_neg (by rw [h2, hm]; simp)]
  exact (step_waiting hr hf hw).trans (congrArg _ (e.trans (this _ rfl rfl)))

/-- The activation loop over iterations that do not end it (rule R180). -/
theorem activateRun {its : List (CardReply × CardReply)} {s : State} {n : Nat} {rest : List Byte}
    (hr : s.resetRequest = false) (hf : s.fault = none)
    (hw : s.waiting = some (.activate n)) (hm : s.cfg.acmd41IterMax = none)
        (hb : ∀ p ∈ its, p.1.ok = true ∧ p.2.ok = true ∧ p.2.status ≠ 0)
    (h : s.rx = itsBytes its ++ rest) :
    core.run its.length s = .next (afterIterations its n s rest) := by
  induction its generalizing s n with
  | nil => simp [itsBytes] at h; subst h; rfl
  | cons p its ih =>
    have hs := iteration_step hr hf hw hm (hb p (by simp)) (rest := itsBytes its ++ rest) (by simpa [itsBytes] using h)
    rw [List.length_cons, run_succ _ _ _ hs]
    exact ih (s := afterIteration p n (itsBytes its ++ rest) s) (by simp [afterIteration, afterTransactA, hr])
        (by simp [afterIteration, afterTransactA, hf]) (by simp [afterIteration])
        (by simp [afterIteration, afterTransactA, hm]) (fun x hx => hb x (by simp [hx]))
        (by simp [afterIteration, afterTransactA])

theorem afterIterations_spec (its : List (CardReply × CardReply)) (hne : its ≠ []) (n : Nat) (s : State) (rest : List Byte) :
    (afterIterations its n s rest).fault = s.fault ∧ (afterIterations its n s rest).seq.main = .iActivate ∧
    (afterIterations its n s rest).waiting = some (.activate (n + its.length)) ∧ (afterIterations its n s rest).rx = rest ∧
    (afterIterations its n s rest).trace = (its.flatMap (fun p => iterationEvents p ++ [.delay 10])).reverse ++ s.trace := by
  induction its generalizing n s with
  | nil => exact absurd rfl hne
  | cons p its ih =>
    cases its with
    | nil => simp [afterIterations, afterIteration, waitAt, delayMs, afterTransactA, afterDeselect, afterReply, enter,
        iterationEvents, CardReply.transaction, receiveEvents, Config.zeroArg]
    | cons q its =>
      obtain ⟨a, b, c, d, e⟩ := ih (by simp) (n + 1) (afterIteration p n (itsBytes (q :: its) ++ rest) s)
      rw [afterIterations]
      refine ⟨a.trans ?_, b, c.trans ?_, d, e.trans ?_⟩
      · simp [afterIteration, afterTransactA]
      · simp; omega
      · simp [afterIteration, waitAt, delayMs, afterTransactA, afterDeselect, afterReply, enter, iterationEvents,
          CardReply.transaction, receiveEvents, Config.zeroArg]

theorem afterIterations_eq (its : List (CardReply × CardReply)) (n : Nat) (s : State) (rest : List Byte) :
    ∃ fr cr pc r1 c sq w p, afterIterations its n s rest = { s with
      frame := fr, crc := cr, pollCnt := pc, r1 := r1, cs := c, seq := sq, waiting := w, port := p, rx := rest,
      trace := (its.flatMap (fun p => iterationEvents p ++ [.delay 10])).reverse ++ s.trace } := by
  induction its generalizing n s with
  | nil => exact ⟨s.frame, s.crc, s.pollCnt, s.r1, s.cs, s.seq, s.waiting, s.port, rfl⟩
  | cons p its ih =>
    obtain ⟨fr, cr, pc, r1, c, sq, w, q, h⟩ := ih (n + 1) (afterIteration p n (itsBytes its ++ rest) s)
    refine ⟨fr, cr, pc, r1, c, sq, w, q, ?_⟩
    rw [afterIterations, h]
    simp [afterIteration, waitAt, delayMs, afterTransactA, afterDeselect, afterReply, enter, iterationEvents,
        CardReply.transaction, receiveEvents, Config.zeroArg]

theorem afterIterations_waiting (its : List (CardReply × CardReply)) (n : Nat) (s : State) (rest : List Byte)
    (h : s.waiting = some (.activate n)) :
    (afterIterations its n s rest).waiting = some (.activate (n + its.length)) := by
  induction its generalizing n s with
  | nil => simpa [afterIterations] using h
  | cons p its ih => rw [afterIterations, ih _ _ (by rfl)]; simp; omega

end Sys2Proof.Machine
end

