-- ==== Sys2Proof/Laws/Init.lean ====
section
/-! SUPPORT. The states of INIT when the answers of the card are scripted in `State.rx`. -/

namespace Sys2Proof.Machine

/-- State Reset (rule R172). -/
theorem initReset_rx {s : State} {clocks rest : List Byte} (h10 : clocks.length = 10) (h : s.rx = clocks ++ rest) :
    initReset s =
      { s with
        cs := false
        seq := ⟨.iReset, none⟩
        rx := rest
        trace := .delay 1 :: (receiveEvents clocks).reverse ++ .desel :: s.trace } := by
  have hlen : (List.replicate Config.resetFillerBytes Config.filler).length = clocks.length :=
      by simp [h10, Config.resetFillerBytes]
  have hev : exchangeEvents (List.replicate Config.resetFillerBytes Config.filler) clocks = receiveEvents clocks := by
    rw [show Config.resetFillerBytes = clocks.length from h10.symm]; exact exchangeEvents_replicate clocks
  rw [initReset, xchgN_rx (s := deselect (enter .iReset s)) (rest := rest) hlen h, hev]
  rfl

/-- State GoIdle (rules R174, R175). -/
theorem goIdle_rx {s : State} {c : CardReply} {rest : List Byte} (hf : s.fault = none) (hc : c.ok = true)
    (h : s.rx = c.bytes ++ rest) :
    goIdle s = if c.status = 0x01#8 then afterTransactA 0 0 c rest (enter .iGoIdle s) else afterFatal
        (.unexpectedStatus 0 c.status) (afterTransactA 0 0 c rest s) := by
  rw [goIdle, transactA_rx (s := enter .iGoIdle s) hc hf h, andThen_of_none (by exact hf)]
  have h1 : (afterTransactA 0 Config.zeroArg c rest (enter .iGoIdle s)).r1 = c.status := rfl
  have h2 : (afterTransactA 0 Config.zeroArg c rest (enter .iGoIdle s)).fault = none := hf
  simp only [h1]
  split
  · rfl
  · rw [raise_of_none h2]; simp [afterFatal, afterTransactA, afterDeselect, afterReply, enter, Config.zeroArg]

/-- State SendInterfaceCondition (rules R177, R178). -/
theorem sendIfCond_rx {s : State} {c : CardReply} {echo rest : List Byte} (hf : s.fault = none) (hc : c.ok = true)
    (he : echo.length = 4) (h : s.rx = c.bytes ++ (echo ++ rest)) :
    sendIfCond s = if be32List echo &&& Config.checkEchoMask = Config.checkArg then afterTransactCD 8 Config.checkArg c echo
        rest (enter .iIfCond s) else afterFatal (.ifcondMismatch (be32List echo))
        (afterTransactCD 8 Config.checkArg c echo rest s) := by
  rw [sendIfCond, transactCD_rx (s := enter .iIfCond s) hc he hf h, andThen_of_none (by exact hf)]
  have h1 : (afterTransactCD 8 Config.checkArg c echo rest (enter .iIfCond s)).payload = be32List echo := rfl
  have h2 : (afterTransactCD 8 Config.checkArg c echo rest (enter .iIfCond s)).fault = none := hf
  simp only [h1]
  split
  · rfl
  · rw [raise_of_none h2]; simp [afterFatal, afterTransactCD, afterDeselect, afterReceive, afterReply, enter]

/-- State ReadOperatingConditions (rule R182). -/
theorem readOcr_rx {s : State} {c : CardReply} {ocr rest : List Byte} (hf : s.fault = none) (hc : c.ok = true)
    (he : ocr.length = 4) (h : s.rx = c.bytes ++ (ocr ++ rest)) :
    readOcrState s = { afterTransactCD 58 0 c ocr rest (enter .iReadOcr s) with ocrRaw := be32List ocr } := by
  rw [readOcrState, transactCD_rx (s := enter .iReadOcr s) hc he hf h, andThen_of_none (by exact hf)]
  rfl

theorem ccs_eq (v : Word32) : (decodeOcr layoutOcr v).ccs = v.extractLsb' 30 1 := by
  apply BitVec.eq_of_toNat_eq
  simp [decodeOcr, Field.get, sliceNat, layoutOcr, BitVec.extractLsb'_toNat]

theorem ccs_one (v : Word32) : (decodeOcr layoutOcr v).ccs = 1 ↔ v.getLsbD 30 = true := by
  rw [ccs_eq]
  constructor
  · intro h
    have := congrArg (fun b => b.getLsbD 0) h
    simpa using this
  · intro h
    apply BitVec.eq_of_getLsbD_eq; intro i hi
    have : i = 0 := by omega
    subst this; simpa using h

theorem afterActivate_rx {s : State} {c : CardReply} {ocr rest : List Byte} (hf : s.fault = none) (hc : c.ok = true)
    (he : ocr.length = 4) (h : s.rx = c.bytes ++ (ocr ++ rest)) :
    afterActivate s = (branch { afterTransactCD 58 0 c ocr rest (enter .iReadOcr s) with ocrRaw := be32List ocr }).andThen
        terminal := by
  have e := readOcr_rx hf hc he h
  have hf2 : ({ afterTransactCD 58 0 c ocr rest (enter .iReadOcr s) with ocrRaw := be32List ocr } : State).fault = none := hf
  rw [afterActivate, e, andThen_of_none hf2]

/-- The byte-addressing path (rule R184). -/
theorem branch_byte {t : State} (hf : t.fault = none) (hccs : ¬ (decodeOcr t.cfg.layouts.ocr t.ocrRaw).ccs = 1) :
    (t.cfg.initCmd16Issued = false → (branch t).andThen terminal = afterFatal (.addressingUnsupported t.ocrRaw) t) ∧
    ∀ c rest, t.cfg.initCmd16Issued = true → c.ok = true → t.rx = c.bytes ++ rest →
       (branch t).andThen terminal = afterFatal (.addressingUnsupported t.ocrRaw) (afterTransactA 16 512 c rest t) := by
  constructor
  · intro h
    have hb : branch t = afterFatal (.addressingUnsupported t.ocrRaw) (enter .iBranch t) := by
      simp [branch, byteAddressing, h, State.andThen, hf, raise, afterFatal, enter]
      exact hccs
    rw [hb, andThen_of_fault (by rfl)]; rfl
  · intro c rest h hc hrx
    have hb : branch t = afterFatal (.addressingUnsupported t.ocrRaw) (afterTransactA 16 512 c rest (enter .iBranch t)) := by
      have e := transactA_rx (s := enter .iBranch t) (idx := 16) (arg := Config.blocklenArg) hc hf hrx
      simp only [branch, enter_ocrRaw, hccs, if_false, byteAddressing, enter_cfg, h, if_true, e]
      rw [andThen_of_none (by simp [hf]), raise_of_none (by simp [hf])]; rfl
    rw [hb, andThen_of_fault (by rfl)]; rfl

theorem branch_block {t : State} (hccs : (decodeOcr t.cfg.layouts.ocr t.ocrRaw).ccs = 1) : branch t = enter .iBranch t := by
  have h : (decodeOcr (enter SeqState.iBranch t).cfg.layouts.ocr (enter SeqState.iBranch t).ocrRaw).ccs = 1#1 := hccs
  show (if (decodeOcr (enter SeqState.iBranch t).cfg.layouts.ocr (enter SeqState.iBranch t).ocrRaw).ccs = 1#1 then _ else _) = _
  rw [if_pos h]

/-- The state before the activation loop. -/
def beforeActivate (a : InitAnswers) (rest : List Byte) (s : State) : State :=
  afterTransactCD 8 Config.checkArg a.c8 a.echo rest
    (enter .iIfCond
      (afterTransactA 0 0 a.c0 (a.c8.bytes ++ (a.echo ++ rest))
        (enter .iGoIdle
          { s with
            op := 0
            cs := false
            seq := ⟨.iReset, none⟩
            rx := a.c0.bytes ++ (a.c8.bytes ++ (a.echo ++ rest))
            trace := .delay 1 :: (receiveEvents a.clocks).reverse ++ .desel :: s.trace })))

@[simp] theorem beforeActivate_cfg (a : InitAnswers) (rest : List Byte) (s : State) : (beforeActivate a rest s).cfg = s.cfg := by
  simp [beforeActivate]
@[simp] theorem beforeActivate_fault (a : InitAnswers) (rest : List Byte) (s : State) :
    (beforeActivate a rest s).fault = s.fault := by simp [beforeActivate]
@[simp] theorem beforeActivate_filler (a : InitAnswers) (rest : List Byte) (s : State) :
    (beforeActivate a rest s).filler = s.filler := by simp [beforeActivate]
@[simp] theorem beforeActivate_rx (a : InitAnswers) (rest : List Byte) (s : State) : (beforeActivate a rest s).rx = rest := by
  simp [beforeActivate]

theorem handshake_iff (cfg : Params) (a : InitAnswers) : a.handshakeOk cfg = true ↔
   a.clocks.length = 10 ∧ a.c0.ok = true ∧ a.c0.status = 0x01 ∧ a.c8.ok = true ∧ a.echo.length = 4 ∧
    (be32List a.echo &&& Config.checkEchoMask) = Config.checkArg ∧
        (∀ p ∈ a.retries, p.1.ok = true ∧ p.2.ok = true ∧ p.2.status ≠ 0) ∧
    a.last.1.ok = true ∧ a.last.2.ok = true ∧ a.last.2.status = 0 ∧ a.c58.ok = true ∧ a.ocr.length = 4 ∧
        (decodeOcr cfg.layouts.ocr (be32List a.ocr)).ccs = 1 := by
  simp [InitAnswers.handshakeOk, and_assoc]

/-- INIT up to the activation loop (rules R171 to R178). -/
theorem runInit_rx {s : State} {a : InitAnswers} {rest : List Byte} (hf : s.fault = none) (ha : a.handshakeOk s.cfg = true)
    (h : s.rx = a.clocks ++ (a.c0.bytes ++ (a.c8.bytes ++ (a.echo ++ rest)))) :
    runInit { s with op := 0 } = activate 0 (beforeActivate a rest s) := by
  obtain ⟨h10, h0, hs0, h8, he, hecho, -⟩ := (handshake_iff _ a).mp ha
  rw [runInit, initReset_rx (s := { s with op := 0 }) h10 h]
  rw [goIdle_rx (by exact hf) h0 (by rfl), if_pos (c := a.c0.status = 0x01#8) hs0,
      andThen_of_none (s := afterTransactA _ _ _ _ _) (by exact hf)]
  rw [sendIfCond_rx (by exact hf) h8 he (by rfl),
      if_pos (c := be32List a.echo &&& Config.checkEchoMask = Config.checkArg) hecho, andThen_of_none (by simp [hf])]
  rfl

/-- The last iteration, command 58 and the branch (rules R180 to R184). -/
theorem activate_last {s : State} {a : InitAnswers} {n : Nat} {rest : List Byte} (hf : s.fault = none)
    (ha : a.handshakeOk s.cfg = true)
    (h : s.rx = a.last.1.bytes ++ (a.last.2.bytes ++ (a.c58.bytes ++ (a.ocr ++ rest)))) :
    activate n s = terminal { s with
      waiting := none, cs := false, seq := ⟨.iBranch, none⟩, frame := frameBytes 58 0, crc := crc7 (frameBody 58 0),
          pollCnt := BitVec.ofNat 4 (a.c58.skip.length + 1)
      r1 := a.c58.status, payload := be32List a.ocr, ocrRaw := be32List a.ocr, rx := rest,
      trace := (iterationEvents a.last ++ a.c58.transaction 58 0 a.ocr).reverse ++ s.trace } := by
  obtain ⟨h10, h0, hs0, h8, he, hecho, hit, hl1, hl2, hst, h58, ho, hccs⟩ := (handshake_iff _ a).mp ha
  rw [activate_rx hf hl1 hl2 h]
  generalize hu : afterTransactA 41 Config.hcsArg a.last.2 (a.c58.bytes ++ (a.ocr ++ rest))
      (afterTransactA 55 0 a.last.1 [] (enter .iActivate { s with waiting := none })) = u
  have h1 : u.r1 = 0x00#8 := by rw [← hu]; exact hst
  have h2 : u.fault = none := by rw [← hu]; simp [hf]
  have h3 : u.rx = a.c58.bytes ++ (a.ocr ++ rest) := by rw [← hu]; rfl
  simp only [h1, if_true]
  rw [afterActivate_rx h2 h58 ho h3]
  have hcfg : u.cfg = s.cfg := by rw [← hu]; rfl
  have hb := branch_block (t := { afterTransactCD 58 0 a.c58 a.ocr rest (enter .iReadOcr u) with ocrRaw := be32List a.ocr })
    (by rw [← hcfg] at hccs; exact hccs)
  rw [hb, andThen_of_none (by simp [h2]), ← hu]
  simp [enter, afterTransactCD, afterTransactA, afterDeselect, afterReceive, afterReply, iterationEvents,
      CardReply.transaction, receiveEvents, Config.zeroArg]

theorem terminal_nofetch {t : State} (h : t.cfg.initFetchCsd = false) : terminal t = afterEnd .done
    { t with initialized := true } := by
  simp [terminal, enter, h, complete, afterEnd]

theorem fetch_iff (cfg : Params) (a : InitAnswers) : a.fetchOk cfg = true ↔ a.c9.ok = true ∧
    (cfg.r1Check = false ∨ a.c9.status = 0) ∧ (∀ b ∈ a.early, b ≠ cfg.startToken) ∧ a.csd.length = 16 ∧ a.trail.length = 2 :=
    by
  simp [InitAnswers.fetchOk, and_assoc]

/-- The descriptor fetch up to its token wait (rule R186). -/
theorem terminal_fetch {t : State} {c : CardReply} {rest : List Byte} (h : t.cfg.initFetchCsd = true) (hf : t.fault = none)
    (hc : c.ok = true) (hr : t.cfg.r1Check = false ∨ c.status = 0)
    (hrx : t.rx = c.bytes ++ rest) :
    terminal t = waitToken 0 (.block 16 .initCsd)
        (afterReply 9 0 c rest (enter .iTerminal { t with initialized := true })) := by
  have e := opened_rx (s := enter .iTerminal { t with initialized := true }) (idx := 9) (arg := Config.zeroArg) hc hf hr hrx
  have h' : (enter .iTerminal t).cfg.initFetchCsd = true := h
  simp only [terminal, h', if_true]
  show (((issueCommand 9 Config.zeroArg (enter .iTerminal { t with initialized := true })).andThen respA).andThen
      (checkR1 9)).andThen (waitToken 0 (.block 16 .initCsd)) = _
  rw [e, andThen_of_none (by exact hf)]; rfl

theorem initExec {s : State} (hf : s.fault = none) (hb : s.busy = false) : exec .init s = .next
    (runInit { s with op := 0 }) := by
  refine (live_of_none hf).trans (congrArg _ ?_)
  rw [startOp_of_ready hb rfl rfl (.inl rfl)]; rfl

/-- What the state after state SendInterfaceCondition does not take from `rest`. -/
theorem afterIfCond_rest (clocks : List Byte) (c0 c8 : CardReply) (echo rest : List Byte) (s : State) :
    afterIfCond clocks c0 c8 echo rest s = { afterIfCond clocks c0 c8 echo [] s with rx := rest } := by
  simp [afterIfCond, afterTransactCD, afterDeselect, afterReceive, afterReply]

@[simp] theorem afterIfCond_fault (clocks : List Byte) (c0 c8 : CardReply) (echo rest : List Byte) (s : State) :
    (afterIfCond clocks c0 c8 echo rest s).fault = s.fault := rfl
@[simp] theorem afterIfCond_cfg (clocks : List Byte) (c0 c8 : CardReply) (echo rest : List Byte) (s : State) :
    (afterIfCond clocks c0 c8 echo rest s).cfg = s.cfg := rfl

/-- INIT up to the activation loop, command 0 and command 8 answered as they must be (rules R171 to R178). -/
theorem init_rx {s : State} {clocks echo rest : List Byte} {c0 c8 : CardReply} (hf : s.fault = none) (hb : s.busy = false)
    (h10 : clocks.length = 10) (h0 : c0.ok = true) (hs0 : c0.status = 0x01) (h8 : c8.ok = true) (he : echo.length = 4)
    (hecho : be32List echo &&& Config.checkEchoMask = Config.checkArg)
    (h : s.rx = clocks ++ (c0.bytes ++ (c8.bytes ++ (echo ++ rest)))) :
    exec .init s = .next (activate 0 { afterIfCond clocks c0 c8 echo rest s with seq := ⟨.iIfCond, none⟩ }) := by
  refine (initExec hf hb).trans (congrArg _ ?_)
  rw [runInit, initReset_rx (s := { s with op := 0 }) h10 h]
  rw [goIdle_rx (by exact hf) h0 (by rfl), if_pos (c := c0.status = 0x01#8) hs0,
    andThen_of_none (s := afterTransactA _ _ _ _ _) (by exact hf)]
  rw [sendIfCond_rx (by exact hf) h8 he (by rfl), if_pos (c := be32List echo &&& Config.checkEchoMask = Config.checkArg) hecho,
    andThen_of_none (by simp [hf])]
  simp [afterIfCond, afterTransactA, afterTransactCD, afterDeselect, afterReceive, afterReply, enter, Config.checkArg, afterClocks,
    Config.resetDelayMs, Config.zeroArg]

theorem afterOcr_eq (c55 c41 c58 : CardReply) (ocr rest : List Byte) (s : State) :
    afterOcr c55 c41 c58 ocr rest s =
      { s with
        cs := false
        seq := ⟨s.seq.main, none⟩
        crc := crc7 (frameBody 58 Config.zeroArg)
        frame := frameBytes 58 Config.zeroArg
        pollCnt := BitVec.ofNat 4 (c58.skip.length + 1)
        r1 := c58.status
        payload := be32List ocr
        ocrRaw := be32List ocr
        rx := rest
        trace := (iterationEvents (c55, c41) ++ c58.transaction 58 Config.zeroArg ocr).reverse ++ s.trace } := by
  simp [afterOcr, afterTransactCD, afterTransactA, afterDeselect, afterReceive, afterReply, iterationEvents, CardReply.transaction,
    receiveEvents]

/-- What the state after state ReadOperatingConditions does not take from `rest`. -/
theorem afterOcr_rest (c55 c41 c58 : CardReply) (ocr rest : List Byte) (s : State) :
    afterOcr c55 c41 c58 ocr rest s = { afterOcr c55 c41 c58 ocr [] s with rx := rest } := by rw [afterOcr_eq, afterOcr_eq]

/-- The iteration that ends the activation loop, up to the state Branch (rules R179 to R182). -/
theorem activate_ocr {s : State} {n : Nat} {c55 c41 c58 : CardReply} {ocr rest : List Byte} (hf : s.fault = none)
    (h55 : c55.ok = true) (h41 : c41.ok = true) (hst : c41.status = 0) (h58 : c58.ok = true) (ho : ocr.length = 4)
    (h : s.rx = c55.bytes ++ (c41.bytes ++ (c58.bytes ++ (ocr ++ rest)))) :
    activate n s = (branch { afterOcr c55 c41 c58 ocr rest s with waiting := none, seq := ⟨.iReadOcr, none⟩ }).andThen terminal := by
  rw [activate_rx hf h55 h41 h]
  generalize hu : afterTransactA 41 Config.hcsArg c41 (c58.bytes ++ (ocr ++ rest))
    (afterTransactA 55 0 c55 [] (enter .iActivate { s with waiting := none })) = u
  have h1 : u.r1 = 0x00#8 := by rw [← hu]; exact hst
  have h2 : u.fault = none := by rw [← hu]; exact hf
  have h3 : u.rx = c58.bytes ++ (ocr ++ rest) := by rw [← hu]; rfl
  simp only [h1, if_true]
  rw [afterActivate_rx h2 h58 ho h3, ← hu]
  simp [afterOcr_eq, enter, afterTransactCD, afterTransactA, afterDeselect, afterReceive, afterReply, iterationEvents,
    CardReply.transaction, receiveEvents, Config.zeroArg]

/-- The same with block addressing, up to the state Terminal (rule R184). -/
theorem activate_block {s : State} {n : Nat} {c55 c41 c58 : CardReply} {ocr rest : List Byte} (hf : s.fault = none)
    (h55 : c55.ok = true) (h41 : c41.ok = true) (hst : c41.status = 0) (h58 : c58.ok = true) (ho : ocr.length = 4)
    (hccs : (decodeOcr s.cfg.layouts.ocr (be32List ocr)).ccs = 1)
    (h : s.rx = c55.bytes ++ (c41.bytes ++ (c58.bytes ++ (ocr ++ rest)))) :
    activate n s = terminal { afterOcr c55 c41 c58 ocr rest s with waiting := none, seq := ⟨.iBranch, none⟩ } := by
  rw [activate_ocr hf h55 h41 hst h58 ho h]
  have hf' : (afterOcr c55 c41 c58 ocr rest s).fault = none := by rw [afterOcr_eq]; exact hf
  have hc' : (decodeOcr (afterOcr c55 c41 c58 ocr rest s).cfg.layouts.ocr (afterOcr c55 c41 c58 ocr rest s).ocrRaw).ccs = 1 := by
    rw [afterOcr_eq]; exact hccs
  generalize afterOcr c55 c41 c58 ocr rest s = u at hf' hc'
  rw [branch_block (t := { u with waiting := none, seq := ⟨.iReadOcr, none⟩ }) hc', andThen_of_none (by exact hf')]
  rfl

/-- The same with the descriptor fetch (rules R185, R186). -/
theorem activate_fetch {s : State} {n : Nat} {c55 c41 c58 : CardReply} {ocr rest : List Byte} (hf : s.fault = none)
    (h55 : c55.ok = true) (h41 : c41.ok = true) (hst : c41.status = 0) (h58 : c58.ok = true) (ho : ocr.length = 4)
    (hccs : (decodeOcr s.cfg.layouts.ocr (be32List ocr)).ccs = 1) (hfe : s.cfg.initFetchCsd = true)
    (h : s.rx = c55.bytes ++ (c41.bytes ++ (c58.bytes ++ (ocr ++ rest)))) :
    activate n s = regRead .initCsd 9 .a 16
      { afterOcr c55 c41 c58 ocr [] s with rx := rest, waiting := none, seq := ⟨.iTerminal, none⟩, initialized := true } := by
  rw [activate_block hf h55 h41 hst h58 ho hccs h, afterOcr_rest]
  have hfe' : (afterOcr c55 c41 c58 ocr [] s).cfg.initFetchCsd = true := by rw [afterOcr_eq]; exact hfe
  generalize afterOcr c55 c41 c58 ocr [] s = u at hfe'
  rw [terminal, if_pos (by exact hfe')]
  rfl

section
variable {s : State} {n : Nat} {c55 c41 c58 : CardReply} {ocr frameAns polls rest : List Byte}

/-- An iteration whose prefix finds no status byte (rule R189). -/
theorem activate_no55 (h6 : frameAns.length = 6) (h8 : polls.length = 8) (hp : ∀ b ∈ polls, isStatus b = false)
    (hf : s.fault = none) (h : s.rx = frameAns ++ (polls ++ rest)) :
    activate n s = afterNoStatus 55 Config.zeroArg frameAns polls rest s := by
  rw [activate, activateOnce, prefixTransaction,
    transactA_noStatus (s := enter .iActivate { s with waiting := none }) h6 h8 hp hf h]
  rfl

/-- An iteration whose command 41 finds no status byte (rule R189). -/
theorem activate_no41 (h6 : frameAns.length = 6) (h8 : polls.length = 8) (hp : ∀ b ∈ polls, isStatus b = false)
    (hf : s.fault = none) (h55 : c55.ok = true) (h : s.rx = c55.bytes ++ (frameAns ++ (polls ++ rest))) :
    activate n s = afterNoStatus 41 Config.hcsArg frameAns polls rest (afterTransactA 55 Config.zeroArg c55 [] s) := by
  rw [activate, activateOnce, prefixTransaction,
    transactA_rx (s := enter .iActivate { s with waiting := none }) h55 hf h, andThen_of_none (s := afterTransactA _ _ _ _ _) (by exact hf),
    transactA_noStatus (s := afterTransactA 55 Config.zeroArg c55 (frameAns ++ (polls ++ rest))
      (enter .iActivate { s with waiting := none })) h6 h8 hp hf rfl]
  rfl

/-- The iteration that ends the loop, command 58 finding no status byte (rule R189). -/
theorem activate_no58 (h6 : frameAns.length = 6) (h8 : polls.length = 8) (hp : ∀ b ∈ polls, isStatus b = false)
    (hf : s.fault = none) (h55 : c55.ok = true) (h41 : c41.ok = true) (hst : c41.status = 0)
    (h : s.rx = c55.bytes ++ (c41.bytes ++ (frameAns ++ (polls ++ rest)))) :
    activate n s = afterNoStatus 58 Config.zeroArg frameAns polls rest
      (afterTransactA 41 Config.hcsArg c41 [] (afterTransactA 55 Config.zeroArg c55 [] s)) := by
  rw [activate_rx hf h55 h41 h]
  generalize hu : afterTransactA 41 Config.hcsArg c41 (frameAns ++ (polls ++ rest))
    (afterTransactA 55 0 c55 [] (enter .iActivate { s with waiting := none })) = u
  have h1 : u.r1 = 0x00#8 := by rw [← hu]; exact hst
  have h2 : (enter .iReadOcr u).fault = none := by rw [← hu]; exact hf
  have h3 : (enter .iReadOcr u).rx = frameAns ++ (polls ++ rest) := by rw [← hu]; rfl
  simp only [h1, if_true]
  rw [afterActivate, readOcrState, transactCD_noStatus h6 h8 hp h2 h3, ← hu]
  rfl

/-- The byte-addressing path, command 16 finding no status byte (rules R184, R189). -/
theorem activate_no16 (h6 : frameAns.length = 6) (h8 : polls.length = 8) (hp : ∀ b ∈ polls, isStatus b = false)
    (hf : s.fault = none) (h55 : c55.ok = true) (h41 : c41.ok = true) (hst : c41.status = 0) (h58 : c58.ok = true)
    (ho : ocr.length = 4) (hccs : (decodeOcr s.cfg.layouts.ocr (be32List ocr)).ccs = 0) (h16 : s.cfg.initCmd16Issued = true)
    (h : s.rx = c55.bytes ++ (c41.bytes ++ (c58.bytes ++ (ocr ++ (frameAns ++ (polls ++ rest)))))) :
    activate n s = afterNoStatus 16 Config.blocklenArg frameAns polls rest (afterOcr c55 c41 c58 ocr [] s) := by
  rw [activate_ocr hf h55 h41 hst h58 ho h, afterOcr_rest]
  have hf' : (afterOcr c55 c41 c58 ocr [] s).fault = none := by rw [afterOcr_eq]; exact hf
  have hc' : (decodeOcr (afterOcr c55 c41 c58 ocr [] s).cfg.layouts.ocr (afterOcr c55 c41 c58 ocr [] s).ocrRaw).ccs = 0 := by
    rw [afterOcr_eq]; exact hccs
  have h16' : (afterOcr c55 c41 c58 ocr [] s).cfg.initCmd16Issued = true := by rw [afterOcr_eq]; exact h16
  generalize afterOcr c55 c41 c58 ocr [] s = u at hf' hc' h16'
  let v : State := enter .iBranch { u with rx := frameAns ++ (polls ++ rest), waiting := none, seq := ⟨.iReadOcr, none⟩ }
  show State.andThen (if (decodeOcr v.cfg.layouts.ocr v.ocrRaw).ccs = 1 then v else byteAddressing v) terminal = _
  rw [if_neg (by show ¬(decodeOcr u.cfg.layouts.ocr u.ocrRaw).ccs = 1; rw [hc']; decide), byteAddressing, if_pos (by exact h16'),
    transactA_noStatus (s := v) h6 h8 hp hf' rfl]
  rfl

/-- The descriptor fetch, command 9 finding no status byte (rules R186, R189). -/
theorem activate_no9 (h6 : frameAns.length = 6) (h8 : polls.length = 8) (hp : ∀ b ∈ polls, isStatus b = false)
    (hf : s.fault = none) (h55 : c55.ok = true) (h41 : c41.ok = true) (hst : c41.status = 0) (h58 : c58.ok = true)
    (ho : ocr.length = 4) (hccs : (decodeOcr s.cfg.layouts.ocr (be32List ocr)).ccs = 1) (hfe : s.cfg.initFetchCsd = true)
    (h : s.rx = c55.bytes ++ (c41.bytes ++ (c58.bytes ++ (ocr ++ (frameAns ++ (polls ++ rest)))))) :
    activate n s = afterNoStatus 9 Config.zeroArg frameAns polls rest
      { afterOcr c55 c41 c58 ocr [] s with initialized := true } := by
  have hf' : (afterOcr c55 c41 c58 ocr [] s).fault = none := by rw [afterOcr_eq]; exact hf
  rw [activate_fetch hf h55 h41 hst h58 ho hccs hfe h]
  generalize afterOcr c55 c41 c58 ocr [] s = u at hf'
  exact (regReadA_noStatus (rest := rest) h6 h8 hp (by exact hf') (by rfl)).trans rfl

/-- INIT whose command 8 finds no status byte (rule R189). -/
theorem init_no8 {clocks : List Byte} {c0 : CardReply} (h6 : frameAns.length = 6) (h8 : polls.length = 8)
    (hp : ∀ b ∈ polls, isStatus b = false) (hf : s.fault = none) (hb : s.busy = false) (h10 : clocks.length = 10)
    (h0 : c0.ok = true) (hs0 : c0.status = 0x01) (h : s.rx = clocks ++ (c0.bytes ++ (frameAns ++ (polls ++ rest)))) :
    exec .init s = .next (afterNoStatus 8 Config.checkArg frameAns polls rest
      (afterTransactA 0 Config.zeroArg c0 [] (afterClocks clocks s))) := by
  refine (initExec hf hb).trans (congrArg _ ?_)
  rw [runInit, initReset_rx (s := { s with op := 0 }) h10 h]
  rw [goIdle_rx (by exact hf) h0 (by rfl), if_pos (c := c0.status = 0x01#8) hs0,
    andThen_of_none (s := afterTransactA _ _ _ _ _) (by exact hf), sendIfCond]
  generalize hu : enter .iIfCond (afterTransactA 0 0 c0 (frameAns ++ (polls ++ rest)) _) = u
  rw [transactCD_noStatus (s := u) (rest := rest) h6 h8 hp (by rw [← hu]; exact hf) (by rw [← hu]; rfl), ← hu]
  simp [State.andThen, afterNoStatus, afterFatal, afterTransactA, afterDeselect, afterReply, enter, afterClocks, Config.zeroArg,
    Config.resetDelayMs]

/-- The descriptor fetch whose status byte is refused (rules R186, R283, R303). -/
theorem activate_unexpected {c : CardReply} (hf : s.fault = none) (h55 : c55.ok = true) (h41 : c41.ok = true)
    (hst : c41.status = 0) (h58 : c58.ok = true) (ho : ocr.length = 4)
    (hccs : (decodeOcr s.cfg.layouts.ocr (be32List ocr)).ccs = 1) (hfe : s.cfg.initFetchCsd = true) (hc : c.ok = true)
    (hr : s.cfg.r1Check = true) (hs : c.status ≠ 0)
    (h : s.rx = c55.bytes ++ (c41.bytes ++ (c58.bytes ++ (ocr ++ (c.bytes ++ rest))))) :
    activate n s = afterFatal (.unexpectedStatus 9 c.status)
      (afterReply 9 Config.zeroArg c rest { afterOcr c55 c41 c58 ocr [] s with initialized := true }) := by
  have hf' : (afterOcr c55 c41 c58 ocr [] s).fault = none := by rw [afterOcr_eq]; exact hf
  have hr' : (afterOcr c55 c41 c58 ocr [] s).cfg.r1Check = true := by rw [afterOcr_eq]; exact hr
  rw [activate_fetch hf h55 h41 hst h58 ho hccs hfe h]
  generalize afterOcr c55 c41 c58 ocr [] s = u at hf' hr'
  exact (regReadA_unexpected (rest := rest) hc (by exact hf') (by exact hr') hs (by rfl)).trans rfl

/-- The descriptor fetch whose first polled byte is not the start token (rule R202). -/
theorem activate_late {c : CardReply} {b : Byte} (hf : s.fault = none) (h55 : c55.ok = true) (h41 : c41.ok = true)
    (hst : c41.status = 0) (h58 : c58.ok = true) (ho : ocr.length = 4)
    (hccs : (decodeOcr s.cfg.layouts.ocr (be32List ocr)).ccs = 1) (hfe : s.cfg.initFetchCsd = true) (hc : c.ok = true)
    (hr : s.cfg.r1Check = false ∨ c.status = 0) (hb : b ≠ s.cfg.startToken)
    (hm : s.cfg.tokenWaitMax ≠ some 1) (h : s.rx = c55.bytes ++ (c41.bytes ++ (c58.bytes ++ (ocr ++ (c.bytes ++ (b :: rest)))))) :
    activate n s = afterFirstPoll .iTerminal 16 .initCsd b rest
      (afterReply 9 Config.zeroArg c [] { afterOcr c55 c41 c58 ocr [] s with initialized := true }) := by
  have hf' : (afterOcr c55 c41 c58 ocr [] s).fault = none := by rw [afterOcr_eq]; exact hf
  have hc' : (afterOcr c55 c41 c58 ocr [] s).cfg = s.cfg := by rw [afterOcr_eq]
  rw [activate_fetch hf h55 h41 hst h58 ho hccs hfe h]
  generalize afterOcr c55 c41 c58 ocr [] s = u at hf' hc'
  rw [← hc'] at hr hb hm
  exact (regReadA_late (rest := rest) hc (by exact hf') (by exact hr) (by exact hb) (by exact hm) (by rfl)).trans rfl

/-- The same when the first poll is the last the bound allows (rule R301). -/
theorem activate_tokenTimeout {c : CardReply} {b : Byte} (hf : s.fault = none) (h55 : c55.ok = true) (h41 : c41.ok = true)
    (hst : c41.status = 0) (h58 : c58.ok = true) (ho : ocr.length = 4)
    (hccs : (decodeOcr s.cfg.layouts.ocr (be32List ocr)).ccs = 1) (hfe : s.cfg.initFetchCsd = true) (hc : c.ok = true)
    (hr : s.cfg.r1Check = false ∨ c.status = 0) (hb : b ≠ s.cfg.startToken)
    (hm : s.cfg.tokenWaitMax = some 1) (h : s.rx = c55.bytes ++ (c41.bytes ++ (c58.bytes ++ (ocr ++ (c.bytes ++ (b :: rest)))))) :
    activate n s = afterFatal (.timeout .token)
      (afterReceive [b] rest (afterReply 9 Config.zeroArg c [] { afterOcr c55 c41 c58 ocr [] s with initialized := true })) := by
  have hf' : (afterOcr c55 c41 c58 ocr [] s).fault = none := by rw [afterOcr_eq]; exact hf
  have hc' : (afterOcr c55 c41 c58 ocr [] s).cfg = s.cfg := by rw [afterOcr_eq]
  rw [activate_fetch hf h55 h41 hst h58 ho hccs hfe h]
  generalize afterOcr c55 c41 c58 ocr [] s = u at hf' hc'
  rw [← hc'] at hr hb hm
  exact (regReadA_timeout (rest := rest) hc (by exact hf') (by exact hr) (by exact hb) (by exact hm) (by rfl)).trans rfl

/-- The descriptor fetch whose token comes at once (rules R186, R187). -/
theorem activate_fetched {c : CardReply} {csd trail : List Byte} (hf : s.fault = none) (h55 : c55.ok = true) (h41 : c41.ok = true)
    (hst : c41.status = 0) (h58 : c58.ok = true) (ho : ocr.length = 4)
    (hccs : (decodeOcr s.cfg.layouts.ocr (be32List ocr)).ccs = 1) (hfe : s.cfg.initFetchCsd = true) (hc : c.ok = true)
    (hr : s.cfg.r1Check = false ∨ c.status = 0) (hfil : s.filler = Config.fillerBuffer)
    (h16 : csd.length = 16) (ht : trail.length = 2)
    (h : s.rx = c55.bytes ++ (c41.bytes ++ (c58.bytes ++ (ocr ++ (c.bytes ++ (s.cfg.startToken :: (csd ++ (trail ++ rest)))))))) :
    activate n s = afterEnd .done
      { afterFetch 9 Config.zeroArg c [] csd trail rest { afterOcr c55 c41 c58 ocr [] s with initialized := true } with
        sectorCount := sectorCountOf (decodeCsd s.cfg.layouts.csd csd) s.cfg.sectorCountBias } := by
  have hf' : (afterOcr c55 c41 c58 ocr [] s).fault = none := by rw [afterOcr_eq]; exact hf
  have hc' : (afterOcr c55 c41 c58 ocr [] s).cfg = s.cfg := by rw [afterOcr_eq]
  have hl' : (afterOcr c55 c41 c58 ocr [] s).filler = Config.fillerBuffer := by rw [afterOcr_eq]; exact hfil
  rw [activate_fetch hf h55 h41 hst h58 ho hccs hfe h, ← h16]
  generalize afterOcr c55 c41 c58 ocr [] s = u at hf' hc' hl'
  rw [← hc'] at hr ⊢
  rw [regReadA_rx (data := csd) (trail := trail) (rest := rest) (by exact hf') (by exact hl') hc (by exact hr) (by omega) ht (by rfl)]
  simp [afterBlock, complete, deselect_eq, afterEnd, afterFetch, afterDeselect, afterInbound, afterReceive, afterReply, Config.zeroArg]

/-- INIT without the descriptor fetch (rules R185, R187). -/
theorem activate_done (hf : s.fault = none) (h55 : c55.ok = true) (h41 : c41.ok = true) (hst : c41.status = 0) (h58 : c58.ok = true)
    (ho : ocr.length = 4) (hccs : (decodeOcr s.cfg.layouts.ocr (be32List ocr)).ccs = 1) (hfe : s.cfg.initFetchCsd = false)
    (h : s.rx = c55.bytes ++ (c41.bytes ++ (c58.bytes ++ (ocr ++ rest)))) :
    activate n s = afterEnd .done { afterOcr c55 c41 c58 ocr rest s with initialized := true } := by
  have hfe' : (afterOcr c55 c41 c58 ocr rest s).cfg.initFetchCsd = false := by rw [afterOcr_eq]; exact hfe
  rw [activate_block hf h55 h41 hst h58 ho hccs h]
  generalize afterOcr c55 c41 c58 ocr rest s = u at hfe'
  exact (terminal_nofetch (t := { u with waiting := none, seq := ⟨.iBranch, none⟩ }) hfe').trans rfl
end

end Sys2Proof.Machine
end

