-- ==== Sys2Proof/Laws/Invariant.lean ====
section
/-! SUPPORT. The invariant `Inv` through every shared operation: the state in the middle of an operation (`Running`), a piece of an
operation that goes on or has raised a fault (`Good`), and what an instruction of the port, a wait that is resumed and
the reset event leave. -/

namespace Sys2Proof.Machine

/-- The frame of a row of the table of rule R90 is one the engine emits. -/
theorem emitted_frameBytes {i : Instr} {idx : BitVec 6} {arg : Word32} (h : commandOf i = some (idx, arg)) :
    emitted (frameBytes idx arg) = true := by
  simp only [emitted, decodeFrame_frameBytes, commandOf_decodeCommand h]

/-- The state in the middle of an operation: no fault, no wait, the sequencer in `m`, the card selected if `b`, the bracket
of the trace at `k`. -/
structure Mid (m : SeqState) (b : Bool) (k : Bracket) (s : State) : Prop where
  filler : s.filler = Config.fillerBuffer
  bufLength : s.buf.length = Config.sectorBytes
  wdataLength : s.wdata.length = Config.sectorBytes
  frameLength : s.frame.length = 6
  pollCnt : s.pollCnt.toNat ≤ Config.respPollMax
  fault : s.fault = none
  waiting : s.waiting = none
  main : s.seq.main = m
  cs : s.cs = b
  counted : s.initialized = false → s.sectorCount = 0
  bracket : bracketOf s.trace = k

/-- The same with the bracket open exactly if the card is selected. -/
abbrev Running (m : SeqState) (b : Bool) (s : State) : Prop := Mid m b (if b then .body else .closed) s

/-- The state after a piece of an operation: the operation runs on, or a fault has been raised. -/
def Good (m : SeqState) (b : Bool) (s : State) : Prop := if s.fault = none then Running m b s else Inv s

variable {m m' : SeqState} {b b' : Bool} {s t : State} {f : State → State} {n : Nat}

theorem Running.good (h : Running m b s) : Good m b s := by rw [Good, if_pos h.fault]; exact h

theorem Good.andThen (h : Good m b s) (hf : ∀ t, Running m b t → Good m' b' (f t)) : Good m' b' (s.andThen f) := by
  unfold State.andThen
  unfold Good at h
  cases hs : s.fault with
  | none => rw [if_pos hs] at h; exact hf s h
  | some r => rw [if_neg (by rw [hs]; nofun)] at h; simp [Good, hs, h]

theorem Good.andThenInv (h : Good m b s) (hf : ∀ t, Running m b t → Inv (f t)) : Inv (s.andThen f) := by
  unfold State.andThen
  unfold Good at h
  cases hs : s.fault with
  | none => rw [if_pos hs] at h; exact hf s h
  | some r => rw [if_neg (by rw [hs]; nofun)] at h; exact h

theorem Running.raise (h : Running m b s) (r : Fatal) : Inv (raise r s) := by
  rw [raise_of_none h.fault]
  exact ⟨h.filler, h.bufLength, h.wdataLength, h.frameLength, h.pollCnt, ⟨fun _ => rfl, fun _ => rfl⟩, fun _ => rfl, rfl,
      nofun,
    nofun, nofun, h.counted, by have := h.bracket; rw [← h.cs] at this; exact this⟩

theorem Running.raiseGood (h : Running m b s) (r : Fatal) : Good m' b' (Sys2Proof.Machine.raise r s) := by
  have := h.raise r
  rw [Good, if_neg (by rw [raise_of_none h.fault]; nofun)]; exact this

/-- A state between two steps in which no operation runs. -/
theorem Running.idle (h : Running .idle false s) : Inv s := by
  obtain ⟨h1, h2, h3, h4, h5, h6, h7, h8, h9, h10, h11⟩ := h
  refine ⟨h1, h2, h3, h4, h5, by simp [h6, h8], by simp [h6], by simp [State.busy, h7, h8], by simp [h7], by simp [h7, h9],
    by simp [h7], h10, ?_⟩
  rw [State.bracketed, h11, h9]

/-- A state between two steps in which an operation stands in a wait. -/
theorem Running.wait (h : Running m b s) (w : Wait) (hm : m ≠ .idle ∧ m ≠ .fault) (hok : w.portOk = true)
    (hs : w.selected = b)
    (hi : ∀ n k, w = .token n (.block k .initCsd) → s.initialized = true) : Inv (waitAt w s) := by
  obtain ⟨h1, h2, h3, h4, h5, h6, h7, h8, h9, h10, h11⟩ := h
  refine ⟨h1, h2, h3, h4, h5, by simp [waitAt, h6, h8, hm], by simp [waitAt, h6], by simp [State.busy, waitAt, h8, hm], ?_,
      ?_,
    ?_, h10, ?_⟩
  · rintro w' ⟨⟩; exact hok
  · intro _; simp [waitAt, h9, hs]
  · rintro n k ⟨⟩; exact hi n k rfl
  · show bracketOf s.trace = if s.cs then _ else _
    rw [h11, h9]

/-- The operation's end. -/
theorem Running.complete (h : Running m false s) (r : Result) : Inv (complete r s) :=
  Running.idle ⟨h.filler, h.bufLength, h.wdataLength, h.frameLength, h.pollCnt, h.fault, rfl, rfl, h.cs, h.counted, h.bracket⟩

theorem Running.deliver (h : Running .idle false s) (r : Result) : Inv (deliver r s) :=
  Running.idle ⟨h.filler, h.bufLength, h.wdataLength, h.frameLength, h.pollCnt, h.fault, h.waiting, h.main, h.cs, h.counted,
    h.bracket⟩

/-- An update of other registers. -/
theorem Running.of_eq (h : Running m b s) (h1 : t.filler = s.filler := by rfl) (h2 : t.buf = s.buf := by rfl)
    (h3 : t.wdata = s.wdata := by rfl)
    (h4 : t.frame = s.frame := by rfl) (h5 : t.pollCnt = s.pollCnt := by rfl) (h6 : t.fault = s.fault := by rfl)
        (h7 : t.waiting = s.waiting := by rfl)
    (h8 : t.seq.main = s.seq.main := by rfl) (h9 : t.cs = s.cs := by rfl) (h10 : t.initialized = s.initialized := by rfl)
    (h11 : t.sectorCount = s.sectorCount := by rfl) (h12 : t.trace = s.trace := by rfl) : Running m b t :=
  ⟨h1.trans h.filler, by rw [h2]; exact h.bufLength, by rw [h3]; exact h.wdataLength, by rw [h4]; exact h.frameLength,
    by rw [h5]; exact h.pollCnt, h6.trans h.fault, h7.trans h.waiting, h8.trans h.main, h9.trans h.cs,
    by rw [h10, h11]; exact h.counted, by rw [h12]; exact h.bracket⟩

/-- An exchange inside the body of a transaction, or of filler outside. -/
theorem Running.xchg (h : Running m b s) (x : Byte) (hx : b = true ∨ x = Config.filler) : Running m b (xchg x s) := by
  refine ⟨h.filler, h.bufLength, h.wdataLength, h.frameLength, h.pollCnt, h.fault, h.waiting, h.main, h.cs, h.counted, ?_⟩
  show (bracketOf s.trace).next (.x x _) = _
  rw [h.bracket]
  rcases hx with rfl | rfl
  · rfl
  · cases b <;> rfl

theorem Running.xchgN (h : Running m b s) (ts : List Byte) (hx : b = true ∨ ∀ x ∈ ts, x = Config.filler) : Running m b
    (xchgN ts s) := by
  induction ts generalizing s with
  | nil => exact h
  | cons t ts ih =>
    exact ih (h.xchg t (hx.imp_right fun hx => hx t (by simp))) (hx.imp_right fun hx x h => hx x (by simp [h]))

theorem Running.deselect (h : Running m b s) : Running m false (deselect s) := by
  refine ⟨h.filler, h.bufLength, h.wdataLength, h.frameLength, h.pollCnt, h.fault, h.waiting, h.main, rfl, h.counted, ?_⟩
  show (bracketOf s.trace).next .desel = _
  rw [h.bracket]
  cases b <;> rfl

theorem Running.delayMs (h : Running m false s) (k : Nat) : Running m false (delayMs k s) := by
  refine ⟨h.filler, h.bufLength, h.wdataLength, h.frameLength, h.pollCnt, h.fault, h.waiting, h.main, h.cs, h.counted, ?_⟩
  show (bracketOf s.trace).next (.delay k) = _
  rw [h.bracket]; rfl

theorem Running.enter (h : Running m b s) (m' : SeqState) : Running m' b (enter m' s) :=
  ⟨h.filler, h.bufLength, h.wdataLength, h.frameLength, h.pollCnt, h.fault, h.waiting, rfl, h.cs, h.counted, h.bracket⟩

/-- The bracket after the six bytes of a frame. -/
theorem bracket_frame (past : List LinkEvent) (hp : bracketOf past = .framing []) (f ans : List Byte) (hf : f.length = 6)
    (ha : ans.length = 6)
    (he : emitted f = true) : bracketOf ((exchangeEvents f ans).reverse ++ past) = .body := by
  match f, hf, ans, ha with
  | [f0, f1, f2, f3, f4, f5], _, [a0, a1, a2, a3, a4, a5], _ =>
    simp [exchangeEvents, bracketOf, hp, Bracket.next, he]

theorem Mid.xchgN {k : Bracket} (h : Mid m b k s) (ts : List Byte) :
    Mid m b (bracketOf (xchgN ts s).trace) (Sys2Proof.Machine.xchgN ts s) := by
  induction ts generalizing s k with
  | nil => exact ⟨h.filler, h.bufLength, h.wdataLength, h.frameLength, h.pollCnt, h.fault, h.waiting, h.main, h.cs,
      h.counted, rfl⟩
  | cons t ts ih =>
    exact ih (s := Sys2Proof.Machine.xchg t s) (k := bracketOf (Sys2Proof.Machine.xchg t s).trace)
      ⟨h.filler, h.bufLength, h.wdataLength, h.frameLength, h.pollCnt, h.fault, h.waiting, h.main, h.cs, h.counted, rfl⟩

theorem Running.issueCommand {i : Instr} {idx : BitVec 6} {arg : Word32} (h : Running m false s)
    (hc : commandOf i = some (idx, arg)) :
    Running m true (issueCommand idx arg s) := by
  have h1 : Mid m true (.framing []) (select (buildFrame idx arg s)) := by
    refine ⟨h.filler, h.bufLength, h.wdataLength, rfl, h.pollCnt, h.fault, h.waiting, h.main, rfl, h.counted, ?_⟩
    show (bracketOf s.trace).next .sel = _
    rw [h.bracket]; rfl
  have h2 := h1.xchgN (frameBytes idx arg)
  have h3 : bracketOf (Sys2Proof.Machine.xchgN (frameBytes idx arg) (select (buildFrame idx arg s))).trace = .body := by
    rw [xchgN_trace]
    exact bracket_frame _ h1.bracket _ _ rfl (by rw [replies_length, frameBytes_length]) (emitted_frameBytes hc)
  exact ⟨h2.filler, h2.bufLength, h2.wdataLength, h2.frameLength, h2.pollCnt, h2.fault, h2.waiting, h2.main, h2.cs,
      h2.counted, h3⟩

theorem pollLoop_good (k : Nat) (h : Running m true s) (hk : s.pollCnt.toNat + k ≤ 8) : Good m true (pollLoop k s) := by
  induction k generalizing s with
  | zero => exact h.raiseGood _
  | succ k ih =>
    have hp : (s.pollCnt + 1).toNat = s.pollCnt.toNat + 1 := by
      rw [BitVec.toNat_add]; exact Nat.mod_eq_of_lt (by simp; omega)
    have hx := h.xchg Config.filler (.inl rfl)
    have h1 : Running m true (atPhase (.pPoll (s.pollCnt.toNat + 1)) { Sys2Proof.Machine.xchg Config.filler s with
        pollCnt := s.pollCnt + 1 }) :=
      ⟨hx.filler, hx.bufLength, hx.wdataLength, hx.frameLength, by show (s.pollCnt + 1).toNat ≤ 8; omega, hx.fault,
          hx.waiting, hx.main, hx.cs, hx.counted, hx.bracket⟩
    simp only [pollLoop]
    split
    · exact (h1.of_eq (t := { atPhase (.pPoll (s.pollCnt.toNat + 1)) { Sys2Proof.Machine.xchg Config.filler s with
        pollCnt := s.pollCnt + 1 } with r1 := _ })).good
    · exact ih h1 (by show (s.pollCnt + 1).toNat + k ≤ 8; omega)

theorem pollStatus_good (h : Running m true s) : Good m true (pollStatus s) :=
  pollLoop_good 8 (s := { s with pollCnt := 0 })
    ⟨h.filler, h.bufLength, h.wdataLength, h.frameLength, by show 0 ≤ 8; omega, h.fault, h.waiting, h.main, h.cs, h.counted,
        h.bracket⟩ (by show 0 + 8 ≤ 8; omega)

theorem secondByte_good (h : Running m true s) : Good m true (secondByte s) :=
  ((h.xchg Config.filler (.inl rfl)).of_eq (t := secondByte s)).good

theorem payloadBytes_good (h : Running m true s) : Good m true (payloadBytes s) :=
  ((Running.xchgN h (List.replicate 4 Config.filler) (.inl rfl)).of_eq (t := payloadBytes s)).good

theorem respShape_good (shape : Shape) (h : Running m true s) : Good m true (respShape shape s) := by
  cases shape with
  | a => exact pollStatus_good h
  | b => exact (pollStatus_good h).andThen fun _ h => secondByte_good h
  | cd => exact (pollStatus_good h).andThen fun _ h => payloadBytes_good h
  | other code => exact h.raiseGood _

theorem transactA_good {i : Instr} {idx : BitVec 6} {arg : Word32} (hc : commandOf i = some (idx, arg))
    (h : Running m false s) :
    Good m false (transactA idx arg s) :=
  ((h.issueCommand hc).good.andThen fun _ h => pollStatus_good h).andThen fun _ h => h.deselect.good

theorem transactCD_good {i : Instr} {idx : BitVec 6} {arg : Word32} (hc : commandOf i = some (idx, arg))
    (h : Running m false s) :
    Good m false (transactCD idx arg s) :=
  ((h.issueCommand hc).good.andThen fun _ h => respShape_good .cd h).andThen fun _ h => h.deselect.good

theorem checkR1_good (idx : BitVec 6) (h : Running m true s) : Good m true (checkR1 idx s) := by
  unfold checkR1
  split
  · exact h.raiseGood _
  · exact h.good

theorem Running.receiveBlock (h : Running m true s) (n : Nat) (hn : n ≤ 512) : Running m true (receiveBlock n s) := by
  have h1 := Running.xchgN h (s.filler.take n) (.inl rfl)
  have hl : (s.filler.take n).length = n := by
    rw [h.filler, Config.fillerBuffer, List.take_replicate, List.length_replicate]; exact Nat.min_eq_left hn
  have hb := h1.bufLength
  have h2 : Running m true (atPhase (.pData (n - 1)) { Sys2Proof.Machine.xchgN (s.filler.take n) s with
      buf := replies (s.filler.take n) s ++ (Sys2Proof.Machine.xchgN (s.filler.take n) s).buf.drop n }) := by
    refine ⟨h1.filler, ?_, h1.wdataLength, h1.frameLength, h1.pollCnt, h1.fault, h1.waiting, h1.main, h1.cs, h1.counted,
        h1.bracket⟩
    show (replies _ _ ++ List.drop n _).length = _
    rw [List.length_append, replies_length, hl, List.length_drop, hb]
    simp only [Config.sectorBytes]; omega
  exact (Running.xchgN h2 _ (.inl rfl)).of_eq

theorem afterBlock_inv (n : Nat) (k : AfterBlock) (hk : k ≠ .fetchOnly) (hi : k = .initCsd → s.initialized = true)
    (h : Running m true s) : Inv (afterBlock n k s) := by
  cases k with
  | fetchOnly => exact absurd rfl hk
  | initCsd =>
    have hd := h.deselect
    exact Running.complete (m := m) (s := { Sys2Proof.Machine.deselect s with
        sectorCount := sectorCountOf (decodeCsd s.cfg.layouts.csd (s.buf.take n)) s.cfg.sectorCountBias })
      ⟨hd.filler, hd.bufLength, hd.wdataLength, hd.frameLength, hd.pollCnt, hd.fault, hd.waiting, hd.main, hd.cs, fun h0 => by
        exact absurd ((hi rfl).symm.trans h0) nofun, hd.bracket⟩ _
  | _ => exact h.deselect.complete _

/-- Without the wait it stands in. -/
def NoWait (m : SeqState) (b : Bool) (s : State) : Prop := Running m b { s with waiting := none }

theorem Running.noWait (h : Running m b s) : NoWait m b s :=
  ⟨h.filler, h.bufLength, h.wdataLength, h.frameLength, h.pollCnt, h.fault, rfl, h.main, h.cs, h.counted, h.bracket⟩

theorem raise_waiting (r : Fatal) (s : State) (hf : s.fault = none) : raise r s = raise r { s with waiting := none } := by
  rw [raise_of_none hf, raise_of_none (s := { s with waiting := none }) hf]; rfl

theorem afterToken_inv (k : AfterToken) (hk : ∀ n, (Wait.token n k).portOk = true)
    (hi : ∀ n, k = .block n .initCsd → s.initialized = true)
    (h : Running m true s) : Inv (afterToken k s) := by
  cases k with
  | ret => have := hk 0; simp [Wait.portOk] at this
  | block n k =>
    have hok := hk 0
    simp only [Wait.portOk, Bool.and_eq_true, bne_iff_ne, ne_eq] at hok
    have hn : n ≤ 512 := by have := hok.1; simp [blockLengthOk] at this; omega
    refine afterBlock_inv n k hok.2 (fun hk => ?_) (h.receiveBlock n hn)
    exact (receiveBlock_keeps (req := false) (ini := false) n).initialized (hi n (by rw [hk]))

theorem waitToken_inv (n : Nat) (k : AfterToken) (hk : ∀ n, (Wait.token n k).portOk = true)
    (hi : ∀ n, k = .block n .initCsd → s.initialized = true) (hm : m ≠ .idle ∧ m ≠ .fault) (h : NoWait m true s) :
    Inv (waitToken n k s) := by
  have h1 : Running m true (atPhase .pToken { xchg Config.filler s with waiting := none }) :=
    (Running.xchg h Config.filler (.inl rfl)).of_eq
  simp only [waitToken]
  split
  · exact afterToken_inv k hk hi h1
  · split
    · have := h1.raise (.timeout .token)
      exact (congrArg Inv (raise_waiting _ _ (by exact h.fault))).mpr this
    · exact Running.wait h1 (.token (n + 1) k) hm (hk _) rfl (by rintro n' k' ⟨⟩; exact hi _ rfl)

theorem opened_good {i : Instr} {idx : BitVec 6} {arg : Word32} (shape : Shape) (hc : commandOf i = some (idx, arg))
    (h : Running m false s) :
    Good m true (((issueCommand idx arg s).andThen (respShape shape)).andThen (checkR1 idx)) :=
  ((h.issueCommand hc).good.andThen fun _ h => respShape_good shape h).andThen fun _ h => checkR1_good idx h

theorem sectorRead_inv (k : AfterBlock) (hk : k ≠ .fetchOnly ∧ k ≠ .initCsd) (index : Word32) (hm : m ≠ .idle ∧ m ≠ .fault)
    (h : Running m false s) :
    Inv (sectorRead k index s) :=
  (opened_good .a (i := .cmd17 index) rfl h).andThenInv fun _ h =>
    waitToken_inv 0 _ (fun _ => by simp [Wait.portOk, blockLengthOk, Config.sectorBytes, hk])
        (by rintro n ⟨⟩; exact absurd rfl hk.2) hm h.noWait

theorem regRead_inv {i : Instr} (k : AfterBlock) (hk : k ≠ .fetchOnly) (idx : BitVec 6) (shape : Shape) (n : Nat)
    (hn : blockLengthOk n = true) (hc : commandOf i = some (idx, Config.zeroArg)) (hm : m ≠ .idle ∧ m ≠ .fault)
    (hi : k = .initCsd → s.initialized = true) (h : Running m false s) : Inv (regRead k idx shape n s) := by
  have key : ∀ shape, Inv ((((issueCommand idx Config.zeroArg s).andThen (respShape shape)).andThen (checkR1 idx)).andThen
      (waitToken 0 (.block n k))) := by
    intro shape
    have hg := opened_good shape hc h
    have hk' := (opened_piece (req := false) (ini := false) idx Config.zeroArg shape h.fault).1.initialized
    generalize (((issueCommand idx Config.zeroArg s).andThen (respShape shape)).andThen (checkR1 idx)) = v at hg hk'
    by_cases hv : v.fault = none
    · rw [andThen_of_none hv]
      rw [Good, if_pos hv] at hg
      exact waitToken_inv 0 _ (fun _ => by simp [Wait.portOk, hn, hk]) (by rintro n ⟨⟩; exact hk' (hi rfl)) hm hg.noWait
    · obtain ⟨r, hr⟩ := Option.ne_none_iff_exists'.mp hv
      rw [andThen_of_fault hr]
      rwa [Good, if_neg hv] at hg
  cases shape with
  | other code => exact h.raise _
  | _ => exact key _

theorem appRegRead_inv {i : Instr} (k : AfterBlock) (hk : k ≠ .fetchOnly ∧ k ≠ .initCsd) (idx : BitVec 6) (shape : Shape)
    (n : Nat)
    (hn : blockLengthOk n = true) (hc : commandOf i = some (idx, Config.zeroArg)) (hm : m ≠ .idle ∧ m ≠ .fault)
        (h : Running m false s) :
    Inv (appRegRead k idx shape n s) :=
  (transactA_good (i := .cmd55) rfl h).andThenInv fun _ h =>
    regRead_inv k hk.1 idx shape n hn hc hm (fun hk' => absurd hk' hk.2) h

theorem Running.phase (h : Running m b s) (p : Phase) : Running m b (atPhase p s) := h.of_eq

theorem Running.sendBlock (h : Running m true s) (data : List Byte) : Running m true (sendBlock data s) :=
  ((Running.xchgN (Running.phase (Running.xchgN (Running.phase (((h.xchg _ (.inl rfl)).phase .pGap).xchg _ (.inl rfl))
    .pWToken) data (.inl rfl)) (.pWData (data.length - 1))) _ (.inl rfl)).phase (.pWCrc 1)).xchg _ (.inl rfl) |>.of_eq

theorem checkWresp_good (h : Running m false s) : Good m false (checkWresp s) := by
  unfold checkWresp
  split
  · exact h.raiseGood _
  · exact h.good

theorem busyWait_inv (n : Nat) (hm : m ≠ .idle ∧ m ≠ .fault) (h : NoWait m true s) : Inv (busyWait n s) := by
  have h1 : Running m true (atPhase .pBusy { xchg Config.filler s with waiting := none }) :=
    (Running.xchg h Config.filler (.inl rfl)).of_eq
  simp only [busyWait]
  split
  · exact (checkWresp_good h1.deselect).andThenInv fun _ h => h.complete _
  · split
    · have := h1.raise (.timeout .busy)
      exact (congrArg Inv (raise_waiting _ _ (by exact h.fault))).mpr this
    · exact Running.wait h1 (.busy (n + 1)) hm rfl rfl nofun

theorem sectorWrite_inv (index : Word32) (data : List Byte) (hm : m ≠ .idle ∧ m ≠ .fault) (h : Running m false s) :
    Inv (sectorWrite index data s) :=
  ((opened_good .a (i := .cmd24 index) rfl h).andThen fun _ h => (h.sendBlock data).good).andThenInv fun _ h =>
    busyWait_inv 0 hm h.noWait

theorem activateOnce_good (h : Running m false s) : Good m false (activateOnce s) :=
  (transactA_good (i := .cmd55) rfl h).andThen fun _ h => transactA_good (i := .acmd41) rfl h

theorem terminal_inv (h : Running m false s) : Inv (terminal s) := by
  have h1 : Running .iTerminal false (enter .iTerminal { s with initialized := true }) :=
    ⟨h.filler, h.bufLength, h.wdataLength, h.frameLength, h.pollCnt, h.fault, h.waiting, rfl, h.cs, nofun, h.bracket⟩
  simp only [terminal]
  split
  · exact regRead_inv (i := .cmd9) .initCsd nofun 9 .a 16 rfl rfl (by decide) (fun _ => rfl) h1
  · exact h1.complete _

theorem byteAddressing_good (h : Running m false s) : Good m' b' (byteAddressing s) := by
  unfold byteAddressing
  split
  · exact (transactA_good (i := .cmd16) rfl h).andThen fun _ h => h.raiseGood _
  · exact h.good.andThen fun _ h => h.raiseGood _

theorem branch_good (h : Running m false s) : Good .iBranch false (branch s) := by
  simp only [branch]
  split
  · exact (h.enter .iBranch).good
  · exact byteAddressing_good (h.enter .iBranch)

theorem readOcrState_good (h : Running m false s) : Good .iReadOcr false (readOcrState s) :=
  (transactCD_good (i := .cmd58) rfl (h.enter .iReadOcr)).andThen fun _ h => h.of_eq.good

theorem afterActivate_inv (h : Running m false s) : Inv (afterActivate s) :=
  ((readOcrState_good h).andThen fun _ h => branch_good h).andThenInv fun _ h => terminal_inv h

theorem activate_inv (n : Nat) (h : NoWait m false s) : Inv (activate n s) := by
  refine (activateOnce_good (Running.enter h .iActivate)).andThenInv fun t ht => ?_
  split
  · exact afterActivate_inv ht
  · split
    · exact ht.raise _
    · exact Running.wait (ht.delayMs _) (.activate (n + 1)) (by decide) rfl rfl nofun

theorem Running.initReset (h : Running m false s) : Running .iReset false (initReset s) :=
  (Running.xchgN (h.enter .iReset).deselect _ (.inr fun _ hx => List.eq_of_mem_replicate hx)).delayMs _

theorem goIdle_good (h : Running m false s) : Good .iGoIdle false (goIdle s) :=
  (transactA_good (i := .cmd0) rfl (h.enter .iGoIdle)).andThen fun _ h => by
    split
    · exact h.good
    · exact h.raiseGood _

theorem sendIfCond_good (h : Running m false s) : Good .iIfCond false (sendIfCond s) :=
  (transactCD_good (i := .cmd8) rfl (h.enter .iIfCond)).andThen fun _ h => by
    split
    · exact h.good
    · exact h.raiseGood _

theorem runInit_inv (h : Running m false s) : Inv (runInit s) :=
  ((goIdle_good h.initReset).andThen fun _ h => sendIfCond_good h).andThenInv fun _ h => activate_inv 0 h.noWait

theorem Inv.running (h : Inv s) (hf : s.fault = none) (hw : s.waiting = none) : Running .idle false s := by
  have hcs : s.cs = false := by have := h.selected hf; rwa [hw] at this
  refine ⟨h.filler, h.bufLength, h.wdataLength, h.frameLength, h.pollCnt, hf, hw, ?_, hcs, h.counted, ?_⟩
  · have hb := h.busyWait
    have hs := h.faultSeq
    rw [hf] at hs
    simp only [State.busy, hw, Option.isSome_none, Bool.and_eq_false_iff, bne_eq_false_iff_eq] at hb
    rcases hb with hb | hb
    · exact hb
    · simp [hb] at hs
  · have := h.bracketed
    rw [State.bracketed, hcs] at this
    exact this

theorem Running.withOp (h : Running m b s) (code : BitVec 4) : Running m b { s with op := code } := h.of_eq

theorem startOp_inv (code : BitVec 4) (latch body : State → State) (h : Running .idle false s)
    (hl : Running .idle false (latch { s with op := code })) (hb : ∀ t, Running .idle false t → Inv (body t)) :
    Inv (startOp code latch body s) := by
  unfold startOp
  split
  · exact h.idle
  · dsimp only
    split
    · exact hl.raise _
    · exact hb _ hl

theorem rejectOp_inv (what : Unimplemented) (h : Running .idle false s) : Inv (rejectOp what s) := by
  unfold rejectOp
  split
  · exact h.idle
  · exact h.raise _

/-- An instruction of the port keeps the invariant. -/
theorem exec_inv (i : Instr) {cfg : Params} (he : encode cfg i ≠ none) (hwf : i.wellFormed = true) (h : Running .idle false s) :
    ∃ t, exec i s = .next t ∧ Inv t := by
  have hl : ∀ f : State → State, Inv (f s) → ∃ t, live f s = .next t ∧ Inv t := fun f hf => ⟨f s, live_of_none h.fault, hf⟩
  have hr : ∀ (m : SeqState) (f : State → State), Inv (f (enter m s)) → ∃ t, rowOp m f s = .next t ∧ Inv t :=
    fun m f hf => ⟨f (enter m s), rowOp_of_none h.fault, hf⟩
  have hreg := h.enter .opRegRead
  have hno : ∀ bytes f, receive bytes f s = s := by intro bytes f; simp [receive, h.cs]
  have hrec : ∀ bytes f, ∃ t, live (receive bytes f) s = .next t ∧ Inv t := fun bytes f =>
    hl _ (by rw [hno]; exact h.idle)
  cases i with
  | cmd0 => exact hl _ ((transactA_good (i := .cmd0) rfl h).andThenInv fun _ h => h.deliver _)
  | cmd8 => exact hl _ ((transactCD_good (i := .cmd8) rfl h).andThenInv fun _ h => h.deliver _)
  | cmd9 => exact hr _ _ (regRead_inv (i := .cmd9) _ (by nofun) 9 .a 16 rfl rfl (by decide) (by nofun) hreg)
  | cmd10 => exact hr _ _ (regRead_inv (i := .cmd10) _ (by nofun) 10 .a 16 rfl rfl (by decide) (by nofun) hreg)
  | acmd13 => exact hr _ _ (appRegRead_inv (i := .acmd13) _ (by decide) 13 .b 64 rfl rfl (by decide) hreg)
  | cmd16 => exact hl _ ((transactA_good (i := .cmd16) rfl h).andThenInv fun _ h => h.deliver _)
  | cmd17 index => exact hr _ _ (sectorRead_inv _ (by decide) index (by decide) (h.enter .opRead))
  | cmd24 index => exact hr _ _ (sectorWrite_inv index _ (by decide) (h.enter .opWrite))
  | acmd41 => exact hl _ ((activateOnce_good h).andThenInv fun _ h => h.deliver _)
  | acmd51 => exact hr _ _ (appRegRead_inv (i := .acmd51) _ (by decide) 51 .a 8 rfl rfl (by decide) hreg)
  | cmd55 => exact hl _ ((transactA_good (i := .cmd55) rfl h).andThenInv fun _ h => h.deliver _)
  | cmd58 => exact hl _ ((transactCD_good (i := .cmd58) rfl h).andThenInv fun _ h => h.deliver _)
  | init => exact hl _ (startOp_inv _ _ _ h (h.withOp 0) fun t ht => runInit_inv ht)
  | readSector index =>
    exact hl _ (startOp_inv _ _ _ h ((h.withOp 1).of_eq (t := { s with op := 1, opArg := index })) fun t ht =>
      sectorRead_inv (m := .opRead) _ (by decide) t.opArg (by decide) (ht.enter .opRead))
  | writeSector index data =>
    refine hl _ (startOp_inv _ _ _ h ?_ fun t ht => sectorWrite_inv (m := .opWrite) t.opArg t.wdata (by decide) (ht.enter .opWrite))
    exact ⟨h.filler, h.bufLength, by simpa [Instr.wellFormed, sectorLengthOk] using hwf, h.frameLength, h.pollCnt, h.fault,
      h.waiting, h.main, h.cs, h.counted, h.bracket⟩
  | eraseSector index => exact hl _ (rejectOp_inv _ h)
  | readCid =>
    exact hl _ (startOp_inv _ _ _ h (h.withOp _) fun t ht => regRead_inv (i := .cmd10) _ (by nofun) 10 .a 16 rfl rfl (by decide) (by nofun)
        (ht.enter .opRegRead))
  | readCsd =>
    exact hl _ (startOp_inv _ _ _ h (h.withOp _) fun t ht => regRead_inv (i := .cmd9) _ (by nofun) 9 .a 16 rfl rfl (by decide) (by nofun)
        (ht.enter .opRegRead))
  | readOcr =>
    exact hl _ (startOp_inv _ _ _ h (h.withOp _) fun t ht =>
      (transactCD_good (i := .cmd58) rfl (ht.enter .opRegRead)).andThenInv fun _ h => h.complete _)
  | readScr =>
    exact hl _ (startOp_inv _ _ _ h (h.withOp _) fun t ht => appRegRead_inv (i := .acmd51) _ (by decide) 51 .a 8 rfl rfl (by decide)
        (ht.enter .opRegRead))
  | readSsr =>
    exact hl _ (startOp_inv _ _ _ h (h.withOp _) fun t ht => appRegRead_inv (i := .acmd13) _ (by decide) 13 .b 64 rfl rfl (by decide)
        (ht.enter .opRegRead))
  | reserved9 | reserved10 | reserved11 | reserved12 | reserved13 | reserved14 | reserved15 => exact hl _ (rejectOp_inv _ h)
  | respFormatA flags => exact hrec _ _
  | respFormatB flags second => exact hrec _ _
  | respFormatCD flags payload => exact hrec _ _
  | startToken => exact hl _ (by show Inv (receive _ _ s); rw [hno]; exact h.idle)
  | dresp code => exact hrec _ _
  | _ => exact absurd rfl he

theorem resume_inv (w : Wait) (h : Inv s) (hf : s.fault = none) (hw : s.waiting = some w) : Inv (resume w s) := by
  have hok := h.waitOk w hw
  have hcs := h.selected hf
  rw [hw] at hcs
  have hb := h.busyWait
  rw [hw] at hb
  simp only [State.busy, Option.isSome_some, Bool.and_eq_true, bne_iff_ne, ne_eq] at hb
  have hn : NoWait s.seq.main w.selected s := by
    refine ⟨h.filler, h.bufLength, h.wdataLength, h.frameLength, h.pollCnt, hf, rfl, rfl, hcs, h.counted, ?_⟩
    have := h.bracketed
    rw [State.bracketed, hcs] at this
    exact this
  cases w with
  | token n k =>
    refine waitToken_inv n k (fun n' => ?_) ?_ hb hn
    · cases k with
      | ret => exact hok
      | block n k => exact hok
    · rintro n' rfl
      exact h.fetching _ _ hw
  | busy n => exact busyWait_inv n hb hn
  | activate n => exact activate_inv n hn

theorem Inv.withoutPort (h : Inv s) : Inv { s with port := none } :=
  ⟨h.filler, h.bufLength, h.wdataLength, h.frameLength, h.pollCnt, h.faultSeq, h.faultWait, h.busyWait, h.waitOk, h.selected,
    h.fetching, h.counted, h.bracketed⟩

theorem applyReset_inv (s : State) : Inv (applyReset s) :=
  Running.idle ⟨rfl, List.length_replicate, List.length_replicate, rfl, Nat.zero_le _, rfl, rfl, rfl, rfl, fun _ => rfl, rfl⟩

end Sys2Proof.Machine
end

