-- ==== Sys2Proof/Laws/Sequencer.lean ====
section
/-! SUPPORT. What a list of advances does (`10_state.md` rule R24): one lemma for each way of putting lists together, then one for each
operation, which says that its list ends in the state the operation gives. -/

namespace Sys2Proof.Machine

variable {s t u : State} {f g : State → State} {P Q : List Advance}

/-- One position comes after another. -/
def Reaches (p q : Position) : Prop := ∃ n, Position.advance^[n] p = q

theorem Reaches.refl (p : Position) : Reaches p p := ⟨0, rfl⟩

theorem Reaches.trans {p q r : Position} : Reaches p q → Reaches q r → Reaches p r := by
  rintro ⟨m, rfl⟩ ⟨n, rfl⟩
  exact ⟨n + m, Function.iterate_add_apply ..⟩

theorem Reaches.advance {p q : Position} (h : Reaches p.advance q) : Reaches p q := by
  obtain ⟨n, h⟩ := h
  exact ⟨n + 1, by rwa [Function.iterate_succ_apply]⟩

/-- The advances `P`, made from `s`, end in `t`: what follows them is dropped exactly if a fault was raised (rule R308). The filler
buffer, from which the data phases take their bytes, is as before. -/
structure Moves (P : List Advance) (s t : State) : Prop where
  reaches : ∀ rest, Reaches ⟨s, P ++ rest⟩ ⟨t, if t.fault.isSome then [] else rest⟩
  filler : t.filler = s.filler

theorem Moves.nil (h : s.fault = none) : Moves [] s s := ⟨fun rest => ⟨0, by simp [h]⟩, rfl⟩

/-- An advance whose effect raises no fault, and then the advances it puts in. -/
theorem Moves.cons {more : State → List Advance} (hf : (f s).fault = none) (hk : (f s).filler = s.filler)
    (h : Moves (more s) (f s) t) : Moves [.mk f more] s t := by
  refine ⟨fun rest => Reaches.advance ?_, h.filler.trans hk⟩
  simpa [Position.advance, hf] using h.reaches rest

/-- An advance that puts none in, or raises a fault. -/
theorem Moves.last {more : State → List Advance} (hk : (f s).filler = s.filler)
    (h : (f s).fault.isSome = true ∨ more s = []) : Moves [.mk f more] s (f s) := by
  refine ⟨fun rest => Reaches.advance ?_, hk⟩
  rcases h with h | h <;> simp [Position.advance, h, Reaches.refl]

theorem Moves.act (hk : (f s).filler = s.filler) : Moves [act f] s (f s) := .last hk (.inr rfl)

theorem Moves.transfer {F : State → List Advance} (hf : s.fault = none) (h : Moves (F s) s t) : Moves [transfer F] s t :=
  .cons hf rfl h

/-- `P ; Q` (rule R308): a fault in `P` ends it. -/
theorem Moves.andThen (hP : Moves P s t) (hQ : t.fault = none → Moves Q t (g t)) : Moves (P ++ Q) s (t.andThen g) := by
  cases h : t.fault with
  | none =>
    rw [andThen_of_none h]
    refine ⟨fun rest => ?_, (hQ h).filler.trans hP.filler⟩
    have := hP.reaches (Q ++ rest)
    rw [h] at this
    simpa using this.trans ((hQ h).reaches rest)
  | some r =>
    rw [andThen_of_fault h]
    refine ⟨fun rest => ?_, hP.filler⟩
    simpa [h] using hP.reaches (Q ++ rest)

theorem Moves.append (hP : Moves P s t) (ht : t.fault = none) (hQ : Moves Q t u) : Moves (P ++ Q) s u := by
  have := hP.andThen (g := fun _ => u) fun _ => hQ
  rwa [andThen_of_none ht] at this

/-- What follows a `raise` is not made (rule R308). -/
theorem Moves.stop {r : Fatal} (hP : Moves P s t) (ht : t.fault = some r) : Moves (P ++ Q) s t := by
  have := hP.andThen (Q := Q) (g := id) (by simp [ht])
  rwa [andThen_of_fault ht] at this

/-- A statement, then advances. -/
theorem Moves.step (hf : (f s).fault = none) (hk : (f s).filler = s.filler) (h : Moves P (f s) t) :
    Moves (Sys2Proof.Machine.act f :: P) s t :=
  (Moves.act hk).append hf h

/-! ### Exchanges and phases -/

@[simp] theorem atPhase_atPhase (p q : Phase) (s : State) : atPhase p (atPhase q s) = atPhase p s := rfl

theorem xchgN_atPhase (p : Phase) (ts : List Byte) (s : State) : xchgN ts (atPhase p s) = atPhase p (xchgN ts s) := by
  induction ts generalizing s with
  | nil => rfl
  | cons t ts ih => exact ih (xchg t s)

theorem replies_atPhase (p : Phase) (ts : List Byte) (s : State) : replies ts (atPhase p s) = replies ts s := by
  induction ts generalizing s with
  | nil => rfl
  | cons t ts ih => exact congrArg (reply t s :: ·) (ih (xchg t s))

theorem xchgN_filler (ts : List Byte) (s : State) : (xchgN ts s).filler = s.filler := by rw [xchgN_eq]

/-- The exchanges of one byte string end in its last position with all its bytes exchanged, and `next` takes the bytes received. -/
theorem exchanges_moves {at_ : Nat → Phase} {next : List Byte → List Advance} (ts : List Byte) {t : Byte} {k : Nat}
    {got : List Byte} (hf : s.fault = none)
    (h : Moves (next (got ++ replies (t :: ts) s)) (atPhase (at_ (k + ts.length)) (xchgN (t :: ts) s)) u) :
    Moves (exchanges at_ k (t :: ts) got next) s u := by
  induction ts generalizing s t k got with
  | nil => exact .cons (by exact hf) rfl h
  | cons b ts ih =>
    refine .cons (by exact hf) rfl (ih (by exact hf) ?_)
    have hp : k + 1 + ts.length = k + (ts.length + 1) := by omega
    rw [replies_atPhase, xchgN_atPhase, atPhase_atPhase, hp, List.append_assoc]
    exact h

/-- The same for a byte string read from the state. -/
theorem exchangesOf_moves {at_ : Nat → Phase} {ts : State → List Byte} {next : List Byte → List Advance} {t : Byte} {l : List Byte}
    (hts : ts s = t :: l) (hf : s.fault = none)
    (h : Moves (next (replies (t :: l) s)) (atPhase (at_ l.length) (xchgN (t :: l) s)) u) :
    Moves (exchangesOf at_ ts next) s u := by
  refine .cons (by simp [hts, hf]) (by simp [hts]) ?_
  simp only [hts]
  cases l with
  | nil => exact h
  | cons b l =>
    refine exchanges_moves l (by exact hf) ?_
    rw [replies_atPhase, xchgN_atPhase, atPhase_atPhase, Nat.add_comm]
    exact h

/-- And for an empty one. -/
theorem exchangesOf_moves_nil {at_ : Nat → Phase} {ts : State → List Byte} {next : List Byte → List Advance} (hts : ts s = [])
    (hf : s.fault = none) (h : Moves (next []) s u) : Moves (exchangesOf at_ ts next) s u := by
  refine .cons (by simp [hts, hf]) (by simp [hts]) ?_
  simp only [hts]
  exact h

/-- The positions of an exchange: after `k + 1` advances `k + 1` bytes are exchanged and the position is that of byte `k`. -/
theorem exchanges_position {at_ : Nat → Phase} {next : List Byte → List Advance} {ts : List Byte} {rest : List Advance}
    {j k : Nat} {got : List Byte} (hf : s.fault = none) (hk : k < ts.length) :
    (Position.advance^[k + 1] ⟨s, exchanges at_ j ts got next ++ rest⟩).state =
      atPhase (at_ (j + k)) (xchgN (ts.take (k + 1)) s) := by
  induction k generalizing s ts j got rest with
  | zero =>
    match ts, hk with
    | t :: ts, _ => rfl
  | succ k ih =>
    match ts, hk with
    | t :: ts, hk =>
      have hf' : (atPhase (at_ j) (xchg t s)).fault = none := hf
      rw [Function.iterate_succ_apply]
      have e : Position.advance ⟨s, exchanges at_ j (t :: ts) got next ++ rest⟩ =
          ⟨atPhase (at_ j) (xchg t s), exchanges at_ (j + 1) ts (got ++ [reply t s]) next ++ rest⟩ := by
        simp [exchanges, Position.advance, atPhase, xchg, hf]
      rw [e, ih hf' (by simpa using hk), xchgN_atPhase, atPhase_atPhase, Nat.add_right_comm, Nat.add_assoc]
      rfl

/-- A statement or a transfer that raises no fault is one advance. -/
theorem advance_cons {more : State → List Advance} {rest : List Advance} (hf : (f s).fault = none) :
    Position.advance ⟨s, .mk f more :: rest⟩ = ⟨f s, more s ++ rest⟩ := by simp [Position.advance, hf]

/-- All the exchanges of a byte string are made after as many advances, and what is done with the bytes received is next. -/
theorem exchanges_done {at_ : Nat → Phase} {next : List Byte → List Advance} {rest : List Advance} (ts : List Byte) {t : Byte}
    {k : Nat} {got : List Byte} (hf : s.fault = none) :
    Position.advance^[ts.length + 1] ⟨s, exchanges at_ k (t :: ts) got next ++ rest⟩ =
      ⟨atPhase (at_ (k + ts.length)) (xchgN (t :: ts) s), next (got ++ replies (t :: ts) s) ++ rest⟩ := by
  induction ts generalizing s t k got with
  | nil => exact advance_cons (f := fun s => atPhase (at_ k) (xchg t s)) hf
  | cons b ts ih =>
    have e : Position.advance ⟨s, exchanges at_ k (t :: b :: ts) got next ++ rest⟩ =
        ⟨atPhase (at_ k) (xchg t s), exchanges at_ (k + 1) (b :: ts) (got ++ [reply t s]) next ++ rest⟩ := advance_cons (by exact hf)
    rw [List.length_cons, Function.iterate_succ_apply, e, ih (by exact hf), xchgN_atPhase, replies_atPhase, atPhase_atPhase,
      List.append_assoc, show k + 1 + ts.length = k + (ts.length + 1) by omega]
    rfl

/-- The register `crc` takes two advances a bit (rule R122). -/
theorem crcBits_position (bits : List Bool) {rest : List Advance} (hf : s.fault = none) :
    Position.advance^[2 * bits.length] ⟨s, bits.flatMap crcBitSeq ++ rest⟩ = ⟨{ s with crc := crcBits s.crc bits }, rest⟩ := by
  induction bits generalizing s with
  | nil => rfl
  | cons d bits ih =>
    have e1 : ∀ Q, Position.advance ⟨s, crcBitSeq d ++ Q⟩ = ⟨{ s with crc := s.crc <<< 1 }, act (fun t => if d ^^ s.crc.msb
      then { t with crc := t.crc ^^^ Config.crc7Poly } else t) :: Q⟩ := fun _ => advance_cons (by exact hf)
    have e2 : ∀ Q, Position.advance ⟨{ s with crc := s.crc <<< 1 }, act (fun t => if d ^^ s.crc.msb
        then { t with crc := t.crc ^^^ Config.crc7Poly } else t) :: Q⟩ = ⟨{ s with crc := crcShift s.crc d }, Q⟩ := fun Q => by
      rw [crcShift]
      cases d ^^ s.crc.msb <;> exact advance_cons (by exact hf)
    rw [List.length_cons, List.flatMap_cons, List.append_assoc, show 2 * (bits.length + 1) = 2 * bits.length + 1 + 1 by omega,
      Function.iterate_succ_apply, Function.iterate_succ_apply, e1, e2, ih (by exact hf)]
    rfl

/-- `Frame` takes 82 advances: the clearing of `crc`, two for each of the 40 bits, the write of `frame`. -/
theorem frameSeq_position (idx : BitVec 6) (arg : Word32) {rest : List Advance} (hf : s.fault = none) :
    Position.advance^[82] ⟨s, frameSeq idx arg ++ rest⟩ = ⟨buildFrame idx arg s, rest⟩ := by
  have e1 : Position.advance ⟨s, frameSeq idx arg ++ rest⟩ = ⟨{ s with crc := 0 }, (messageBits (frameBody idx arg)).flatMap crcBitSeq ++
      (act (fun s => { s with frame := frameBytes idx arg }) :: rest)⟩ := by
    rw [frameSeq, crcSeq, List.append_assoc]; exact advance_cons (by exact hf)
  have e2 := crcBits_position (s := { s with crc := 0 }) (messageBits (frameBody idx arg))
    (rest := act (fun s => { s with frame := frameBytes idx arg }) :: rest) hf
  have hl : 2 * (messageBits (frameBody idx arg)).length = 80 := rfl
  rw [hl] at e2
  rw [show 82 = 1 + (80 + 1) from rfl, Function.iterate_add_apply, Function.iterate_succ_apply _ 80, e1, e2]
  exact advance_cons (f := fun s => { s with frame := frameBytes idx arg }) hf

/-! ### The operations -/

theorem deselectSeq_moves (hf : s.fault = none) : Moves deselectSeq s (deselect s) :=
  .step (by exact hf) rfl (.act rfl)

theorem crcBitSeq_moves (d : Bool) (hf : s.fault = none) : Moves (crcBitSeq d) s { s with crc := crcShift s.crc d } := by
  refine .cons (by exact hf) rfl ?_
  rw [crcShift]
  cases d ^^ s.crc.msb
  · exact .act rfl
  · exact .act rfl

theorem crcBits_moves (bits : List Bool) (hf : s.fault = none) :
    Moves (bits.flatMap crcBitSeq) s { s with crc := crcBits s.crc bits } := by
  induction bits generalizing s with
  | nil => exact .nil hf
  | cons d bits ih => exact (crcBitSeq_moves d hf).append (by exact hf) (ih (by exact hf))

theorem crcSeq_moves (bytes : List Byte) (hf : s.fault = none) : Moves (crcSeq bytes) s (computeCrc bytes s) :=
  .step (by exact hf) rfl (crcBits_moves _ (by exact hf))

theorem frameSeq_moves (idx : BitVec 6) (arg : Word32) (hf : s.fault = none) : Moves (frameSeq idx arg) s (buildFrame idx arg s) :=
  (crcSeq_moves _ hf).append (by exact hf) (.act rfl)

theorem issueCommandSeq_moves (idx : BitVec 6) (arg : Word32) (hf : s.fault = none) :
    Moves (issueCommandSeq idx arg) s (issueCommand idx arg s) :=
  ((frameSeq_moves idx arg hf).append (by exact hf) (.act rfl)).append (by exact hf)
    (exchanges_moves (s := select (buildFrame idx arg s)) _ hf (.nil ((xchgN_fault _).trans hf)))

theorem pollSeq_moves (k : Nat) (hf : s.fault = none) : Moves (pollSeq k) s (pollLoop k s) := by
  induction k generalizing s with
  | zero => exact .act (by simp [raise_of_none hf, afterFatal])
  | succ k ih =>
    refine .cons (by exact hf) rfl (.step (by exact hf) rfl (.transfer (by exact hf) ?_))
    rw [pollLoop]
    cases hb : isStatus (reply Config.filler s) with
    | true => exact .act rfl
    | false => exact .transfer (by exact hf) (ih (by exact hf))

theorem pollStatusSeq_moves (hf : s.fault = none) : Moves pollStatusSeq s (pollStatus s) :=
  .step (by exact hf) rfl (pollSeq_moves _ (by exact hf))

theorem respBSeq_moves (hf : s.fault = none) : Moves respBSeq s (respB s) :=
  (pollStatusSeq_moves hf).andThen fun _ => .act rfl

theorem respCDSeq_moves (hf : s.fault = none) : Moves respCDSeq s (respCD s) :=
  (pollStatusSeq_moves hf).andThen fun h => exchanges_moves _ h (.act rfl)

theorem respShapeSeq_moves (shape : Shape) (hf : s.fault = none) : Moves (respShapeSeq shape) s (respShape shape s) := by
  cases shape with
  | a => exact pollStatusSeq_moves hf
  | b => exact respBSeq_moves hf
  | cd => exact respCDSeq_moves hf
  | other code => exact .act (by simp [raise_of_none hf, afterFatal])

theorem transactASeq_moves (idx : BitVec 6) (arg : Word32) (hf : s.fault = none) :
    Moves (transactASeq idx arg) s (transactA idx arg s) :=
  ((issueCommandSeq_moves idx arg hf).andThen pollStatusSeq_moves).andThen deselectSeq_moves

theorem transactCDSeq_moves (idx : BitVec 6) (arg : Word32) (hf : s.fault = none) :
    Moves (transactCDSeq idx arg) s (transactCD idx arg s) :=
  ((issueCommandSeq_moves idx arg hf).andThen respCDSeq_moves).andThen deselectSeq_moves

theorem checkR1_filler (idx : BitVec 6) (s : State) : (checkR1 idx s).filler = s.filler := by
  unfold checkR1; split
  · cases h : s.fault <;> simp [raise, h]
  · rfl

theorem openedSeq_moves (idx : BitVec 6) (arg : Word32) (shape : Shape) (hf : s.fault = none) :
    Moves (openedSeq idx arg shape) s (((issueCommand idx arg s).andThen (respShape shape)).andThen (checkR1 idx)) :=
  ((issueCommandSeq_moves idx arg hf).andThen (respShapeSeq_moves shape)).andThen fun _ => .act (checkR1_filler idx _)

/-- The bytes of a block: afterwards `buf` holds them; which position is held then depends on whether there are any. -/
theorem blockBytes_moves (n : Nat) (hf : s.fault = none) :
    ∃ v, Moves (exchangesOf .pData (fun s => s.filler.take n) fun data => [act fun s => { s with buf := data ++ s.buf.drop n }]) s v ∧
      ∀ p, atPhase p v =
        atPhase p { xchgN (s.filler.take n) s with buf := replies (s.filler.take n) s ++ (xchgN (s.filler.take n) s).buf.drop n } := by
  cases h : s.filler.take n with
  | nil => exact ⟨_, exchangesOf_moves_nil h hf (.act rfl), fun p => rfl⟩
  | cons t ts =>
    exact ⟨atPhase (.pData ts.length)
        { xchgN (t :: ts) s with buf := replies (t :: ts) s ++ (xchgN (t :: ts) s).buf.drop n },
      exchangesOf_moves h hf (.act rfl), fun p => rfl⟩

theorem receiveBlockSeq_moves (n : Nat) (hf : s.fault = none) (hk : s.filler = Config.fillerBuffer) :
    Moves (receiveBlockSeq n) s (receiveBlock n s) := by
  obtain ⟨v, hv, he⟩ := blockBytes_moves n hf
  have hvf : v.fault = none := by
    have := congrArg State.fault (he .pDesel)
    exact this.trans ((xchgN_fault _).trans hf)
  have hvk : v.filler = Config.fillerBuffer := hv.filler.trans hk
  refine hv.append hvf ?_
  have e : receiveBlock n s = atPhase (.pCrc 1) (xchgN (v.filler.take Config.blockCrcBytes) v) := by
    rw [receiveBlock, ← xchgN_atPhase, ← xchgN_atPhase, atPhase_atPhase, he, hv.filler, xchgN_eq (s.filler.take n)]
    rfl
  rw [e, hvk]
  exact exchangesOf_moves (t := Config.filler) (l := [Config.filler]) (by rw [hvk]; rfl) hvf (.nil ((xchgN_fault _).trans hvf))

theorem afterBlockSeq_moves (n : Nat) (k : AfterBlock) (hf : s.fault = none) :
    Moves (afterBlockSeq n k) s (afterBlock n k s) := by
  cases k with
  | fetchOnly => exact .act rfl
  | initCsd => exact (deselectSeq_moves hf).append (by exact hf) (.step (by exact hf) rfl (.act rfl))
  | _ => exact (deselectSeq_moves hf).append (by exact hf) (.act rfl)

theorem afterTokenSeq_moves (k : AfterToken) (hf : s.fault = none) (hk : s.filler = Config.fillerBuffer) :
    Moves (afterTokenSeq k) s (afterToken k s) := by
  cases k with
  | ret => exact .act rfl
  | block n k =>
    exact (receiveBlockSeq_moves n hf hk).append ((receiveBlock_fault n).trans hf) (afterBlockSeq_moves n k ((receiveBlock_fault n).trans hf))

theorem raise_filler (r : Fatal) (s : State) : (raise r s).filler = s.filler := by cases h : s.fault <;> simp [raise, h]

/-- The test of a bound and what follows it. -/
theorem boundTest_moves {bound : State → Option Nat} {n : Nat} {loop : LoopName} (hf : s.fault = none) (h : Moves P s t) :
    Moves (boundTest bound n loop :: P) s (if bound s = some n then raise (.timeout loop) s else t) := by
  have h0 : Moves [boundTest bound n loop] s (if bound s = some n then raise (.timeout loop) s else s) :=
    .act (by split; exacts [raise_filler _ _, rfl])
  by_cases hb : bound s = some n
  · rw [if_pos hb] at h0 ⊢
    exact h0.stop (by rw [raise_of_none hf]; rfl)
  · rw [if_neg hb] at h0 ⊢
    exact h0.append hf h

theorem backToHead_moves (hf : s.fault = none) : Moves [backToHead] s s := .transfer hf (.nil hf)

theorem waitTokenSeq_moves (n : Nat) (k : AfterToken) (hf : s.fault = none) (hk : s.filler = Config.fillerBuffer) :
    Moves (waitTokenSeq n k) s (waitToken n k s) := by
  let u := atPhase .pToken (xchg Config.filler s)
  refine .cons (by exact hf) rfl (.step (by exact hf) rfl (.transfer (by exact hf) ?_))
  show Moves (if reply Config.filler s = s.cfg.startToken then act leaveLoop :: afterTokenSeq k
      else [boundTest (·.cfg.tokenWaitMax) (n + 1) .token, backToHead]) (waitAt (.token (n + 1) k) u)
    (if reply Config.filler s = s.cfg.startToken then afterToken k { u with waiting := none }
      else if s.cfg.tokenWaitMax = some (n + 1) then raise (.timeout .token) u else waitAt (.token (n + 1) k) u)
  split
  · exact .step (f := leaveLoop) (by exact hf) rfl (afterTokenSeq_moves k hf hk)
  · have h := boundTest_moves (bound := (·.cfg.tokenWaitMax)) (n := n + 1) (loop := .token)
      (s := waitAt (.token (n + 1) k) u) hf (backToHead_moves hf)
    rw [raise_of_none (by exact hf)] at h ⊢
    exact h

/-- `n <- 0`: the count that the loop starts from is written where the turn writes it again. -/
theorem tokenSeq_moves (k : AfterToken) (hf : s.fault = none) (hk : s.filler = Config.fillerBuffer) :
    Moves (tokenSeq k) s (waitToken 0 k s) := by
  have e : waitToken 0 k (waitAt (.token 0 k) s) = waitToken 0 k s := by
    rw [waitToken, waitToken]
    rw [raise_of_none (s := atPhase .pToken (xchg Config.filler s)) hf, raise_of_none (by exact hf)]; rfl
  exact e ▸ .step (by exact hf) rfl (waitTokenSeq_moves 0 k (by exact hf) hk)

theorem sectorReadSeq_moves (k : AfterBlock) (index : Word32) (hf : s.fault = none) (hk : s.filler = Config.fillerBuffer) :
    Moves (sectorReadSeq k index) s (sectorRead k index s) :=
  have h := openedSeq_moves 17 index .a hf
  h.andThen fun hf => tokenSeq_moves _ hf (h.filler.trans hk)

theorem regReadSeq_moves (k : AfterBlock) (idx : BitVec 6) (shape : Shape) (n : Nat) (hf : s.fault = none)
    (hk : s.filler = Config.fillerBuffer) : Moves (regReadSeq k idx shape n) s (regRead k idx shape n s) := by
  cases shape with
  | other code => exact .act (raise_filler _ _)
  | a => exact (openedSeq_moves idx _ .a hf).andThen fun h => tokenSeq_moves _ h ((openedSeq_moves idx _ .a hf).filler.trans hk)
  | b => exact (openedSeq_moves idx _ .b hf).andThen fun h => tokenSeq_moves _ h ((openedSeq_moves idx _ .b hf).filler.trans hk)
  | cd =>
    exact (openedSeq_moves idx _ .cd hf).andThen fun h => tokenSeq_moves _ h ((openedSeq_moves idx _ .cd hf).filler.trans hk)

theorem appRegReadSeq_moves (k : AfterBlock) (idx : BitVec 6) (shape : Shape) (n : Nat) (hf : s.fault = none)
    (hk : s.filler = Config.fillerBuffer) : Moves (appRegReadSeq k idx shape n) s (appRegRead k idx shape n s) :=
  have h := transactASeq_moves 55 Config.zeroArg hf
  h.andThen fun hf => regReadSeq_moves k idx shape n hf (h.filler.trans hk)

theorem sendBlockSeq_moves (data : List Byte) (hf : s.fault = none) : Moves (sendBlockSeq data) s (sendBlock data s) := by
  let accept (s : State) : State := atPhase .pWResp { xchg Config.filler s with wresp := reply Config.filler s }
  let s1 := atPhase .pWToken (xchg s.cfg.startToken (atPhase .pGap (xchg Config.filler s)))
  let s2 := atPhase (.pWCrc 1) (xchgN [s.cfg.writeCrc0, s.cfg.writeCrc1] (xchgN data s1))
  have hcfg : (xchgN data s1).cfg = s.cfg := by rw [xchgN_eq]; rfl
  have e : sendBlock data s = accept s2 := by
    have : sendBlock data s = accept (atPhase (.pWCrc 1) (xchgN [s.cfg.writeCrc0, s.cfg.writeCrc1]
        (atPhase (.pWData (data.length - 1)) (xchgN data s1)))) := by
      show accept (atPhase (.pWCrc 1) (xchgN [(xchgN data s1).cfg.writeCrc0, (xchgN data s1).cfg.writeCrc1] _)) = _
      rw [hcfg]
      rfl
    rw [this, xchgN_atPhase, atPhase_atPhase]
  have h1 : s1.fault = none := hf
  have hd : ∃ v, Moves (exchanges .pWData 0 data [] fun _ => []) s1 v ∧ ∃ p, v = xchgN data s1 ∨ v = atPhase p (xchgN data s1) := by
    cases data with
    | nil => exact ⟨s1, .nil h1, .pDesel, .inl rfl⟩
    | cons t ts => exact ⟨_, exchanges_moves ts h1 (.nil ((xchgN_fault _).trans h1)), _, .inr rfl⟩
  obtain ⟨v, hv, p, hp⟩ := hd
  have hvf : v.fault = none := by rcases hp with rfl | rfl <;> exact (xchgN_fault _).trans h1
  have hvc : v.cfg = s.cfg := by rcases hp with rfl | rfl <;> exact hcfg
  have hv2 : atPhase (.pWCrc 1) (xchgN [s.cfg.writeCrc0, s.cfg.writeCrc1] v) = s2 := by
    rcases hp with rfl | rfl
    · rfl
    · rw [xchgN_atPhase, atPhase_atPhase]
  rw [e, ← hv2, sendBlockSeq, List.append_assoc, List.append_assoc]
  refine Moves.append (t := s1) (.step (by exact hf) rfl (.act rfl)) h1 (hv.append hvf ?_)
  exact Moves.append (exchangesOf_moves (t := s.cfg.writeCrc0) (l := [s.cfg.writeCrc1]) (by rw [hvc]) hvf
    (.nil ((xchgN_fault _).trans hvf))) ((xchgN_fault _).trans hvf) (.act (f := accept) rfl)

theorem checkWresp_filler (s : State) : (checkWresp s).filler = s.filler := by
  unfold checkWresp; split
  · exact raise_filler _ _
  · rfl

theorem busyWaitSeq_moves (n : Nat) (hf : s.fault = none) : Moves (busyWaitSeq n) s (busyWait n s) := by
  let u := atPhase .pBusy (xchg Config.filler s)
  refine .cons (by exact hf) rfl (.step (by exact hf) rfl (.transfer (by exact hf) ?_))
  show Moves (if reply Config.filler s = Config.filler then act leaveLoop :: deselectSeq ++ [act checkWresp, act (complete .done)]
      else [boundTest (·.cfg.busyWaitMax) (n + 1) .busy, backToHead]) (waitAt (.busy (n + 1)) u)
    (if reply Config.filler s = Config.filler then (checkWresp (deselect { u with waiting := none })).andThen (complete .done)
      else if s.cfg.busyWaitMax = some (n + 1) then raise (.timeout .busy) u else waitAt (.busy (n + 1)) u)
  split
  · exact (Moves.step (f := leaveLoop) (by exact hf) rfl (deselectSeq_moves (by exact hf))).append (by exact hf)
      (Moves.andThen (P := [_]) (Q := [_]) (.act (checkWresp_filler _)) fun _ => .act rfl)
  · have h := boundTest_moves (bound := (·.cfg.busyWaitMax)) (n := n + 1) (loop := .busy)
      (s := waitAt (.busy (n + 1)) u) hf (backToHead_moves hf)
    rw [raise_of_none (by exact hf)] at h ⊢
    exact h

/-- `n <- 0`, as in `tokenSeq_moves`. -/
theorem busySeq_moves (hf : s.fault = none) : Moves (act (waitAt (.busy 0)) :: busyWaitSeq 0) s (busyWait 0 s) := by
  have e : busyWait 0 (waitAt (.busy 0) s) = busyWait 0 s := by
    rw [busyWait, busyWait]
    rw [raise_of_none (s := atPhase .pBusy (xchg Config.filler s)) hf, raise_of_none (by exact hf)]; rfl
  exact e ▸ .step (by exact hf) rfl (busyWaitSeq_moves 0 (by exact hf))

theorem sectorWriteSeq_moves (index : Word32) (data : List Byte) (hf : s.fault = none) :
    Moves (sectorWriteSeq index data) s (sectorWrite index data s) :=
  ((openedSeq_moves 24 index .a hf).andThen (sendBlockSeq_moves data)).andThen busySeq_moves

/-! ### INIT -/

theorem xchg_times_moves (n : Nat) (hf : s.fault = none) :
    Moves (List.replicate n (act (xchg Config.filler))) s (xchgN (List.replicate n Config.filler) s) := by
  induction n generalizing s with
  | zero => exact .nil hf
  | succ n ih => exact .step (by exact hf) rfl (ih (by exact hf))

theorem initResetSeq_moves (hf : s.fault = none) : Moves (act (enter .iReset) :: initResetSeq) s (initReset s) :=
  .step (by exact hf) rfl (Moves.append (.append (.act rfl) (by exact hf)
    (xchg_times_moves _ (by exact hf))) ((xchgN_fault _).trans hf) (.act rfl))

theorem goIdleSeq_moves (hf : s.fault = none) : Moves (act (enter .iGoIdle) :: goIdleSeq) s (goIdle s) :=
  .step (by exact hf) rfl ((transactASeq_moves 0 Config.zeroArg (by exact hf)).andThen fun _ => .act (by
    split
    · rfl
    · exact raise_filler _ _))

theorem sendIfCondSeq_moves (hf : s.fault = none) : Moves (act (enter .iIfCond) :: sendIfCondSeq) s (sendIfCond s) :=
  .step (by exact hf) rfl ((transactCDSeq_moves 8 Config.checkArg (by exact hf)).andThen fun _ => .act (by
    split
    · rfl
    · exact raise_filler _ _))

theorem readOcrSeq_moves (hf : s.fault = none) : Moves readOcrSeq (enter .iReadOcr s) (readOcrState s) :=
  (transactCDSeq_moves 58 Config.zeroArg (by exact hf)).andThen fun _ => .act rfl

theorem byteAddressingSeq_moves (hf : s.fault = none) : Moves byteAddressingSeq s (byteAddressing s) := by
  refine Moves.andThen (P := [_]) (Q := [_]) (.transfer hf ?_) fun _ => .act (raise_filler _ _)
  cases s.cfg.initCmd16Issued
  · exact .nil hf
  · exact transactASeq_moves 16 _ hf

theorem terminalSeq_moves (hf : s.fault = none) (hk : s.filler = Config.fillerBuffer) :
    Moves terminalSeq (enter .iTerminal s) (terminal s) := by
  refine .step (by exact hf) rfl (.transfer (by exact hf) ?_)
  rw [terminal]
  generalize hu : ({ enter .iTerminal s with initialized := true } : State) = u
  have hf : u.fault = none := hu ▸ hf
  cases hc : u.cfg.initFetchCsd
  · exact Moves.act (f := complete .done) rfl
  · exact regReadSeq_moves .initCsd 9 .a 16 hf (hu ▸ hk)

/-- State Branch and, unless it ends in the fault, the transfer to Terminal and Terminal. -/
theorem branchSeq_moves (hf : s.fault = none) (hk : s.filler = Config.fillerBuffer) :
    Moves (act (enter .iBranch) :: branchSeq ++ terminalSeq) s ((branch s).andThen terminal) := by
  refine .step (P := branchSeq ++ terminalSeq) (by exact hf) rfl ?_
  by_cases hc : (decodeOcr s.cfg.layouts.ocr s.ocrRaw).ccs = 1
  · have hb : branch s = enter .iBranch s := if_pos hc
    rw [hb, andThen_of_none (by exact hf)]
    refine .append (t := enter .iTerminal s) (.transfer (by exact hf) ?_) (by exact hf)
      (terminalSeq_moves (s := enter .iBranch s) hf hk)
    split
    · exact .act rfl
    · exact absurd hc ‹_›
  · have hb : branch s = byteAddressing (enter .iBranch s) := if_neg hc
    rw [hb]
    refine .andThen (.transfer (by exact hf) ?_) fun h => absurd h ?_
    · split
      · exact absurd ‹_› hc
      · exact byteAddressingSeq_moves (by exact hf)
    · rw [byteAddressing]
      generalize (if (enter .iBranch s).cfg.initCmd16Issued then transactA 16 Config.blocklenArg (enter .iBranch s) else enter .iBranch s) = u
      cases hu : u.fault with
      | none => rw [andThen_of_none hu, raise_of_none hu]; simp [afterFatal]
      | some r => rw [andThen_of_fault hu, hu]; simp

theorem afterActivateSeq_moves (hf : s.fault = none) (hk : s.filler = Config.fillerBuffer) :
    Moves afterActivateSeq (enter .iReadOcr s) (afterActivate s) := by
  have h := readOcrSeq_moves hf
  have e : afterActivate s = (readOcrState s).andThen fun s => (branch s).andThen terminal := by
    rw [afterActivate]
    cases hr : (readOcrState s).fault with
    | none => rw [andThen_of_none hr, andThen_of_none hr]
    | some r => rw [andThen_of_fault hr, andThen_of_fault hr, andThen_of_fault hr]
  exact e ▸ h.andThen fun hf => branchSeq_moves hf (h.filler.trans hk)

/-! During an iteration of the activation loop its count stands in `State.waiting`, at which no transaction looks. -/

/-- `f` does the same whatever stands in `waiting`, and leaves that there unless it raises a fault. -/
def BlindToWait (f : State → State) : Prop :=
  ∀ (s : State) (w : Option Wait), s.fault = none →
    ((f s).fault = none → f { s with waiting := w } = { f s with waiting := w }) ∧
      ∀ r, (f s).fault = some r → f { s with waiting := w } = f s

theorem BlindToWait.andThen {g : State → State} (hF : BlindToWait f) (hG : BlindToWait g) : BlindToWait fun s => (f s).andThen g := by
  intro s w hf
  cases h : (f s).fault with
  | none =>
    simp only [andThen_of_none h, (hF s w hf).1 h, andThen_of_none (s := { f s with waiting := w }) h]
    exact hG (f s) w h
  | some r =>
    simp only [andThen_of_fault h, (hF s w hf).2 r h]
    exact ⟨fun h' => absurd (h.symm.trans h') nofun, fun _ _ => trivial⟩

theorem BlindToWait.keeps_none (h : BlindToWait f) (hf : s.fault = none) (hw : s.waiting = none) (hft : (f s).fault = none) :
    { f s with waiting := none } = f s := by
  have hs : ({ s with waiting := none } : State) = s := by rw [← hw]
  exact ((h s none hf).1 hft).symm.trans (congrArg f hs)

theorem xchgN_blind (ts : List Byte) (w : Option Wait) (s : State) :
    xchgN ts { s with waiting := w } = { xchgN ts s with waiting := w } := by
  induction ts generalizing s with
  | nil => rfl
  | cons t ts ih => exact ih (xchg t s)

theorem issueCommand_blind (idx : BitVec 6) (arg : Word32) : BlindToWait (issueCommand idx arg) := by
  intro s w hf
  have h : (issueCommand idx arg s).fault = none := (xchgN_fault _).trans hf
  exact ⟨fun _ => congrArg (atPhase (.pFrame 5)) (xchgN_blind _ w (select (buildFrame idx arg s))),
    fun r h' => absurd (h.symm.trans h') nofun⟩

theorem pollLoop_blind (k : Nat) : BlindToWait (pollLoop k) := by
  intro s w hf
  induction k generalizing s with
  | zero =>
    simp only [pollLoop, raise_of_none hf, raise_of_none (s := { s with waiting := w }) hf]
    exact ⟨nofun, fun _ _ => rfl⟩
  | succ k ih =>
    have hr : reply Config.filler { s with waiting := w } = reply Config.filler s := rfl
    cases hb : isStatus (reply Config.filler s) with
    | true =>
      simp only [pollLoop, hr, hb, if_true]
      exact ⟨fun _ => rfl, fun r h => absurd (hf.symm.trans h) nofun⟩
    | false =>
      simp only [pollLoop, hr, hb, Bool.false_eq_true, if_false]
      exact ih _ hf

theorem transactA_blind (idx : BitVec 6) (arg : Word32) : BlindToWait (transactA idx arg) :=
  ((issueCommand_blind idx arg).andThen fun s w hf => pollLoop_blind _ { s with pollCnt := 0 } w hf).andThen fun _ _ hf =>
    ⟨fun _ => rfl, fun _ h => absurd (hf.symm.trans h) nofun⟩

/-- An iteration and its test, from the loop's head. -/
theorem activateSeq_moves (n : Nat) (w : Option Wait) (hf : s.fault = none) (hk : s.filler = Config.fillerBuffer) :
    Moves (activateSeq n) { enter .iActivate s with waiting := w } (activate n s) := by
  have h := (transactASeq_moves (s := { enter .iActivate s with waiting := w }) 55 Config.zeroArg (by exact hf)).andThen
    (transactASeq_moves 41 Config.hcsArg)
  have blind := (transactA_blind 55 Config.zeroArg).andThen (transactA_blind 41 Config.hcsArg)
  have e0 := blind.keeps_none (s := enter .iActivate { s with waiting := none }) hf rfl
  obtain ⟨e, e'⟩ := blind (enter .iActivate { s with waiting := none }) w hf
  beta_reduce at e e' e0
  rw [activate, activateOnce, prefixTransaction]
  generalize ((transactA 55 Config.zeroArg (enter .iActivate { s with waiting := none })).andThen (transactA 41 Config.hcsArg)) = u at e e' e0 ⊢
  cases hu : u.fault with
  | some r =>
    rw [andThen_of_fault hu]
    exact (e' r hu ▸ h).stop hu
  | none =>
    rw [andThen_of_none hu]
    have h : Moves _ _ { u with waiting := w } := e hu ▸ h
    refine h.append hu (.step (by exact hu) rfl (.transfer (by exact hu) ?_))
    have hk : u.filler = Config.fillerBuffer := h.filler.trans hk
    show Moves (if u.r1 = 0x00#8 then act (enter .iReadOcr) :: act leaveLoop :: afterActivateSeq
      else [boundTest (·.cfg.acmd41IterMax) (n + 1) .acmd41, act (delayMs Config.acmd41DelayMs), backToHead])
      (waitAt (.activate (n + 1)) u) _
    split
    · have h : Moves _ (leaveLoop (enter .iReadOcr (waitAt (.activate (n + 1)) u))) (afterActivate { u with waiting := none }) :=
        afterActivateSeq_moves (s := { u with waiting := none }) hu hk
      rw [e0 hu] at h
      exact .step (by exact hu) rfl (.step (by exact hu) rfl h)
    · have h := boundTest_moves (bound := (·.cfg.acmd41IterMax)) (n := n + 1) (loop := .acmd41)
        (s := waitAt (.activate (n + 1)) u) hu
        (.step (f := delayMs Config.acmd41DelayMs) (by exact hu) rfl (backToHead_moves (by exact hu)))
      rw [raise_of_none (by exact hu)] at h ⊢
      exact h

theorem initSeq_moves (hf : s.fault = none) (hk : s.filler = Config.fillerBuffer) : Moves initSeq s (runInit s) := by
  have h := ((initResetSeq_moves hf).append ((xchgN_fault _).trans hf) (goIdleSeq_moves ((xchgN_fault _).trans hf))).andThen
    sendIfCondSeq_moves
  refine h.andThen fun hf => ?_
  have hk := h.filler.trans hk
  generalize ((goIdle (initReset s)).andThen sendIfCond) = u at hf hk ⊢
  exact .step (by exact hf) rfl (.step (by exact hf) rfl (activateSeq_moves 0 (some (.activate 0)) hf hk))

/-- The next turn of the loop an operation stands in. -/
theorem resumeSeq_moves (w : Wait) (hf : s.fault = none) (hk : s.filler = Config.fillerBuffer) :
    Moves (resumeSeq w) s (resume w s) := by
  cases w with
  | token n k => exact waitTokenSeq_moves n k hf hk
  | busy n => exact busyWaitSeq_moves n hf
  | activate n => exact .step (by exact hf) rfl (activateSeq_moves n s.waiting hf hk)

/-! ### The rows -/

/-- A host operation: what it latches raises no fault and leaves the filler buffer alone. -/
theorem startOpSeq_moves {code : BitVec 4} {latch body : State → State} {seq : State → List Advance} (hf : s.fault = none)
    (hl : (latch { s with op := code }).fault = none ∧ (latch { s with op := code }).filler = s.filler)
    (h : Moves (seq (latch { s with op := code })) (latch { s with op := code }) (body (latch { s with op := code }))) :
    Moves (startOpSeq code latch seq) s (startOp code latch body s) := by
  refine .transfer hf ?_
  rw [startOp]
  cases hb : s.busy with
  | true => exact .nil hf
  | false =>
    refine .step (f := fun s => latch { s with op := code }) hl.1 hl.2 ?_
    generalize latch { s with op := code } = u at *
    cases hg : code != 0 && u.cfg.requireInit && !u.initialized with
    | true =>
      have h0 := Moves.last (s := u) (f := fun s =>
        if code != 0 && s.cfg.requireInit && !s.initialized then raise (.notInitialized code) s else s) (more := seq)
        (by simp only [hg, if_true]; exact raise_filler _ _)
        (.inl (by simp only [hg, if_true]; rw [raise_of_none hl.1]; rfl))
      simp only [hg, if_true] at h0 ⊢
      exact h0
    | false =>
      simp only [Bool.false_eq_true, if_false, hg]
      refine .cons (by simp only [hg, Bool.false_eq_true, if_false]; exact hl.1) (by simp only [hg, Bool.false_eq_true, if_false]) ?_
      simp only [hg, Bool.false_eq_true, if_false]
      exact h

theorem rejectOp_filler (what : Unimplemented) (s : State) : (rejectOp what s).filler = s.filler := by
  unfold rejectOp; split
  · rfl
  · exact raise_filler _ _

/-- A received format. -/
theorem receiveSeq_moves {bytes : List Byte} {get : State → List Byte} {body : State → State} {seq : State → List Advance}
    (hf : s.fault = none) (hg : get s = bytes) (h : Moves (seq s) (feed bytes s) (body (feed bytes s))) :
    Moves (receiveSeq get seq) s (receive bytes body s) := by
  refine .transfer hf ?_
  rw [receive]
  cases s.cs with
  | false => exact .nil hf
  | true => exact .step (f := fun s => feed (get s) s) (by exact hf) rfl (by rw [hg]; exact h)

end Sys2Proof.Machine
end

