-- ==== Sys2Proof/Laws/Walks.lean ====
section
/-! SUPPORT. What the advances of a step put on the link and at which positions (`10_state.md` rule R24), when the card's answers are
scripted in `State.rx`: one lemma for each way of putting lists of advances together, then one for each piece of a transaction. -/

namespace Sys2Proof.Machine

variable {s t u : State} {f : State → State} {P Q : List Advance} {w v : List (Seq × LinkEvent)}

theorem walk_add (m n : Nat) (p : Position) : p.walk (m + n) = p.walk m ++ (Position.advance^[m] p).walk n := by
  induction m generalizing p with
  | zero => rw [Nat.zero_add]; rfl
  | succ m ih => rw [Nat.succ_add, Position.walk, Position.walk, ih, List.append_assoc, Function.iterate_succ_apply]

/-- The advances `P`, made from `s`, end without a fault in `t` and put the events of `w` on the link at the positions beside them. -/
structure Walks (P : List Advance) (s t : State) (w : List (Seq × LinkEvent)) : Prop where
  fault : t.fault = none
  filler : t.filler = s.filler
  walk : ∀ rest, ∃ n, Position.advance^[n] ⟨s, P ++ rest⟩ = ⟨t, rest⟩ ∧ Position.walk n ⟨s, P ++ rest⟩ = w

theorem Walks.nil (h : s.fault = none) : Walks [] s s [] := ⟨h, rfl, fun _ => ⟨0, rfl, rfl⟩⟩

theorem Walks.append (hP : Walks P s t w) (hQ : Walks Q t u v) : Walks (P ++ Q) s u (w ++ v) := by
  refine ⟨hQ.fault, hQ.filler.trans hP.filler, fun rest => ?_⟩
  obtain ⟨m, hm, hw⟩ := hP.walk (Q ++ rest)
  obtain ⟨n, hn, hv⟩ := hQ.walk rest
  refine ⟨m + n, ?_, ?_⟩
  · rw [List.append_assoc, Nat.add_comm, Function.iterate_add_apply, hm, hn]
  · rw [List.append_assoc, walk_add, hw, hm, hv]

/-- An advance, with the events it puts on the link, and then the advances it puts in. -/
theorem Walks.cons {more : State → List Advance} (es : List LinkEvent) (hf : (f s).fault = none) (hk : (f s).filler = s.filler)
    (he : (f s).trace = es.reverse ++ s.trace) (h : Walks (more s) (f s) t w) :
    Walks [.mk f more] s t (es.map (fun e => ((f s).seq, e)) ++ w) := by
  refine ⟨h.fault, h.filler.trans hk, fun rest => ?_⟩
  obtain ⟨n, hn, hw⟩ := h.walk rest
  have ha : Position.advance ⟨s, [.mk f more] ++ rest⟩ = ⟨f s, more s ++ rest⟩ := advance_cons hf
  refine ⟨n + 1, by rw [Function.iterate_succ_apply, ha, hn], ?_⟩
  rw [Position.walk, ha, hw, Position.puts, ha]
  simp [he]

/-- A statement that puts nothing on the link. -/
theorem Walks.silent (hf : (f s).fault = none) (hk : (f s).filler = s.filler) (he : (f s).trace = s.trace) :
    Walks [act f] s (f s) [] := .cons [] hf hk he (.nil hf)

/-- A statement that puts one event on the link. -/
theorem Walks.put {e : LinkEvent} (hf : (f s).fault = none) (hk : (f s).filler = s.filler) (he : (f s).trace = e :: s.trace) :
    Walks [act f] s (f s) [((f s).seq, e)] := .cons [e] hf hk he (.nil hf)

/-- A statement that puts nothing on the link, then advances. -/
theorem Walks.step (hf : (f s).fault = none) (hk : (f s).filler = s.filler) (he : (f s).trace = s.trace)
    (h : Walks P (f s) t w) : Walks (act f :: P) s t w := (Walks.silent hf hk he).append h

theorem Walks.transfer {F : State → List Advance} (hf : s.fault = none) (h : Walks (F s) s t w) :
    Walks [Sys2Proof.Machine.transfer F] s t w := .cons [] hf rfl rfl h

theorem advance_done (n : Nat) (t : State) : Position.advance^[n] ⟨t, []⟩ = ⟨t, []⟩ := by
  induction n with
  | zero => rfl
  | succ n ih => rw [Function.iterate_succ_apply]; exact ih

/-- A list of advances has one end. -/
theorem ends_unique {p : Position} {m n : Nat} (hm : Position.advance^[m] p = ⟨s, []⟩) (hn : Position.advance^[n] p = ⟨t, []⟩) :
    s = t := by
  have h1 : Position.advance^[n + m] p = ⟨s, []⟩ := by rw [Function.iterate_add_apply, hm, advance_done]
  have h2 : Position.advance^[m + n] p = ⟨t, []⟩ := by rw [Function.iterate_add_apply, hn, advance_done]
  rw [Nat.add_comm, h2] at h1
  injection h1 with h1
  exact h1.symm

/-- The end that the operation gives is the one its walk has. -/
theorem Walks.end_eq (h : Walks P s t w) (hm : Moves P s u) : t = u := by
  obtain ⟨n, hn, -⟩ := h.walk []
  obtain ⟨m, hm⟩ := hm.reaches []
  exact ends_unique hn (by simpa using hm)

/-- The advances `P`, made from `s`, come to an end, with or without a fault, and put the events of `w` on the link at the positions
beside them. -/
def Finishes (P : List Advance) (s : State) (w : List (Seq × LinkEvent)) : Prop :=
  ∃ n t, Position.advance^[n] ⟨s, P⟩ = ⟨t, []⟩ ∧ Position.walk n ⟨s, P⟩ = w

theorem Walks.finishes (h : Walks P s t w) : Finishes P s w := by
  obtain ⟨n, hn, hw⟩ := h.walk []
  rw [List.append_nil] at hn hw
  exact ⟨n, t, hn, hw⟩

theorem Finishes.nil : Finishes [] s [] := ⟨0, s, rfl, rfl⟩

theorem Walks.then (hP : Walks P s t w) (hQ : Finishes Q t v) : Finishes (P ++ Q) s (w ++ v) := by
  obtain ⟨m, hm, hw⟩ := hP.walk Q
  obtain ⟨n, u, hn, hv⟩ := hQ
  exact ⟨m + n, u, by rw [Nat.add_comm, Function.iterate_add_apply, hm, hn], by rw [walk_add, hw, hm, hv]⟩

/-- An advance, with the events it puts on the link, and then the advances it puts in before those that follow. -/
theorem Finishes.cons {more : State → List Advance} (es : List LinkEvent) (hf : (f s).fault = none)
    (he : (f s).trace = es.reverse ++ s.trace) (h : Finishes (more s ++ Q) (f s) w) :
    Finishes (.mk f more :: Q) s (es.map (fun e => ((f s).seq, e)) ++ w) := by
  obtain ⟨n, t, hn, hw⟩ := h
  have ha : Position.advance ⟨s, .mk f more :: Q⟩ = ⟨f s, more s ++ Q⟩ := advance_cons hf
  refine ⟨n + 1, t, by rw [Function.iterate_succ_apply, ha, hn], ?_⟩
  rw [Position.walk, ha, hw, Position.puts, ha]
  simp [he]

/-- A statement that puts nothing on the link, then advances. -/
theorem Finishes.step (hf : (f s).fault = none) (he : (f s).trace = s.trace) (h : Finishes P (f s) w) : Finishes (act f :: P) s w :=
  .cons [] hf he h

theorem Finishes.transfer {F : State → List Advance} (hf : s.fault = none) (h : Finishes (F s ++ Q) s w) :
    Finishes (Sys2Proof.Machine.transfer F :: Q) s w := .cons [] hf rfl h

/-- Nothing follows a `raise` (rule R308). -/
theorem Finishes.raised (hf : (f s).fault.isSome = true) (he : (f s).trace = s.trace) : Finishes (act f :: Q) s [] := by
  have ha : Position.advance ⟨s, act f :: Q⟩ = ⟨f s, []⟩ := by simp [Position.advance, act, hf]
  refine ⟨1, f s, ha, ?_⟩
  rw [Position.walk, Position.puts, ha]
  simp [he, Position.walk]

theorem raise_isSome (r : Fatal) (s : State) : (raise r s).fault.isSome = true := by cases h : s.fault <;> simp [raise, h]

theorem raise_trace (r : Fatal) (s : State) : (raise r s).trace = s.trace := by cases h : s.fault <;> simp [raise, h]

/-! ### Exchanges -/

theorem atPhases_append {m : SeqState} {ps qs : List Phase} {es fs : List LinkEvent} (h : ps.length = es.length) :
    atPhases m (ps ++ qs) (es ++ fs) = atPhases m ps es ++ atPhases m qs fs := List.zipWith_append h

@[simp] theorem atPhases_nil (m : SeqState) : atPhases m [] [] = [] := rfl

@[simp] theorem atPhases_cons (m : SeqState) (p : Phase) (ps : List Phase) (e : LinkEvent) (es : List LinkEvent) :
    atPhases m (p :: ps) (e :: es) = (⟨m, some p⟩, e) :: atPhases m ps es := rfl

@[simp] theorem exchangeEvents_cons (t r : Byte) (ts rs : List Byte) :
    exchangeEvents (t :: ts) (r :: rs) = .x t r :: exchangeEvents ts rs := rfl

@[simp] theorem receiveEvents_cons (r : Byte) (rs : List Byte) :
    receiveEvents (r :: rs) = .x Config.filler r :: receiveEvents rs := rfl

/-- The exchanges of one byte string, each at its position. -/
theorem exchanges_walk {at_ : Nat → Phase} {next : List Byte → List Advance} {rest : List Byte} (ts : List Byte) {rs : List Byte}
    {b r : Byte} {k : Nat} {got : List Byte} (hf : s.fault = none) (hl : ts.length = rs.length)
    (h : s.rx = r :: (rs ++ rest))
    (hn : Walks (next (got ++ r :: rs)) (atPhase (at_ (k + ts.length)) (xchgN (b :: ts) s)) u w) :
    Walks (exchanges at_ k (b :: ts) got next) s u
      (atPhases s.seq.main ((List.range' k (ts.length + 1)).map at_) (exchangeEvents (b :: ts) (r :: rs)) ++ w) := by
  induction ts generalizing s b r k got rs with
  | nil =>
    match rs, hl with
    | [], _ =>
      have hb : reply b s = r := reply_cons h
      exact .cons [.x b r] (f := fun s => atPhase (at_ k) (xchg b s)) (by exact hf) rfl (by simp [xchg, hb]) (by rw [hb]; exact hn)
  | cons t ts ih =>
    match rs, hl with
    | r' :: rs, hl =>
      have hb : reply b s = r := reply_cons h
      have := Walks.cons (s := s) (f := fun s => atPhase (at_ k) (xchg b s)) (t := u)
        (more := fun s => exchanges at_ (k + 1) (t :: ts) (got ++ [reply b s]) next)
        [.x b r] (by exact hf) rfl (by simp [xchg, hb])
        (ih (s := atPhase (at_ k) (xchg b s)) (b := t) (r := r') (k := k + 1) (rs := rs) (got := got ++ [reply b s]) hf
          (by simpa using hl) (by simp [h])
          (by rw [hb, xchgN_atPhase, atPhase_atPhase, List.append_assoc, Nat.add_assoc, Nat.add_comm 1]; exact hn))
      exact this

/-- The exchanges of one byte string with nothing done with the bytes received. -/
theorem exchanges_walk' {at_ : Nat → Phase} {rest : List Byte} {ts rs : List Byte}
    (hne : ts ≠ []) (hf : s.fault = none) (hl : ts.length = rs.length) (h : s.rx = rs ++ rest) :
    Walks (exchanges at_ 0 ts [] fun _ => []) s (atPhase (at_ (ts.length - 1)) (xchgN ts s))
      (atPhases s.seq.main ((List.range ts.length).map at_) (exchangeEvents ts rs)) := by
  match ts, rs, hne, hl with
  | b :: ts, r :: rs, _, hl =>
    have := exchanges_walk (at_ := at_) (next := fun _ => []) (k := 0) (got := []) (b := b) ts hf (by simpa using hl) h
      (.nil ((xchgN_fault _).trans hf))
    rw [Nat.zero_add, List.append_nil, ← List.range_eq_range'] at this
    exact this

/-- The same for a byte string read from the state. -/
theorem exchangesOf_walk {at_ : Nat → Phase} {next : List Byte → List Advance} {ts : State → List Byte} {l rs rest : List Byte}
    (hts : ts s = l) (hne : l ≠ []) (hf : s.fault = none) (hl : l.length = rs.length) (h : s.rx = rs ++ rest)
    (hn : Walks (next rs) (atPhase (at_ (l.length - 1)) (xchgN l s)) u w) :
    Walks (exchangesOf at_ ts next) s u (atPhases s.seq.main ((List.range l.length).map at_) (exchangeEvents l rs) ++ w) := by
  match l, rs, hne, hl with
  | b :: ts', r :: rs, _, hl =>
    have hb : reply b s = r := reply_cons h
    have key : Walks (exchanges at_ 1 ts' [r] next) (atPhase (at_ 0) (xchg b s)) u
        (atPhases s.seq.main ((List.range' 1 ts'.length).map at_) (exchangeEvents ts' rs) ++ w) := by
      match ts', rs, hl with
      | [], [], _ => exact hn
      | c :: ts', r' :: rs, hl =>
        exact exchanges_walk (s := atPhase (at_ 0) (xchg b s)) (rest := rest) ts' hf (by simpa using hl)
          (by simp [h]) (by rw [xchgN_atPhase, atPhase_atPhase, Nat.add_comm]; exact hn)
    have := Walks.cons (s := s) (t := u)
      (f := fun s => match ts s with
        | [] => s
        | t :: _ => atPhase (at_ 0) (xchg t s))
      (more := fun s => match ts s with
        | [] => next []
        | t :: ts => exchanges at_ 1 ts [reply t s] next)
      [.x b r] (by simp only [hts]; exact hf) (by simp only [hts]; rfl) (by simp [hts, xchg, hb])
      (by simp only [hts, hb]; exact key)
    simp only [hts] at this
    rw [List.range_eq_range']
    exact this

/-! ### A command -/

theorem crcBits_walk (bits : List Bool) (hf : s.fault = none) :
    Walks (bits.flatMap crcBitSeq) s { s with crc := crcBits s.crc bits } [] := by
  induction bits generalizing s with
  | nil => exact .nil hf
  | cons d bits ih =>
    have h : Walks (crcBitSeq d) s { s with crc := crcShift s.crc d } [] := by
      refine .cons [] (by exact hf) rfl rfl ?_
      rw [crcShift]
      cases d ^^ s.crc.msb
      · exact .silent (by exact hf) rfl rfl
      · exact .silent (by exact hf) rfl rfl
    exact h.append (ih (by exact hf))

/-- `Frame` puts nothing on the link (rule R141). -/
theorem frameSeq_walk (idx : BitVec 6) (arg : Word32) (hf : s.fault = none) : Walks (frameSeq idx arg) s (buildFrame idx arg s) [] :=
  (Walks.step (f := fun s => { s with crc := 0 }) hf rfl rfl (crcBits_walk _ (by exact hf))).append
    (.silent (f := fun s => { s with frame := frameBytes idx arg }) (by exact hf) rfl rfl)

/-- The selection and the six bytes of the frame (rule R143). -/
theorem issueCommand_walk {idx : BitVec 6} {arg : Word32} {ans rest : List Byte} (hf : s.fault = none) (ha : ans.length = 6)
    (h : s.rx = ans ++ rest) :
    Walks (issueCommandSeq idx arg) s (issueCommand idx arg s)
      ((s.seq, .sel) :: atPhases s.seq.main ((List.range 6).map .pFrame) (exchangeEvents (frameBytes idx arg) ans)) :=
  ((frameSeq_walk idx arg hf).append (.put (f := select) (by exact hf) rfl rfl)).append
    (exchanges_walk' (s := select (buildFrame idx arg s)) (at_ := .pFrame) (ts := frameBytes idx arg) nofun hf ha.symm h)

/-- The status poll over `skip` and the status byte (rule R152). -/
theorem pollSeq_walk {k : Nat} {skip rest : List Byte} {status : Byte} (hf : s.fault = none) (hk : skip.length < k)
    (hc : s.pollCnt.toNat + skip.length < 15) (hs : ∀ b ∈ skip, isStatus b = false) (hst : isStatus status = true)
    (h : s.rx = skip ++ status :: rest) :
    Walks (pollSeq k) s (pollLoop k s)
      (atPhases s.seq.main ((List.range' (s.pollCnt.toNat + 1) (skip.length + 1)).map .pPoll) (receiveEvents (skip ++ [status]))) := by
  induction skip generalizing s k with
  | nil =>
    obtain ⟨k, rfl⟩ : ∃ j, k = j + 1 := ⟨k - 1, by simp at hk; omega⟩
    have hb : reply Config.filler s = status := reply_cons h
    refine .cons [.x Config.filler status] (by exact hf) rfl (by simp [xchg, hb])
      (.step (by exact hf) rfl rfl (.transfer (by exact hf) ?_))
    rw [pollLoop, hb]
    simp only [hst, if_true]
    exact .silent (by exact hf) rfl rfl
  | cons b skip ih =>
    obtain ⟨k, rfl⟩ : ∃ j, k = j + 1 := ⟨k - 1, by simp at hk; omega⟩
    have hb : reply Config.filler s = b := reply_cons h
    have hn : isStatus b = false := hs b (by simp)
    simp only [List.length_cons] at hk hc
    have hcnt : (s.pollCnt + 1).toNat = s.pollCnt.toNat + 1 := by
      rw [BitVec.toNat_add]; exact Nat.mod_eq_of_lt (by simp; omega)
    rw [pollLoop, hb]
    simp only [hn, Bool.false_eq_true, if_false]
    refine .cons [.x Config.filler b] (by exact hf) rfl (by simp [xchg, hb])
      (.step (by exact hf) rfl rfl (.transfer (by exact hf) ?_))
    rw [hb]
    simp only [hn, Bool.false_eq_true, if_false]
    have := ih (s := { atPhase (.pPoll (s.pollCnt.toNat + 1)) (xchg Config.filler s) with pollCnt := s.pollCnt + 1 }) (k := k) hf
      (by omega) (by simp only [hcnt]; omega) (fun x hx => hs x (by simp [hx])) (by simp [h])
    simp only [hcnt] at this
    exact .transfer (by exact hf) this

/-- A command and its status byte, the transaction still open (rules R143, R152). -/
theorem reply_walk {m : SeqState} {idx : BitVec 6} {arg : Word32} {c : CardReply} {rest : List Byte} (hf : s.fault = none)
    (hm : s.seq = ⟨m, none⟩) (hc : c.ok = true) (h : s.rx = c.bytes ++ rest) :
    Walks (issueCommandSeq idx arg ++ pollStatusSeq) s (afterReply idx arg c rest s) (c.walk m idx arg [] []) := by
  obtain ⟨h6, h7, hskip, hst⟩ := CardReply.ok_iff.mp hc
  have h' : s.rx = c.frameAns ++ (c.skip ++ (c.status :: rest)) := by simpa [CardReply.bytes] using h
  have e := command_rx (idx := idx) (arg := arg) hc hf h
  have hi : (issueCommand idx arg s).fault = none := (xchgN_fault _).trans hf
  rw [andThen_of_none hi] at e
  have hr := issueCommand_rx (idx := idx) (arg := arg) h6 h'
  have hw := (issueCommand_walk (idx := idx) (arg := arg) hf h6 h').append
    (.step (f := fun s => { s with pollCnt := 0 }) hi rfl rfl
      (pollSeq_walk (s := { issueCommand idx arg s with pollCnt := 0 }) (k := Config.respPollMax) (skip := c.skip)
        (status := c.status) (rest := rest) hi (by simp [Config.respPollMax]; omega) (by simp; omega) hskip hst (by rw [hr])))
  have ht : pollLoop Config.respPollMax { issueCommand idx arg s with pollCnt := 0 } = afterReply idx arg c rest s := e
  rw [ht] at hw
  have hq : (issueCommand idx arg s).seq.main = m := by rw [hr, hm]
  have hx : CardReply.walk m idx arg c [] [] = (⟨m, none⟩, .sel) ::
      (atPhases m ((List.range 6).map .pFrame) (exchangeEvents (frameBytes idx arg) c.frameAns) ++
        atPhases m ((List.range' 1 (c.skip.length + 1)).map .pPoll) (receiveEvents (c.skip ++ [c.status]))) := by
    have hl : ((List.range 6).map Phase.pFrame).length = (exchangeEvents (frameBytes idx arg) c.frameAns).length := by
      simp [exchangeEvents, frameBytes_length, h6]
    rw [CardReply.walk, replyPhases, List.append_nil, List.append_nil, atPhases_append hl, List.range'_eq_map_range, List.map_map]
    simp [outside, Function.comp_def, Nat.add_comm]
  rw [hx]
  simp only [hq, hm] at hw
  exact hw

/-- What comes after the status byte has positions of its own. -/
theorem CardReply.walk_append {m : SeqState} {idx : BitVec 6} {arg : Word32} {c : CardReply} {ps : List Phase} {es : List LinkEvent}
    (hc : c.ok = true) : c.walk m idx arg ps es = c.walk m idx arg [] [] ++ atPhases m ps es := by
  have hl : (replyPhases c.skip.length).length =
      (exchangeEvents (frameBytes idx arg) c.frameAns ++ receiveEvents (c.skip ++ [c.status])).length := by
    simp [replyPhases, exchangeEvents, receiveEvents, frameBytes_length, (CardReply.ok_iff.mp hc).1, Nat.add_comm 6]
  rw [CardReply.walk, CardReply.walk, List.append_nil, List.append_nil, atPhases_append hl, List.append_assoc]

theorem CardReply.wholeWalk_eq {m : SeqState} {idx : BitVec 6} {arg : Word32} {c : CardReply} {ps : List Phase} {es : List LinkEvent}
    (hc : c.ok = true) (hl : ps.length = es.length) :
    c.wholeWalk m idx arg ps es = c.walk m idx arg [] [] ++ (atPhases m ps es ++ [(⟨m, some .pDesel⟩, .desel)]) := by
  rw [CardReply.wholeWalk, walk_append hc, atPhases_append hl]
  rfl

/-- The deselection of a transaction that runs (rule R158). -/
theorem deselect_walk {p : Phase} (hf : s.fault = none) (hp : s.seq.phase = some p) :
    Walks deselectSeq s (afterDeselect s) [(⟨s.seq.main, some .pDesel⟩, .desel)] := by
  have h := (Walks.put (f := requestDeselect) (e := .desel) (by exact hf) rfl rfl).append
    (.silent (f := leaveTransaction) (s := requestDeselect s) (by exact hf) rfl rfl)
  have hd : (requestDeselect s).seq = ⟨s.seq.main, some .pDesel⟩ := by simp [requestDeselect, hp]
  rw [hd] at h
  exact h

/-- A whole Shape A transaction (rule R158). -/
theorem transactA_walk {m : SeqState} {idx : BitVec 6} {arg : Word32} {c : CardReply} {rest : List Byte} (hf : s.fault = none)
    (hm : s.seq = ⟨m, none⟩) (hc : c.ok = true) (h : s.rx = c.bytes ++ rest) :
    Walks (transactASeq idx arg) s (afterTransactA idx arg c rest s) (c.wholeWalk m idx arg [] []) := by
  rw [CardReply.wholeWalk_eq hc rfl]
  have hd := deselect_walk (s := afterReply idx arg c rest s) hf rfl
  rw [show (afterReply idx arg c rest s).seq.main = m from congrArg Seq.main hm] at hd
  exact (reply_walk hf hm hc h).append hd

/-- The four payload bytes (rule R155). -/
theorem payload_walk {e rest : List Byte} (hf : s.fault = none) (he : e.length = 4) (h : s.rx = e ++ rest) :
    Walks (exchanges .pExtra 0 (List.replicate 4 Config.filler) [] fun e => [act fun s => { s with payload := be32List e }]) s
      { afterReceive e rest s with payload := be32List e, seq := ⟨s.seq.main, some (.pExtra 3)⟩ }
      (atPhases s.seq.main extraPhases (receiveEvents e)) := by
  match e, he with
  | r :: e, he =>
    have hx := xchgN_rx (s := s) (ts := List.replicate 4 Config.filler) (rs := r :: e) (rest := rest) (by simp [he]) h
    have hv : exchangeEvents (List.replicate 4 Config.filler) (r :: e) = receiveEvents (r :: e) := by
      rw [← he]; exact exchangeEvents_replicate _
    have := exchanges_walk (s := s) (at_ := .pExtra) (next := fun e => [act fun s => { s with payload := be32List e }]) (k := 0)
      (got := []) (b := Config.filler) (r := r) (rs := e) (rest := rest) (List.replicate 3 Config.filler) hf (by simp at he ⊢; omega) h
      (.silent ((xchgN_fault _).trans hf) rfl rfl)
    rw [List.append_nil] at this
    have e1 : Config.filler :: List.replicate 3 Config.filler = List.replicate 4 Config.filler := rfl
    rw [e1, hx, hv] at this
    exact this

/-- A whole Shape C/D transaction (rule R158). -/
theorem transactCD_walk {m : SeqState} {idx : BitVec 6} {arg : Word32} {c : CardReply} {e rest : List Byte} (hf : s.fault = none)
    (hm : s.seq = ⟨m, none⟩) (hc : c.ok = true) (he : e.length = 4) (h : s.rx = c.bytes ++ (e ++ rest)) :
    Walks (transactCDSeq idx arg) s (afterTransactCD idx arg c e rest s) (c.wholeWalk m idx arg extraPhases (receiveEvents e)) := by
  rw [CardReply.wholeWalk_eq hc (by simp [extraPhases, receiveEvents, he])]
  have hq : s.seq.main = m := congrArg Seq.main hm
  have hp := payload_walk (s := afterReply idx arg c (e ++ rest) s) (rest := rest) hf he rfl
  have hd := deselect_walk (s := { afterReceive e rest (afterReply idx arg c (e ++ rest) s) with
    payload := be32List e, seq := ⟨s.seq.main, some (.pExtra 3)⟩ }) hf rfl
  rw [show (afterReply idx arg c (e ++ rest) s).seq.main = m from hq] at hp
  simp only [hq] at hd
  have := ((reply_walk (idx := idx) (arg := arg) hf hm hc h).append hp).append hd
  rw [List.append_assoc (c.walk m idx arg [] [])] at this
  rw [transactCDSeq, respCDSeq, ← List.append_assoc (issueCommandSeq idx arg)]
  subst hq
  exact this

/-- A command whose polls find no status byte (rules R143, R152, R302), whatever would follow. -/
theorem pollSeq_noReply {k : Nat} {polls rest : List Byte} (hf : s.fault = none) (hk : polls.length = k)
    (hc : s.pollCnt.toNat + k < 15) (hs : ∀ b ∈ polls, isStatus b = false) (h : s.rx = polls ++ rest) :
    Finishes (pollSeq k ++ Q) s
      (atPhases s.seq.main ((List.range' (s.pollCnt.toNat + 1) k).map .pPoll) (receiveEvents polls)) := by
  induction polls generalizing s k Q with
  | nil => subst hk; exact .raised (raise_isSome _ _) (raise_trace _ _)
  | cons b polls ih =>
    subst hk
    have hb : reply Config.filler s = b := reply_cons h
    have hn : isStatus b = false := hs b (by simp)
    simp only [List.length_cons] at hc
    have hcnt : (s.pollCnt + 1).toNat = s.pollCnt.toNat + 1 := by
      rw [BitVec.toNat_add]; exact Nat.mod_eq_of_lt (by simp; omega)
    have := ih (s := { atPhase (.pPoll (s.pollCnt.toNat + 1)) (xchg Config.filler s) with pollCnt := s.pollCnt + 1 })
      (k := polls.length) (Q := Q) hf rfl (by simp only [hcnt]; omega) (fun x hx => hs x (by simp [hx])) (by simp [h])
    simp only [hcnt] at this
    refine .cons [.x Config.filler b] (by exact hf) (by simp [xchg, hb]) (.step (by exact hf) rfl (.transfer (by exact hf) ?_))
    rw [hb]
    simp only [hn, Bool.false_eq_true, if_false]
    exact .transfer (by exact hf) this

theorem NoReply.ok_iff {q : NoReply} : q.ok = true ↔ q.frameAns.length = 6 ∧ q.polls.length = 8 ∧ ∀ b ∈ q.polls, isStatus b = false := by
  simp [NoReply.ok, and_assoc]

/-- A command that finds no status byte, whatever would follow (rules R143, R152, R302). -/
theorem noReply_finishes {m : SeqState} {idx : BitVec 6} {arg : Word32} {q : NoReply} {rest : List Byte} (hf : s.fault = none)
    (hm : s.seq = ⟨m, none⟩) (hq : q.ok = true) (h : s.rx = q.bytes ++ rest) :
    Finishes (issueCommandSeq idx arg ++ (pollStatusSeq ++ Q)) s (q.walk m idx arg) := by
  obtain ⟨h6, h8, hp⟩ := NoReply.ok_iff.mp hq
  have h' : s.rx = q.frameAns ++ (q.polls ++ rest) := by simpa [NoReply.bytes] using h
  have hi : (issueCommand idx arg s).fault = none := (xchgN_fault _).trans hf
  have hr := issueCommand_rx (idx := idx) (arg := arg) h6 h'
  have hw := (issueCommand_walk (idx := idx) (arg := arg) hf h6 h').then
    (.step (f := fun s => { s with pollCnt := 0 }) hi rfl
      (pollSeq_noReply (s := { issueCommand idx arg s with pollCnt := 0 }) (k := Config.respPollMax) (Q := Q) hi h8
        (by show (0 : BitVec 4).toNat + 8 < 15; decide) hp
        (by rw [hr])))
  have hq : (issueCommand idx arg s).seq.main = m := by rw [hr, hm]
  have hl : ((List.range 6).map Phase.pFrame).length = (exchangeEvents (frameBytes idx arg) q.frameAns).length := by
    simp [exchangeEvents, frameBytes_length, h6]
  rw [NoReply.walk, replyPhases, atPhases_append hl]
  simp only [hq, hm] at hw
  exact hw

/-! ### Data phases -/

/-- The test of a loop's bound: it raises at the bound, and otherwise the turn goes on. -/
theorem boundTest_finishes {bound : State → Option Nat} {n : Nat} {loop : LoopName} (hf : s.fault = none)
    (h : bound s ≠ some n → Finishes Q s w) (hw : bound s = some n → w = []) : Finishes (boundTest bound n loop :: Q) s w := by
  by_cases hb : bound s = some n
  · rw [hw hb]
    exact .raised (f := fun s => if bound s = some n then raise (.timeout loop) s else s)
      (by simp only [if_pos hb]; exact raise_isSome _ _) (by simp only [if_pos hb]; exact raise_trace _ _)
  · exact .step (f := fun s => if bound s = some n then raise (.timeout loop) s else s) (by simp only [if_neg hb]; exact hf)
      (by simp only [if_neg hb]) (by simp only [if_neg hb]; exact h hb)

/-- A data command up to its status-byte test (rules R204, R208, R283). -/
theorem opened_walk {m : SeqState} {idx : BitVec 6} {arg : Word32} {c : CardReply} {rest : List Byte} (hf : s.fault = none)
    (hm : s.seq = ⟨m, none⟩) (hc : c.ok = true) (hr : s.cfg.r1Check = false ∨ c.status = 0) (h : s.rx = c.bytes ++ rest) :
    Walks (openedSeq idx arg .a) s (afterReply idx arg c rest s) (c.walk m idx arg [] []) := by
  have e := checkR1_pass (s := afterReply idx arg c rest s) (idx := idx) hr
  have := (reply_walk (idx := idx) (arg := arg) hf hm hc h).append
    (.silent (f := checkR1 idx) (by rw [e]; exact hf) (by rw [e]) (by rw [e]))
  rw [e, List.append_nil] at this
  exact this

/-- The token wait when the token comes at once, and the block (rules R202, R203). -/
theorem waitBlock_walk {n : Nat} {k : AfterBlock} {j : Nat} {data rest : List Byte} {t0 t1 : Byte} {t : State} {w : List (Seq × LinkEvent)}
    (hf : s.fault = none) (hfil : s.filler = Config.fillerBuffer) (hn : data.length = n) (hn0 : data ≠ [])
    (hm : n ≤ Config.sectorBytes) (h : s.rx = s.cfg.startToken :: (data ++ (t0 :: t1 :: rest)))
    (ha : Walks (afterBlockSeq n k)
      { afterInbound s.cfg.startToken [] data [t0, t1] rest s with waiting := none, seq := ⟨s.seq.main, some (.pCrc 1)⟩ } t w) :
    Walks (waitTokenSeq j (.block n k)) s t
      (atPhases s.seq.main (blockPhases n) (receiveEvents (s.cfg.startToken :: (data ++ [t0, t1]))) ++ w) := by
  subst hn
  have htake : s.filler.take data.length = List.replicate data.length Config.filler := by
    simp only [hfil, Config.fillerBuffer, List.take_replicate, Nat.min_eq_left hm]
  have htake2 : s.filler.take Config.blockCrcBytes = List.replicate ([t0, t1] : List Byte).length Config.filler := by
    rw [hfil, Config.fillerBuffer, List.take_replicate]; rfl
  let s1 : State := leaveLoop (waitAt (.token (j + 1) (.block data.length k)) (atPhase .pToken (xchg Config.filler s)))
  have h1 : s1.rx = data ++ (t0 :: t1 :: rest) := by simp [s1, leaveLoop, waitAt, h]
  have hx := xchgN_rx (s := s1) (ts := List.replicate data.length Config.filler) (by simp) h1
  rw [exchangeEvents_replicate] at hx
  let s2 : State := { afterReceive data (t0 :: t1 :: rest) s1 with
    buf := data ++ s.buf.drop data.length, seq := ⟨s.seq.main, some (.pData (data.length - 1))⟩ }
  have hx2 := xchgN_rx (s := s2) (ts := List.replicate ([t0, t1] : List Byte).length Config.filler) (rs := [t0, t1]) (rest := rest)
    (by simp) rfl
  rw [exchangeEvents_replicate] at hx2
  have wd : Walks (exchangesOf .pData (fun s => s.filler.take data.length)
      fun d => [act fun s => { s with buf := d ++ s.buf.drop data.length }]) s1 s2
      (atPhases s.seq.main ((List.range data.length).map .pData) (receiveEvents data)) := by
    have := exchangesOf_walk (s := s1) (w := []) (at_ := .pData) (ts := fun s => s.filler.take data.length)
      (next := fun d => [act fun s => { s with buf := d ++ s.buf.drop data.length }])
      (l := List.replicate data.length Config.filler) (rs := data) htake (by simpa using hn0) hf (by simp) h1
      (.silent ((xchgN_fault _).trans hf) rfl rfl)
    rw [List.length_replicate, exchangeEvents_replicate, List.append_nil, hx] at this
    exact this
  have wc : Walks (exchangesOf .pCrc (fun s => s.filler.take Config.blockCrcBytes) fun _ => []) s2
      { afterInbound s.cfg.startToken [] data [t0, t1] rest s with waiting := none, seq := ⟨s.seq.main, some (.pCrc 1)⟩ }
      (atPhases s.seq.main ((List.range 2).map .pCrc) (receiveEvents [t0, t1])) := by
    have := exchangesOf_walk (s := s2) (w := []) (at_ := .pCrc) (ts := fun s => s.filler.take Config.blockCrcBytes)
      (next := fun _ => []) (rs := [t0, t1]) (rest := rest) htake2 (by simp) hf (by simp) rfl (.nil ((xchgN_fault _).trans hf))
    rw [List.length_replicate, exchangeEvents_replicate, List.append_nil, hx2] at this
    refine Eq.mp (congrArg (Walks _ s2 · _) ?_) this
    simp [s2, s1, afterInbound, afterReceive, receiveEvents, atPhase, leaveLoop, waitAt, xchg_cons h]
  have hb : reply Config.filler s = s.cfg.startToken := reply_cons h
  have key := (wd.append wc).append ha
  have := Walks.cons (s := s) (f := fun s => atPhase .pToken (xchg Config.filler s)) (t := t)
    (more := fun s =>
      let b := reply Config.filler s
      [act (waitAt (.token (j + 1) (.block data.length k))),
        transfer fun s =>
          if b = s.cfg.startToken then act leaveLoop :: afterTokenSeq (.block data.length k)
          else [boundTest (·.cfg.tokenWaitMax) (j + 1) .token, backToHead]])
    [.x Config.filler s.cfg.startToken] hf rfl (by simp [xchg, hb])
    (.step (by exact hf) rfl rfl (.transfer (by exact hf) (by
      show Walks (if reply Config.filler s = s.cfg.startToken then _ else _) _ _ _
      rw [if_pos hb]
      exact .step (f := leaveLoop) (by exact hf) rfl rfl key)))
  have hl : ((List.range data.length).map Phase.pData).length = (receiveEvents data).length := by simp [receiveEvents]
  have hp : atPhases s.seq.main (blockPhases data.length) (receiveEvents (s.cfg.startToken :: (data ++ [t0, t1]))) =
      (⟨s.seq.main, some .pToken⟩, .x Config.filler s.cfg.startToken) ::
        (atPhases s.seq.main ((List.range data.length).map .pData) (receiveEvents data) ++
          atPhases s.seq.main ((List.range 2).map .pCrc) (receiveEvents [t0, t1])) := by
    rw [← atPhases_append hl]
    simp [blockPhases, receiveEvents]
  rw [hp]
  exact this

/-- What follows a block: a deselection, except after the row FetchBlock (rules R203, R204, R212, R186). -/
theorem afterBlock_walk {n : Nat} {k : AfterBlock} {p : Phase} (hf : s.fault = none) (hp : s.seq.phase = some p) :
    Walks (afterBlockSeq n k) s (afterBlock n k s)
      (if k = .fetchOnly then [] else [(⟨s.seq.main, some .pDesel⟩, .desel)]) := by
  cases k with
  | fetchOnly => exact .silent (by exact hf) rfl rfl
  | initCsd =>
    exact (deselect_walk hf hp).append (.step (f := fun s => { s with
      sectorCount := sectorCountOf (decodeCsd s.cfg.layouts.csd (s.buf.take n)) s.cfg.sectorCountBias }) (by exact hf) rfl rfl
      (.silent (by exact hf) rfl rfl))
  | _ => exact (deselect_walk hf hp).append (.silent (by exact hf) rfl rfl)

/-- A turn of the token wait that is polled another byte, at the bound or not (rule R202). -/
theorem waitOther_finishes {n : Nat} {k : AfterToken} {b : Byte} {rest : List Byte} (hf : s.fault = none) (hb : b ≠ s.cfg.startToken)
    (h : s.rx = b :: rest) : Finishes (waitTokenSeq n k) s [(⟨s.seq.main, some .pToken⟩, .x Config.filler b)] := by
  have hr : reply Config.filler s = b := reply_cons h
  refine .cons [.x Config.filler b] (f := fun s => atPhase .pToken (xchg Config.filler s)) hf (by simp [xchg, hr])
    (.step (f := waitAt (.token (n + 1) k)) hf rfl (.transfer hf ?_))
  show Finishes ((if reply Config.filler s = s.cfg.startToken then _ else _) ++ []) _ []
  rw [hr, if_neg hb]
  exact boundTest_finishes hf (fun _ => .transfer (by exact hf) .nil) fun _ => rfl

/-- A turn of the token wait (rules R202, R203). -/
theorem tokenTurn_finishes {n : Nat} {k : AfterToken} {bs rest : List Byte} {ps : List Phase} {es : List LinkEvent}
    (hf : s.fault = none) (hfil : s.filler = Config.fillerBuffer) (ht : TokenTurn s.cfg.startToken k bs ps es)
    (h : s.rx = bs ++ rest) : Finishes (waitTokenSeq n k) s (atPhases s.seq.main ps es) := by
  have blocks : ∀ {m k data trail}, data.length = m → 0 < m → m ≤ 512 → trail.length = 2 →
      s.rx = s.cfg.startToken :: (data ++ trail) ++ rest → Finishes (waitTokenSeq n (.block m k)) s
        (atPhases s.seq.main (blockPhases m) (receiveEvents (s.cfg.startToken :: (data ++ trail))) ++
          if k = .fetchOnly then [] else [(⟨s.seq.main, some .pDesel⟩, .desel)]) := by
    intro m k data trail hd h0 hm ht h
    match trail, ht with
    | [t0, t1], _ =>
      exact (waitBlock_walk hf hfil hd (by rintro rfl; simp at hd; omega) hm (by simpa using h)
        (afterBlock_walk (n := m) (k := k) (p := .pCrc 1)
          (s := { afterInbound s.cfg.startToken [] data [t0, t1] rest s with
            waiting := none, seq := ⟨s.seq.main, some (.pCrc 1)⟩ }) hf rfl)).finishes
  cases ht with
  | other hb => exact waitOther_finishes hf hb h
  | token =>
    have hr : reply Config.filler s = s.cfg.startToken := reply_cons h
    refine .cons [.x Config.filler s.cfg.startToken] (f := fun s => atPhase .pToken (xchg Config.filler s)) hf (by simp [xchg, hr])
      (.step (f := waitAt (.token (n + 1) .ret)) hf rfl (.transfer hf ?_))
    show Finishes ((if reply Config.filler s = s.cfg.startToken then _ else _) ++ []) _ []
    rw [if_pos hr]
    exact .step (f := leaveLoop) hf rfl (.step (f := complete .done) hf rfl .nil)
  | fetchOnly hd h0 hm ht =>
    have := blocks (k := .fetchOnly) hd h0 hm ht h
    rwa [if_pos rfl, List.append_nil] at this
  | block hd h0 hm ht hk =>
    rename_i k _ _
    have := blocks (k := k) hd h0 hm ht h
    rw [if_neg hk] at this
    rw [atPhases_append (by simp [blockPhases, receiveEvents, hd, ht])]
    exact this

/-- The status-byte test of a read and what follows it (rules R202, R203, R283). -/
theorem readTurn_finishes {idx : BitVec 6} {k : AfterToken} {bs rest : List Byte} {ps : List Phase} {es : List LinkEvent}
    (hf : s.fault = none) (hfil : s.filler = Config.fillerBuffer) (ht : ReadTurn s.cfg s.r1 k bs ps es) (h : s.rx = bs ++ rest) :
    Finishes (act (checkR1 idx) :: tokenSeq k) s (atPhases s.seq.main ps es) := by
  cases ht with
  | refused hr hst =>
    have e := checkR1_fail (idx := idx) hr hst hf
    exact .raised (by rw [e]; rfl) (by rw [e]; rfl)
  | turn hr ht =>
    have e := checkR1_pass (idx := idx) hr
    exact .step (by rw [e]; exact hf) (by rw [e]) (by
      rw [e]; exact .step (f := waitAt (.token 0 k)) hf rfl (tokenTurn_finishes (s := waitAt (.token 0 k) s) hf hfil ht h))

/-- SectorRead (rule R204). -/
theorem sectorRead_finishes {k : AfterBlock} {m : SeqState} {index : Word32} {c : CardReply} {bs rest : List Byte} {ps : List Phase}
    {es : List LinkEvent} (hf : s.fault = none) (hm : s.seq = ⟨m, none⟩) (hfil : s.filler = Config.fillerBuffer) (hc : c.ok = true)
    (ht : ReadTurn s.cfg c.status (.block 512 k) bs ps es) (h : s.rx = c.bytes ++ (bs ++ rest)) :
    Finishes (sectorReadSeq k index) s (c.walk m 17 index ps es) := by
  have hb := readTurn_finishes (s := afterReply 17 index c (bs ++ rest) s) (idx := 17) hf hfil ht rfl
  rw [show (afterReply 17 index c (bs ++ rest) s).seq.main = m from congrArg Seq.main hm] at hb
  rw [CardReply.walk_append hc, sectorReadSeq, openedSeq, List.append_assoc]
  exact (reply_walk hf hm hc h).then hb

/-- RegRead with Shape A (rule R212). -/
theorem regReadA_finishes {k : AfterBlock} {m : SeqState} {idx : BitVec 6} {n : Nat} {c : CardReply} {bs rest : List Byte} {ps : List Phase}
    {es : List LinkEvent} (hf : s.fault = none) (hm : s.seq = ⟨m, none⟩) (hfil : s.filler = Config.fillerBuffer) (hc : c.ok = true)
    (ht : ReadTurn s.cfg c.status (.block n k) bs ps es) (h : s.rx = c.bytes ++ (bs ++ rest)) :
    Finishes (regReadSeq k idx .a n) s (c.walk m idx Config.zeroArg ps es) := by
  have hb := readTurn_finishes (s := afterReply idx Config.zeroArg c (bs ++ rest) s) (idx := idx) hf hfil ht rfl
  rw [show (afterReply idx Config.zeroArg c (bs ++ rest) s).seq.main = m from congrArg Seq.main hm] at hb
  rw [CardReply.walk_append hc, regReadSeq, openedSeq, List.append_assoc]
  · exact (reply_walk hf hm hc h).then hb
  · nofun

/-- RegRead with Shape B (rules R154, R212). -/
theorem regReadB_finishes {k : AfterBlock} {m : SeqState} {idx : BitVec 6} {n : Nat} {c : CardReply} {b : Byte} {bs rest : List Byte}
    {ps : List Phase} {es : List LinkEvent} (hf : s.fault = none) (hm : s.seq = ⟨m, none⟩) (hfil : s.filler = Config.fillerBuffer)
    (hc : c.ok = true) (ht : ReadTurn s.cfg c.status (.block n k) bs ps es) (h : s.rx = c.bytes ++ (b :: (bs ++ rest))) :
    Finishes (regReadSeq k idx .b n) s (c.walk m idx Config.zeroArg (.pExtra 0 :: ps) (receiveEvents [b] ++ es)) := by
  have hq : (afterReply idx Config.zeroArg c (b :: (bs ++ rest)) s).seq.main = m := congrArg Seq.main hm
  have hx : (afterReply idx Config.zeroArg c (b :: (bs ++ rest)) s).rx = b :: (bs ++ rest) := rfl
  have hs : secondByte (afterReply idx Config.zeroArg c (b :: (bs ++ rest)) s) =
      { afterReceive [b] (bs ++ rest) (afterReply idx Config.zeroArg c (b :: (bs ++ rest)) s) with
        r2 := b, seq := ⟨s.seq.main, some (.pExtra 0)⟩ } := by
    rw [secondByte, xchg_cons hx, reply_cons hx]; rfl
  have h2 := Walks.put (s := afterReply idx Config.zeroArg c (b :: (bs ++ rest)) s) (f := secondByte) (e := .x Config.filler b)
    (by rw [hs]; exact hf) (by rw [hs]; rfl) (by rw [hs]; rfl)
  rw [hs] at h2
  have hb := readTurn_finishes (s := { afterReceive [b] (bs ++ rest) (afterReply idx Config.zeroArg c (b :: (bs ++ rest)) s) with
    r2 := b, seq := ⟨s.seq.main, some (.pExtra 0)⟩ }) (idx := idx) hf hfil ht rfl
  have hm' : s.seq.main = m := congrArg Seq.main hm
  simp only [hm'] at hb h2
  have := (reply_walk (idx := idx) (arg := Config.zeroArg) hf hm hc h).then (h2.then hb)
  rw [CardReply.walk_append hc, regReadSeq, openedSeq, respShapeSeq, respBSeq]
  · rw [List.append_assoc] at this
    simp only [List.append_assoc]
    exact this
  · nofun

/-- The outbound block (rule R208). -/
theorem sendBlock_walk {data ans rest : List Byte} {accept : Byte} (hf : s.fault = none) (hn0 : data ≠ [])
    (hlen : ans.length = data.length + 4) (h : s.rx = ans ++ (accept :: rest)) :
    Walks (sendBlockSeq data) s (sendBlock data s)
      (atPhases s.seq.main (writePhases data.length)
        (exchangeEvents (Config.filler :: s.cfg.startToken :: (data ++ [s.cfg.writeCrc0, s.cfg.writeCrc1])) ans ++
          receiveEvents [accept])) := by
  match ans, hlen with
  | a0 :: a1 :: tail, hlen =>
    obtain ⟨mid, c0, c1, rfl, hmid⟩ : ∃ mid c0 c1, tail = mid ++ [c0, c1] ∧ mid.length = data.length := by
      have hl : tail.length = data.length + 2 := by simpa using hlen
      refine ⟨tail.take data.length, ?_⟩
      have h2 : (tail.drop data.length).length = 2 := by simp [hl]
      match hd : tail.drop data.length, h2 with
      | [c0, c1], _ => exact ⟨c0, c1, by rw [← hd, List.take_append_drop], by simp [hl]⟩
    have h0 : s.rx = a0 :: a1 :: (mid ++ (c0 :: c1 :: accept :: rest)) := by simpa using h
    let s0 := atPhase .pGap (xchg Config.filler s)
    let s1 := atPhase .pWToken (xchg s.cfg.startToken s0)
    let s2 := atPhase (.pWData (data.length - 1)) (xchgN data s1)
    have h00 : s0.rx = a1 :: (mid ++ (c0 :: c1 :: accept :: rest)) := by simp [s0, h0]
    have h1 : s1.rx = mid ++ (c0 :: c1 :: accept :: rest) := by simp [s1, h00]
    have e2 := xchgN_rx (s := s1) hmid.symm h1
    have h2 : s2.rx = [c0, c1] ++ (accept :: rest) := by simp [s2, e2]
    have hc2 : s2.cfg = s.cfg := by simp only [s2, e2]; rfl
    have hq2 : s2.seq.main = s.seq.main := by simp only [s2, e2]; rfl
    have hf2 : s2.fault = none := by simp only [s2, e2]; exact hf
    let s3 := atPhase (.pWCrc 1) (xchgN [s.cfg.writeCrc0, s.cfg.writeCrc1] s2)
    have e3 := xchgN_rx (s := s2) (ts := [s.cfg.writeCrc0, s.cfg.writeCrc1]) (rs := [c0, c1]) (rest := accept :: rest) rfl h2
    have h3 : s3.rx = accept :: rest := by simp only [s3, e3]; rfl
    have hq3 : s3.seq.main = s.seq.main := by simp only [s3, e3]; exact hq2
    have hf3 : s3.fault = none := by simp only [s3, e3]; exact hf2
    have wg := Walks.put (s := s) (f := fun s => atPhase .pGap (xchg Config.filler s)) (e := .x Config.filler a0) hf rfl
      (by simp [xchg, reply_cons h0])
    have wt := Walks.put (s := s0) (f := fun s => atPhase .pWToken (xchg s.cfg.startToken s)) (e := .x s.cfg.startToken a1) hf rfl
      (by simp only [atPhase, xchg, reply_cons h00]; rfl)
    have wd := exchanges_walk' (s := s1) (at_ := .pWData) hn0 hf hmid.symm h1
    have wc := exchangesOf_walk (s := s2) (w := []) (at_ := .pWCrc) (ts := fun s => [s.cfg.writeCrc0, s.cfg.writeCrc1])
      (next := fun _ => []) (l := [s.cfg.writeCrc0, s.cfg.writeCrc1]) (rs := [c0, c1]) (by rw [hc2]) (by simp) hf2 rfl h2
      (.nil (s := s3) hf3)
    let accepts (s : State) : State := atPhase .pWResp { xchg Config.filler s with wresp := reply Config.filler s }
    have wr : Walks [act accepts] s3 (accepts s3) [((accepts s3).seq, .x Config.filler accept)] :=
      .put hf3 rfl (by simp [accepts, xchg, reply_cons h3])
    have hq4 : (accepts s3).seq = ⟨s.seq.main, some .pWResp⟩ := by rw [← hq3]; rfl
    rw [hq4] at wr
    have := ((wg.append wt).append wd).append wc |>.append wr
    have hl : ((List.range data.length).map Phase.pWData).length = (exchangeEvents data mid).length := by
      simp [exchangeEvents, hmid]
    have hz : exchangeEvents (data ++ [s.cfg.writeCrc0, s.cfg.writeCrc1]) (mid ++ [c0, c1]) =
        exchangeEvents data mid ++ exchangeEvents [s.cfg.writeCrc0, s.cfg.writeCrc1] [c0, c1] :=
      List.zipWith_append hmid.symm
    have hp : atPhases s.seq.main (writePhases data.length)
        (exchangeEvents (Config.filler :: s.cfg.startToken :: (data ++ [s.cfg.writeCrc0, s.cfg.writeCrc1]))
            (a0 :: a1 :: (mid ++ [c0, c1])) ++ receiveEvents [accept]) =
        (⟨s.seq.main, some .pGap⟩, .x Config.filler a0) :: (⟨s.seq.main, some .pWToken⟩, .x s.cfg.startToken a1) ::
          (atPhases s.seq.main ((List.range data.length).map .pWData) (exchangeEvents data mid) ++
            (atPhases s.seq.main ((List.range 2).map .pWCrc) (exchangeEvents [s.cfg.writeCrc0, s.cfg.writeCrc1] [c0, c1]) ++
              [(⟨s.seq.main, some .pWResp⟩, .x Config.filler accept)])) := by
      rw [exchangeEvents_cons, exchangeEvents_cons, hz]
      simp only [writePhases, List.cons_append, List.append_assoc, atPhases_cons]
      rw [atPhases_append hl]
      rfl
    rw [← this.end_eq (sendBlockSeq_moves data hf), hp]
    refine Eq.mp (congrArg (Walks (sendBlockSeq data) s (accepts s3)) ?_) this
    rw [hq2]
    simp only [List.append_nil, List.append_assoc, List.cons_append, List.nil_append]
    rfl

/-- A turn of the busy wait: the card is idle, the write accepted or rejected, or it is busy, at the bound or not (rules R208, R209). -/
theorem busyTurn_finishes {n : Nat} {b : Byte} {rest : List Byte} (hf : s.fault = none) (h : s.rx = b :: rest) :
    Finishes (busyWaitSeq n) s
      (atPhases s.seq.main (.pBusy :: if b = Config.filler then [.pDesel] else [])
        (receiveEvents [b] ++ if b = Config.filler then [.desel] else [])) := by
  have hr : reply Config.filler s = b := reply_cons h
  let u := waitAt (.busy (n + 1)) (atPhase .pBusy (xchg Config.filler s))
  have hd : Finishes (if b = Config.filler then act leaveLoop :: deselectSeq ++ [act checkWresp, act (complete .done)]
      else [boundTest (·.cfg.busyWaitMax) (n + 1) .busy, backToHead]) u
        (if b = Config.filler then [(⟨s.seq.main, some .pDesel⟩, .desel)] else []) := by
    split
    · have hd := deselect_walk (s := leaveLoop u) (p := .pBusy) hf rfl
      refine .step (f := leaveLoop) hf rfl (hd.then (v := []) ?_)
      by_cases hw : ((afterDeselect (leaveLoop u)).cfg.wrespCheck && !writeAccepted (afterDeselect (leaveLoop u)).wresp) = true
      · exact .raised (by rw [checkWresp, if_pos hw]; exact raise_isSome _ _) (by rw [checkWresp, if_pos hw]; exact raise_trace _ _)
      · exact .step (f := checkWresp) (by rw [checkWresp, if_neg hw]; exact hf) (by rw [checkWresp, if_neg hw])
          (by rw [checkWresp, if_neg hw]; exact .step (f := complete .done) hf rfl .nil)
    · exact boundTest_finishes hf (fun _ => .transfer (by exact hf) .nil) fun _ => rfl
  have := Finishes.cons (s := s) (Q := []) [.x Config.filler b] (f := fun s => atPhase .pBusy (xchg Config.filler s))
    (more := fun s =>
      let b := reply Config.filler s
      [act (waitAt (.busy (n + 1))),
        transfer fun _ =>
          if b = Config.filler then act leaveLoop :: deselectSeq ++ [act checkWresp, act (complete .done)]
          else [boundTest (·.cfg.busyWaitMax) (n + 1) .busy, backToHead]]) hf (by simp [xchg, hr])
    (.step (f := waitAt (.busy (n + 1))) hf rfl (.transfer hf (by
      show Finishes (_ ++ []) _ _
      rw [List.append_nil, hr]; exact hd)))
  refine Eq.mp (congrArg (Finishes (busyWaitSeq n) s) ?_) this
  split <;> rfl

/-- SectorWrite to its first turn of the busy wait (rule R208). -/
theorem sectorWrite_finishes {m : SeqState} {index : Word32} {c : CardReply} {data ans rest : List Byte} {accept b : Byte}
    (hf : s.fault = none) (hm : s.seq = ⟨m, none⟩) (hc : c.ok = true) (hr : s.cfg.r1Check = false ∨ c.status = 0)
    (hd : data.length = 512) (ha : ans.length = 516) (h : s.rx = c.bytes ++ (ans ++ (accept :: b :: rest))) :
    Finishes (sectorWriteSeq index data) s
      (c.walk m 24 index (writePhases 512 ++ (.pBusy :: if b = Config.filler then [.pDesel] else []))
        (exchangeEvents (Config.filler :: s.cfg.startToken :: (data ++ [s.cfg.writeCrc0, s.cfg.writeCrc1])) ans ++
          receiveEvents [accept] ++ (receiveEvents [b] ++ if b = Config.filler then [.desel] else []))) := by
  have hq : s.seq.main = m := congrArg Seq.main hm
  have h0 := opened_walk (idx := 24) (arg := index) hf hm hc hr h
  have h1 := sendBlock_walk (s := afterReply 24 index c (ans ++ (accept :: b :: rest)) s) (data := data) hf
    (by rintro rfl; simp at hd) (by rw [ha, hd]) rfl
  rw [sendBlock_rx (rest := b :: rest) (accept := accept) (ans := ans) (by rw [ha, hd]) rfl] at h1
  have h2 := busyTurn_finishes (n := 0) (b := b) (rest := rest) (s := waitAt (.busy 0)
    { afterOutbound data ans accept (b :: rest) (afterReply 24 index c (ans ++ (accept :: b :: rest)) s) with
      seq := ⟨s.seq.main, some .pWResp⟩ }) hf rfl
  have h3 := (h0.append h1).then (.step (f := waitAt (.busy 0)) hf rfl h2)
  have hl : (writePhases 512).length =
      (exchangeEvents (Config.filler :: s.cfg.startToken :: (data ++ [s.cfg.writeCrc0, s.cfg.writeCrc1])) ans ++
        receiveEvents [accept]).length := by simp [writePhases, exchangeEvents, receiveEvents, hd, ha]
  rw [CardReply.walk_append hc, atPhases_append hl]
  refine Eq.mp (congrArg (Finishes (sectorWriteSeq index data) s) ?_) h3
  subst hq
  rw [List.append_assoc, hd]
  rfl

/-- A data command whose status byte is refused (rule R283). -/
theorem refused_finishes {m : SeqState} {idx : BitVec 6} {arg : Word32} {c : CardReply} {rest : List Byte} (hf : s.fault = none)
    (hm : s.seq = ⟨m, none⟩) (hc : c.ok = true) (hr : s.cfg.r1Check = true) (hst : c.status ≠ 0) (h : s.rx = c.bytes ++ rest) :
    Finishes (openedSeq idx arg .a ++ Q) s (c.walk m idx arg [] []) := by
  have e := checkR1_fail (s := afterReply idx arg c rest s) (idx := idx) hr hst hf
  have := (reply_walk (idx := idx) (arg := arg) hf hm hc h).then (.raised (f := checkR1 idx) (Q := Q) (by rw [e]; rfl)
    (by rw [e]; rfl))
  rw [List.append_nil] at this
  rw [openedSeq, List.append_assoc]
  exact this

/-- A host operation that the dispatch lets through (rules R281, R294): what its body puts on the link. -/
theorem startOp_finishes {code : BitVec 4} {latch : State → State} {body : State → List Advance} (h : s.starts code)
    (hl : ∀ s : State, (latch s).trace = s.trace ∧ (latch s).fault = s.fault ∧ (latch s).cfg = s.cfg ∧
      (latch s).initialized = s.initialized)
    (hw : Finishes (body (latch { s with op := code })) (latch { s with op := code }) w) :
    Finishes (startOpSeq code latch body) s w := by
  obtain ⟨hf, hb, hg⟩ := h
  obtain ⟨l1, l2, l3, l4⟩ := hl { s with op := code }
  refine .transfer hf ?_
  rw [hb]
  show Finishes (act (fun s => latch { s with op := code }) :: _) s w
  refine .step (f := fun s => latch { s with op := code }) (l2.trans hf) l1 ?_
  generalize latch { s with op := code } = u at *
  have hgu : (code != 0 && u.cfg.requireInit && !u.initialized) = false := by
    rw [l3, l4]
    rcases hg with hg | hg | hg <;> simp [hg]
  refine .cons (s := u) (w := w) (more := body) []
    (f := fun s => if code != 0 && s.cfg.requireInit && !s.initialized then raise (.notInitialized code) s else s) ?_ ?_ ?_ <;>
    simp only [hgu, Bool.false_eq_true, if_false]
  · exact l2.trans hf
  · rfl
  · show Finishes (body u ++ []) u w
    rw [List.append_nil]; exact hw

/-! ### INIT -/

/-- One iteration of the activation loop (rule R179). -/
theorem iteration_walk {p : CardReply × CardReply} {rest : List Byte} (hf : s.fault = none) (hm : s.seq = ⟨.iActivate, none⟩)
    (h1 : p.1.ok = true) (h2 : p.2.ok = true) (h : s.rx = p.1.bytes ++ (p.2.bytes ++ rest)) :
    Walks (prefixSeq ++ transactASeq 41 Config.hcsArg) s
      (afterTransactA 41 Config.hcsArg p.2 rest (afterTransactA 55 Config.zeroArg p.1 (p.2.bytes ++ rest) s)) (iterationWalk p) :=
  (transactA_walk hf hm h1 h).append
    (transactA_walk (s := afterTransactA 55 Config.zeroArg p.1 (p.2.bytes ++ rest) s) hf
      (congrArg (fun q : Seq => (⟨q.main, none⟩ : Seq)) hm) h2 rfl)

/-- A Shape A transaction that finds no status byte. -/
theorem transactA_noReply {m : SeqState} {idx : BitVec 6} {arg : Word32} {q : NoReply} {rest : List Byte} (hf : s.fault = none)
    (hm : s.seq = ⟨m, none⟩) (hq : q.ok = true) (h : s.rx = q.bytes ++ rest) : Finishes (transactASeq idx arg ++ Q) s (q.walk m idx arg) := by
  rw [transactASeq, List.append_assoc, List.append_assoc]
  exact noReply_finishes hf hm hq h

/-- A Shape C/D transaction that finds no status byte. -/
theorem transactCD_noReply {m : SeqState} {idx : BitVec 6} {arg : Word32} {q : NoReply} {rest : List Byte} (hf : s.fault = none)
    (hm : s.seq = ⟨m, none⟩) (hq : q.ok = true) (h : s.rx = q.bytes ++ rest) : Finishes (transactCDSeq idx arg ++ Q) s (q.walk m idx arg) := by
  rw [transactCDSeq, respCDSeq, List.append_assoc, List.append_assoc, List.append_assoc]
  exact noReply_finishes hf hm hq h

/-- A data command with a Shape A or B response that finds no status byte. -/
theorem opened_noReply {m : SeqState} {idx : BitVec 6} {arg : Word32} {q : NoReply} {rest : List Byte} (hf : s.fault = none)
    (hm : s.seq = ⟨m, none⟩) (hq : q.ok = true) (h : s.rx = q.bytes ++ rest) :
    Finishes (openedSeq idx arg .a ++ Q) s (q.walk m idx arg) ∧ Finishes (openedSeq idx arg .b ++ Q) s (q.walk m idx arg) := by
  constructor
  · rw [openedSeq, List.append_assoc, List.append_assoc]
    exact noReply_finishes hf hm hq h
  · rw [openedSeq, respShapeSeq, respBSeq, List.append_assoc, List.append_assoc, List.append_assoc]
    exact noReply_finishes hf hm hq h

/-- The states Branch and Terminal (rules R184 to R186). -/
theorem branchTurn_finishes {bs rest : List Byte} {w : List (Seq × LinkEvent)} (hf : s.fault = none) (hm : s.seq = ⟨.iBranch, none⟩)
    (hfil : s.filler = Config.fillerBuffer) (ht : BranchTurn s.cfg (decodeOcr s.cfg.layouts.ocr s.ocrRaw).ccs bs w)
    (h : s.rx = bs ++ rest) : Finishes (branchSeq ++ terminalSeq) s w := by
  have notOne : ∀ {x : BitVec 1}, x = 0 → ¬x = 1 := by rintro _ rfl; decide
  have byte : ∀ {v}, (decodeOcr s.cfg.layouts.ocr s.ocrRaw).ccs = 0 →
      Finishes ((if s.cfg.initCmd16Issued then transactASeq 16 Config.blocklenArg else []) ++
        (act fun s => raise (.addressingUnsupported s.ocrRaw) s) :: terminalSeq) s v → Finishes (branchSeq ++ terminalSeq) s v := by
    intro v hccs h
    refine .transfer hf ?_
    rw [if_neg (notOne hccs)]
    exact .transfer hf h
  have block : ∀ {v}, (decodeOcr s.cfg.layouts.ocr s.ocrRaw).ccs = 1 →
      Finishes (if s.cfg.initFetchCsd then regReadSeq .initCsd 9 .a 16 else [act (complete .done)])
        { enter .iTerminal s with initialized := true } v → Finishes (branchSeq ++ terminalSeq) s v := by
    intro v hccs h
    refine .transfer hf ?_
    rw [if_pos hccs]
    refine .step (f := enter .iTerminal) hf rfl (.step (f := fun s => { s with initialized := true }) hf rfl (.transfer hf ?_))
    rw [List.append_nil]
    exact h
  cases ht with
  | byte hccs h16 =>
    refine byte hccs ?_
    rw [h16]
    exact .raised (raise_isSome _ _) (raise_trace _ _)
  | noReply16 hccs h16 hq =>
    refine byte hccs ?_
    rw [h16]
    exact transactA_noReply hf hm hq h
  | byte16 hccs h16 hc =>
    refine byte hccs ?_
    rw [h16]
    have := (transactA_walk (idx := 16) (arg := Config.blocklenArg) hf hm hc h).then
      (.raised (f := fun s => raise (.addressingUnsupported s.ocrRaw) s) (Q := terminalSeq) (raise_isSome _ _) (raise_trace _ _))
    rwa [List.append_nil] at this
  | block hccs hfe =>
    refine block hccs ?_
    rw [hfe]
    exact .step (f := complete .done) hf rfl .nil
  | noReply9 hccs hfe hq =>
    refine block hccs ?_
    rw [hfe]
    exact (opened_noReply (s := { enter .iTerminal s with initialized := true }) hf rfl hq h).1
  | fetch hccs hfe hc hr =>
    refine block hccs ?_
    rw [hfe]
    exact regReadA_finishes (s := { enter .iTerminal s with initialized := true }) hf rfl hfil hc hr (by rw [← List.append_assoc]; exact h)

/-- One iteration of the activation loop, then its test and what the test chooses (rules R179, R180). -/
theorem iteration_finishes {n : Nat} {p : CardReply × CardReply} {rest : List Byte} {v : List (Seq × LinkEvent)} (hf : s.fault = none)
    (hm : s.seq = ⟨.iActivate, none⟩) (h1 : p.1.ok = true) (h2 : p.2.ok = true) (h : s.rx = p.1.bytes ++ (p.2.bytes ++ rest))
    (hv : ∀ u : State, u.fault = none → u.seq = ⟨.iActivate, none⟩ → u.filler = s.filler → u.cfg = s.cfg → u.rx = rest →
      Finishes
        (if p.2.status = 0x00#8 then act (enter .iReadOcr) :: act leaveLoop :: afterActivateSeq
        else [boundTest (·.cfg.acmd41IterMax) (n + 1) .acmd41, act (delayMs Config.acmd41DelayMs), backToHead]) u v) :
    Finishes (activateSeq n) s (iterationWalk p ++ v) := by
  have hi := iteration_walk hf hm h1 h2 h
  generalize hu : afterTransactA 41 Config.hcsArg p.2 rest (afterTransactA 55 Config.zeroArg p.1 (p.2.bytes ++ rest) s) = u at hi
  have hr : u.r1 = p.2.status := by rw [← hu]; rfl
  refine hi.then (.step (f := waitAt (.activate (n + 1))) hi.fault rfl (.transfer hi.fault ?_))
  show Finishes ((if u.r1 = 0x00#8 then _ else _) ++ []) _ _
  rw [List.append_nil, hr]
  exact hv _ hi.fault (by rw [← hu]; exact congrArg (fun q : Seq => (⟨q.main, none⟩ : Seq)) hm) (by rw [← hu]; rfl)
    (by rw [← hu]; rfl) (by rw [← hu]; rfl)

/-- A turn of the activation loop, and the states after it when it ends the loop (rules R179 to R187). -/
theorem activateTurn_finishes {n : Nat} {bs rest : List Byte} {w : List (Seq × LinkEvent)} (hf : s.fault = none)
    (hm : s.seq = ⟨.iActivate, none⟩) (hfil : s.filler = Config.fillerBuffer) (ht : ActivateTurn s.cfg n bs w)
    (h : s.rx = bs ++ rest) : Finishes (activateSeq n) s w := by
  have ended : ∀ {p : CardReply × CardReply} {more v}, p.1.ok = true → p.2.ok = true → p.2.status = 0 →
      s.rx = p.1.bytes ++ (p.2.bytes ++ more) →
      (∀ u : State, u.fault = none → u.seq = ⟨.iReadOcr, none⟩ → u.filler = s.filler → u.cfg = s.cfg → u.rx = more →
        Finishes afterActivateSeq u v) → Finishes (activateSeq n) s (iterationWalk p ++ v) := by
    intro p more v h1 h2 hst h hu
    refine iteration_finishes hf hm h1 h2 h fun u uf _ ufil ucfg ux => ?_
    rw [if_pos (show p.2.status = 0x00#8 from hst)]
    exact .step (f := enter .iReadOcr) uf rfl (.step (f := leaveLoop) uf rfl (hu _ uf rfl ufil ucfg ux))
  cases ht with
  | noReply55 hq =>
    rw [activateSeq, prefixSeq, List.append_assoc]
    exact transactA_noReply hf hm hq h
  | noReply41 hc hq =>
    rename_i c q
    rw [activateSeq, prefixSeq, List.append_assoc]
    exact (transactA_walk hf hm hc (by rw [← List.append_assoc]; exact h)).then
      (transactA_noReply (s := afterTransactA 55 Config.zeroArg c (q.bytes ++ rest) s) hf
        (congrArg (fun q : Seq => (⟨q.main, none⟩ : Seq)) hm) hq rfl)
  | again h1 h2 hst =>
    rename_i p
    rw [List.append_assoc] at h
    refine iteration_finishes hf hm h1 h2 h fun u uf um _ ucfg _ => ?_
    rw [if_neg (show ¬p.2.status = 0x00#8 from hst), ← ucfg]
    refine boundTest_finishes uf (fun hb => ?_) fun hb => if_pos hb
    have hd := Walks.put (s := u) (f := delayMs Config.acmd41DelayMs) (e := .delay Config.acmd41DelayMs) uf rfl rfl
    rw [show (delayMs Config.acmd41DelayMs u).seq = ⟨.iActivate, none⟩ from um] at hd
    rw [if_neg hb]
    exact hd.then (.transfer uf .nil)
  | noReply58 h1 h2 hst hq =>
    rw [List.append_assoc, List.append_assoc] at h
    refine ended h1 h2 hst h fun u hf hm _ _ hx => ?_
    rw [afterActivateSeq, readOcrSeq, List.append_assoc]
    exact transactCD_noReply hf hm hq hx
  | last h1 h2 hst hc ho hb =>
    rename_i p c ocr bs w
    simp only [List.append_assoc] at h
    rw [List.append_assoc]
    refine ended h1 h2 hst h fun u hf hm hfil' hcfg hx => ?_
    have hv := transactCD_walk (idx := 58) (arg := Config.zeroArg) hf hm hc ho hx
    have hr := hv.append (.silent (f := fun s => { s with ocrRaw := s.payload }) hv.fault rfl rfl)
    rw [List.append_nil] at hr
    exact hr.then (.step (f := enter .iBranch) hf rfl (branchTurn_finishes (s := enter .iBranch { afterTransactCD 58 Config.zeroArg c ocr
      (bs ++ rest) u with ocrRaw := be32List ocr }) hf rfl (hfil'.trans hfil) (by
        show BranchTurn u.cfg (decodeOcr u.cfg.layouts.ocr (be32List ocr)).ccs bs w
        rw [hcfg]; exact hb) rfl))

/-- State Reset (rule R172): no transaction runs in it. -/
theorem initReset_walk {clocks rest : List Byte} (hf : s.fault = none) (h10 : clocks.length = 10) (h : s.rx = clocks ++ rest) :
    Walks (act (enter .iReset) :: initResetSeq) s (initReset s)
      (outside .iReset (.desel :: receiveEvents clocks ++ [.delay Config.resetDelayMs])) := by
  have hx : ∀ (n : Nat) (clocks : List Byte) (s : State), s.fault = none → clocks.length = n → s.seq = ⟨.iReset, none⟩ →
      s.rx = clocks ++ rest → Walks (List.replicate n (act (xchg Config.filler))) s (xchgN (List.replicate n Config.filler) s)
        (outside .iReset (receiveEvents clocks)) := by
    intro n
    induction n with
    | zero => intro clocks s hf hn _ _; rw [List.length_eq_zero_iff.mp hn]; exact .nil hf
    | succ n ih =>
      intro clocks s hf hn hq h
      match clocks, hn with
      | b :: clocks, hn =>
        have hb : reply Config.filler s = b := reply_cons h
        have h0 := Walks.put (s := s) (f := xchg Config.filler) (e := .x Config.filler b) hf rfl (by simp [xchg, hb])
        rw [show (xchg Config.filler s).seq = ⟨.iReset, none⟩ from hq] at h0
        exact h0.append (ih clocks (xchg Config.filler s) hf (by simpa using hn) hq (by simp [h]))
  have h0 := Walks.put (s := enter .iReset s) (f := requestDeselect) (e := .desel) hf rfl rfl
  have h1 := hx 10 clocks (requestDeselect (enter .iReset s)) hf h10 rfl h
  have hq := xchgN_eq (List.replicate Config.resetFillerBytes Config.filler) (requestDeselect (enter .iReset s))
  have h2 := Walks.put (s := xchgN (List.replicate Config.resetFillerBytes Config.filler) (requestDeselect (enter .iReset s)))
    (f := delayMs Config.resetDelayMs) (e := .delay Config.resetDelayMs) (by rw [hq]; exact hf) rfl rfl
  rw [show (delayMs Config.resetDelayMs (xchgN (List.replicate Config.resetFillerBytes Config.filler)
    (requestDeselect (enter .iReset s)))).seq = ⟨.iReset, none⟩ by show State.seq (xchgN _ _) = _; rw [hq]; rfl] at h2
  have := Walks.step (s := s) (f := enter .iReset) hf rfl rfl ((h0.append h1).append h2)
  refine Eq.mp (congrArg (Walks _ s (initReset s)) ?_) this
  simp [outside, requestDeselect, enter]

end Sys2Proof.Machine
end

