-- ==== Sys2Proof/Tests/Slice0.lean ====
section
/-! SUPPORT. Tests. The expected values are the spec's own: the words of `30_encoding.md` (rules R90, R91, R95 to R97, R102, R103, R110) and
the vectors of `95_test_vectors.md`, cited by their names. Then, for every statement with hypotheses, a witness: a state and
operands that meet all of them together, clause by clause. -/

namespace Sys2Proof.Tests

open Sys2Proof.Machine

-- one test after the other: each evaluation by the kernel waits for the proofs before it, in a thread of its own
set_option Elab.async false

/-! ### Helpers -/

/-- The next state of an instruction. -/
def run1 (i : Instr) (s : State) : Option State :=
  match exec i s with
  | .next t => some t
  | _ => none

/-- The next state of a step. -/
def step1 (s : State) : Option State :=
  match step s with
  | .next t => some t
  | _ => none

/-- After reset, with these answers of the card to come. -/
def fresh (rx : List Byte) : State := { State.reset with rx := rx }

/-- An initialized engine, with these answers of the card to come. -/
def ready (rx : List Byte) : State := { State.reset with initialized := true, rx := rx }

/-- The card is selected, with these answers to come. -/
def open_ (rx : List Byte) : State := { State.reset with cs := true, frame := frameBytes 58 0, rx := rx }

/-- A state in which the engine stands in a wait. -/
def standing (m : SeqState) (w : Wait) (rx : List Byte) : State :=
  { State.reset with cs := w.selected, seq := ⟨m, none⟩, waiting := some w, rx := rx }

/-- A card that answers `FF` to the frame, one `FF` to the poll, then the status byte. -/
def card (status : Byte) : CardReply := ⟨List.replicate 6 0xFF, [0xFF], status⟩

/-- The same with seven polls skipped, the most the poll allows (rule R152). -/
def slowCard (status : Byte) : CardReply := ⟨List.replicate 6 0xFF, List.replicate 7 0xFF, status⟩

def zeros (n : Nat) : List Byte := List.replicate n 0

/-- The descriptor of program P1. -/
def csdP1 : List Byte := [0x40, 0x0E, 0x00, 0x32, 0x5B, 0x59, 0x00, 0x00, 0x1D, 0x69, 0x7F, 0x80, 0x0A, 0x40, 0x00, 0x8B]

/-- The card of scenario S5 (program P1), its second activation answer first. -/
def initCard (retries : List (CardReply × CardReply)) (early : List Byte) : InitAnswers where
  clocks := List.replicate 10 0xFF
  c0 := card 0x01
  c8 := card 0x01
  echo := [0x00, 0x00, 0x01, 0xAA]
  retries := retries
  last := (card 0x01, card 0x00)
  c58 := card 0x00
  ocr := [0xC0, 0xFF, 0x80, 0x00]
  c9 := card 0x00
  early := early
  csd := csdP1
  trail := [0x57, 0xB8]

/-! ### Well-formedness: each check refuses an ill-formed term -/

theorem test_wf_writeSector : (Instr.writeSector 0 (zeros 511)).wellFormed = false := by decide +kernel
theorem test_wf_sectorWrite : (Instr.sectorWrite 0 (zeros 513)).wellFormed = false := by decide +kernel
theorem test_wf_fetchBlock : (Instr.fetchBlock 15).wellFormed = false := by decide
theorem test_wf_regRead_size : (Instr.regRead 10 .a 512).wellFormed = false := by decide
theorem test_wf_regRead_shape : (Instr.regRead 58 .cd 16).wellFormed = false := by decide
theorem test_wf_decodeCid : (Instr.decodeCid (zeros 15)).wellFormed = false := by decide
theorem test_wf_decodeCsd : (Instr.decodeCsd (zeros 17)).wellFormed = false := by decide
theorem test_wf_decodeScr : (Instr.decodeScr (zeros 16)).wellFormed = false := by decide
theorem test_wf_decodeSsr : (Instr.decodeSsr (zeros 63)).wellFormed = false := by decide
theorem test_wf_accepts : (Instr.writeSector 0 (zeros 512)).wellFormed = true ∧ (Instr.regRead 13 .b 64).wellFormed = true := by decide +kernel

/-! ### Words written out from the spec's tables -/

theorem test_word_cmd0 :
    decode Config.defaultParams (.cmd48 [0x40, 0x00, 0x00, 0x00, 0x00, 0x95]) = .ok .cmd0 ∧
      decodeTableWord 48 0x400000000095 = some .cmd0 := by decide +kernel
theorem test_word_cmd8 :
    decode Config.defaultParams (.cmd48 [0x48, 0x00, 0x00, 0x01, 0xAA, 0x87]) = .ok .cmd8 ∧
      decodeTableWord 48 0x48000001AA87 = some .cmd8 := by decide +kernel
theorem test_word_cmd9 :
    decode Config.defaultParams (.cmd48 [0x49, 0x00, 0x00, 0x00, 0x00, 0xAF]) = .ok .cmd9 ∧
      decodeTableWord 48 0x4900000000AF = some .cmd9 := by decide +kernel
theorem test_word_cmd10 :
    decode Config.defaultParams (.cmd48 [0x4A, 0x00, 0x00, 0x00, 0x00, 0x1B]) = .ok .cmd10 ∧
      decodeTableWord 48 0x4A000000001B = some .cmd10 := by decide +kernel
theorem test_word_acmd13 :
    decode Config.defaultParams (.cmd48 [0x4D, 0x00, 0x00, 0x00, 0x00, 0x0D]) = .ok .acmd13 ∧
      decodeTableWord 48 0x4D000000000D = some .acmd13 := by decide +kernel
theorem test_word_cmd16 :
    decode Config.defaultParams (.cmd48 [0x50, 0x00, 0x00, 0x02, 0x00, 0x15]) = .ok .cmd16 ∧
      decodeTableWord 48 0x500000020015 = some .cmd16 := by decide +kernel
theorem test_word_cmd17 :
    decode Config.defaultParams (.cmd48 [0x51, 0x12, 0x34, 0x56, 0x78, 0x5D]) = .ok (.cmd17 0x12345678) ∧
      decodeTableWord 48 0x51123456785D = some (.cmd17 0x12345678) := by decide +kernel
theorem test_word_cmd24 :
    decode Config.defaultParams (.cmd48 [0x58, 0x00, 0x00, 0xAB, 0xCD, 0x27]) = .ok (.cmd24 0x0000ABCD) ∧
      decodeTableWord 48 0x580000ABCD27 = some (.cmd24 0x0000ABCD) := by decide +kernel
theorem test_word_acmd41 :
    decode Config.defaultParams (.cmd48 [0x69, 0x40, 0x00, 0x00, 0x00, 0x77]) = .ok .acmd41 ∧
      decodeTableWord 48 0x694000000077 = some .acmd41 := by decide +kernel
theorem test_word_acmd51 :
    decode Config.defaultParams (.cmd48 [0x73, 0x00, 0x00, 0x00, 0x00, 0xC7]) = .ok .acmd51 ∧
      decodeTableWord 48 0x7300000000C7 = some .acmd51 := by decide +kernel
theorem test_word_cmd55 :
    decode Config.defaultParams (.cmd48 [0x77, 0x00, 0x00, 0x00, 0x00, 0x65]) = .ok .cmd55 ∧
      decodeTableWord 48 0x770000000065 = some .cmd55 := by decide +kernel
theorem test_word_cmd58 :
    decode Config.defaultParams (.cmd48 [0x7A, 0x00, 0x00, 0x00, 0x00, 0xFD]) = .ok .cmd58 ∧
      decodeTableWord 48 0x7A00000000FD = some .cmd58 := by decide +kernel

theorem test_word_init : decodeTableWord 4 0b0000 = some .init := by decide +kernel
theorem test_word_readSector : decodeTableWord 4 0b0001 = some (.readSector 0) := by decide +kernel
theorem test_word_writeSector : decodeTableWord 4 0b0010 = some (.writeSector 0 (zeros 512)) := by decide +kernel
theorem test_word_eraseSector : decodeTableWord 4 0b0011 = some (.eraseSector 0) := by decide +kernel
theorem test_word_readCid : decodeTableWord 4 0b0100 = some .readCid := by decide +kernel
theorem test_word_readCsd : decodeTableWord 4 0b0101 = some .readCsd := by decide +kernel
theorem test_word_readOcr : decodeTableWord 4 0b0110 = some .readOcr := by decide +kernel
theorem test_word_readScr : decodeTableWord 4 0b0111 = some .readScr := by decide +kernel
theorem test_word_readSsr : decodeTableWord 4 0b1000 = some .readSsr := by decide +kernel
theorem test_word_reserved9 : decodeTableWord 4 0b1001 = some .reserved9 := by decide +kernel
theorem test_word_reserved10 : decodeTableWord 4 0b1010 = some .reserved10 := by decide +kernel
theorem test_word_reserved11 : decodeTableWord 4 0b1011 = some .reserved11 := by decide +kernel
theorem test_word_reserved12 : decodeTableWord 4 0b1100 = some .reserved12 := by decide +kernel
theorem test_word_reserved13 : decodeTableWord 4 0b1101 = some .reserved13 := by decide +kernel
theorem test_word_reserved14 : decodeTableWord 4 0b1110 = some .reserved14 := by decide +kernel
theorem test_word_reserved15 : decodeTableWord 4 0b1111 = some .reserved15 := by decide +kernel
theorem test_host_operands : decode Config.defaultParams (.hostop ⟨1, 0xFFFFFFFF, []⟩) = .ok (.readSector 0xFFFFFFFF) := by decide
theorem test_host_badLength : decode Config.defaultParams (.hostop ⟨2, 0, zeros 511⟩) = .error .badLength := by decide +kernel

theorem test_word_respFormatA : decode Config.defaultParams (.respA [0b01111111]) = .ok (.respFormatA 0x7F) ∧ decode Config.defaultParams (.respA [0b10000001]) = .error .notStatus := by
  decide
theorem test_word_respFormatB : decodeTableWord 16 0x04FF = some (.respFormatB 0x04 0xFF) := by decide
theorem test_word_respFormatCD : decodeTableWord 40 0x00C0FF8000 = some (.respFormatCD 0x00 0xC0FF8000) := by decide
theorem test_word_startToken : decodeTableWord 8 0b11111110 = some .startToken ∧ decode Config.defaultParams (.token [0xFC]) = .error .notToken := by decide
/-- With another START_TOKEN (rule R6) its own word is the token, and the default one is not. -/
theorem test_word_startToken_parameter :
    decode { Config.defaultParams with startToken := 0xFC } (.token [0xFC]) = .ok .startToken ∧
      decode { Config.defaultParams with startToken := 0xFC } (.token [0xFE]) = .error .notToken := by decide
theorem test_word_dresp : decodeTableWord 8 0xE5 = some (.dresp 0xE5) := by decide

/-- V-FR-27, V-FR-26, and frames that break one condition of rule R93 each. -/
theorem test_word_rejects :
    decode Config.defaultParams (.cmd48 [0x41, 0x00, 0x00, 0x00, 0x00, 0xF9]) = .error (.neverEmitted 1) ∧
      decode Config.defaultParams (.cmd48 [0x69, 0x00, 0x00, 0x00, 0x00, 0xE5]) = .error (.badArgument 41 0) ∧
      decode Config.defaultParams (.cmd48 [0xC0, 0x00, 0x00, 0x00, 0x00, 0x95]) = .error .badStart ∧
      decode Config.defaultParams (.cmd48 [0x40, 0x00, 0x00, 0x00, 0x00, 0x94]) = .error .badEnd ∧
      decode Config.defaultParams (.cmd48 [0x40, 0x00, 0x00, 0x00, 0x00, 0x97]) = .error .badChecksum ∧
      decode Config.defaultParams (.cmd48 [0x40, 0x00, 0x00, 0x00, 0x95]) = .error .badLength := by decide +kernel

/-! ### Checksum and frame -/

/-- V-CRC-8, V-CRC-11, V-CRC-14, V-CRC-19. -/
theorem test_crc7 :
    crc7 [0x51, 0x12, 0x34, 0x56, 0x78] = 0x2E ∧ crc7 [0xFF, 0xFF, 0xFF, 0xFF, 0xFF] = 0x11 ∧ crc7 [] = 0 ∧
      crc7 [0x03, 0x53, 0x44, 0x53, 0x55, 0x30, 0x34, 0x47, 0x80, 0x12, 0x34, 0x56, 0x78, 0x00, 0xC9] = 0x65 := by
  decide +kernel

/-- V-CRC-1, V-CRC-2, V-CRC-10. -/
theorem test_crcByte :
    crcByte [0x40, 0, 0, 0, 0] = 0x95 ∧ crcByte [0x48, 0, 0, 0x01, 0xAA] = 0x87 ∧ crcByte [0, 0, 0, 0, 0] = 0x01 := by
  decide +kernel

/-- The 8-bit register of rule R123 after the first byte 0x40 is the checksum shifted left. -/
theorem test_crcShift : crcShiftBytes [0x40] = 0x64#7 ++ 0#1 := by decide +kernel

/-- V-FR-14, V-FR-18, V-FR-25. -/
theorem test_frame :
    (run1 (.frame 17 0x12345678) (fresh [])).map (·.frame) = some [0x51, 0x12, 0x34, 0x56, 0x78, 0x5D] ∧
      frameBytes 17 7709695 = [0x51, 0x00, 0x75, 0xA3, 0xFF, 0xFB] ∧
      frameBytes 63 0xFFFFFFFF = [0x7F, 0xFF, 0xFF, 0xFF, 0xFF, 0x19] := by decide +kernel

/-! ### Link, transport, classifier -/

theorem test_select : (run1 .select (fresh [])).map (fun t => (t.cs, t.trace)) = some (true, [.sel]) := by decide
theorem test_deselect : (run1 .deselect (open_ [])).map (fun t => (t.cs, t.trace)) = some (false, [.desel]) := by decide
theorem test_xchg : (run1 (.xchg 0x12) (fresh [0x34])).map (fun t => (t.result, t.trace)) = some (some (.byte 0x34), [.x 0x12 0x34]) := by
  decide
theorem test_delayMs : (run1 (.delayMs 10) (fresh [])).map (·.trace) = some [.delay 10] := by decide

/-- `IssueCommand(0, 0)`: SEL, then 40 00 00 00 00 95. -/
theorem test_issueCommand :
    (run1 (.issueCommand 0 0) (fresh (List.replicate 6 0xFF))).map (fun t => (t.cs, t.trace.reverse)) =
      some (true, [.sel, .x 0x40 0xFF, .x 0x00 0xFF, .x 0x00 0xFF, .x 0x00 0xFF, .x 0x00 0xFF, .x 0x95 0xFF]) := by decide +kernel

/-- V-RC-3: the eighth exchange is the last allowed. -/
theorem test_respA_last :
    (run1 .respA (open_ (List.replicate 7 0xFF ++ [0x00, 0x55]))).map (fun t => (t.r1, t.pollCnt, t.rx)) = some (0x00, 8, [0x55]) := by
  decide

/-- V-RC-5: no ninth exchange. -/
theorem test_respA_timeout :
    (run1 .respA (open_ (List.replicate 8 0xFF ++ [0x00]))).map (fun t => (t.fault, t.cs, t.rx)) =
      some (some (.respTimeout 58), true, [0x00]) := by decide +kernel

/-- V-RC-6. -/
theorem test_pollStatus : (run1 .pollStatus (open_ [0x80, 0xC1, 0x7F])).map (·.r1) = some 0x7F := by decide

/-- V-RC-8. -/
theorem test_respB : (run1 .respB (open_ [0x04, 0xFF])).map (·.result) = some (some (.status2 0x04 0xFF)) := by decide

/-- V-RC-9, V-RC-10. -/
theorem test_respCD :
    (run1 .respCD (open_ [0xFF, 0x01, 0x00, 0x00, 0x01, 0xAA])).map (·.result) = some (some (.statusPayload 0x01 0x000001AA)) ∧
      (run1 .respCD (open_ [0x00, 0xC0, 0xFF, 0x80, 0x00])).map (·.payload) = some 0xC0FF8000 := by decide

/-! ### Initialization -/

/-- V-IN-9 with the descriptor of P1: `sector_count` is 7709696, and no fault. -/
theorem test_init :
    (run1 .init (fresh ((initCard [] []).handshakeBytes ++ (initCard [] []).fetchBytes 0xFE))).map
        (fun t => (t.initialized, t.sectorCount, t.fault, t.cs, t.seq)) =
      some (true, 7709696, none, false, ⟨.idle, none⟩) := by decide +kernel

/-- V-IN-19: a link that reads 00. -/
theorem test_init_zeros :
    (run1 .init (fresh (zeros 17))).map (fun t => (t.fault, t.cs, t.trace.length)) =
      some (some (.unexpectedStatus 0 0x00), false, 21) := by decide +kernel

/-- V-IN-18: an absent card, 24 exchanges. -/
theorem test_init_absent :
    (run1 .init (fresh (List.replicate 24 0xFF))).map (fun t => (t.fault, t.rx)) = some (some (.respTimeout 0), []) := by
  decide +kernel

/-- V-IN-4 and V-IN-6: only the low twelve bits of the echo count. -/
theorem test_ifcond :
    (sendIfCond (fresh ((card 0x01).bytes ++ [0xAB, 0xCD, 0xE1, 0xAA]))).fault = none ∧
      (sendIfCond (fresh ((card 0x01).bytes ++ [0x00, 0x00, 0x00, 0xAA]))).fault = some (.ifcondMismatch 0x000000AA) := by
  decide +kernel

/-- V-IN-11: the byte-addressing path. -/
theorem test_byteAddressing :
    (byteAddressing { fresh (card 0x00).bytes with ocrRaw := 0x80FF8000 }).fault = some (.addressingUnsupported 0x80FF8000) ∧
      (byteAddressing { fresh (card 0x00).bytes with ocrRaw := 0x80FF8000 }).frame = [0x50, 0x00, 0x00, 0x02, 0x00, 0x15] := by
  decide +kernel

/-- V-IN-15, V-IN-17. -/
theorem test_sectorCount :
    sectorCountOf { decodeCsd layoutCsd csdP1 with c_size_v2 := 0x3FFFFF } 0 = 0xFFFFFC00 ∧
      sectorCountOf { decodeCsd layoutCsd csdP1 with c_size_v2 := 0x3FFFFF } 1 = 0 ∧ sectorCountOf (decodeCsd layoutCsd csdP1) 1 = 7710720 ∧
      sectorCountOf (decodeCsd layoutCsd [0x00, 0x26, 0x00, 0x32, 0x5F, 0x59, 0x83, 0xC8, 0xAD, 0xDB, 0xCF, 0xFF, 0xD2, 0x40, 0x40, 0xA5]) 0 =
        3966976 := by decide +kernel

/-! ### Blocks -/

/-- V-RD-6. -/
theorem test_fetchBlock :
    (run1 (.fetchBlock 8) (open_ [0xFE, 0x02, 0x35, 0x80, 0x00, 0x00, 0x00, 0x00, 0x00, 0x12, 0x34])).map
        (fun t => (t.result, t.trace.length, t.rx)) =
      some (some (.bytes [0x02, 0x35, 0x80, 0x00, 0x00, 0x00, 0x00, 0x00]), 11, []) := by decide +kernel

/-- V-RD-5: a data-error token is no start token. -/
theorem test_waitToken :
    (run1 .waitToken (open_ [0x0D])).map (fun t => (t.waiting, t.fault)) = some (some (.token 1 .ret), none) := by decide

/-- V-RD-4. -/
theorem test_readSector_status :
    (run1 (.readSector 0xFFFFFFFF) (ready (card 0x20).bytes)).map (fun t => (t.fault, t.cs, t.frame)) =
      some (some (.unexpectedStatus 17 0x20), true, [0x51, 0xFF, 0xFF, 0xFF, 0xFF, 0x7F]) := by decide +kernel

/-- V-RD-2: 522 exchanges, and the data in order. -/
theorem test_sectorRead :
    (run1 (.sectorRead 0x10) (ready (List.replicate 6 0xFF ++ 0x00 :: 0xFE :: (List.replicate 511 0xFE ++ [0xFF, 0x12, 0x34])))).map
        (fun t => (t.result, t.trace.length)) =
      some (some (.bytes (List.replicate 511 0xFE ++ [0xFF])), 522 + 2) := by decide +kernel

/-- V-WR-2: frame 58 00 00 AB CD 27, 525 exchanges, one busy poll; V-WR-6: the checksum field is FF FF. -/
theorem test_writeSector :
    (run1 (.writeSector 0xABCD (zeros 512)) (ready (List.replicate 6 0xFF ++ 0x00 :: (List.replicate 516 0xFF ++ [0x05, 0xFF])))).map
        (fun t => (t.frame, t.trace.length, t.wresp, t.fault)) =
      some ([0x58, 0x00, 0x00, 0xAB, 0xCD, 0x27], 525 + 2, 0x05, none) := by decide +kernel

/-- V-WR-3 with WRESP_CHECK, at the last busy poll. -/
theorem test_writeRejected :
    (busyWait 1 { standing .opWrite (.busy 1) [0xFF] with cfg := { Config.defaultParams with wrespCheck := true }, wresp := 0x0B }).fault =
      some (.writeRejected 0x0B) := by decide

/-! ### The register decoder -/

/-- V-CID-1. -/
theorem test_decodeCid :
    decodeCid layoutCid [0x03, 0x53, 0x44, 0x53, 0x55, 0x30, 0x34, 0x47, 0x80, 0x12, 0x34, 0x56, 0x78, 0x00, 0xC9, 0xCB] =
      ⟨0x03, 0x5344, 0x5355303447, 0x80, 0x12345678, 0x0C9, 0x65⟩ := by decide +kernel

/-- V-CID-2, with the end bit 1. -/
theorem test_packCid :
    packCid layoutCid 1 ⟨0x1B, 0x534D, 0x4142434445, 0x10, 0xDEADBEEF, 0x14B, 0x36⟩ =
      [0x1B, 0x53, 0x4D, 0x41, 0x42, 0x43, 0x44, 0x45, 0x10, 0xDE, 0xAD, 0xBE, 0xEF, 0x01, 0x4B, 0x6D] := by decide +kernel

/-- V-CSD-3. -/
theorem test_decodeCsd :
    (let d := decodeCsd layoutCsd [0x40, 0xA5, 0x5A, 0x3C, 0xAB, 0xC9, 0xA0, 0x2A, 0xAA, 0xAA, 0x6A, 0xAA, 0x96, 0xA0, 0xA8, 0xB5]
     (d.ccc, d.read_bl_len, d.c_size_v2, d.sector_size, d.wp_grp_size, d.r2w_factor, d.write_bl_len, d.file_format, d.crc)) =
      (0xABC, 9, 0x2AAAAA, 0x55, 0x2A, 5, 0xA, 2, 0x5A) := by decide +kernel

/-- V-CSD-4. -/
theorem test_decodeCsd_v1 :
    (let d := decodeCsd layoutCsd [0x00, 0x26, 0x00, 0x32, 0x5F, 0x5A, 0xD2, 0x96, 0x8A, 0x72, 0x95, 0x55, 0x0A, 0x80, 0x54, 0x4B]
     (d.c_size_v1, d.vdd_r_curr_min, d.vdd_r_curr_max, d.vdd_w_curr_min, d.vdd_w_curr_max, d.c_size_mult, csdCapacity d)) =
      (0xA5A, 1, 2, 3, 4, 5, 0xA5A) := by decide +kernel

/-- V-OCR. -/
theorem test_decodeOcr :
    decodeOcr layoutOcr 0xC0FF8000 = ⟨1, 1, 0xFF800, 0xC0FF8000⟩ ∧ decodeOcr layoutOcr 0x40000000 = ⟨0, 1, 0, 0x40000000⟩ ∧
      decodeOcr layoutOcr 0x00000010 = ⟨0, 0, 1, 0x00000010⟩ ∧ decodeOcr layoutOcr 0x00800000 = ⟨0, 0, 0x80000, 0x00800000⟩ := by decide +kernel

/-- V-SCR-1, V-SCR-2. -/
theorem test_decodeScr :
    decodeScr layoutScr [0x02, 0x35, 0x80, 0x03, 0x00, 0x00, 0x00, 0x00] = ⟨0, 2, 0, 3, 5, 1, 0, 0, 0, 3⟩ ∧
      packScr layoutScr ⟨0, 2, 1, 4, 5, 1, 0, 1, 1, 0xF⟩ = [0x02, 0xC5, 0x84, 0x4F, 0x00, 0x00, 0x00, 0x00] := by decide +kernel

/-- V-SSR-2. -/
theorem test_decodeSsr :
    packSsr layoutSsr ⟨2, 1, 1, 0x02800000, 4, 0x10, 9, 0x0010, 0x3F, 2⟩ =
      [0xA0, 0x00, 0x00, 0x01, 0x02, 0x80, 0x00, 0x00, 0x04, 0x10, 0x90, 0x00, 0x10, 0xFE] ++ zeros 50 := by decide +kernel

/-! ### Host operations and faults -/

/-- V-OP-1; the operation was started, so its request is latched (rules R26, R301). -/
theorem test_notInitialized :
    (run1 (.readSector 7) (fresh [])).map (fun t => (t.fault, t.trace, t.op, t.opArg)) =
      some (some (.notInitialized 1), [], 1, 7) := by decide

/-- A command frame at the port is not under that guard (log entry 7). -/
theorem test_commandRow_uninitialized :
    (run1 (.cmd17 0) (fresh ((card 0x00).bytes ++ [0x00]))).map (fun t => (t.fault, t.cs)) = some (none, true) := by decide +kernel

/-- V-OP-2, V-ER-1. -/
theorem test_eraseSector : (run1 (.eraseSector 0) (fresh [])).map (·.fault) = some (some (.unimplemented .erase)) := by decide

/-- V-OP-3. -/
theorem test_reserved12 : (run1 .reserved12 (fresh [])).map (·.fault) = some (some (.unimplemented (.opCode 12))) := by decide

/-- V-OP-4. -/
theorem test_faulted :
    (step1 { fresh [] with fault := some (.respTimeout 58), seq := ⟨.fault, none⟩, port := some (.hostop ⟨1, 0, []⟩) }).map
        (fun t => (t.fault, t.trace, t.result)) = some (some (.respTimeout 58), [], none) := by decide

/-- V-OP-5. -/
theorem test_readOcr :
    (run1 .readOcr (ready ((card 0x00).bytes ++ [0xC0, 0xFF, 0x80, 0x00]))).map (·.result) =
      some (some (.ocr ⟨1, 1, 0xFF800, 0xC0FF8000⟩)) := by decide +kernel

/-- A request made while an operation runs is refused (rule R294). -/
theorem test_request_while_busy :
    (step1 { standing .opWrite (.busy 0) [0x00] with port := some (.hostop ⟨12, 0, []⟩) }).map (fun t => (t.fault, t.waiting)) =
      some (none, some (.busy 1)) := by decide

/-- The reset event ends a fault (rules R313, R340). -/
theorem test_reset :
    (step1 { fresh [0x12] with fault := some (.respTimeout 58), seq := ⟨.fault, none⟩, resetRequest := true }).map
        (fun t => (t.fault, t.seq, t.rx)) = some (none, ⟨.idle, none⟩, [0x12]) := by decide

/-- The word placed by `withFetchWord` is the instruction the next step runs. -/
theorem test_withFetchWord :
    (step1 (State.reset.withFetchWord 4 3)).map (·.fault) = some (some (.unimplemented .erase)) := by decide +kernel

/-! ### The sequencer, one advance at a time (rule R24) -/

/-- The positions of `issueCommand; respA; Deselect`, for a card that answers at the second poll. -/
theorem test_positions :
    let p (n : Nat) : Option Phase := (Position.advance^[n] ⟨fresh (card 0x01).bytes, sequence .cmd0⟩).state.seq.phase
    [83, 84, 85, 89, 90, 91, 95, 99, 100].map p =
      [none, some (.pFrame 0), some (.pFrame 1), some (.pFrame 5), some (.pFrame 5), some (.pPoll 1), some (.pPoll 2),
        some .pDesel, none] := by decide +kernel

/-- The positions of a Shape C/D response after its status byte. -/
theorem test_positions_extra :
    let p (n : Nat) : Option Phase := (Position.advance^[n] ⟨open_ [0x01, 1, 2, 3, 4], sequence .respCD⟩).state.seq.phase
    [2, 6, 7, 8, 9].map p =
      [some (.pPoll 1), some (.pExtra 0), some (.pExtra 1), some (.pExtra 2), some (.pExtra 3)] := by decide +kernel

/-- The positions of a block of two bytes and its two checksum bytes (rule R203): no advance stands before either, one writes `buf`. -/
theorem test_positions_block :
    let p (n : Nat) : Option Phase := (Position.advance^[n] ⟨open_ [1, 2, 0x12, 0x34], receiveBlockSeq 2⟩).state.seq.phase
    (List.range 6).map p =
      [none, some (.pData 0), some (.pData 1), some (.pData 1), some (.pCrc 0), some (.pCrc 1)] := by decide +kernel

/-- Rule R172: no transaction runs in state Reset, so its `Deselect()` has no phase; the last of a transaction is P_DESEL. -/
theorem test_positions_reset :
    let q (n : Nat) (s : State) (l : List Advance) : Seq × Option LinkEvent :=
      let t := (Position.advance^[n] ⟨s, l⟩).state
      (t.seq, t.trace.head?)
    q 2 (fresh []) initSeq = (⟨.iReset, none⟩, some .desel) ∧
      q 1 (atPhase (.pCrc 1) (open_ [])) deselectSeq = (⟨.idle, some .pDesel⟩, some .desel) := by decide +kernel

/-- Rule R122's example, the register bit by bit for `[0x40]`: two advances a bit. -/
theorem test_advances_crc :
    (List.range 9).map (fun k => (Position.advance^[2 * k + 1] ⟨State.reset, crcSeq [0x40]⟩).state.crc) =
      [0x00, 0x00, 0x09, 0x12, 0x24, 0x48, 0x19, 0x32, 0x64] := by decide +kernel

/-- Rules R184, R185: `seq` is I_TERMINAL before `initialized` is written. -/
theorem test_advances_terminal :
    let s := { State.reset with ocrRaw := 0xC0FF8000, seq := ⟨.iReadOcr, none⟩ }
    (List.range 5).map (fun n =>
        let t := (Position.advance^[n] ⟨s, act (enter .iBranch) :: branchSeq ++ terminalSeq⟩).state
        (t.seq.main, t.initialized)) =
      [(.iReadOcr, false), (.iBranch, false), (.iBranch, false), (.iTerminal, false), (.iTerminal, true)] := by decide +kernel

/-- Rule R202, with its bound of 1: the exchange, the count, the test for the token, the test of the bound. -/
theorem test_advances_token :
    let s := { open_ [0x00] with cfg := { Config.defaultParams with tokenWaitMax := some 1 } }
    (List.range 6).map (fun n =>
        let t := (Position.advance^[n] ⟨s, tokenSeq .ret⟩).state
        (t.rx, t.waiting, t.fault)) =
      [([0x00], none, none), ([0x00], some (.token 0 .ret), none), ([], some (.token 0 .ret), none),
        ([], some (.token 1 .ret), none), ([], some (.token 1 .ret), none), ([], none, some (.timeout .token))] := by decide +kernel

/-- Rule R180 at the end of an iteration that did not end the loop: the count, the two tests, the delay. -/
theorem test_advances_activate :
    let s := standing .iActivate (.activate 4) ((card 0x01).bytes ++ (card 0x01).bytes)
    (List.range 5).map (fun n =>
        let t := (Position.advance^[200 + n] ⟨s, activateSeq 4⟩).state
        (t.waiting, t.trace.head?)) =
      [(some (.activate 4), some .desel), (some (.activate 5), some .desel), (some (.activate 5), some .desel),
        (some (.activate 5), some .desel), (some (.activate 5), some (.delay 10))] := by decide +kernel

/-! ### Status flags (rule R95) -/

/-- 0x05 is idle-state and illegal-command. -/
theorem test_statusFlags :
    ({ State.reset with r1 := 0x05 } : State).statusFlags = ⟨true, false, true, false, false, false, false⟩ := by decide +kernel

/-! ### Received formats -/

theorem test_respFormatA : (run1 (.respFormatA 0x01) (open_ [])).map (fun t => (t.r1, t.trace)) = some (0x01, [.x 0xFF 0x01]) := by decide
theorem test_dresp : (run1 (.dresp 0xE5) (open_ [])).map (·.wresp) = some 0xE5 := by decide
theorem test_startToken :
    (run1 .startToken { open_ [] with waiting := some (.token 3 .ret) }).map (fun t => (t.waiting, t.result)) =
      some (none, some .done) := by decide

/-! ### Witnesses: every statement's hypotheses are met, clause by clause -/

/-- A fetched block of `n` bytes with the token at once. -/
def block (n : Nat) : List Byte := 0xFE :: (zeros n ++ ([0x12, 0x34] ++ []))

theorem witness_DecodeEncode : (Instr.writeSector 0xFFFFFFFF (zeros 512)).wellFormed = true ∧
    encode Config.defaultParams (.writeSector 0xFFFFFFFF (zeros 512)) = some (.hostop ⟨2, 0xFFFFFFFF, zeros 512⟩) := by
  decide +kernel

theorem witness_EncodeDecode :
    decode Config.defaultParams (.hostop ⟨15, 1, []⟩) = .ok .reserved15 ∧ decode Config.defaultParams (.respA [0x7F]) = .ok (.respFormatA 0x7F) := by decide

theorem witness_StepRunsDecoded :
    let s (p : Option PortWord) : State := { State.reset with port := p }
    (∀ p, (s p).resetRequest = false ∧ (s p).fault = none ∧ (s p).waiting = none) ∧
      ((s (some (.hostop ⟨3, 0, []⟩))).port = some (.hostop ⟨3, 0, []⟩) ∧ decode Config.defaultParams (.hostop ⟨3, 0, []⟩) = .ok (.eraseSector 0)) ∧
      ((s (some (.token [0x00]))).port = some (.token [0x00]) ∧ decode Config.defaultParams (.token [0x00]) = .error .notToken) ∧
      (s none).port = none := ⟨fun _ => ⟨rfl, rfl, rfl⟩, ⟨rfl, rfl⟩, ⟨rfl, by decide⟩, rfl⟩

theorem witness_ResetEvent : ({ State.reset with fault := some (.timeout .busy), resetRequest := true } : State).resetRequest = true := rfl

/-- An engine in the middle of a busy wait meets the invariant, and a step of it has a next state. -/
theorem witness_InvStep : ∃ s t : State, Inv s ∧ step s = .next t ∧ s.busy = true := by
  refine ⟨{ standing .opWrite (.busy 0) [0x00] with trace := (.sel :: exchangeEvents (frameBytes 24 0) (zeros 6)).reverse }, _,
    ⟨rfl, List.length_replicate, List.length_replicate, rfl, Nat.zero_le _, ⟨nofun, nofun⟩, nofun, rfl, ?_, fun _ => rfl, nofun,
      fun _ => rfl, ?_⟩, rfl, rfl⟩
  · rintro w ⟨⟩; rfl
  · show bracketOf _ = .body
    decide +kernel

theorem witness_WordsOfTheSpec : Config.defaultParams.startToken = 0xFE ∧ (zeros 512).length = 512 :=
  ⟨rfl, List.length_replicate⟩

theorem witness_FaultSticky : ∃ (s : State) (r : Fatal), s.fault = some r ∧ s.resetRequest = false :=
  ⟨{ State.reset with fault := some (.respTimeout 63), seq := ⟨.fault, none⟩ }, _, rfl, rfl⟩

theorem witness_FaultEntry : ∃ (i : Instr) (s t : State) (r : Fatal), s.fault = none ∧ exec i s = .next t ∧ t.fault = some r :=
  ⟨.reserved9, State.reset, _, _, rfl, rfl, rfl⟩

theorem witness_SessionState : ∃ (i : Instr) (s t : State), exec i s = .next t ∧ s.initialized = true :=
  ⟨.select, ready [], _, rfl, rfl⟩

theorem witness_OnlyInitWrites : ∃ (i : Instr) (s t : State), i ≠ .init ∧ s.waiting = none ∧ exec i s = .next t :=
  ⟨.readOcr, ready [], _, nofun, rfl, rfl⟩

theorem witness_RunningOperation :
    (∃ (s t : State) (w : Wait), s.resetRequest = false ∧ s.fault = none ∧ s.waiting = some w ∧ step s = .next t) ∧
      ∃ (i : Instr) (h : HostWord) (s : State), decode s.cfg (.hostop h) = .ok i ∧ s.busy = true :=
  ⟨⟨standing .opWrite (.busy 0) [0x00], _, _, rfl, rfl, rfl, rfl⟩, .init, ⟨0, 0, []⟩, standing .opWrite (.busy 0) [], rfl, rfl⟩

/-- The last iteration of the activation loop takes an engine from uninitialized to initialized. -/
def lastIteration : State :=
  { standing .iActivate (.activate 1) ((card 0x01).bytes ++ (card 0x00).bytes ++ (card 0x00).bytes ++ [0xC0, 0xFF, 0x80, 0x00]) with
    cfg := { Config.defaultParams with initFetchCsd := false } }

theorem witness_Modes :
    (∃ s t : State, s.resetRequest = false ∧ step s = .next t ∧ s.mode = .faulted) ∧
      (∃ s t : State, s.resetRequest = false ∧ step s = .next t ∧ s.mode = .initialized) ∧
      (lastIteration.resetRequest = false ∧ lastIteration.mode = .uninitialized ∧
        (step1 lastIteration).map State.mode = some .initialized) :=
  ⟨⟨{ State.reset with fault := some (.timeout .token) }, _, rfl, rfl, rfl⟩, ⟨ready [], _, rfl, rfl, rfl⟩, rfl, rfl, by decide +kernel⟩

/-- INIT from its request takes an engine from uninitialized to initialized too (program P7's end, with block addressing). -/
theorem witness_Modes_request :
    let a := initCard [] []
    let s := { fresh (a.handshakeBytes ++ (a.fetchBytes 0xFE ++ [])) with port := some (.hostop ⟨0, 0, []⟩) }
    s.resetRequest = false ∧ s.mode = .uninitialized ∧ (step1 s).map State.mode = some .initialized := by decide +kernel

theorem witness_Unimplemented : State.reset.fault = none ∧ State.reset.busy = false := ⟨rfl, rfl⟩

theorem witness_NotInitialized :
    State.reset.fault = none ∧ State.reset.busy = false ∧ State.reset.cfg.requireInit = true ∧ State.reset.initialized = false :=
  ⟨rfl, rfl, rfl, rfl⟩

/-- For the statements whose one hypothesis is that no fault is latched: ChecksumRows, FrameRow, IssueCommandRow, StatusPoll, the
decoder rows. -/
theorem witness_no_fault : State.reset.fault = none ∧ (standing .opRead (.token 0 .ret) [0xFF]).fault = none := ⟨rfl, rfl⟩

theorem witness_ChecksumProperties : [(0x51 : Byte), 0xFF].length = [(0x00 : Byte), 0x80].length := rfl

/-- One bit, and two bits at the two ends of fifteen bytes (clause (e) of ChecksumProperties). -/
theorem witness_ChecksumProperties_detects :
    let a := zeros 15
    let one : List Byte := zeros 14 ++ [0x01]
    let two : List Byte := 0x80 :: zeros 13 ++ [0x01]
    a.length = one.length ∧ a.length = two.length ∧ a.length ≤ 15 ∧
      (List.zip (messageBits a) (messageBits one)).countP (fun p => p.1 != p.2) = 1 ∧
      (List.zip (messageBits a) (messageBits two)).countP (fun p => p.1 != p.2) = 2 := by decide +kernel

theorem witness_LinkPrimitives : (fresh [0x34]).fault = none ∧ (fresh [0x34]).rx = 0x34 :: [] ∧ (fresh []).rx = [] := ⟨rfl, rfl, rfl⟩

theorem witness_ResponseRows :
    let skip : List Byte := List.replicate 7 0xFF
    (open_ []).fault = none ∧ skip.length ≤ 7 ∧ (∀ x ∈ skip, x.msb = true) ∧ (0x00 : Byte).msb = false ∧
      (open_ (skip ++ 0x00 :: [])).rx = skip ++ 0x00 :: [] ∧ (open_ (skip ++ 0x00 :: 0xFF :: [])).rx = skip ++ 0x00 :: 0xFF :: [] ∧
      (open_ (skip ++ 0x00 :: 1 :: 2 :: 3 :: 4 :: [])).rx = skip ++ 0x00 :: 1 :: 2 :: 3 :: 4 :: [] :=
  ⟨rfl, by decide, by decide, by decide, rfl, rfl, rfl⟩

theorem witness_ResponseTimeout :
    let polls : List Byte := List.replicate 8 0xFF
    let ans : List Byte := zeros 6
    let c55 := card 0x01
    let clocks : List Byte := List.replicate 10 0xFF
    (open_ polls).fault = none ∧ ans.length = 6 ∧ polls.length = 8 ∧ (∀ b ∈ polls, b.msb = true) ∧
      ((open_ polls).frame = frameBytes 58 0 ∧ (open_ polls).rx = polls ++ []) ∧
      (ready (ans ++ polls)).rx = ans ++ (polls ++ []) ∧
      (c55.ok = true ∧ (ready (c55.bytes ++ (ans ++ polls))).rx = c55.bytes ++ (ans ++ (polls ++ []))) ∧
      (fresh (clocks ++ (ans ++ polls))).busy = false ∧ clocks.length = 10 ∧
      (fresh (clocks ++ (ans ++ polls))).rx = clocks ++ (ans ++ (polls ++ [])) := by decide +kernel

/-- The clauses of ResponseTimeout on INIT's commands, in the iteration of a request and in a resumed one: vector V-IN-14 is the last of
them. The answers up to the command without a status byte are any; the states are those of witness_StepAdvances_request and
witness_StepAdvances_resumed. -/
theorem witness_ResponseTimeout_init :
    let silent : List Byte := zeros 6 ++ (List.replicate 8 0xFF ++ [])
    let p := card 0x01
    let z := card 0x00
    let high : List Byte := [0xC0, 0xFF, 0x80, 0x00]
    let low : List Byte := [0x80, 0xFF, 0x80, 0x00]
    let before : List Byte := List.replicate 10 0xFF ++ (p.bytes ++ (p.bytes ++ [0x00, 0x00, 0x01, 0xAA]))
    let turn (rx : List Byte) : Prop :=
      (fresh (before ++ rx)).rx = before ++ rx ∧ (standing .iActivate (.activate 0) rx).rx = [] ++ rx
    let cfg := Config.defaultParams
    ((fresh (List.replicate 10 0xFF ++ (p.bytes ++ silent))).rx = List.replicate 10 0xFF ++ (p.bytes ++ silent)) ∧
      (turn silent ∧ turn (p.bytes ++ silent) ∧ turn (p.bytes ++ (z.bytes ++ silent)) ∧
        turn (p.bytes ++ (z.bytes ++ (z.bytes ++ (low ++ silent)))) ∧ turn (p.bytes ++ (z.bytes ++ (z.bytes ++ (high ++ silent))))) ∧
      (p.ok = true ∧ p.status = 0x01 ∧ z.ok = true ∧ z.status = 0 ∧ low.length = 4 ∧ high.length = 4 ∧
        be32List [0x00, 0x00, 0x01, 0xAA] &&& 0xFFF = 0x1AA) ∧
      (decodeOcr cfg.layouts.ocr (be32List low)).ccs = 0 ∧ cfg.initCmd16Issued = true ∧
      (decodeOcr cfg.layouts.ocr (be32List high)).ccs = 1 ∧ cfg.initFetchCsd = true := by decide +kernel

/-- Host operations that may start (statements ResponseTimeout, UnexpectedStatus, the rows with a late token). -/
theorem witness_starts (rx : List Byte) :
    (ready rx).starts 1 ∧ (ready rx).starts 2 ∧ (ready rx).starts 4 ∧ (ready rx).starts 5 ∧ (ready rx).starts 6 ∧
      (ready rx).starts 7 ∧ (ready rx).starts 8 :=
  have h (code : BitVec 4) : (ready rx).starts code := ⟨rfl, rfl, .inr (.inr rfl)⟩
  ⟨h 1, h 2, h 4, h 5, h 6, h 7, h 8⟩

/-- A first byte that is not the token, after each kind of response (statements FetchBlockRow, SectorReadRows, RegisterReadRows, ScrRows,
SsrRows). -/
theorem witness_late_token :
    let c := slowCard 0x00
    let p := card 0x01
    (0x00 : Byte) ≠ State.reset.cfg.startToken ∧ State.reset.cfg.tokenWaitMax ≠ some 1 ∧ c.ok = true ∧ p.ok = true ∧
      (open_ [0x00]).rx = 0x00 :: [] ∧ (ready (c.bytes ++ [0x00])).rx = c.bytes ++ (0x00 :: []) ∧
      (ready (c.bytes ++ [0xFF, 0x00])).rx = c.bytes ++ (0xFF :: 0x00 :: []) ∧
      (ready (p.bytes ++ (c.bytes ++ [0x00]))).rx = p.bytes ++ (c.bytes ++ (0x00 :: [])) ∧
      (ready (p.bytes ++ (c.bytes ++ [0xFF, 0x00]))).rx = p.bytes ++ (c.bytes ++ (0xFF :: 0x00 :: [])) := by decide

theorem witness_ShapeACommands :
    (fresh (card 0x01).bytes).fault = none ∧ (card 0x01).ok = true ∧ (fresh (card 0x01).bytes).rx = (card 0x01).bytes ++ [] := by
  decide

/-- The clause of ShapeACommands on command 41. -/
theorem witness_ShapeACommands_activate :
    (card 0x01).ok = true ∧ (slowCard 0x00).ok = true ∧
      (fresh ((card 0x01).bytes ++ (slowCard 0x00).bytes)).rx = (card 0x01).bytes ++ ((slowCard 0x00).bytes ++ []) := by decide

theorem witness_ByteOrder : State.reset.filler = Config.fillerBuffer ∧ 512 ≤ 512 := ⟨rfl, le_refl _⟩

theorem witness_ShapeCDCommands :
    let s := ready ((slowCard 0x00).bytes ++ ([0xC0, 0xFF, 0x80, 0x00] ++ []))
    s.fault = none ∧ (slowCard 0x00).ok = true ∧ s.rx = (slowCard 0x00).bytes ++ ([0xC0, 0xFF, 0x80, 0x00] ++ []) ∧ s.starts 6 :=
  ⟨rfl, by decide, rfl, rfl, rfl, .inr (.inr rfl)⟩

theorem witness_TokenWait :
    let bounded := { State.reset with rx := [0x0D], cfg := { Config.defaultParams with tokenWaitMax := some 1 } }
    (fresh [0xFE]).rx = 0xFE :: [] ∧ (0xFE : Byte) = (fresh [0xFE]).cfg.startToken ∧
      ((0x0D : Byte) ≠ (fresh [0x0D]).cfg.startToken ∧ (fresh [0x0D]).cfg.tokenWaitMax ≠ some 1) ∧
      ((0x0D : Byte) ≠ bounded.cfg.startToken ∧ bounded.cfg.tokenWaitMax = some 1 ∧ bounded.rx = 0x0D :: [] ∧ bounded.fault = none) := by
  decide

theorem witness_FetchBlockRow :
    let s := open_ (0xFE :: (zeros 512 ++ (0x12 :: 0x34 :: [])))
    s.fault = none ∧ s.filler = Config.fillerBuffer ∧ (zeros 512).length ≤ 512 ∧
      s.rx = s.cfg.startToken :: (zeros 512 ++ (0x12 :: 0x34 :: [])) := ⟨rfl, rfl, by decide +kernel, rfl⟩

theorem witness_SectorReadRows :
    let s := ready ((slowCard 0x00).bytes ++ block 512)
    s.fault = none ∧ s.filler = Config.fillerBuffer ∧ (slowCard 0x00).ok = true ∧ (slowCard 0x00).status = 0 ∧
      (zeros 512).length = 512 ∧ [(0x12 : Byte), 0x34].length = 2 ∧
      s.rx = (slowCard 0x00).bytes ++ (s.cfg.startToken :: (zeros 512 ++ ([0x12, 0x34] ++ []))) ∧ s.starts 1 :=
  ⟨rfl, rfl, by decide, rfl, List.length_replicate, rfl, rfl, rfl, rfl, .inr (.inr rfl)⟩

/-- The same without the status-byte test and with a status byte that is not 0x00. -/
theorem witness_SectorReadRows_unchecked :
    let s := { ready ((card 0x20).bytes ++ block 512) with cfg := { Config.defaultParams with r1Check := false, requireInit := false } }
    s.fault = none ∧ (card 0x20).ok = true ∧ s.cfg.r1Check = false ∧
      s.rx = (card 0x20).bytes ++ (s.cfg.startToken :: (zeros 512 ++ ([0x12, 0x34] ++ []))) ∧ s.starts 1 :=
  ⟨rfl, by decide, rfl, rfl, rfl, rfl, .inr (.inl rfl)⟩

theorem witness_RegisterReadRows :
    let s := ready ((card 0x00).bytes ++ block 16)
    s.fault = none ∧ s.filler = Config.fillerBuffer ∧ (card 0x00).ok = true ∧ (card 0x00).status = 0 ∧ (zeros 16).length = 16 ∧
      s.rx = (card 0x00).bytes ++ (s.cfg.startToken :: (zeros 16 ++ ([0x12, 0x34] ++ []))) ∧ s.starts 4 ∧ s.starts 5 :=
  ⟨rfl, rfl, by decide, rfl, rfl, rfl, ⟨rfl, rfl, .inr (.inr rfl)⟩, rfl, rfl, .inr (.inr rfl)⟩

/-- The clause of RegisterReadRows on Shape B. -/
theorem witness_RegisterReadRows_shapeB :
    let s := ready ((card 0x00).bytes ++ (0xFF :: block 64))
    s.fault = none ∧ s.filler = Config.fillerBuffer ∧ (card 0x00).ok = true ∧ (card 0x00).status = 0 ∧ (zeros 64).length ≤ 512 ∧
      s.rx = (card 0x00).bytes ++ (0xFF :: s.cfg.startToken :: (zeros 64 ++ ([0x12, 0x34] ++ []))) :=
  ⟨rfl, rfl, by decide, rfl, by decide, rfl⟩

/-- The positions the third clause of StepAdvances speaks of exist, and a step with the filler buffer of all ones has a next state. -/
theorem witness_StepAdvances :
    (∃ t, State.reset.filler = Config.fillerBuffer ∧ step { State.reset with port := some (.hostop ⟨3, 0, []⟩) } = .next t) ∧
      State.reset.fault = none ∧ 5 < 6 ∧ (511 < 512 ∧ 512 ≤ 512) ∧ (0 ≤ 512 ∧ 1 < 2) ∧ 511 < (zeros 512).length :=
  ⟨⟨_, rfl, rfl⟩, rfl, by decide, by decide, by decide, by rw [zeros, List.length_replicate]; decide⟩

/-- The last status poll, and a response whose further bytes are received. -/
theorem witness_StepAdvances_response :
    let s := open_ (slowCard 0x01).skip
    let t := open_ ((slowCard 0x01).skip ++ [0x01])
    (7 < 8 ∧ s.fault = none ∧ ∀ b ∈ replies (List.replicate 7 0xFF) s, isStatus b = false) ∧
      (t.fault = none ∧ (pollStatus t).fault = none ∧ 3 < 4) := by decide +kernel

/-- A card that answers nothing (rule R152). -/
def silentCard : NoReply := ⟨zeros 6, List.replicate 8 0xFF⟩

/-- The requests of StepAdvances' fourth and fifth clauses, whatever the card answers. -/
theorem witness_StepAdvances_request :
    let s (op : BitVec 4) (rx : List Byte) : State := { ready rx with port := some (.hostop ⟨op, 0x10, zeros 512⟩) }
    let i (rx : List Byte) : State := { fresh rx with port := some (.hostop ⟨0, 0, []⟩) }
    (∀ op rx, (s op rx).resetRequest = false ∧ (s op rx).waiting = none ∧ (s op rx).filler = Config.fillerBuffer ∧ (s op rx).starts op ∧
        (s op rx).cfg = Config.defaultParams ∧ (s op rx).rx = rx) ∧
      (∀ rx, (i rx).resetRequest = false ∧ (i rx).waiting = none ∧ (i rx).filler = Config.fillerBuffer ∧ (i rx).starts 0 ∧
        (i rx).cfg = Config.defaultParams ∧ (i rx).rx = rx) ∧
      (zeros 512).length = 512 ∧ (zeros 516).length = 516 :=
  ⟨fun _ _ => ⟨rfl, rfl, rfl, ⟨rfl, rfl, .inr (.inr rfl)⟩, rfl, rfl⟩, fun _ => ⟨rfl, rfl, rfl, ⟨rfl, rfl, .inl rfl⟩, rfl, rfl⟩,
    List.length_replicate, List.length_replicate⟩

/-- The card's answers in them: no status byte, one that R1_CHECK refuses, one that it passes, both echoes. -/
theorem witness_StepAdvances_answers :
    (silentCard.ok = true ∧ (card 0x00).ok = true ∧ (card 0x01).ok = true ∧ (card 0x20).ok = true) ∧
      (Config.defaultParams.r1Check = true ∧ (card 0x20).status ≠ 0 ∧ (card 0x00).status = 0 ∧ (card 0x00).status ≠ 0x01 ∧
        (card 0x01).status = 0x01) ∧
      (List.replicate 10 (0xFF : Byte)).length = 10 ∧ be32List [0x00, 0x00, 0x01, 0xAA] &&& 0xFFF = 0x1AA ∧
      be32List [0xFF, 0xFF, 0xFF, 0xFF] &&& 0xFFF ≠ 0x1AA := by decide

/-- The four turns of a token wait. -/
theorem witness_StepAdvances_tokenTurns (n : Nat) (k : AfterBlock) (h0 : 0 < n) (h : n ≤ 512) (hk : k ≠ .fetchOnly) :
    let bs : List Byte := 0xFE :: (zeros n ++ [0x12, 0x34])
    (∃ ps es, TokenTurn 0xFE (.block n k) [0x00] ps es) ∧ (∃ ps es, TokenTurn 0xFE .ret [0xFE] ps es) ∧
      (∃ ps es, TokenTurn 0xFE (.block n .fetchOnly) bs ps es) ∧ ∃ ps es, TokenTurn 0xFE (.block n k) bs ps es :=
  ⟨⟨_, _, .other (by decide)⟩, ⟨_, _, .token⟩, ⟨_, _, .fetchOnly List.length_replicate h0 h rfl⟩,
    _, _, .block List.length_replicate h0 h rfl hk⟩

/-- What follows the status byte of a read: refused, a late token, the block. -/
theorem witness_StepAdvances_readTurns (n : Nat) (k : AfterBlock) (h0 : 0 < n) (h : n ≤ 512) (hk : k ≠ .fetchOnly) :
    ReadTurn Config.defaultParams 0x20 (.block n k) [] [] [] ∧ (∃ ps es, ReadTurn Config.defaultParams 0 (.block n k) [0x00] ps es) ∧
      ∃ ps es, ReadTurn Config.defaultParams 0 (.block n k) (0xFE :: (zeros n ++ [0x12, 0x34])) ps es :=
  ⟨.refused rfl (by decide), ⟨_, _, .turn (.inr rfl) (.other (by decide))⟩,
    _, _, .turn (.inr rfl) (.block List.length_replicate h0 h rfl hk)⟩

/-- Every end of an iteration of the activation loop, with and without the descriptor fetch, with and without command 16. -/
theorem witness_StepAdvances_activateTurns (n : Nat) :
    let q := silentCard
    let p := (card 0x01, card 0x00)
    let c := card 0x00
    let high : List Byte := [0xC0, 0xFF, 0x80, 0x00]
    let low : List Byte := [0x80, 0xFF, 0x80, 0x00]
    let before (ocr : List Byte) : List Byte := p.1.bytes ++ p.2.bytes ++ c.bytes ++ ocr
    let turn (cfg : Params) (bs : List Byte) : Prop := ∃ w, ActivateTurn cfg n bs w
    let cfg := Config.defaultParams
    (turn cfg q.bytes ∧ turn cfg (p.1.bytes ++ q.bytes) ∧ turn cfg (p.1.bytes ++ (card 0x01).bytes) ∧
        turn cfg (p.1.bytes ++ p.2.bytes ++ q.bytes)) ∧
      (turn { cfg with initCmd16Issued := false } (before low ++ []) ∧ turn cfg (before low ++ q.bytes) ∧ turn cfg (before low ++ c.bytes)) ∧
      (turn { cfg with initFetchCsd := false } (before high ++ []) ∧ turn cfg (before high ++ q.bytes)) ∧
      (turn cfg (before high ++ ((card 0x20).bytes ++ [])) ∧ turn cfg (before high ++ (c.bytes ++ [0x00])) ∧
        turn cfg (before high ++ (c.bytes ++ (0xFE :: (csdP1 ++ [0x12, 0x34]))))) := by
  have last {cfg : Params} {ocr bs : List Byte} (h : ocr.length = 4)
      (hb : ∃ w, BranchTurn cfg (decodeOcr cfg.layouts.ocr (be32List ocr)).ccs bs w) :
      ∃ w, ActivateTurn cfg n ((card 0x01).bytes ++ (card 0x00).bytes ++ (card 0x00).bytes ++ ocr ++ bs) w :=
    hb.imp' _ fun _ hw => .last (p := (card 0x01, card 0x00)) (c := card 0x00) (by decide) (by decide) rfl (by decide) h hw
  have hq : silentCard.ok = true := by decide
  exact
    ⟨⟨⟨_, .noReply55 hq⟩, ⟨_, .noReply41 (c := card 0x01) (by decide) hq⟩,
        ⟨_, .again (p := (card 0x01, card 0x01)) (by decide) (by decide) (by decide)⟩,
        _, .noReply58 (p := (card 0x01, card 0x00)) (by decide) (by decide) rfl hq⟩,
      ⟨last rfl ⟨_, .byte (by decide) rfl⟩, last rfl ⟨_, .noReply16 (by decide) rfl hq⟩,
        last rfl ⟨_, .byte16 (c := card 0x00) (by decide) rfl (by decide)⟩⟩,
      ⟨last rfl ⟨_, .block (by decide) rfl⟩, last rfl ⟨_, .noReply9 (by decide) rfl hq⟩⟩,
      last rfl ⟨_, .fetch (c := card 0x20) (by decide) rfl (by decide) (.refused rfl (by decide))⟩,
      last rfl ⟨_, .fetch (c := card 0x00) (by decide) rfl (by decide) (.turn (.inr rfl) (.other (by decide)))⟩,
      last rfl ⟨_, .fetch (c := card 0x00) (by decide) rfl (by decide) (.turn (.inr rfl) (.block rfl (by decide) (by decide) rfl nofun))⟩⟩

/-- The engines that stand in the three loops, whatever the card answers. -/
theorem witness_StepAdvances_resumed (rx : List Byte) :
    let ok (w : Wait) (s : State) : Prop :=
      s.resetRequest = false ∧ s.fault = none ∧ s.filler = Config.fillerBuffer ∧ s.cfg = Config.defaultParams ∧ s.waiting = some w ∧
        s.rx = rx
    ok (.token 0 .ret) (standing .opRegRead (.token 0 .ret) rx) ∧
      ok (.token 0 (.block 512 .fetchOnly)) (standing .opRegRead (.token 0 (.block 512 .fetchOnly)) rx) ∧
      ok (.token 3 (.block 512 .readSector)) (standing .opRead (.token 3 (.block 512 .readSector)) rx) ∧
      ok (.busy 2) (standing .opWrite (.busy 2) rx) ∧ ok (.activate 1) (standing .iActivate (.activate 1) rx) :=
  have h (m w) : let s := standing m w rx
      s.resetRequest = false ∧ s.fault = none ∧ s.filler = Config.fillerBuffer ∧ s.cfg = Config.defaultParams ∧ s.waiting = some w ∧
        s.rx = rx := ⟨rfl, rfl, rfl, rfl, rfl, rfl⟩
  ⟨h _ _, h _ _, h _ _, h _ _, h _ _⟩

theorem witness_ScrRows :
    let s := ready ((card 0x01).bytes ++ ((card 0x00).bytes ++ block 8))
    s.fault = none ∧ s.filler = Config.fillerBuffer ∧ (card 0x01).ok = true ∧ (card 0x00).ok = true ∧ (card 0x00).status = 0 ∧
      s.rx = (card 0x01).bytes ++ ((card 0x00).bytes ++ (s.cfg.startToken :: (zeros 8 ++ ([0x12, 0x34] ++ [])))) ∧ s.starts 7 :=
  ⟨rfl, rfl, by decide, by decide, rfl, rfl, rfl, rfl, .inr (.inr rfl)⟩

theorem witness_SsrRows :
    let s := ready ((card 0x01).bytes ++ ((card 0x00).bytes ++ (0x00 :: block 64)))
    s.fault = none ∧ s.filler = Config.fillerBuffer ∧ (card 0x01).ok = true ∧ (card 0x00).ok = true ∧ (card 0x00).status = 0 ∧
      s.rx = (card 0x01).bytes ++ ((card 0x00).bytes ++ (0x00 :: s.cfg.startToken :: (zeros 64 ++ ([0x12, 0x34] ++ [])))) ∧ s.starts 8 :=
  ⟨rfl, rfl, by decide, by decide, rfl, rfl, rfl, rfl, .inr (.inr rfl)⟩

/-- The card's answers to a write, with this acceptance byte. -/
def writeAnswers (accept : Byte) : List Byte := (card 0x00).bytes ++ (zeros 516 ++ (accept :: 0xFF :: []))

theorem witness_SectorWriteRows :
    let s := ready (writeAnswers 0x0B)
    s.fault = none ∧ (card 0x00).ok = true ∧ (card 0x00).status = 0 ∧ (zeros 512).length = 512 ∧ (zeros 516).length = 516 ∧
      s.cfg.wrespCheck = false ∧ s.rx = (card 0x00).bytes ++ (zeros 516 ++ (0x0B :: 0xFF :: [])) ∧ s.wdata = zeros 512 ∧ s.starts 2 :=
  ⟨rfl, by decide, rfl, List.length_replicate, List.length_replicate, rfl, rfl, rfl, rfl, rfl, .inr (.inr rfl)⟩

/-- The same for a card that is busy for two polls. -/
theorem witness_SectorWriteRows_busy :
    let busy : List Byte := [0x00, 0xFE]
    let s := ready ((card 0x00).bytes ++ (zeros 516 ++ (0x0B :: (busy ++ 0xFF :: []))))
    s.fault = none ∧ s.wdata = zeros 512 ∧ s.starts 2 ∧ s.cfg.wrespCheck = false ∧ s.resetRequest = false ∧ s.port = none ∧
      s.cfg.busyWaitMax = none ∧ (∀ b ∈ busy, b ≠ 0xFF) ∧
      s.rx = (card 0x00).bytes ++ (zeros 516 ++ (0x0B :: (busy ++ 0xFF :: []))) :=
  ⟨rfl, rfl, ⟨rfl, rfl, .inr (.inr rfl)⟩, rfl, rfl, rfl, rfl, by decide, rfl⟩

theorem witness_SectorWriteRows_checked :
    let s := { ready (writeAnswers 0xE5) with cfg := { Config.defaultParams with wrespCheck := true } }
    s.fault = none ∧ (0xE5 : Byte) &&& 0x1F = 0x05 ∧ s.rx = (card 0x00).bytes ++ (zeros 516 ++ (0xE5 :: 0xFF :: [])) := ⟨rfl, by decide, rfl⟩

theorem witness_WriteRejected :
    let s := { ready (writeAnswers 0x0B) with cfg := { Config.defaultParams with wrespCheck := true } }
    s.fault = none ∧ (card 0x00).ok = true ∧ (card 0x00).status = 0 ∧ (zeros 512).length = 512 ∧ (zeros 516).length = 516 ∧
      s.cfg.wrespCheck = true ∧ (0x0B : Byte) &&& 0x1F ≠ 0x05 ∧ s.rx = (card 0x00).bytes ++ (zeros 516 ++ (0x0B :: 0xFF :: [])) :=
  ⟨rfl, by decide, rfl, List.length_replicate, List.length_replicate, rfl, by decide, rfl⟩

/-- The same for command 24, and for a card that is busy for two polls. -/
theorem witness_WriteRejected_busy :
    let busy : List Byte := [0x00, 0xFE]
    let s := { ready ((card 0x00).bytes ++ (zeros 516 ++ (0x0B :: (busy ++ 0xFF :: [])))) with
      cfg := { Config.defaultParams with wrespCheck := true } }
    s.fault = none ∧ s.wdata = zeros 512 ∧ s.starts 2 ∧ s.resetRequest = false ∧ s.port = none ∧ s.cfg.busyWaitMax = none ∧
      (∀ b ∈ busy, b ≠ 0xFF) ∧ s.rx = (card 0x00).bytes ++ (zeros 516 ++ (0x0B :: (busy ++ 0xFF :: []))) :=
  ⟨rfl, rfl, ⟨rfl, rfl, .inr (.inr rfl)⟩, rfl, rfl, rfl, by decide, rfl⟩

theorem witness_UnexpectedStatus :
    let c := slowCard 0x7F
    let p := card 0x01
    c.ok = true ∧ c.status ≠ 0 ∧ (fresh c.bytes).cfg.r1Check = true ∧ (fresh (c.bytes ++ [])).rx = c.bytes ++ [] ∧ p.ok = true ∧
      (fresh (p.bytes ++ (c.bytes ++ []))).rx = p.bytes ++ (c.bytes ++ []) ∧
      (fresh (p.bytes ++ (c.bytes ++ (0xFF :: [])))).rx = p.bytes ++ (c.bytes ++ (0xFF :: [])) := by decide

/-- The clauses of UnexpectedStatus on INIT's descriptor fetch, in the iteration of a request and in a resumed one. -/
theorem witness_UnexpectedStatus_init :
    let p := card 0x01
    let z := card 0x00
    let c := slowCard 0x7F
    let ocr : List Byte := [0xC0, 0xFF, 0x80, 0x00]
    let answers := p.bytes ++ (z.bytes ++ (z.bytes ++ (ocr ++ (c.bytes ++ []))))
    let rx : List Byte := List.replicate 10 0xFF ++ (p.bytes ++ (p.bytes ++ ([0x00, 0x00, 0x01, 0xAA] ++ answers)))
    let s := standing .iActivate (.activate 0) answers
    (c.ok = true ∧ c.status ≠ 0 ∧ p.ok = true ∧ p.status = 0x01 ∧ z.ok = true ∧ z.status = 0 ∧ ocr.length = 4) ∧
      (s.fault = none ∧ s.cfg.r1Check = true ∧ s.cfg.initFetchCsd = true ∧ (decodeOcr s.cfg.layouts.ocr (be32List ocr)).ccs = 1 ∧
        s.resetRequest = false ∧ s.waiting = some (.activate 0) ∧ s.rx = answers) ∧
      (fresh rx).busy = false ∧ (List.replicate 10 (0xFF : Byte)).length = 10 ∧ be32List [0x00, 0x00, 0x01, 0xAA] &&& 0xFFF = 0x1AA ∧
      (fresh rx).rx = rx := by decide +kernel

theorem witness_LoopBounds :
    let t := { standing .opRead (.token 4 .ret) [0x00] with cfg := { Config.defaultParams with tokenWaitMax := some 5 } }
    let w := { standing .opWrite (.busy 0) [0x00] with cfg := { Config.defaultParams with busyWaitMax := some 1 } }
    let a := { standing .iActivate (.activate 1) ((card 0x01).bytes ++ ((card 0x01).bytes ++ [])) with
      cfg := { Config.defaultParams with acmd41IterMax := some 2 } }
    (t.resetRequest = false ∧ t.fault = none ∧ t.rx = 0x00 :: [] ∧ t.waiting = some (.token 4 .ret) ∧
        t.cfg.tokenWaitMax = some (4 + 1) ∧ (0x00 : Byte) ≠ t.cfg.startToken) ∧
      (w.resetRequest = false ∧ w.fault = none ∧ w.rx = 0x00 :: [] ∧ w.waiting = some (.busy 0) ∧
        w.cfg.busyWaitMax = some (0 + 1) ∧ (0x00 : Byte) ≠ 0xFF) ∧
      (a.resetRequest = false ∧ a.fault = none ∧ a.rx = 0xFF :: ((card 0x01).bytes ++ ((card 0x01).bytes ++ [])).tail ∧
        a.waiting = some (.activate 1) ∧ a.cfg.acmd41IterMax = some (1 + 1) ∧ (card 0x01).ok = true ∧ (card 0x01).status ≠ 0 ∧
        a.rx = (card 0x01).bytes ++ ((card 0x01).bytes ++ [])) := by decide

/-- The first turns of the clauses of LoopBounds on the token wait. -/
theorem witness_LoopBounds_token :
    let c := slowCard 0x00
    let p := card 0x01
    let s (rx : List Byte) : State := { ready rx with cfg := { Config.defaultParams with tokenWaitMax := some 1 } }
    (∀ rx op, (s rx).fault = none ∧ (s rx).cfg.tokenWaitMax = some 1 ∧ (0x00 : Byte) ≠ (s rx).cfg.startToken ∧ (s rx).starts op) ∧
      (c.ok = true ∧ c.status = 0 ∧ p.ok = true) ∧ (s [0x00]).rx = 0x00 :: [] ∧
      (s (c.bytes ++ (0x00 :: []))).rx = c.bytes ++ (0x00 :: []) ∧
      (s (c.bytes ++ (0xFF :: 0x00 :: []))).rx = c.bytes ++ (0xFF :: 0x00 :: []) ∧
      (s (p.bytes ++ (c.bytes ++ (0x00 :: [])))).rx = p.bytes ++ (c.bytes ++ (0x00 :: [])) ∧
      (s (p.bytes ++ (c.bytes ++ (0xFF :: 0x00 :: [])))).rx = p.bytes ++ (c.bytes ++ (0xFF :: 0x00 :: [])) :=
  ⟨fun _ _ => ⟨rfl, rfl, show (0x00 : Byte) ≠ 0xFE by decide, rfl, rfl, .inr (.inr rfl)⟩, by decide, rfl, rfl, rfl, rfl, rfl⟩

/-- Its first turn of the busy wait. -/
theorem witness_LoopBounds_busy :
    let rx := (card 0x00).bytes ++ (zeros 516 ++ (0xE5 :: 0x00 :: []))
    let s := { ready rx with cfg := { Config.defaultParams with busyWaitMax := some 1 } }
    s.fault = none ∧ (card 0x00).ok = true ∧ (card 0x00).status = 0 ∧ s.cfg.busyWaitMax = some 1 ∧ (0x00 : Byte) ≠ 0xFF ∧
      s.wdata.length = 512 ∧ (zeros 516).length = 516 ∧ s.rx = rx ∧ s.starts 2 :=
  ⟨rfl, by decide, rfl, rfl, by decide, List.length_replicate, List.length_replicate, rfl, rfl, rfl, .inr (.inr rfl)⟩

/-- Its first turns in INIT. -/
theorem witness_LoopBounds_init :
    let clocks : List Byte := List.replicate 10 0xFF
    let echo : List Byte := [0x00, 0x00, 0x01, 0xAA]
    let p := card 0x01
    let rx := clocks ++ (p.bytes ++ (p.bytes ++ (echo ++ (p.bytes ++ (p.bytes ++ [])))))
    let s := { fresh rx with cfg := { Config.defaultParams with acmd41IterMax := some 1 } }
    let a := initCard [] []
    let t := { fresh (a.handshakeBytes ++ (a.c9.bytes ++ (0x00 :: []))) with cfg := { Config.defaultParams with tokenWaitMax := some 1 } }
    (s.fault = none ∧ s.busy = false ∧ s.cfg.acmd41IterMax = some 1 ∧ clocks.length = 10 ∧ p.ok = true ∧ p.status = 0x01 ∧
        echo.length = 4 ∧ be32List echo &&& 0xFFF = 0x1AA ∧ p.status ≠ 0 ∧ s.rx = rx) ∧
      (t.fault = none ∧ t.busy = false ∧ t.cfg.tokenWaitMax = some 1 ∧ (0x00 : Byte) ≠ t.cfg.startToken ∧ a.handshakeOk t.cfg = true ∧
        a.retries = [] ∧ t.cfg.initFetchCsd = true ∧ a.c9.ok = true ∧ a.c9.status = 0 ∧
        t.rx = a.handshakeBytes ++ (a.c9.bytes ++ (0x00 :: []))) := by decide +kernel

/-- Its bound of the descriptor fetch in a resumed turn. -/
theorem witness_LoopBounds_resumed :
    let a := initCard [] []
    let rx := a.last.1.bytes ++ (a.last.2.bytes ++ (a.c58.bytes ++ (a.ocr ++ (a.c9.bytes ++ (0x00 :: [])))))
    let s := { standing .iActivate (.activate 3) rx with cfg := { Config.defaultParams with tokenWaitMax := some 1 } }
    s.resetRequest = false ∧ s.fault = none ∧ s.waiting = some (.activate 3) ∧ s.cfg.tokenWaitMax = some 1 ∧
      (0x00 : Byte) ≠ s.cfg.startToken ∧ a.handshakeOk s.cfg = true ∧ s.cfg.initFetchCsd = true ∧ a.c9.ok = true ∧ a.c9.status = 0 ∧
      s.rx = rx := by decide +kernel

theorem witness_Hangs :
    let t := standing .opRead (.token 0 (.block 512 .readSector)) [0x00, 0xFF]
    let w := standing .opWrite (.busy 0) [0x00, 0xFE]
    let its := [(card 0x05, card 0x05), (card 0x01, card 0x01)]
    let a := standing .iActivate (.activate 0) (its.flatMap (fun p => p.1.bytes ++ p.2.bytes))
    (t.resetRequest = false ∧ t.fault = none ∧ t.port = none ∧ t.waiting = some (.token 0 (.block 512 .readSector)) ∧
        t.cfg.tokenWaitMax = none ∧ (∀ b ∈ [(0x00 : Byte), 0xFF], b ≠ t.cfg.startToken) ∧ t.rx = [0x00, 0xFF] ++ []) ∧
      (w.resetRequest = false ∧ w.fault = none ∧ w.port = none ∧ w.waiting = some (.busy 0) ∧ w.cfg.busyWaitMax = none ∧
        (∀ b ∈ [(0x00 : Byte), 0xFE], b ≠ 0xFF) ∧ w.rx = [0x00, 0xFE] ++ []) ∧
      (a.resetRequest = false ∧ a.fault = none ∧ a.port = none ∧ a.waiting = some (.activate 0) ∧ a.cfg.acmd41IterMax = none ∧
        (∀ p ∈ its, p.1.ok = true ∧ p.2.ok = true ∧ p.2.status ≠ 0) ∧
        a.rx = its.flatMap (fun p => p.1.bytes ++ p.2.bytes) ++ []) := by decide +kernel

theorem witness_InitCompletes :
    let a := initCard [] []
    let s := fresh (a.handshakeBytes ++ (a.fetchBytes 0xFE ++ []))
    let s' := { fresh (a.handshakeBytes ++ []) with cfg := { Config.defaultParams with initFetchCsd := false } }
    (s.fault = none ∧ s.busy = false ∧ s.filler = Config.fillerBuffer ∧ a.handshakeOk Config.defaultParams = true ∧ a.retries = []) ∧
      (s'.fault = none ∧ s'.busy = false ∧ s'.filler = Config.fillerBuffer ∧ s'.cfg.initFetchCsd = false ∧
        s'.rx = a.handshakeBytes ++ []) ∧
      (s.cfg.initFetchCsd = true ∧ a.fetchOk s.cfg = true ∧ a.early = [] ∧
        s.rx = a.handshakeBytes ++ (a.fetchBytes s.cfg.startToken ++ [])) := by decide +kernel

/-- Its late token, and its resumed turns: without the fetch, with it, with a late token. -/
theorem witness_InitCompletes_resumed :
    let a := initCard [] []
    let loop (more : List Byte) : List Byte := a.last.1.bytes ++ (a.last.2.bytes ++ (a.c58.bytes ++ (a.ocr ++ more)))
    let s (rx : List Byte) := standing .iActivate (.activate 2) rx
    let s' := { s (loop []) with cfg := { Config.defaultParams with initFetchCsd := false } }
    let late := fresh (a.handshakeBytes ++ (a.c9.bytes ++ (0x00 :: [])))
    (∀ rx, (s rx).fault = none ∧ (s rx).filler = Config.fillerBuffer ∧ (s rx).resetRequest = false ∧
        (s rx).waiting = some (.activate 2) ∧ (s rx).cfg = Config.defaultParams ∧ (s rx).rx = rx) ∧
      (s'.cfg.initFetchCsd = false ∧ s'.waiting = some (.activate 2) ∧ a.handshakeOk s'.cfg = true ∧ s'.rx = loop []) ∧
      (a.handshakeOk Config.defaultParams = true ∧ a.fetchOk Config.defaultParams = true ∧ a.early = [] ∧
        (0x00 : Byte) ≠ Config.defaultParams.startToken ∧ Config.defaultParams.tokenWaitMax ≠ some 1 ∧
        Config.defaultParams.initFetchCsd = true) ∧
      late.busy = false ∧ late.cfg = Config.defaultParams ∧ late.rx = a.handshakeBytes ++ (a.c9.bytes ++ (0x00 :: [])) :=
  ⟨fun _ => ⟨rfl, rfl, rfl, rfl, rfl, rfl⟩, by decide +kernel, by decide +kernel, rfl, rfl, rfl⟩

/-- Program P1: one activation retry, two bytes before the token. -/
theorem witness_InitRun :
    let a := initCard [(card 0x01, card 0x01)] [0xFF, 0xFF]
    let s := { fresh (a.handshakeBytes ++ (a.fetchBytes 0xFE ++ [])) with port := some (.hostop ⟨0, 0, []⟩) }
    s.resetRequest = false ∧ s.fault = none ∧ s.busy = false ∧ s.waiting = none ∧ s.port = some (.hostop ⟨0, 0, []⟩) ∧
      s.filler = Config.fillerBuffer ∧ s.cfg.acmd41IterMax = none ∧ s.cfg.tokenWaitMax = none ∧ s.cfg.initFetchCsd = true ∧
      a.handshakeOk Config.defaultParams = true ∧ a.fetchOk s.cfg = true ∧ s.rx = a.handshakeBytes ++ (a.fetchBytes s.cfg.startToken ++ []) := by
  decide +kernel

/-- The same retry without the descriptor fetch. -/
theorem witness_InitRun_unfetched :
    let a := initCard [(card 0x01, card 0x01)] []
    let s := { fresh (a.handshakeBytes ++ []) with
      port := some (.hostop ⟨0, 0, []⟩), cfg := { Config.defaultParams with initFetchCsd := false } }
    s.resetRequest = false ∧ s.fault = none ∧ s.busy = false ∧ s.waiting = none ∧ s.port = some (.hostop ⟨0, 0, []⟩) ∧
      s.cfg.acmd41IterMax = none ∧ a.handshakeOk s.cfg = true ∧ s.cfg.initFetchCsd = false ∧ s.rx = a.handshakeBytes ++ [] := by
  decide +kernel

theorem witness_InitFaults :
    let clocks : List Byte := List.replicate 10 0xFF
    let bad := fresh (clocks ++ ((card 0x00).bytes ++ []))
    let echo : List Byte := [0xFF, 0xFF, 0xFF, 0xFF]
    let old := fresh (clocks ++ ((card 0x01).bytes ++ ((card 0x05).bytes ++ (echo ++ []))))
    (bad.fault = none ∧ bad.busy = false ∧ clocks.length = 10 ∧ (card 0x00).ok = true ∧ (card 0x00).status ≠ 0x01 ∧
        bad.rx = clocks ++ ((card 0x00).bytes ++ [])) ∧
      (old.fault = none ∧ old.busy = false ∧ (card 0x01).ok = true ∧ (card 0x01).status = 0x01 ∧ (card 0x05).ok = true ∧
        echo.length = 4 ∧ be32List echo &&& 0xFFF ≠ 0x1AA ∧
        old.rx = clocks ++ ((card 0x01).bytes ++ ((card 0x05).bytes ++ (echo ++ [])))) := by decide +kernel

theorem witness_ByteAddressing :
    let ocr : List Byte := [0x80, 0xFF, 0x80, 0x00]
    let p := card 0x01
    let z := card 0x00
    let s := standing .iActivate (.activate 0) (p.bytes ++ (z.bytes ++ (z.bytes ++ (ocr ++ (z.bytes ++ [])))))
    let s' := { standing .iActivate (.activate 0) (p.bytes ++ (z.bytes ++ (z.bytes ++ (ocr ++ [])))) with
      cfg := { Config.defaultParams with initCmd16Issued := false } }
    (s.resetRequest = false ∧ s.fault = none ∧ s.waiting = some (.activate 0) ∧ p.ok = true ∧ z.ok = true ∧ z.status = 0 ∧
        ocr.length = 4 ∧ (decodeOcr s.cfg.layouts.ocr (be32List ocr)).ccs = 0) ∧
      (s'.resetRequest = false ∧ s'.fault = none ∧ s'.waiting = some (.activate 0) ∧ s'.cfg.initCmd16Issued = false ∧
        s'.rx = p.bytes ++ (z.bytes ++ (z.bytes ++ (ocr ++ [])))) ∧
      (s.cfg.initCmd16Issued = true ∧ s.rx = p.bytes ++ (z.bytes ++ (z.bytes ++ (ocr ++ (z.bytes ++ []))))) := by decide +kernel

/-- INIT whose first activation iteration is the last (program P7), with and without command 16. -/
theorem witness_ByteAddressing_init :
    let ocr : List Byte := [0x80, 0xFF, 0x80, 0x00]
    let echo : List Byte := [0x00, 0x00, 0x01, 0xAA]
    let clocks : List Byte := List.replicate 10 0xFF
    let p := card 0x01
    let z := card 0x00
    let before (more : List Byte) : List Byte :=
      clocks ++ (p.bytes ++ (p.bytes ++ (echo ++ (p.bytes ++ (z.bytes ++ (z.bytes ++ (ocr ++ more)))))))
    let s := fresh (before (z.bytes ++ []))
    let s' := { fresh (before []) with cfg := { Config.defaultParams with initCmd16Issued := false } }
    (s.fault = none ∧ s.busy = false ∧ p.ok = true ∧ z.ok = true ∧ z.status = 0 ∧ ocr.length = 4 ∧ clocks.length = 10 ∧
        p.status = 0x01 ∧ echo.length = 4 ∧ be32List echo &&& 0xFFF = 0x1AA ∧
        (decodeOcr s.cfg.layouts.ocr (be32List ocr)).ccs = 0) ∧
      (s.cfg.initCmd16Issued = true ∧ s.rx = before (z.bytes ++ [])) ∧
      (s'.cfg.initCmd16Issued = false ∧ s'.busy = false ∧ s'.rx = before []) := by decide +kernel

/-- Program P2, with two bytes before the token. -/
theorem witness_ReadSectorRun :
    let h : HostWord := ⟨1, 0x10, []⟩
    let early : List Byte := [0xFF, 0xFF]
    let s := { ready ((card 0x00).bytes ++ (early ++ block 512)) with port := some (.hostop h) }
    s.resetRequest = false ∧ s.starts 1 ∧ s.waiting = none ∧ s.port = some (.hostop h) ∧ h.op = 1 ∧
      s.filler = Config.fillerBuffer ∧ s.cfg.tokenWaitMax = none ∧ (card 0x00).ok = true ∧ (card 0x00).status = 0 ∧
      (∀ b ∈ early, b ≠ s.cfg.startToken) ∧ (zeros 512).length = 512 ∧
      s.rx = (card 0x00).bytes ++ (early ++ s.cfg.startToken :: (zeros 512 ++ ([0x12, 0x34] ++ []))) :=
  ⟨rfl, ⟨rfl, rfl, .inr (.inr rfl)⟩, rfl, rfl, rfl, rfl, rfl, by decide, rfl, by decide, List.length_replicate, rfl⟩

/-- Program P3: K = 3. -/
theorem witness_WriteSectorRun :
    let h : HostWord := ⟨2, 1, zeros 512⟩
    let busy : List Byte := [0x00, 0x00, 0x00]
    let s := { ready ((card 0x00).bytes ++ (zeros 516 ++ (0xE5 :: (busy ++ 0xFF :: [])))) with port := some (.hostop h) }
    s.resetRequest = false ∧ s.starts 2 ∧ s.waiting = none ∧ s.port = some (.hostop h) ∧ h.op = 2 ∧ s.cfg.busyWaitMax = none ∧
      (card 0x00).ok = true ∧ (card 0x00).status = 0 ∧ h.wdata.length = 512 ∧ (zeros 516).length = 516 ∧
      (∀ b ∈ busy, b ≠ 0xFF) ∧ s.cfg.wrespCheck = false ∧
      s.rx = (card 0x00).bytes ++ (zeros 516 ++ (0xE5 :: (busy ++ 0xFF :: []))) :=
  ⟨rfl, ⟨rfl, rfl, .inr (.inr rfl)⟩, rfl, rfl, rfl, rfl, by decide, rfl, List.length_replicate, List.length_replicate, by decide,
    rfl, rfl⟩

theorem witness_TokenWaitRun :
    let s := standing .opRegRead (.token 0 (.block 512 .readCid)) ([0x00] ++ block 512)
    s.resetRequest = false ∧ s.fault = none ∧ s.waiting = some (.token 0 (.block 512 .readCid)) ∧
      s.filler = Config.fillerBuffer ∧ s.cfg.tokenWaitMax = none ∧ (∀ b ∈ [(0x00 : Byte)], b ≠ s.cfg.startToken) ∧
      (zeros 512).length = 512 ∧ s.rx = [0x00] ++ s.cfg.startToken :: (zeros 512 ++ ([0x12, 0x34] ++ [])) :=
  ⟨rfl, rfl, rfl, rfl, rfl, by decide, List.length_replicate, rfl⟩

/-- The spec's own layouts are the engine's after reset (statements DecodeCidRow, DecodeCsdRow, DecodeOtherRows). -/
theorem witness_DecodeRows :
    State.reset.fault = none ∧ State.reset.cfg.layouts.cid = layoutCid ∧ State.reset.cfg.layouts.csd = layoutCsd ∧
      State.reset.cfg.layouts = defaultLayouts ∧ (zeros 50).length = 50 := ⟨rfl, rfl, rfl, rfl, List.length_replicate⟩

theorem witness_DecodePack : ∃ r r' : CSD, r.csd_structure = 0 ∧ r'.csd_structure ≠ 0 :=
  ⟨decodeCsd layoutCsd (zeros 16), decodeCsd layoutCsd csdP1, by decide +kernel, by decide +kernel⟩

theorem witness_PackDecode : (zeros 16).length = 16 ∧ (zeros 8).length = 8 ∧ (zeros 64).length = 64 := by decide

/-- Both versions, and the largest capacity field. -/
theorem witness_SectorCount :
    (decodeCsd layoutCsd (zeros 16)).csd_structure = 0 ∧ (decodeCsd layoutCsd csdP1).csd_structure ≠ 0 ∧
      csdCapacity { decodeCsd layoutCsd csdP1 with c_size_v2 := 0x3FFFFF } = 0x3FFFFF := by decide +kernel

theorem witness_ReceivedFormats : (open_ []).fault = none ∧ (open_ []).cs = true ∧ (open_ []).waiting = none := ⟨rfl, rfl, rfl⟩

/-- The clause on a wait of a block. -/
theorem witness_ReceivedFormatsElsewhere_block :
    let s := standing .opRegRead (.token 2 (.block 512 .readCid)) (zeros 512 ++ ([0x12, 0x34] ++ []))
    s.fault = none ∧ s.cs = true ∧ s.waiting = some (.token 2 (.block 512 .readCid)) ∧ s.filler = Config.fillerBuffer ∧
      (zeros 512).length = 512 ∧ [(0x12 : Byte), 0x34].length = 2 ∧ s.rx = zeros 512 ++ ([0x12, 0x34] ++ []) :=
  ⟨rfl, rfl, rfl, rfl, List.length_replicate, rfl, rfl⟩

theorem witness_ReceivedFormatsElsewhere :
    ((fresh []).fault = none ∧ (fresh []).cs = false) ∧
      ((standing .opRegRead (.token 2 .ret) []).fault = none ∧ (standing .opRegRead (.token 2 .ret) []).cs = true ∧
        (standing .opRegRead (.token 2 .ret) []).waiting = some (.token 2 .ret)) := ⟨⟨rfl, rfl⟩, rfl, rfl, rfl⟩

end Sys2Proof.Tests
end

section
/-! Proofs of the statements of `00_scope.md`: what no instruction writes, the link primitives, byte strings, the sector count. -/

namespace Sys2Proof.Machine

/-! ### The session state (rules R6, R12, R21) -/

/-- Settles O12: a faulted engine stays as it is (rule R311), and otherwise every instruction ends with the frame of `exec_ends`. -/
theorem sessionState : Obligations.SessionState := by
  intro i s t h
  cases hf : s.fault with
  | some r =>
    obtain rfl : s = t := by simpa [exec_faulted i s r hf] using h
    exact ⟨rfl, rfl, rfl, rfl, rfl, id, [], rfl⟩
  | none =>
    obtain ⟨u, hu, hends⟩ := exec_ends (ini := true) i hf fun _ => rfl
    obtain rfl : u = t := by simpa [hu] using h
    obtain ⟨hcfg, hlink, hfiller, hport, hreset, hinit, htrace, -, -⟩ := hends.session
    exact ⟨hcfg, hlink, hfiller, hport, hreset, hinit, htrace⟩

/-! ### The link primitives (rules R11, R321 to R323) -/

/-- An exchange past the end of the scripted answers: the byte is the environment's free value (rule R12). -/
theorem xchg_nil {s : State} {t : Byte} (h : s.rx = []) :
    xchg t s = { s with envCount := s.envCount + 1, trace := .x t (reply t s) :: s.trace } := by
  simp [xchg, h]

/-- Settles O26: no fault is latched, so each row is its operation and the delivery of its value; an exchange takes the next
scripted answer, and the environment's free value when there is none. -/
theorem linkPrimitives : Obligations.LinkPrimitives := by
  intro s t n hf
  have hxchg : exec (.xchg t) s = .next (deliver (.byte (reply t s)) (xchg t s)) := live_of_none hf
  refine ⟨live_of_none hf, live_of_none hf, live_of_none hf, fun r rest hrx => ?_, fun hrx => ⟨reply t s, ?_⟩⟩
  · rw [hxchg, xchg_cons hrx, reply_cons hrx]
    rfl
  · rw [hxchg, xchg_nil hrx]
    rfl

/-! ### Byte strings (rule R9) -/

/-- `be32` as the bitwise or of the four bytes in their places (rule R9). -/
theorem be32_eq_or (b0 b1 b2 b3 : Byte) :
    be32 b0 b1 b2 b3 =
      (b0.setWidth 32 <<< 24) ||| (b1.setWidth 32 <<< 16) ||| (b2.setWidth 32 <<< 8) ||| b3.setWidth 32 := by
  refine BitVec.eq_of_getLsbD_eq fun i hi => ?_
  have hout (b : Byte) (j : Nat) (hj : 8 ≤ j) : b.getLsbD j = false := BitVec.getLsbD_of_ge b j hj
  rw [getLsbD_be32]
  simp only [BitVec.getLsbD_or, BitVec.getLsbD_shiftLeft, BitVec.getLsbD_setWidth]
  split_ifs with h3 h2 h1
  · simp [hi, show i < 24 by omega, show i < 16 by omega, h3]
  · simp [hi, show i < 24 by omega, h2, h3, hout b3 i (by omega), show i - 8 < 32 by omega]
  · simp [hi, h1, h2, h3, hout b3 i (by omega), hout b2 (i - 8) (by omega), show i - 16 < 32 by omega]
  · simp [hi, h1, h2, h3, hout b3 i (by omega), hout b2 (i - 8) (by omega), hout b1 (i - 16) (by omega),
      show i - 24 < 32 by omega]

theorem fillerBuffer_take {n : Nat} (hn : n ≤ 512) : Config.fillerBuffer.take n = List.replicate n Config.filler := by
  have hmin : min n Config.sectorBytes = n := Nat.min_eq_left hn
  rw [Config.fillerBuffer, List.take_replicate, hmin]

theorem xchgN_buf (ts : List Byte) (s : State) : (xchgN ts s).buf = s.buf := by rw [xchgN_eq]

/-- Exchanges of filler are receptions, in index order (rules R12, R322). -/
theorem xchgN_filler_trace (n : Nat) (s : State) :
    (xchgN (List.replicate n Config.filler) s).trace =
      (receiveEvents (replies (List.replicate n Config.filler) s)).reverse ++ s.trace := by
  have hlen : (replies (List.replicate n Config.filler) s).length = n := by simp
  rw [xchgN_trace, ← exchangeEvents_replicate, hlen]

/-- The state between the `n` data bytes of a block and its two trailing bytes (rule R203). -/
def afterData (n : Nat) (s : State) : State :=
  atPhase (.pData (n - 1))
    { xchgN (List.replicate n Config.filler) s with
      buf := replies (List.replicate n Config.filler) s ++ s.buf.drop n }

/-- A data phase is the reception of the data and then of two bytes more (rule R203). -/
theorem receiveBlock_eq {n : Nat} {s : State} (hfil : s.filler = Config.fillerBuffer) (hn : n ≤ 512) :
    receiveBlock n s = atPhase (.pCrc 1) (xchgN (List.replicate 2 Config.filler) (afterData n s)) := by
  have hdata : s.filler.take n = List.replicate n Config.filler := by rw [hfil, fillerBuffer_take hn]
  have hcrc : s.filler.take Config.blockCrcBytes = List.replicate 2 Config.filler := by
    rw [hfil]; exact fillerBuffer_take (by decide)
  simp only [receiveBlock, afterData, atPhase_filler, xchgN_filler, xchgN_buf, hdata, hcrc]

/-- The data phase whatever the card answers (rules R9, R203): the `n` bytes received first stand at the lowest indices of `buf`, in
order of time, and two more are received and dropped. -/
theorem receiveBlock_received {n : Nat} {s : State} (hfil : s.filler = Config.fillerBuffer) (hn : n ≤ 512) :
    ∃ rs trail : List Byte, rs.length = n ∧ trail.length = 2 ∧ (receiveBlock n s).buf = rs ++ s.buf.drop n ∧
      (receiveBlock n s).trace = (receiveEvents (rs ++ trail)).reverse ++ s.trace := by
  refine ⟨replies (List.replicate n Config.filler) s, replies (List.replicate 2 Config.filler) (afterData n s),
    by simp, by simp, ?_, ?_⟩
  · rw [receiveBlock_eq hfil hn, atPhase_buf, xchgN_buf]
    rfl
  · have hdata : (afterData n s).trace = _ := xchgN_filler_trace n s
    rw [receiveBlock_eq hfil hn, atPhase_trace, xchgN_filler_trace, hdata]
    simp [receiveEvents]

/-- Settles O32: the inverses are `be32bytes_be32` and `be32_be32bytes`; the order in time is that of `xchgN_trace`, and that in the
buffer that of `receiveBlock_received`. -/
theorem byteOrder : Obligations.ByteOrder := by
  refine ⟨fun b0 b1 b2 b3 => ?_, fun v => ?_, fun ts s => ?_, fun n s hfil hn => ?_⟩
  · exact ⟨be32_eq_or b0 b1 b2 b3, be32bytes_be32 b0 b1 b2 b3⟩
  · exact ⟨rfl, be32_be32bytes v⟩
  · exact ⟨replies ts s, replies_length ts s, xchgN_trace ts s⟩
  · exact receiveBlock_received hfil hn

/-! ### The sector count (rules R14, R186, R243) -/

theorem csdCapacity_of_version1 {c : CSD} (h : c.csd_structure = 0) : csdCapacity c = c.c_size_v1.setWidth 22 := if_pos h

theorem csdCapacity_of_version2 {c : CSD} (h : c.csd_structure ≠ 0) : csdCapacity c = c.c_size_v2 := if_neg h

/-- With bias 0 the product has no more than 32 bits: a 22-bit capacity times 1024 (rules R14, R186). -/
theorem sectorCountOf_zero (c : CSD) : (sectorCountOf c 0).toNat = (csdCapacity c).toNat * 1024 := by
  have hlt : (csdCapacity c).toNat < 2 ^ 22 := (csdCapacity c).isLt
  have hfit : (csdCapacity c).toNat * 1024 < 2 ^ 32 := by omega
  exact (BitVec.toNat_ofNat _ _).trans (Nat.mod_eq_of_lt hfit)

/-- With bias 1 the largest capacity gives `2 ^ 32`, which wraps to 0 (decision D37). -/
theorem sectorCountOf_one_wraps {c : CSD} (h : csdCapacity c = 0x3FFFFF) : sectorCountOf c 1 = 0 := by
  rw [sectorCountOf, h]
  rfl

/-- Settles O58: the two versions of the capacity field, the count with bias 0, and its wrap with bias 1. -/
theorem sectorCount : Obligations.SectorCount := by
  intro c
  refine ⟨fun h => ?_, csdCapacity_of_version2, sectorCountOf_zero c, sectorCountOf_one_wraps⟩
  rw [csdCapacity_of_version1 h]
  exact BitVec.toNat_setWidth_of_le (by decide)

end Sys2Proof.Machine
end

section
/-! Proofs of the statements of `30_encoding.md`: the words of the instructions, the transactions of the command rows, the register
fetches behind the prefix, the sector write, the received formats. -/

namespace Sys2Proof.Machine

/-! ### The words of the instructions (rules R80 to R82, R90, R93, R110) -/

theorem decode_frameBytes {cfg : Params} {i : Instr} {idx : BitVec 6} {arg : Word32} (h : commandOf i = some (idx, arg)) :
    decode cfg (.cmd48 (frameBytes idx arg)) = .ok i :=
  (decodeFrame_frameBytes idx arg).trans (commandOf_decodeCommand h)

theorem decodeHost_hostWordOf {i : Instr} {w : HostWord} (hwf : i.wellFormed = true) (h : hostWordOf i = some w) :
    decodeHost w = .ok i := by
  cases i <;> cases h
  case writeSector.refl index data => exact if_pos hwf
  all_goals rfl

theorem decode_respA_statusByte (cfg : Params) (flags : BitVec 7) :
    decode cfg (.respA [statusByte flags]) = .ok (.respFormatA flags) := by
  simp [decode, isStatus, statusByte_msb, statusByte_setWidth]

theorem decode_respB_statusByte (cfg : Params) (flags : BitVec 7) (second : Byte) :
    decode cfg (.respB [statusByte flags, second]) = .ok (.respFormatB flags second) := by
  simp [decode, isStatus, statusByte_msb, statusByte_setWidth]

theorem decode_respCD_statusByte (cfg : Params) (flags : BitVec 7) (payload : Word32) :
    decode cfg (.respCD (statusByte flags :: be32bytes payload)) = .ok (.respFormatCD flags payload) := by
  have hbe : be32 (payload.extractLsb' 24 8) (payload.extractLsb' 16 8) (payload.extractLsb' 8 8)
      (payload.extractLsb' 0 8) = payload := be32_be32bytes payload
  simp only [decode, be32bytes, hbe, isStatus, statusByte_msb, statusByte_setWidth, Bool.not_false, if_true]

theorem decode_receivedWordOf {cfg : Params} {i : Instr} {p : PortWord} (h : receivedWordOf cfg i = some p) :
    decode cfg p = .ok i := by
  cases i <;> cases h
  case respFormatA.refl flags => exact decode_respA_statusByte cfg flags
  case respFormatB.refl flags second => exact decode_respB_statusByte cfg flags second
  case respFormatCD.refl flags payload => exact decode_respCD_statusByte cfg flags payload
  case startToken.refl => exact if_pos rfl
  case dresp.refl code => rfl

/-- Settles O1: by the table that has the instruction's word, of the commands, of the host operations or of the received formats. -/
theorem decodeEncode : Obligations.DecodeEncode := by
  intro cfg i p hwf h
  unfold encode at h
  split at h
  next idx arg hcommand =>
    obtain rfl := Option.some.inj h
    exact decode_frameBytes hcommand
  next =>
    split at h
    next w hhost =>
      obtain rfl := Option.some.inj h
      exact decodeHost_hostWordOf hwf hhost
    next => exact decode_receivedWordOf h

/-- The first byte of a frame is one of 0x40 to 0x7F: start bit 0, transmission bit 1 (rule R82). -/
theorem startByte_range : ∀ idx : BitVec 6,
    0x40 ≤ (startByte idx).toNat ∧ (startByte idx).toNat ≤ 0x7F ∧ (startByte idx).extractLsb' 6 2 = 0b01#2 := by decide

/-- `CrcByte` as rule R124 writes it: the checksum shifted left, with the end bit. -/
theorem crcByte_eq_or (bytes : List Byte) : crcByte bytes = ((crc7 bytes).setWidth 8 <<< 1) ||| 1 := by
  refine BitVec.eq_of_getLsbD_eq fun i hi => ?_
  rw [crcByte_getLsbD]
  cases i with
  | zero => simp
  | succ j => simp [hi, show j < 8 by omega, -BitVec.getLsbD_eq_getElem]

theorem crcByte_odd (bytes : List Byte) : (crcByte bytes).toNat % 2 = 1 := by
  have hend : (crcByte bytes).toNat.testBit 0 = true := crcByte_getLsbD bytes 0
  simpa using hend

/-- No two commands have one frame: index and argument are read back from it (rule R93). -/
theorem frameBytes_inj {idx idx' : BitVec 6} {arg arg' : Word32} (h : frameBytes idx arg = frameBytes idx' arg') :
    idx = idx' ∧ arg = arg' := by
  have hidx := congrArg frameIdx h
  have harg := congrArg frameArg h
  simp only [frameIdx_frameBytes, frameArg_frameBytes] at hidx harg
  exact ⟨hidx, harg⟩

/-- Settles O25: the bytes stand in the definition of the frame; the start byte is in its range by `startByte_range`, and the last byte is
the checksum byte of the first five. -/
theorem frameConditions : Obligations.FrameConditions := by
  intro idx arg
  obtain ⟨hlow, hhigh, hstart⟩ := startByte_range idx
  have hbytes := crcByte_eq_or (frameBody idx arg)
  have hodd := crcByte_odd (frameBody idx arg)
  exact ⟨⟨rfl, rfl, rfl, rfl, rfl, rfl, hbytes, hlow, hhigh, hodd⟩, hstart, crcByte_getLsbD _ 0, crcByte_extract _,
    frameIdx_frameBytes idx arg, frameArg_frameBytes idx arg, fun _ _ => frameBytes_inj⟩

/-- A word with the bytes of a command's frame is that command. -/
theorem decode_cmd48 {cfg : Params} {f : List Byte} {idx : BitVec 6} {arg : Word32} (i : Instr)
    (hi : commandOf i = some (idx, arg)) (hf : frameBytes idx arg = f) : decode cfg (.cmd48 f) = .ok i :=
  hf ▸ decode_frameBytes hi

/-- Settles O3: each word of a command is the frame of its row of the table, whose checksum is computed; the other formats are read
off. -/
theorem wordsOfTheSpec : Obligations.WordsOfTheSpec := by
  intro cfg
  refine ⟨⟨decode_cmd48 .cmd0 rfl (by decide +kernel), decode_cmd48 .cmd8 rfl (by decide +kernel),
    decode_cmd48 .cmd9 rfl (by decide +kernel), decode_cmd48 .cmd10 rfl (by decide +kernel),
    decode_cmd48 .acmd13 rfl (by decide +kernel), decode_cmd48 .cmd16 rfl (by decide +kernel),
    decode_cmd48 .acmd41 rfl (by decide +kernel), decode_cmd48 .acmd51 rfl (by decide +kernel),
    decode_cmd48 .cmd55 rfl (by decide +kernel), decode_cmd48 .cmd58 rfl (by decide +kernel),
    decode_cmd48 (.cmd17 0x10) rfl (by decide +kernel), decode_cmd48 (.cmd24 0xABCD) rfl (by decide +kernel)⟩,
    fun arg data => ⟨rfl, rfl, fun hlen => ?_, rfl, rfl, rfl, rfl, rfl, rfl, rfl, rfl, rfl, rfl, rfl, rfl, rfl⟩,
    rfl, rfl, rfl, rfl, fun htoken => ?_, rfl⟩
  · have hok : sectorLengthOk data = true := by simpa [sectorLengthOk, Config.sectorBytes] using hlen
    exact if_pos hok
  · exact if_pos htoken.symm

/-- Settles O24: no fault is latched, so the row builds the frame and delivers it. -/
theorem frameRow : Obligations.FrameRow := by
  intro s idx arg hf
  exact live_of_none hf

/-! ### Every step answers (rules R106, R310) -/

theorem exec_next (i : Instr) (s : State) : ∃ t, exec i s = .next t := by
  cases hf : s.fault with
  | some r => exact ⟨s, exec_faulted i s r hf⟩
  | none =>
    obtain ⟨t, ht, -⟩ := exec_ends (ini := true) i hf fun _ => rfl
    exact ⟨t, ht⟩

theorem step_reset {s : State} (hreset : s.resetRequest = true) : step s = .next (applyReset s) := by simp [step, hreset]

theorem step_faulted {s : State} {r : Fatal} (hreset : s.resetRequest = false) (hf : s.fault = some r) :
    step s = .next { s with port := none } := by simp [step, hreset, hf]

theorem step_no_request {s : State} (hreset : s.resetRequest = false) (hf : s.fault = none) (hw : s.waiting = none)
    (hp : s.port = none) : step s = .next s := by simp [step, hreset, hf, hw, hp]

theorem step_undecodable {s : State} {p : PortWord} {e : DecodeError} (hreset : s.resetRequest = false)
    (hf : s.fault = none) (hw : s.waiting = none) (hp : s.port = some p) (hd : decode s.cfg p = .error e) :
    step s = .refused (.undecodable e) := by simp [step, hreset, hf, hw, hp, hd]

/-- Settles O9: by what a step looks at in turn, the reset request, the latch, the wait, the port and its word. -/
theorem everyStepAnswers : Obligations.EveryStepAnswers := by
  refine ⟨exec_next, fun s => ?_⟩
  cases hreset : s.resetRequest with
  | true => exact .inl ⟨_, step_reset hreset⟩
  | false =>
  cases hf : s.fault with
  | some r => exact .inl ⟨_, step_faulted hreset hf⟩
  | none =>
  cases hw : s.waiting with
  | some w => exact .inl ⟨_, step_waiting hreset hf hw⟩
  | none =>
  cases hp : s.port with
  | none => exact .inl ⟨s, step_no_request hreset hf hw hp⟩
  | some p =>
  cases hd : decode s.cfg p with
  | ok i =>
    obtain ⟨t, ht⟩ := exec_next i { s with port := none }
    exact .inl ⟨t, (step_port hreset hf hw hp hd).trans ht⟩
  | error e => exact .inr ⟨p, e, rfl, rfl, rfl, rfl, hd, step_undecodable hreset hf hw hp hd⟩

/-! ### The transactions of the command rows (rules R90, R158) -/

/-- The row of a command with a Shape A response and no data phase. -/
theorem live_transactA {s : State} {idx : BitVec 6} {arg : Word32} {c : CardReply} {rest : List Byte} (hf : s.fault = none)
    (hc : c.ok = true) (h : s.rx = c.bytes ++ rest) :
    live (fun s => (transactA idx arg s).andThen fun s => deliver (.byte s.r1) s) s =
      .next { afterTransactA idx arg c rest s with result := some (.byte c.status) } := by
  rw [live_of_none hf, transactA_rx hc hf h, andThen_of_none (by exact hf)]
  rfl

/-- The row of a command with a Shape C/D response. -/
theorem live_transactCD {s : State} {idx : BitVec 6} {arg : Word32} {c : CardReply} {e rest : List Byte} (hf : s.fault = none)
    (hc : c.ok = true) (he : e.length = 4) (h : s.rx = c.bytes ++ (e ++ rest)) :
    live (fun s => (transactCD idx arg s).andThen fun s => deliver (.statusPayload s.r1 s.payload) s) s =
      .next { afterTransactCD idx arg c e rest s with result := some (.statusPayload c.status (be32List e)) } := by
  rw [live_of_none hf, transactCD_rx hc he hf h, andThen_of_none (by exact hf)]
  rfl

/-- Settles O31: each row is its transaction, that of command 41 after that of its prefix. -/
theorem shapeACommands : Obligations.ShapeACommands := by
  intro s c rest hf hc
  refine ⟨fun h => ⟨live_transactA hf hc h, live_transactA hf hc h, live_transactA hf hc h⟩, fun c55 h55 h => ?_⟩
  have hrow : exec .acmd41 s = .next ((activateOnce s).andThen fun s => deliver (.byte s.r1) s) := live_of_none hf
  rw [hrow, activateOnce_rx hf h55 hc h, andThen_of_none (by exact hf)]
  rfl

/-- The end of an operation does not depend on the state of the sequencer in which its transaction ran. -/
theorem afterEnd_afterTransactCD_enter (r : Result) (m : SeqState) (code : BitVec 4) (idx : BitVec 6) (arg : Word32)
    (c : CardReply) (e rest : List Byte) (s : State) :
    afterEnd r (afterTransactCD idx arg c e rest (enter m { s with op := code })) =
      afterEnd r { afterTransactCD idx arg c e rest s with op := code } := rfl

/-- READ_OCR runs its transaction in OP_REGREAD and delivers the payload decoded (rule R289). -/
theorem exec_readOcr {s : State} {c : CardReply} {e rest : List Byte} (hstart : s.starts 6) (hc : c.ok = true)
    (he : e.length = 4) (h : s.rx = c.bytes ++ (e ++ rest)) :
    exec .readOcr s =
      .next (afterEnd (.ocr (decodeOcr s.cfg.layouts.ocr (be32List e))) { afterTransactCD 58 0 c e rest s with op := 6 }) := by
  have hf : s.fault = none := hstart.1
  have hrow : exec .readOcr s = .next ((transactCD 58 0 (enter .opRegRead { s with op := 6 })).andThen fun s =>
      complete (.ocr (decodeOcr s.cfg.layouts.ocr s.payload)) s) := live_startOp hstart rfl rfl
  rw [hrow, transactCD_rx (s := enter .opRegRead { s with op := 6 }) hc he hf h, andThen_of_none (by exact hf)]
  exact congrArg _ (afterEnd_afterTransactCD_enter _ _ _ _ _ _ _ _ _)

/-- Settles O33: each row is its transaction, and READ_OCR ends with the payload decoded. -/
theorem shapeCDCommands : Obligations.ShapeCDCommands := by
  intro s c e0 e1 e2 e3 rest hf hc h
  refine ⟨live_transactCD hf hc rfl h, live_transactCD hf hc rfl h, fun hstart => ?_⟩
  exact exec_readOcr (e := [e0, e1, e2, e3]) hstart hc rfl h

/-! ### Register fetches behind the prefix (rules R92, R212, R290, R291) -/

/-- After a block, `k` closes the transaction and delivers what `value` makes of the bytes received. -/
def AfterBlock.Delivers (k : AfterBlock) (value : Params → List Byte → Result) : Prop :=
  ∀ (n : Nat) (s : State), afterBlock n k s = complete (value s.cfg (s.buf.take n)) (deselect s)

theorem delivers_dataPhase : AfterBlock.dataPhase.Delivers fun _ data => .bytes data := fun _ _ => rfl

theorem delivers_readScr : AfterBlock.readScr.Delivers fun cfg data => .scr (decodeScr cfg.layouts.scr data) :=
  fun _ _ => rfl

theorem delivers_readSsr : AfterBlock.readSsr.Delivers fun cfg data => .ssr (decodeSsr cfg.layouts.ssr data) :=
  fun _ _ => rfl

theorem afterInbound_take (token : Byte) (early data trail rest : List Byte) (s : State) :
    (afterInbound token early data trail rest s).buf.take data.length = data := by
  simp [afterInbound]

section
variable {s : State} {m : SeqState} {k : AfterBlock} {value : Params → List Byte → Result} {idx : BitVec 6}
  {c55 c : CardReply} {second b : Byte} {data trail rest : List Byte} {n : Nat}

/-- A fetch with a Shape A response when the token comes at once (rule R212). -/
theorem regReadA_ends (hk : k.Delivers value) (hf : s.fault = none) (hfil : s.filler = Config.fillerBuffer)
    (hc : c.ok = true) (hr : s.cfg.r1Check = false ∨ c.status = 0) (hd : data.length = n) (hn : n ≤ 512)
    (ht : trail.length = 2) (h : s.rx = c.bytes ++ (s.cfg.startToken :: (data ++ (trail ++ rest)))) :
    regRead k idx .a n s = afterEnd (value s.cfg data) (afterFetch idx 0 c [] data trail rest s) := by
  subst hd
  rw [regReadA_rx hf hfil hc hr hn ht h, hk, afterInbound_take]
  rfl

/-- The same with a Shape B response. -/
theorem regReadB_ends (hk : k.Delivers value) (hf : s.fault = none) (hfil : s.filler = Config.fillerBuffer)
    (hc : c.ok = true) (hr : s.cfg.r1Check = false ∨ c.status = 0) (hd : data.length = n) (hn : n ≤ 512)
    (ht : trail.length = 2) (h : s.rx = c.bytes ++ (second :: s.cfg.startToken :: (data ++ (trail ++ rest)))) :
    regRead k idx .b n s = afterEnd (value s.cfg data) (afterFetchB idx 0 c second [] data trail rest s) := by
  subst hd
  rw [regReadB_rx hf hfil hc hr hn ht h, hk, afterInbound_take]
  rfl

/-- The fetch behind the prefix, Shape A. -/
theorem appRegReadA_ends (hk : k.Delivers value) (hf : s.fault = none) (hfil : s.filler = Config.fillerBuffer)
    (h55 : c55.ok = true) (hc : c.ok = true) (hr : s.cfg.r1Check = false ∨ c.status = 0) (hd : data.length = n)
    (hn : n ≤ 512) (ht : trail.length = 2)
    (h : s.rx = c55.bytes ++ (c.bytes ++ (s.cfg.startToken :: (data ++ (trail ++ rest))))) :
    appRegRead k idx .a n (enter m s) =
      afterEnd (value s.cfg data) (afterFetch idx 0 c [] data trail rest (afterTransactA 55 0 c55 [] s)) := by
  rw [appRegRead_rx h55 (by exact hf) (by exact h), regReadA_ends hk (by exact hf) (by exact hfil) hc (by exact hr) hd hn ht rfl]
  rfl

/-- The same with a Shape B response. -/
theorem appRegReadB_ends (hk : k.Delivers value) (hf : s.fault = none) (hfil : s.filler = Config.fillerBuffer)
    (h55 : c55.ok = true) (hc : c.ok = true) (hr : s.cfg.r1Check = false ∨ c.status = 0) (hd : data.length = n)
    (hn : n ≤ 512) (ht : trail.length = 2)
    (h : s.rx = c55.bytes ++ (c.bytes ++ (second :: s.cfg.startToken :: (data ++ (trail ++ rest))))) :
    appRegRead k idx .b n (enter m s) =
      afterEnd (value s.cfg data) (afterFetchB idx 0 c second [] data trail rest (afterTransactA 55 0 c55 [] s)) := by
  rw [appRegRead_rx h55 (by exact hf) (by exact h), regReadB_ends hk (by exact hf) (by exact hfil) hc (by exact hr) hd hn ht rfl]
  rfl

/-- The same fetch when the first byte polled is not the token, Shape A. -/
theorem appRegReadA_late (hf : s.fault = none) (h55 : c55.ok = true) (hc : c.ok = true)
    (hr : s.cfg.r1Check = false ∨ c.status = 0) (hb : b ≠ s.cfg.startToken) (hm : s.cfg.tokenWaitMax ≠ some 1)
    (h : s.rx = c55.bytes ++ (c.bytes ++ (b :: rest))) :
    appRegRead k idx .a n (enter m s) =
      afterFirstPoll m n k b rest (afterReply idx 0 c [] (afterTransactA 55 0 c55 [] s)) := by
  rw [appRegRead_rx h55 (by exact hf) (by exact h),
    regReadA_late hc (by exact hf) (by exact hr) (by exact hb) (by exact hm) rfl]
  rfl

/-- The same with a Shape B response. -/
theorem appRegReadB_late (hf : s.fault = none) (h55 : c55.ok = true) (hc : c.ok = true)
    (hr : s.cfg.r1Check = false ∨ c.status = 0) (hb : b ≠ s.cfg.startToken) (hm : s.cfg.tokenWaitMax ≠ some 1)
    (h : s.rx = c55.bytes ++ (c.bytes ++ (second :: b :: rest))) :
    appRegRead k idx .b n (enter m s) =
      afterFirstPoll m n k b rest
        { afterReceive [second] [] (afterReply idx 0 c [] (afterTransactA 55 0 c55 [] s)) with r2 := second } := by
  rw [appRegRead_rx h55 (by exact hf) (by exact h),
    regReadB_late hc (by exact hf) (by exact hr) (by exact hb) (by exact hm) rfl]
  rfl

end

/-- Settles O39: the row and the operation make one fetch, and differ in what they deliver. -/
theorem scrRows : Obligations.ScrRows := by
  intro s c55 c data trail rest hf h55 hc hr
  refine ⟨fun hfil hd ht h => ⟨?_, fun hstart => ?_⟩, fun b hb hm h => ⟨?_, fun hstart => ?_⟩⟩
  · exact (rowOp_of_none hf).trans
      (congrArg _ (appRegReadA_ends delivers_dataPhase hf hfil h55 hc hr hd (by decide) ht h))
  · exact (live_startOp hstart rfl rfl).trans
      (congrArg _ (appRegReadA_ends (s := { s with op := 7 }) delivers_readScr hf hfil h55 hc hr hd (by decide) ht h))
  · exact (rowOp_of_none hf).trans (congrArg _ (appRegReadA_late hf h55 hc hr hb hm h))
  · exact (live_startOp hstart rfl rfl).trans
      (congrArg _ (appRegReadA_late (s := { s with op := 7 }) hf h55 hc hr hb hm h))

/-- Settles O40: as for READ_SCR, with the second byte of the Shape B response before the block. -/
theorem ssrRows : Obligations.SsrRows := by
  intro s c55 c second data trail rest hf h55 hc hr
  refine ⟨fun hfil hd ht h => ⟨?_, fun hstart => ?_⟩, fun b hb hm h => ⟨?_, fun hstart => ?_⟩⟩
  · exact (rowOp_of_none hf).trans
      (congrArg _ (appRegReadB_ends delivers_dataPhase hf hfil h55 hc hr hd (by decide) ht h))
  · exact (live_startOp hstart rfl rfl).trans
      (congrArg _ (appRegReadB_ends (s := { s with op := 8 }) delivers_readSsr hf hfil h55 hc hr hd (by decide) ht h))
  · exact (rowOp_of_none hf).trans (congrArg _ (appRegReadB_late hf h55 hc hr hb hm h))
  · exact (live_startOp hstart rfl rfl).trans
      (congrArg _ (appRegReadB_late (s := { s with op := 8 }) hf h55 hc hr hb hm h))

/-! ### The sector write (rules R208, R209) -/

theorem writeAccepted_iff (wresp : Byte) : writeAccepted wresp = true ↔ wresp &&& 0x1F = 0x05 := beq_iff_eq

/-- The busy wait from its first poll to its end, the later polls one a step. -/
theorem run_busyWait {s : State} {n : Nat} {busy rest : List Byte} (hreset : s.resetRequest = false) (hport : s.port = none)
    (hf : s.fault = none) (hm : s.cfg.busyWaitMax = none) (hb : ∀ b ∈ busy, b ≠ 0xFF)
    (hw : s.cfg.wrespCheck = false ∨ writeAccepted s.wresp = true) (h : s.rx = busy ++ 0xFF :: rest) :
    core.run busy.length (busyWait n s) =
      .next (afterEnd .done (afterDeselect (afterReceive (busy ++ [0xFF]) rest s))) := by
  cases busy with
  | nil => exact congrArg _ (busyWait_idle hw hf h)
  | cons b busy =>
    have hpoll := busyWait_busy (n := n) (hb b (by simp)) (by simp [hm]) h
    have hnext := step_waiting (s := busyWait n s) (w := .busy (n + 1)) (by rw [hpoll]; exact hreset)
      (by rw [hpoll]; exact hf) (by rw [hpoll])
    rw [hpoll] at hnext ⊢
    refine (busyWait_run (n := n + 1) (by exact hreset) (by exact hf) (by exact hm) (fun x hx => hb x (by simp [hx]))
      (by exact hw) rfl _ hnext).trans ?_
    simp [afterReceive, afterEnd, afterDeselect, receiveEvents, hport]

section
variable {s : State} {m : SeqState} {index : Word32} {data ans busy rest : List Byte} {c : CardReply} {accept : Byte}

/-- A sector write whose card is idle at the first busy poll. -/
theorem sectorWrite_idle (hf : s.fault = none) (hc : c.ok = true) (hr : s.cfg.r1Check = false ∨ c.status = 0)
    (hans : ans.length = data.length + 4) (hw : s.cfg.wrespCheck = false ∨ writeAccepted accept = true)
    (h : s.rx = c.bytes ++ (ans ++ (accept :: 0xFF :: rest))) :
    sectorWrite index data (enter m s) = afterEnd .done (afterWrite index c data ans accept [] rest s) := by
  rw [sectorWrite_rx (by exact hf) hc (by exact hr) hans (by exact h), busyWait_idle (by exact hw) (by exact hf) rfl]
  rfl

/-- A sector write whose card is busy for as many polls as `busy` has bytes, to its end. -/
theorem run_sectorWrite (hreset : s.resetRequest = false) (hport : s.port = none) (hf : s.fault = none) (hc : c.ok = true)
    (hr : s.cfg.r1Check = false ∨ c.status = 0) (hans : ans.length = data.length + 4)
    (hw : s.cfg.wrespCheck = false ∨ writeAccepted accept = true) (hm : s.cfg.busyWaitMax = none) (hb : ∀ b ∈ busy, b ≠ 0xFF)
    (h : s.rx = c.bytes ++ (ans ++ (accept :: (busy ++ 0xFF :: rest)))) :
    core.run busy.length (sectorWrite index data (enter m s)) =
      .next (afterEnd .done (afterWrite index c data ans accept busy rest s)) := by
  rw [sectorWrite_rx (by exact hf) hc (by exact hr) hans (by exact h),
    run_busyWait (by exact hreset) (by exact hport) (by exact hf) (by exact hm) hb (by exact hw) rfl]
  rfl

end

/-- Settles O41: the three rows make one write, with the data of the row, the latched data, or the data of the request. -/
theorem sectorWriteRows : Obligations.SectorWriteRows := by
  intro s index data c ans accept rest hf hc hr hd hans hw
  have hlen : ans.length = data.length + 4 := by omega
  have haccept : s.cfg.wrespCheck = false ∨ writeAccepted accept = true := hw.imp_right (writeAccepted_iff accept).mpr
  have hcmd24 (hdata : s.wdata = data) : exec (.cmd24 index) s = .next (sectorWrite index data (enter .opWrite s)) :=
    hdata ▸ rowOp_of_none hf
  have hhost (hstart : s.starts 2) : exec (.writeSector index data) s =
      .next (sectorWrite index data (enter .opWrite { s with op := 2, opArg := index, wdata := data })) :=
    live_startOp hstart rfl rfl
  refine ⟨fun h => ⟨?_, fun hdata => ?_, fun hstart => ?_⟩,
    fun busy hreset hport hm hb h => ⟨⟨_, rowOp_of_none hf, ?_⟩, fun hdata => ⟨_, hcmd24 hdata, ?_⟩,
      fun hstart => ⟨_, hhost hstart, ?_⟩⟩⟩
  · exact (rowOp_of_none hf).trans (congrArg _ (sectorWrite_idle hf hc hr hlen haccept h))
  · exact (hcmd24 hdata).trans (congrArg _ (sectorWrite_idle hf hc hr hlen haccept h))
  · exact (hhost hstart).trans (congrArg _
      (sectorWrite_idle (s := { s with op := 2, opArg := index, wdata := data }) hf hc hr hlen haccept h))
  · exact run_sectorWrite hreset hport hf hc hr hlen haccept hm hb h
  · exact run_sectorWrite hreset hport hf hc hr hlen haccept hm hb h
  · exact run_sectorWrite (s := { s with op := 2, opArg := index, wdata := data })
      hreset hport hf hc hr hlen haccept hm hb h

/-! ### The token wait and the received formats (rules R95 to R97, R102, R103, R202) -/

/-- Settles O34: by what the byte polled is, and by the bound. -/
theorem tokenWait : Obligations.TokenWait := by
  intro s b rest hf hrx
  have hrow : exec .waitToken s = .next (waitToken 0 .ret (enter .opRegRead s)) := rowOp_of_none hf
  refine ⟨fun hb => ?_, fun hb hm => ?_, fun hb hm => ?_⟩
  · subst hb
    rw [hrow, waitToken_token (s := enter .opRegRead s) hrx]
    rfl
  · rw [hrow, waitToken_other (s := enter .opRegRead s) hb hm hrx]
    rfl
  · rw [hrow, waitToken_timeout (s := enter .opRegRead s) hf hb hm hrx]
    rfl

theorem receive_of_selected {s : State} {bytes : List Byte} {f : State → State} (hcs : s.cs = true) :
    receive bytes f s = f (feed bytes s) := if_pos hcs

/-- The state after a status byte received at the first poll, the card still to answer `rest`. -/
def afterStatus (flags : BitVec 7) (rest : List Byte) (s : State) : State :=
  { s with
    pollCnt := 1
    r1 := statusByte flags
    seq := ⟨s.seq.main, some (.pPoll 1)⟩
    rx := rest
    trace := .x Config.filler (statusByte flags) :: s.trace }

section
variable {s : State} {flags : BitVec 7}

theorem pollStatus_feed {more : List Byte} :
    pollStatus (feed (statusByte flags :: more) s) = afterStatus flags (more ++ s.rx) s :=
  pollStatus_rx (skip := []) (by simp) (by simp) (statusByte_msb flags) rfl

theorem respB_feed {second : Byte} (hf : s.fault = none) :
    respB (feed [statusByte flags, second] s) =
      { afterReceive [second] s.rx (afterStatus flags s.rx s) with r2 := second, seq := ⟨s.seq.main, some (.pExtra 0)⟩ } := by
  have hrx : (afterStatus flags ([second] ++ s.rx) s).rx = second :: s.rx := rfl
  rw [respB, pollStatus_feed, andThen_of_none (by exact hf), secondByte, xchg_cons hrx, reply_cons hrx]
  rfl

theorem respCD_feed {payload : Word32} (hf : s.fault = none) :
    respCD (feed (statusByte flags :: be32bytes payload) s) =
      { afterReceive (be32bytes payload) s.rx (afterStatus flags s.rx s) with
        payload := payload, seq := ⟨s.seq.main, some (.pExtra 3)⟩ } := by
  rw [respCD, pollStatus_feed, andThen_of_none (by exact hf), payloadBytes_rx rfl rfl, be32_be32bytes]
  rfl

end

/-- Settles O59: the card's bytes are fed, and received by the operation of their format. -/
theorem receivedFormats : Obligations.ReceivedFormats := by
  intro s flags second payload code hf hcs
  have hrow {bytes : List Byte} {f : State → State} : live (receive bytes f) s = .next (f (feed bytes s)) :=
    (live_of_none hf).trans (congrArg _ (receive_of_selected hcs))
  refine ⟨hrow.trans ?_, hrow.trans ?_, hrow.trans ?_, hrow, fun hw => ?_⟩
  · rw [respA, pollStatus_feed, andThen_of_none (by exact hf)]
    rfl
  · rw [respB_feed hf, andThen_of_none (by exact hf)]
    rfl
  · rw [respCD_feed hf, andThen_of_none (by exact hf)]
    rfl
  · have htoken : exec .startToken s =
        .next (deliver .done (atPhase .pToken (xchg Config.filler (feed [s.cfg.startToken] s)))) := by
      refine (live_of_none hf).trans ?_
      simp only [receive_of_selected hcs, feed_waiting, hw]
    exact htoken

end Sys2Proof.Machine
end

section
/-! Proofs of the statements of `40_crc7.md`: the checksum as a remainder, its bit-serial and shift-based forms, its properties, the
checksum byte. -/

namespace Sys2Proof.Machine

/-! ### The register after a string of bits (rules R121, R122) -/

theorem crcBits_append (c : BitVec 7) (xs ys : List Bool) : crcBits c (xs ++ ys) = crcBits (crcBits c xs) ys :=
  List.foldl_append

theorem crcBits_concat (c : BitVec 7) (xs : List Bool) (d : Bool) : crcBits c (xs ++ [d]) = crcShift (crcBits c xs) d :=
  crcBits_append c xs [d]

/-- Zero bits leave the register at zero. -/
theorem crcBits_zero_replicate (n : Nat) : crcBits 0 (List.replicate n false) = 0 := by
  induction n with
  | zero => rfl
  | succ n ih => exact ih

theorem messageBits_append (xs ys : List Byte) : messageBits (xs ++ ys) = messageBits xs ++ messageBits ys :=
  List.flatMap_append

theorem messageBits_replicate_zero (n : Nat) : messageBits (List.replicate n 0) = List.replicate (8 * n) false := by
  induction n with
  | zero => rfl
  | succ n ih => exact congrArg (List.replicate 8 false ++ ·) ih

theorem crc7_append (xs ys : List Byte) : crc7 (xs ++ ys) = crcBits (crc7 xs) (messageBits ys) := by
  rw [crc7, messageBits_append, crcBits_append, crc7]

theorem crc7_concat (xs : List Byte) (b : Byte) : crc7 (xs ++ [b]) = crcBits (crc7 xs) (byteBits b) := crc7_append xs [b]

theorem crc7_replicate_zero (n : Nat) : crc7 (List.replicate n 0) = 0 := by
  rw [crc7, messageBits_replicate_zero]
  exact crcBits_zero_replicate _

/-- Leading zero bytes do not show in the checksum. -/
theorem crc7_replicate_zero_append (n : Nat) (bytes : List Byte) : crc7 (List.replicate n 0 ++ bytes) = crc7 bytes := by
  rw [crc7_append, crc7_replicate_zero]
  rfl

/-- The corner case of rule R124. -/
theorem crcByte_replicate_zero (n : Nat) : crcByte (List.replicate n 0) = 0x01 := by
  rw [crcByte, crc7_replicate_zero]
  rfl

/-! ### The required vectors and the rows (rules R120, R124, R126) -/

theorem crc7_goIdle : crc7 [0x40, 0x00, 0x00, 0x00, 0x00] = 0x4A := by decide +kernel

theorem crc7_sendInterfaceCondition : crc7 [0x48, 0x00, 0x00, 0x01, 0xAA] = 0x43 := by decide +kernel

theorem crcByte_goIdle : crcByte [0x40, 0x00, 0x00, 0x00, 0x00] = 0x95 := congrArg (· ++ 1#1) crc7_goIdle

theorem crcByte_sendInterfaceCondition : crcByte [0x48, 0x00, 0x00, 0x01, 0xAA] = 0x87 :=
  congrArg (· ++ 1#1) crc7_sendInterfaceCondition

/-- Settles O18: no fault is latched, so each row writes `crc` and delivers its value. -/
theorem checksumRows : Obligations.ChecksumRows :=
  ⟨fun _ _ hf => ⟨live_of_none hf, live_of_none hf⟩, crcByte_replicate_zero, crc7_goIdle, crcByte_goIdle,
    crc7_sendInterfaceCondition, crcByte_sendInterfaceCondition⟩

/-! ### The remainder (rule R121) -/

theorem gf2Poly_concat (bits : List Bool) (d : Bool) : gf2Poly (bits ++ [d]) = 2 * gf2Poly bits ^^^ d.toNat := by
  simp [gf2Poly]

theorem gf2Mul_concat (q : List Bool) (d : Bool) (g : Nat) :
    gf2Mul (q ++ [d]) g = 2 * gf2Mul q g ^^^ (if d then g else 0) := by
  simp [gf2Mul]

/-- The register is the remainder after every bit of a message; a bit more adds its feedback bit to the quotient. -/
theorem crcBits_remainder (bits : List Bool) :
    ∃ q : List Bool, gf2Poly bits * 128 = gf2Mul q 0x89 ^^^ (crcBits 0 bits).toNat := by
  induction bits using List.reverseRecOn with
  | nil => exact ⟨[], rfl⟩
  | append_singleton bits d ih =>
    obtain ⟨q, hq⟩ := ih
    let c := crcBits 0 bits
    refine ⟨q ++ [d ^^ c.msb], ?_⟩
    calc gf2Poly (bits ++ [d]) * 128
        = 2 * (gf2Poly bits * 128) ^^^ d.toNat * 128 := by rw [gf2Poly_concat, xor_mul_128, Nat.mul_assoc]
      _ = 2 * gf2Mul q 0x89 ^^^ (2 * c.toNat ^^^ d.toNat * 128) := by rw [hq, two_mul_xor, Nat.xor_assoc]
      _ = 2 * gf2Mul q 0x89 ^^^ ((if d ^^ c.msb then 0x89 else 0) ^^^ (crcShift c d).toNat) := by rw [crcShift_div]
      _ = gf2Mul (q ++ [d ^^ c.msb]) 0x89 ^^^ (crcBits 0 (bits ++ [d])).toNat := by
        rw [gf2Mul_concat, crcBits_concat, Nat.xor_assoc]

/-- Settles O19: the register is the remainder after every bit, and zero bits at the start do not show in it. -/
theorem checksumIsRemainder : Obligations.ChecksumIsRemainder :=
  ⟨fun bytes => crcBits_remainder (messageBits bytes), rfl, crc7_replicate_zero, crc7_replicate_zero_append, crc7_goIdle⟩

/-! ### The bit-serial form (rule R122) -/

/-- One bit through the register, bit by bit: a shift, and the generator's bits when the feedback bit is 1. -/
theorem crcShift_getLsbD (c : BitVec 7) (d : Bool) {i : Nat} (hi : i < 7) :
    (crcShift c d).getLsbD i =
      ((!decide (i < 1) && c.getLsbD (i - 1)) ^^ ((d ^^ c.getLsbD 6) && Config.crc7Poly.getLsbD i)) := by
  have hmsb : c.msb = c.getLsbD 6 := BitVec.msb_eq_getLsbD_last c
  rw [crcShift, hmsb]
  cases d ^^ c.getLsbD 6 <;> simp [hi, -BitVec.getLsbD_eq_getElem]

/-- Settles O20: the bits of the register after one bit, and the eight bits of a byte more. -/
theorem checksumBitSerial : Obligations.ChecksumBitSerial := by
  refine ⟨fun crc d => ?_, rfl, crc7_concat⟩
  simp [crcShift_getLsbD, Config.crc7Poly, Bool.xor_comm, -BitVec.getLsbD_eq_getElem]

/-! ### The shift-based form (rule R123) -/

theorem byteBits_eq_map (b : Byte) : byteBits b = (List.range 8).map b.getMsbD := rfl

/-- Rotations of the 8-bit register with a byte added in: each shifts the byte's next bit into the checksum. -/
theorem iterate_crcRotate (c : BitVec 7) (b : Byte) (n : Nat) :
    crcRotate^[n] ((c ++ 0#1) ^^^ b) = (crcBits c ((List.range n).map b.getMsbD) ++ 0#1) ^^^ b <<< n := by
  induction n with
  | zero => simp [crcBits]
  | succ n ih =>
    have hnext : (b <<< n).msb = b.getMsbD n := by simp [BitVec.msb]
    rw [Function.iterate_succ_apply', ih, crcRotate_step, hnext, List.range_succ, List.map_append, List.map_singleton,
      crcBits_concat, ← BitVec.shiftLeft_add]

theorem crcShiftByte_register (c : BitVec 7) (b : Byte) : crcShiftByte (c ++ 0#1) b = crcBits c (byteBits b) ++ 0#1 := by
  have hout : b <<< 8 = 0#8 := BitVec.shiftLeft_eq_zero (Nat.le_refl 8)
  rw [crcShiftByte, iterate_crcRotate, hout, BitVec.xor_zero, byteBits_eq_map]

theorem crcShiftBytes_eq (bytes : List Byte) : crcShiftBytes bytes = crc7 bytes ++ 0#1 := by
  induction bytes using List.reverseRecOn with
  | nil => rfl
  | append_singleton bytes b ih =>
    have hstep : crcShiftBytes (bytes ++ [b]) = crcShiftByte (crcShiftBytes bytes) b := by simp [crcShiftBytes]
    rw [hstep, ih, crcShiftByte_register, crc7_concat]

theorem append_zero_or_one : ∀ c : BitVec 7, (c ++ 0#1) ||| 0x01 = c ++ 1#1 := by decide

/-- Settles O21: a byte through the 8-bit register is its eight bits through the checksum, and the end bit fills the free place. -/
theorem checksumShiftForm : Obligations.ChecksumShiftForm := by
  intro bytes
  rw [crcShiftBytes_eq]
  exact ⟨rfl, append_zero_or_one (crc7 bytes)⟩

/-! ### Linearity and the self-check (rule R125 b, d) -/

theorem crcBits_xor (c e : BitVec 7) {xs ys : List Bool} (h : xs.length = ys.length) :
    crcBits (c ^^^ e) (List.zipWith (· ^^ ·) xs ys) = crcBits c xs ^^^ crcBits e ys := by
  induction xs generalizing c e ys with
  | nil =>
    obtain rfl : ys = [] := List.eq_nil_of_length_eq_zero h.symm
    rfl
  | cons x xs ih =>
    obtain ⟨y, ys, rfl⟩ := List.exists_cons_of_length_eq_add_one h.symm
    have hstep := ih (crcShift c x) (crcShift e y) (Nat.succ.inj h)
    rwa [← crcShift_xor] at hstep

theorem crc7_xor {a b : List Byte} (h : a.length = b.length) :
    crc7 (List.zipWith (· ^^^ ·) a b) = crc7 a ^^^ crc7 b := by
  have hbits : (messageBits a).length = (messageBits b).length := by rw [messageBits_length, messageBits_length, h]
  rw [crc7, messageBits_xor a b h]
  exact crcBits_xor 0 0 hbits

/-- A bit equal to the register's top bit gives no feedback. -/
theorem crcShift_msb (c : BitVec 7) : crcShift c c.msb = c <<< 1 := by simp [crcShift]

/-- The register's own bits, top bit first, shift it out. -/
theorem crcBits_own_bits (c : BitVec 7) (n : Nat) : crcBits c ((List.range n).map c.getMsbD) = c <<< n := by
  induction n with
  | zero => simp [crcBits]
  | succ n ih =>
    have hnext : c.getMsbD n = (c <<< n).msb := by simp [BitVec.msb]
    rw [List.range_succ, List.map_append, List.map_singleton, crcBits_concat, ih, hnext, crcShift_msb, ← BitVec.shiftLeft_add]

theorem crcBits_selfCheck (c : BitVec 7) : crcBits c ((List.range 7).map fun i => c.getLsbD (6 - i)) = 0 :=
  (crcBits_own_bits c 7).trans (BitVec.shiftLeft_eq_zero (Nat.le_refl 7))

/-! ### Detection of one and of two bits (rule R125 e) -/

/-- Zero bits never clear the register. -/
theorem crcBits_replicate_ne_zero {c : BitVec 7} (hc : c ≠ 0) (n : Nat) : crcBits c (List.replicate n false) ≠ 0 := by
  have hstep : ∀ c : BitVec 7, c ≠ 0 → crcShift c false ≠ 0 := by decide
  induction n generalizing c with
  | zero => exact hc
  | succ n ih => exact ih (hstep c hc)

/-- The generator is primitive: a second 1 bit at a distance below 127 does not clear the register. -/
theorem crcShift_second_one_ne_zero :
    ∀ k < 126, crcShift (crcBits (crcShift 0 true) (List.replicate k false)) true ≠ 0 := by decide +kernel

theorem eq_replicate_false_of_count {xs : List Bool} (h : xs.count true = 0) : xs = List.replicate xs.length false :=
  List.eq_replicate_length.mpr fun b hb => by
    have hne : b ≠ true := fun hb' => List.count_eq_zero.mp h (hb' ▸ hb)
    simpa using hne

/-- A bit string with a 1 bit, cut at its first one. -/
theorem exists_first_one {xs : List Bool} {n : Nat} (h : xs.count true = n + 1) :
    ∃ j ys, xs = List.replicate j false ++ true :: ys ∧ ys.count true = n := by
  have hmem : true ∈ xs := List.count_pos_iff.mp (by omega)
  obtain ⟨zs, ys, rfl, hzs⟩ := List.eq_append_cons_of_mem hmem
  have hzs0 : zs.count true = 0 := List.count_eq_zero.mpr hzs
  refine ⟨zs.length, ys, by rw [← eq_replicate_false_of_count hzs0], ?_⟩
  simpa [hzs0] using h

/-- Zero bits before the first one do not show in the register. -/
theorem crcBits_first_one (j : Nat) (ys : List Bool) :
    crcBits 0 (List.replicate j false ++ true :: ys) = crcBits (crcShift 0 true) ys := by
  rw [crcBits_append, crcBits_zero_replicate]
  rfl

theorem crcBits_one_bit_ne_zero {xs : List Bool} (h : xs.count true = 1) : crcBits 0 xs ≠ 0 := by
  obtain ⟨j, ys, rfl, hys⟩ := exists_first_one h
  rw [crcBits_first_one, eq_replicate_false_of_count hys]
  exact crcBits_replicate_ne_zero (by decide) _

theorem crcBits_two_bits_ne_zero {xs : List Bool} (h : xs.count true = 2) (hlen : xs.length ≤ 127) : crcBits 0 xs ≠ 0 := by
  obtain ⟨j, ys, rfl, hys⟩ := exists_first_one h
  obtain ⟨k, zs, rfl, hzs⟩ := exists_first_one hys
  have hk : k < 126 := by simp at hlen; omega
  rw [crcBits_first_one, crcBits_append, eq_replicate_false_of_count hzs]
  exact crcBits_replicate_ne_zero (crcShift_second_one_ne_zero k hk) _

/-- The places where two bit strings differ are the 1 bits of their exclusive-or. -/
theorem count_zipWith_xor (xs ys : List Bool) :
    (List.zipWith (· ^^ ·) xs ys).count true = (List.zip xs ys).countP fun p => p.1 != p.2 := by
  rw [← List.map_uncurry_zip_eq_zipWith, List.count, List.countP_map]
  refine List.countP_congr fun p _ => ?_
  simp [Function.uncurry]

/-- Messages that differ in one or in two of at most 127 bits have different checksums. -/
theorem crc7_detects {a b : List Byte} (h : a.length = b.length) (hlen : a.length ≤ 15)
    (hdiff : (List.zip (messageBits a) (messageBits b)).countP (fun p => p.1 != p.2) = 1 ∨
      (List.zip (messageBits a) (messageBits b)).countP (fun p => p.1 != p.2) = 2) : crc7 a ≠ crc7 b := by
  intro heq
  have hzero : crcBits 0 (List.zipWith (· ^^ ·) (messageBits a) (messageBits b)) = 0 := by
    rw [← messageBits_xor a b h]
    exact (crc7_xor h).trans (heq ▸ BitVec.xor_self)
  rw [← count_zipWith_xor] at hdiff
  obtain hone | htwo := hdiff
  · exact crcBits_one_bit_ne_zero hone hzero
  · refine crcBits_two_bits_ne_zero htwo ?_ hzero
    rw [List.length_zipWith, messageBits_length, messageBits_length]
    omega

/-! ### The checksum byte (rules R124, R125 f) -/

theorem crcByte_shiftRight (bytes : List Byte) : crcByte bytes >>> 1 = (crc7 bytes).setWidth 8 := by
  refine BitVec.eq_of_getLsbD_eq fun i hi => ?_
  simp [crcByte_getLsbD, hi, Nat.add_comm 1 i, -BitVec.getLsbD_eq_getElem]

/-- Settles O22: linearity, the table as computed, the self-check, the detection of one and two bits, and the end bit. -/
theorem checksumProperties : Obligations.ChecksumProperties :=
  ⟨fun _ _ => crc7_xor, by decide +kernel, fun _ => crcBits_selfCheck _, fun _ _ => crc7_detects,
    fun bytes => ⟨crcByte_getLsbD bytes 0, crcByte_shiftRight bytes⟩⟩

/-- Settles O23: the checksum byte as rule R124 writes it and its bits, and the last byte of a frame, which is built from it. -/
theorem checksumByte : Obligations.ChecksumByte :=
  ⟨fun bytes => ⟨crcByte_eq_or bytes, crcByte_extract bytes, crcByte_getLsbD bytes 0⟩, fun _ _ => rfl, crcByte_replicate_zero,
    crcByte_sendInterfaceCondition, crcByte_sendInterfaceCondition⟩

end Sys2Proof.Machine
end

section
/-! Proofs of the statements of `41_command_transport.md`: the command frame on the link. -/

namespace Sys2Proof.Machine

/-- `IssueCommand` whatever the card answers, scripted or not (rules R143, R144). -/
theorem issueCommand_full (idx : BitVec 6) (arg : Word32) (s : State) :
    issueCommand idx arg s =
      { s with
        frame := frameBytes idx arg
        crc := crc7 (frameBody idx arg)
        cs := true
        seq := ⟨s.seq.main, some (.pFrame 5)⟩
        trace := (exchangeEvents (frameBytes idx arg) (replies (frameBytes idx arg) (select (buildFrame idx arg s)))).reverse ++
          .sel :: s.trace
        rx := s.rx.drop 6
        envCount := s.envCount + (6 - s.rx.length) } := by
  simp only [issueCommand, select_frame, buildFrame_frame]
  rw [xchgN_full, frameBytes_length]
  rfl

/-- Settles O27: no fault is latched, so the row is `issueCommand` and the delivery of its value; the six answers are those to the bytes of the
frame, once the frame is built and the card selected. -/
theorem issueCommandRow : Obligations.IssueCommandRow := by
  intro s idx arg hf
  have hrow : exec (.issueCommand idx arg) s = .next (deliver .done (issueCommand idx arg s)) := live_of_none hf
  refine ⟨replies (frameBytes idx arg) (select (buildFrame idx arg s)), replies_length _ _, ?_⟩
  rw [hrow, issueCommand_full]
  rfl

end Sys2Proof.Machine
end

section
/-! Proofs of the statements of `42_response_classifier.md`: the status poll, the three response shapes, the poll that finds no status
byte in every transaction, the register reads, what is not implemented. -/

namespace Sys2Proof.Machine

/-! ### The status poll and the response shapes (rules R152 to R156) -/

/-- A row that runs `f` and delivers a value of the state `f` leaves, when `f` raises no fault. -/
theorem live_deliver {s t : State} {f : State → State} {value : State → Result} (hf : s.fault = none) (h : f s = t)
    (ht : t.fault = none) :
    live (fun s => (f s).andThen fun s => deliver (value s) s) s = .next (deliver (value t) t) := by
  rw [live_of_none hf, h, andThen_of_none ht]

/-- Such a row when `f` raises a fault: nothing is delivered. -/
theorem live_fatal {s t : State} {r : Fatal} {f g : State → State} (hf : s.fault = none) (h : f s = afterFatal r t) :
    live (fun s => (f s).andThen g) s = .next (afterFatal r t) := by
  rw [live_of_none hf, h, andThen_afterFatal]

/-- The status poll whatever the card answers, scripted or not (rule R152). -/
theorem pollStatus_total {s : State} (hf : s.fault = none) :
    ∃ skip : List Byte, (∀ b ∈ skip, b.msb = true) ∧
      ((∃ status : Byte, skip.length ≤ 7 ∧ status.msb = false ∧
          pollStatus s =
            { s with
              pollCnt := BitVec.ofNat 4 (skip.length + 1)
              r1 := status
              seq := ⟨s.seq.main, some (.pPoll (skip.length + 1))⟩
              trace := (receiveEvents (skip ++ [status])).reverse ++ s.trace
              rx := s.rx.drop (skip.length + 1)
              envCount := s.envCount + (skip.length + 1 - s.rx.length) }) ∨
        (skip.length = 8 ∧
          pollStatus s =
            afterFatal (.respTimeout (frameIdx s.frame))
              { s with
                pollCnt := 8
                trace := (receiveEvents skip).reverse ++ s.trace
                rx := s.rx.drop 8
                envCount := s.envCount + (8 - s.rx.length) })) := by
  have hcount : (0#4).toNat + 8 ≤ 8 := by decide
  obtain ⟨skip, hskip, ⟨status, hlen, hstatus, hpoll⟩ | ⟨hlen, hpoll⟩⟩ :=
    pollLoop_total 8 { s with pollCnt := 0 } hf hcount
  · exact ⟨skip, hskip, .inl ⟨status, by omega, hstatus, hpoll.trans (by simp)⟩⟩
  · exact ⟨skip, hskip, .inr ⟨hlen, hpoll⟩⟩

/-- Settles O28: the row is the status poll, which finds a status byte or raises the fault. -/
theorem statusPoll : Obligations.StatusPoll := by
  intro s hf
  obtain ⟨skip, hskip, ⟨status, hlen, hstatus, hpoll⟩ | ⟨hlen, hpoll⟩⟩ := pollStatus_total hf
  · exact ⟨rfl, skip, hskip, .inl ⟨status, hlen, hstatus, live_deliver hf hpoll hf⟩⟩
  · exact ⟨rfl, skip, hskip, .inr ⟨hlen, live_fatal hf hpoll⟩⟩

section
variable {s : State} {skip rest : List Byte} {status b : Byte}

/-- RespB with a card that answers (rule R154). -/
theorem respB_rx (hf : s.fault = none) (h7 : skip.length ≤ 7) (hs : ∀ b ∈ skip, b.msb = true) (hst : status.msb = false)
    (h : s.rx = skip ++ status :: b :: rest) :
    respB s =
      { s with
        pollCnt := BitVec.ofNat 4 (skip.length + 1)
        r1 := status
        r2 := b
        seq := ⟨s.seq.main, some (.pExtra 0)⟩
        rx := rest
        trace := (receiveEvents (skip ++ [status, b])).reverse ++ s.trace } := by
  rw [respB, pollStatus_rx h7 hs hst h, andThen_of_none (by exact hf), secondByte, xchg_cons (by rfl), reply_cons (by rfl)]
  simp [atPhase, receiveEvents]

/-- RespCD with a card that answers (rule R155). -/
theorem respCD_rx {e : List Byte} (hf : s.fault = none) (h7 : skip.length ≤ 7) (hs : ∀ b ∈ skip, b.msb = true)
    (hst : status.msb = false) (he : e.length = 4) (h : s.rx = skip ++ status :: (e ++ rest)) :
    respCD s =
      { s with
        pollCnt := BitVec.ofNat 4 (skip.length + 1)
        r1 := status
        payload := be32List e
        seq := ⟨s.seq.main, some (.pExtra 3)⟩
        rx := rest
        trace := (receiveEvents (skip ++ status :: e)).reverse ++ s.trace } := by
  rw [respCD, pollStatus_rx h7 hs hst h, andThen_of_none (by exact hf), payloadBytes_rx he (by rfl)]
  simp [afterReceive, receiveEvents]

end

/-- Settles O29: no fault is raised, so each row is its classifier operation and the delivery of what that wrote. -/
theorem responseRows : Obligations.ResponseRows := by
  intro s skip status b e0 e1 e2 e3 rest hf h7 hs hst
  refine ⟨fun h => ⟨?_, ?_⟩, fun h => ?_, fun h => ?_⟩
  · exact live_deliver hf (pollStatus_rx h7 hs hst h) hf
  · exact live_deliver hf (pollStatus_rx h7 hs hst h) hf
  · exact live_deliver hf (respB_rx hf h7 hs hst h) hf
  · exact live_deliver hf (respCD_rx (e := [e0, e1, e2, e3]) hf h7 hs hst rfl h) hf

/-! ### A poll that finds no status byte (rules R152, R302) -/

/-- The poll over eight answers that are no status byte: the fault names the command of the frame. -/
theorem pollStatus_timeout {s : State} {polls rest : List Byte} {idx : BitVec 6} {arg : Word32} (hf : s.fault = none)
    (h8 : polls.length = 8) (hp : ∀ b ∈ polls, isStatus b = false) (hframe : s.frame = frameBytes idx arg)
    (h : s.rx = polls ++ rest) :
    pollStatus s =
      afterFatal (.respTimeout idx)
        { s with pollCnt := 8, rx := rest, trace := (receiveEvents polls).reverse ++ s.trace } := by
  have hidx : frameIdx s.frame = idx := by rw [hframe, frameIdx_frameBytes]
  have hcount : (0#4).toNat + 8 ≤ 8 := by decide
  refine (pollLoop_timeout (s := { s with pollCnt := 0 }) h8 hp h hf hcount).trans ?_
  rw [hidx]
  rfl

/-- `f` sends the command `idx` with `arg` first, and ends with RESP_TIMEOUT there when the card gives it no status byte (rule R302). -/
def FindsNoStatus (frameAns polls rest : List Byte) (idx : BitVec 6) (arg : Word32) (f : State → State) : Prop :=
  ∀ s : State, s.fault = none → s.rx = frameAns ++ (polls ++ rest) → f s = afterNoStatus idx arg frameAns polls rest s

namespace FindsNoStatus

variable {s : State} {m : SeqState} {f : State → State} {frameAns polls rest : List Byte} {idx : BitVec 6} {arg : Word32}

theorem andThen (h : FindsNoStatus frameAns polls rest idx arg f) (g : State → State) :
    FindsNoStatus frameAns polls rest idx arg fun s => (f s).andThen g := by
  intro s hf hrx
  simp only [h s hf hrx, andThen_afterNoStatus]

theorem live_eq (h : FindsNoStatus frameAns polls rest idx arg f) (hf : s.fault = none)
    (hrx : s.rx = frameAns ++ (polls ++ rest)) :
    live f s = .next (afterNoStatus idx arg frameAns polls rest s) := (live_of_none hf).trans (congrArg _ (h s hf hrx))

/-- The fault leaves no trace of the state of the sequencer the operation ran in. -/
theorem enter_eq (h : FindsNoStatus frameAns polls rest idx arg f) (hf : s.fault = none)
    (hrx : s.rx = frameAns ++ (polls ++ rest)) :
    f (enter m s) = afterNoStatus idx arg frameAns polls rest s := h (enter m s) hf hrx

theorem rowOp_eq (h : FindsNoStatus frameAns polls rest idx arg f) (hf : s.fault = none)
    (hrx : s.rx = frameAns ++ (polls ++ rest)) :
    rowOp m f s = .next (afterNoStatus idx arg frameAns polls rest s) :=
  (rowOp_of_none hf).trans (congrArg _ (h.enter_eq hf hrx))

end FindsNoStatus

section
variable {s : State} {m : SeqState} {frameAns polls rest : List Byte} {k : AfterBlock} {idx : BitVec 6}
  {c55 : CardReply} {n : Nat}

/-- The fetch behind the prefix whose own command finds no status byte. -/
theorem appRegRead_noStatus {shape : Shape} (hreg : FindsNoStatus frameAns polls rest idx 0 (regRead k idx shape n))
    (hf : s.fault = none) (h55 : c55.ok = true) (h : s.rx = c55.bytes ++ (frameAns ++ (polls ++ rest))) :
    appRegRead k idx shape n (enter m s) =
      afterNoStatus idx 0 frameAns polls rest (afterTransactA 55 0 c55 [] s) := by
  rw [appRegRead_rx h55 (by exact hf) (by exact h), hreg _ (by exact hf) rfl]
  rfl

/-- Command 41 behind its prefix when it finds no status byte. -/
theorem activateOnce_no41 (h41 : FindsNoStatus frameAns polls rest 41 Config.hcsArg (transactA 41 Config.hcsArg))
    (hf : s.fault = none) (h55 : c55.ok = true) (h : s.rx = c55.bytes ++ (frameAns ++ (polls ++ rest))) :
    activateOnce s = afterNoStatus 41 Config.hcsArg frameAns polls rest (afterTransactA 55 0 c55 [] s) := by
  rw [activateOnce, prefixTransaction, transactA_rx h55 hf h, andThen_of_none (by exact hf), h41 _ (by exact hf) rfl]
  rfl

/-- INIT whose command 0 finds no status byte (rule R189). -/
theorem init_no0 {clocks : List Byte} (h0 : FindsNoStatus frameAns polls rest 0 Config.zeroArg (transactA 0 Config.zeroArg))
    (hf : s.fault = none) (hb : s.busy = false) (h10 : clocks.length = 10) (h : s.rx = clocks ++ (frameAns ++ (polls ++ rest))) :
    exec .init s = .next (afterNoStatus 0 0 frameAns polls rest (afterClocks clocks s)) := by
  rw [initExec hf hb, runInit, initReset_rx (s := { s with op := 0 }) h10 h, goIdle, h0.enter_eq (by exact hf) rfl]
  rfl

end

/-- A turn of the activation loop that ends in `o`: it starts from `u`, but for the state of the sequencer, when the card has
answered `before`. -/
def StartsTurn (s : State) (o : Host.Outcome State Fault Refusal) (before : List Byte) (u : State) : Prop :=
  ∀ later : List Byte, s.rx = before ++ later → ∃ n sq, o = .next (activate n { u with rx := later, seq := sq })

theorem startsTurn_step {s : State} {n : Nat} (hreset : s.resetRequest = false) (hf : s.fault = none)
    (hw : s.waiting = some (.activate n)) : StartsTurn s (step s) [] { s with port := none } := by
  rintro later rfl
  exact ⟨n, s.seq, step_waiting hreset hf hw⟩

theorem startsTurn_init {s : State} {clocks echo : List Byte} {c0 c8 : CardReply} (hf : s.fault = none) (hb : s.busy = false)
    (h10 : clocks.length = 10) (h0 : c0.ok = true) (hs0 : c0.status = 0x01) (h8 : c8.ok = true) (he : echo.length = 4)
    (hecho : be32List echo &&& 0xFFF = 0x1AA) :
    StartsTurn s (exec .init s) (clocks ++ (c0.bytes ++ (c8.bytes ++ echo))) (afterIfCond clocks c0 c8 echo [] s) := by
  intro later h
  refine ⟨0, ⟨.iIfCond, none⟩, (init_rx (rest := later) hf hb h10 h0 hs0 h8 he hecho (by simpa using h)).trans ?_⟩
  rw [afterIfCond_rest]

namespace StartsTurn

variable {s u : State} {o : Host.Outcome State Fault Refusal} {before frameAns polls rest ocr : List Byte}
  {c55 c41 c58 : CardReply} (ho : StartsTurn s o before u) (h6 : frameAns.length = 6) (h8 : polls.length = 8)
  (hp : ∀ b ∈ polls, isStatus b = false) (hu : u.fault = none) (h55 : c55.ok = true) (h41 : c41.ok = true)
  (hst : c41.status = 0) (h58 : c58.ok = true) (hocr : ocr.length = 4)

include ho h6 h8 hp hu

/-- A turn whose prefix finds no status byte (rule R189). -/
theorem no55 (h : s.rx = before ++ (frameAns ++ (polls ++ rest))) :
    o = .next (afterNoStatus 55 0 frameAns polls rest u) := by
  obtain ⟨n, sq, rfl⟩ := ho _ h
  rw [activate_no55 h6 h8 hp (by exact hu) rfl]
  rfl

include h55

/-- A turn whose command 41 finds no status byte (rule R189). -/
theorem no41 (h : s.rx = before ++ (c55.bytes ++ (frameAns ++ (polls ++ rest)))) :
    o = .next (afterNoStatus 41 0x40000000 frameAns polls rest (afterTransactA 55 0 c55 [] u)) := by
  obtain ⟨n, sq, rfl⟩ := ho _ h
  rw [activate_no41 h6 h8 hp (by exact hu) h55 rfl]
  rfl

include h41 hst

/-- The turn that ends the loop, command 58 finding no status byte (rule R189). -/
theorem no58 (h : s.rx = before ++ (c55.bytes ++ (c41.bytes ++ (frameAns ++ (polls ++ rest))))) :
    o = .next (afterNoStatus 58 0 frameAns polls rest
      (afterTransactA 41 0x40000000 c41 [] (afterTransactA 55 0 c55 [] u))) := by
  obtain ⟨n, sq, rfl⟩ := ho _ h
  rw [activate_no58 h6 h8 hp (by exact hu) h55 h41 hst rfl]
  rfl

include h58 hocr

/-- The byte-addressing path, command 16 finding no status byte (rules R184, R189). -/
theorem no16 (hccs : (decodeOcr u.cfg.layouts.ocr (be32List ocr)).ccs = 0) (h16 : u.cfg.initCmd16Issued = true)
    (h : s.rx = before ++ (c55.bytes ++ (c41.bytes ++ (c58.bytes ++ (ocr ++ (frameAns ++ (polls ++ rest))))))) :
    o = .next (afterNoStatus 16 512 frameAns polls rest (afterOcr c55 c41 c58 ocr [] u)) := by
  obtain ⟨n, sq, rfl⟩ := ho _ h
  rw [activate_no16 h6 h8 hp (by exact hu) h55 h41 hst h58 hocr (by exact hccs) (by exact h16) rfl]
  rfl

/-- The descriptor fetch, command 9 finding no status byte (rules R186, R189). -/
theorem no9 (hccs : (decodeOcr u.cfg.layouts.ocr (be32List ocr)).ccs = 1) (hfetch : u.cfg.initFetchCsd = true)
    (h : s.rx = before ++ (c55.bytes ++ (c41.bytes ++ (c58.bytes ++ (ocr ++ (frameAns ++ (polls ++ rest))))))) :
    o = .next (afterNoStatus 9 0 frameAns polls rest { afterOcr c55 c41 c58 ocr [] u with initialized := true }) := by
  obtain ⟨n, sq, rfl⟩ := ho _ h
  rw [activate_no9 h6 h8 hp (by exact hu) h55 h41 hst h58 hocr (by exact hccs) (by exact hfetch) rfl]
  rfl

end StartsTurn

/-- Settles O30: each row, host operation and turn of INIT reaches the command that finds no status byte, and ends there. -/
theorem responseTimeout : Obligations.ResponseTimeout := by
  intro s frameAns polls rest idx arg index data n hf h6 h8 hmsb
  have hp : ∀ b ∈ polls, isStatus b = false := not_isStatus_of_msb hmsb
  have hA (idx arg) : FindsNoStatus frameAns polls rest idx arg (transactA idx arg) := fun _ => transactA_noStatus h6 h8 hp
  have hCD (idx arg) : FindsNoStatus frameAns polls rest idx arg (transactCD idx arg) := fun _ => transactCD_noStatus h6 h8 hp
  have hread (k index) : FindsNoStatus frameAns polls rest 17 index (sectorRead k index) := fun _ => sectorRead_noStatus h6 h8 hp
  have hwrite (index data) : FindsNoStatus frameAns polls rest 24 index (sectorWrite index data) :=
    fun _ => sectorWrite_noStatus h6 h8 hp
  have hregA (k idx n) : FindsNoStatus frameAns polls rest idx 0 (regRead k idx .a n) := fun _ => regReadA_noStatus h6 h8 hp
  have hregB (k idx n) : FindsNoStatus frameAns polls rest idx 0 (regRead k idx .b n) := fun _ => regReadB_noStatus h6 h8 hp
  have happ (k idx shape n) : FindsNoStatus frameAns polls rest 55 0 (appRegRead k idx shape n) :=
    fun _ => appRegRead_noPrefix h6 h8 hp
  refine ⟨fun hframe h => ?_, fun h => ⟨⟨?_, ?_, ?_, ?_, ?_, ?_, ?_, ?_, ?_, ?_, ?_, ?_⟩, ⟨?_, ?_, ?_, ?_⟩,
    fun hstart => ?_, fun hstart => ?_, fun hstart => ?_, fun hstart => ?_, fun hstart => ?_, fun hstart => ?_,
    fun hstart => ?_⟩, fun c55 h55 h => ⟨?_, ?_, ?_, fun hstart => ?_, fun hstart => ?_⟩, ?_⟩
  · have hpoll := pollStatus_timeout hf h8 hp hframe h
    have hmore (g : State → State) := (congrArg (State.andThen · g) hpoll).trans andThen_afterFatal
    exact ⟨live_fatal hf hpoll, live_fatal hf hpoll,
      live_fatal (f := respB) hf (hmore secondByte), live_fatal (f := respCD) hf (hmore payloadBytes)⟩
  · exact ((hA 0 0).andThen _).live_eq hf h
  · exact ((hCD 8 _).andThen _).live_eq hf h
  · exact (hregA _ 9 _).rowOp_eq hf h
  · exact (hregA _ 10 _).rowOp_eq hf h
  · exact ((hA 16 _).andThen _).live_eq hf h
  · exact (hread _ index).rowOp_eq hf h
  · exact (hwrite index s.wdata).rowOp_eq hf h
  · exact ((hA 55 0).andThen _).live_eq hf h
  · exact ((hCD 58 0).andThen _).live_eq hf h
  · exact (happ _ 13 _ _).rowOp_eq hf h
  · exact (((hA 55 0).andThen _).andThen _).live_eq hf h
  · exact (happ _ 51 _ _).rowOp_eq hf h
  · exact (hread _ index).rowOp_eq hf h
  · exact (hwrite index data).rowOp_eq hf h
  · exact (hregA _ idx n).rowOp_eq hf h
  · exact (hregB _ idx n).rowOp_eq hf h
  · exact (live_startOp hstart rfl rfl).trans (congrArg _ ((hread _ index).enter_eq hf h))
  · exact (live_startOp hstart rfl rfl).trans (congrArg _ ((hwrite index data).enter_eq hf h))
  · exact (live_startOp hstart rfl rfl).trans (congrArg _ ((hregA _ 10 _).enter_eq hf h))
  · exact (live_startOp hstart rfl rfl).trans (congrArg _ ((hregA _ 9 _).enter_eq hf h))
  · exact (live_startOp hstart rfl rfl).trans (congrArg _ (((hCD 58 0).andThen _).enter_eq hf h))
  · exact (live_startOp hstart rfl rfl).trans (congrArg _ ((happ _ 51 _ _).enter_eq hf h))
  · exact (live_startOp hstart rfl rfl).trans (congrArg _ ((happ _ 13 _ _).enter_eq hf h))
  · exact (rowOp_of_none hf).trans (congrArg _ (appRegRead_noStatus (hregB _ 13 _) hf h55 h))
  · exact live_fatal hf (activateOnce_no41 (hA 41 _) hf h55 h)
  · exact (rowOp_of_none hf).trans (congrArg _ (appRegRead_noStatus (hregA _ 51 _) hf h55 h))
  · exact (live_startOp hstart rfl rfl).trans (congrArg _ (appRegRead_noStatus (hregA _ 51 _) hf h55 h))
  · exact (live_startOp hstart rfl rfl).trans (congrArg _ (appRegRead_noStatus (hregB _ 13 _) hf h55 h))
  · intro turn
    have hturn {o before u} (hu : u.fault = none) (hcfg : u.cfg = s.cfg) (ho : StartsTurn s o before u) : turn o before u := by
      refine ⟨ho.no55 h6 h8 hp hu, fun c55 c41 c58 ocr h55 => ⟨ho.no41 h6 h8 hp hu h55, fun h41 hst =>
        ⟨ho.no58 h6 h8 hp hu h55 h41 hst, fun h58 hocr h => ?_⟩⟩⟩
      rw [← hcfg]
      exact ⟨fun hccs h16 => ho.no16 h6 h8 hp hu h55 h41 hst h58 hocr hccs h16 h,
        fun hccs hfetch => ho.no9 h6 h8 hp hu h55 h41 hst h58 hocr hccs hfetch h⟩
    refine ⟨fun k hreset hw => hturn hf rfl (startsTurn_step hreset hf hw), fun clocks hb h10 =>
      ⟨init_no0 (hA 0 _) hf hb h10, fun c0 c8 echo h0 hs0 => ⟨init_no8 h6 h8 hp hf hb h10 h0 hs0, fun hc8 he hecho => ?_⟩⟩⟩
    exact hturn hf rfl (startsTurn_init hf hb h10 h0 hs0 hc8 he hecho)

/-! ### Register reads (rules R154, R202, R212, R286, R287) -/

theorem delivers_readCid : AfterBlock.readCid.Delivers fun cfg data => .cid (decodeCid cfg.layouts.cid data) :=
  fun _ _ => rfl

theorem delivers_readCsd : AfterBlock.readCsd.Delivers fun cfg data => .csd (decodeCsd cfg.layouts.csd data) :=
  fun _ _ => rfl

section
variable {s : State} {m : SeqState} {k : AfterBlock} {value : Params → List Byte → Result} {idx : BitVec 6}
  {c : CardReply} {second b : Byte} {data trail rest : List Byte} {n : Nat}

/-- A fetch in the state `m` with a Shape A response, the token at once: the operation ends in IDLE whatever `m` was. -/
theorem regReadA_enter_ends (hk : k.Delivers value) (hf : s.fault = none) (hfil : s.filler = Config.fillerBuffer)
    (hc : c.ok = true) (hr : s.cfg.r1Check = false ∨ c.status = 0) (hd : data.length = n) (hn : n ≤ 512)
    (ht : trail.length = 2) (h : s.rx = c.bytes ++ (s.cfg.startToken :: (data ++ (trail ++ rest)))) :
    regRead k idx .a n (enter m s) = afterEnd (value s.cfg data) (afterFetch idx 0 c [] data trail rest s) := by
  rw [regReadA_ends hk (by exact hf) (by exact hfil) hc (by exact hr) hd hn ht (by exact h)]
  rfl

/-- The same with a Shape B response. -/
theorem regReadB_enter_ends (hk : k.Delivers value) (hf : s.fault = none) (hfil : s.filler = Config.fillerBuffer)
    (hc : c.ok = true) (hr : s.cfg.r1Check = false ∨ c.status = 0) (hd : data.length = n) (hn : n ≤ 512)
    (ht : trail.length = 2) (h : s.rx = c.bytes ++ (second :: s.cfg.startToken :: (data ++ (trail ++ rest)))) :
    regRead k idx .b n (enter m s) = afterEnd (value s.cfg data) (afterFetchB idx 0 c second [] data trail rest s) := by
  rw [regReadB_ends hk (by exact hf) (by exact hfil) hc (by exact hr) hd hn ht (by exact h)]
  rfl

/-- The fetch in the state `m` when the first byte polled is not the token, Shape A. -/
theorem regReadA_enter_late (hf : s.fault = none) (hc : c.ok = true) (hr : s.cfg.r1Check = false ∨ c.status = 0)
    (hb : b ≠ s.cfg.startToken) (hm : s.cfg.tokenWaitMax ≠ some 1) (h : s.rx = c.bytes ++ (b :: rest)) :
    regRead k idx .a n (enter m s) = afterFirstPoll m n k b rest (afterReply idx 0 c [] s) := by
  rw [regReadA_late hc (by exact hf) (by exact hr) (by exact hb) (by exact hm) (by exact h)]
  rfl

/-- The same with a Shape B response. -/
theorem regReadB_enter_late (hf : s.fault = none) (hc : c.ok = true) (hr : s.cfg.r1Check = false ∨ c.status = 0)
    (hb : b ≠ s.cfg.startToken) (hm : s.cfg.tokenWaitMax ≠ some 1) (h : s.rx = c.bytes ++ (second :: b :: rest)) :
    regRead k idx .b n (enter m s) =
      afterFirstPoll m n k b rest { afterReceive [second] [] (afterReply idx 0 c [] s) with r2 := second } := by
  rw [regReadB_late hc (by exact hf) (by exact hr) (by exact hb) (by exact hm) (by exact h)]
  rfl

end

/-- Settles O37: the rows and the operations make one fetch, and differ in what they deliver. -/
theorem registerReadRows : Obligations.RegisterReadRows := by
  intro s idx c second data trail rest hf hc hr
  refine ⟨fun hfil hd ht => ⟨fun h => ⟨?_, fun h16 => ⟨?_, ?_, fun hstart => ?_, fun hstart => ?_⟩⟩, fun h => ?_⟩,
    fun b n hb hm => ⟨fun h => ⟨?_, ?_, ?_, fun hstart => ?_, fun hstart => ?_⟩, fun h => ?_⟩⟩
  · exact (rowOp_of_none hf).trans (congrArg _ (regReadA_enter_ends delivers_dataPhase hf hfil hc hr rfl hd ht h))
  · exact (rowOp_of_none hf).trans
      (congrArg _ (regReadA_enter_ends delivers_dataPhase hf hfil hc hr h16 (by decide) ht h))
  · exact (rowOp_of_none hf).trans
      (congrArg _ (regReadA_enter_ends delivers_dataPhase hf hfil hc hr h16 (by decide) ht h))
  · exact (live_startOp hstart rfl rfl).trans (congrArg _
      (regReadA_enter_ends (s := { s with op := 4 }) delivers_readCid hf hfil hc hr h16 (by decide) ht h))
  · exact (live_startOp hstart rfl rfl).trans (congrArg _
      (regReadA_enter_ends (s := { s with op := 5 }) delivers_readCsd hf hfil hc hr h16 (by decide) ht h))
  · exact (rowOp_of_none hf).trans (congrArg _ (regReadB_enter_ends delivers_dataPhase hf hfil hc hr rfl hd ht h))
  · exact (rowOp_of_none hf).trans (congrArg _ (regReadA_enter_late hf hc hr hb hm h))
  · exact (rowOp_of_none hf).trans (congrArg _ (regReadA_enter_late hf hc hr hb hm h))
  · exact (rowOp_of_none hf).trans (congrArg _ (regReadA_enter_late hf hc hr hb hm h))
  · exact (live_startOp hstart rfl rfl).trans
      (congrArg _ (regReadA_enter_late (s := { s with op := 4 }) hf hc hr hb hm h))
  · exact (live_startOp hstart rfl rfl).trans
      (congrArg _ (regReadA_enter_late (s := { s with op := 5 }) hf hc hr hb hm h))
  · exact (rowOp_of_none hf).trans (congrArg _ (regReadB_enter_late hf hc hr hb hm h))

/-! ### What is not implemented (rules R157, R211, R281, R292, R293, R305) -/

/-- An operation that the dispatch rejects while the engine is idle (rule R281, steps 2 and 3). -/
theorem live_rejectOp {s : State} (what : Unimplemented) (hf : s.fault = none) (hb : s.busy = false) :
    live (rejectOp what) s = .next (afterFatal (.unimplemented what) s) := by
  simp [live_of_none hf, rejectOp, hb, raise_of_none hf]

/-- Settles O16: each raises its fault before any link event, the register read after it has entered its state. -/
theorem unimplemented : Obligations.Unimplemented := by
  intro s index hf
  refine ⟨(live_of_none hf).trans (congrArg _ (raise_of_none hf)), fun idx code n => ?_, fun hb => ?_⟩
  · exact (rowOp_of_none hf).trans (congrArg _ (raise_of_none (s := enter .opRegRead s) hf))
  · exact ⟨live_rejectOp _ hf hb, live_rejectOp _ hf hb, live_rejectOp _ hf hb, live_rejectOp _ hf hb,
      live_rejectOp _ hf hb, live_rejectOp _ hf hb, live_rejectOp _ hf hb, live_rejectOp _ hf hb⟩

end Sys2Proof.Machine
end

section
/-! Proofs of the statements of `43_init_fsm.md`: the modes, the tests of the answers, the bounds of the loops, INIT from its
request to its end. -/

namespace Sys2Proof.Machine

/-! ### The modes (rules R185, R313, R315) -/

theorem State.mode_eq_faulted {s : State} : s.mode = .faulted ↔ s.fault ≠ none := by
  unfold State.mode State.faulted
  cases s.fault <;> cases s.initialized <;> simp

theorem State.mode_eq_initialized {s : State} : s.mode = .initialized ↔ s.fault = none ∧ s.initialized = true := by
  unfold State.mode State.faulted
  cases s.fault <;> cases s.initialized <;> simp

theorem State.mode_eq_uninitialized {s : State} : s.mode = .uninitialized ↔ s.fault = none ∧ s.initialized = false := by
  unfold State.mode State.faulted
  cases s.fault <;> cases s.initialized <;> simp

/-- What a step that answers does while no fault is latched and no reset event comes: it resumes the wait, finds no request,
or runs the instruction at the port. -/
theorem step_cases {s t : State} (hreset : s.resetRequest = false) (hf : s.fault = none) (h : step s = .next t) :
    (∃ w, s.waiting = some w ∧ t = resume w { s with port := none }) ∨ t = s ∨
      ∃ p i, s.port = some p ∧ decode s.cfg p = .ok i ∧ s.waiting = none ∧ exec i { s with port := none } = .next t := by
  obtain hw | ⟨w, hw⟩ := s.waiting.eq_none_or_eq_some
  · obtain hp | ⟨p, hp⟩ := s.port.eq_none_or_eq_some
    · have hstay : s = t := by simpa [step_no_request hreset hf hw hp] using h
      exact .inr (.inl hstay.symm)
    · cases hd : decode s.cfg p with
      | ok i => exact .inr (.inr ⟨p, i, hp, hd, hw, (step_port hreset hf hw hp hd).symm.trans h⟩)
      | error e => simp [step_undecodable hreset hf hw hp hd] at h
  · have hresume : resume w { s with port := none } = t := by simpa [step_waiting hreset hf hw] using h
    exact .inl ⟨w, hw, hresume.symm⟩

theorem resume_keeps_initialized {s : State} (w : Wait) (hf : s.fault = none) (hi : s.initialized = true) :
    (resume w s).initialized = true := by
  obtain ⟨-, -, -, -, -, hkeep, -⟩ := (resume_ends (req := true) w hf).session
  exact hkeep hi

theorem exec_keeps_initialized {s t : State} (i : Instr) (hf : s.fault = none) (h : exec i s = .next t)
    (hi : s.initialized = true) : t.initialized = true := by
  obtain ⟨u, hu, hends⟩ := exec_ends (ini := true) i hf fun _ => rfl
  obtain rfl : u = t := by simpa [hu] using h
  obtain ⟨-, -, -, -, -, hkeep, -⟩ := hends.session
  exact hkeep hi

/-- Of the instructions that run while no operation waits, only INIT writes `initialized` (rule R185). -/
theorem exec_initialized {s t : State} (i : Instr) (hi : i ≠ .init) (hf : s.fault = none) (hw : s.waiting = none)
    (h : exec i s = .next t) : t.initialized = s.initialized := by
  obtain ⟨u, hu, hends⟩ := exec_ends (ini := false) i hf fun h => h.elim (absurd · hi) (absurd hw)
  obtain rfl : u = t := by simpa [hu] using h
  obtain ⟨-, -, -, -, -, -, -, hsession, -⟩ := hends.session
  exact (hsession rfl).1

theorem step_keeps_initialized {s t : State} (hreset : s.resetRequest = false) (hf : s.fault = none)
    (h : step s = .next t) (hi : s.initialized = true) : t.initialized = true := by
  obtain ⟨w, -, rfl⟩ | rfl | ⟨p, i, -, -, -, hexec⟩ := step_cases hreset hf h
  · exact resume_keeps_initialized w (by exact hf) (by exact hi)
  · exact hi
  · exact exec_keeps_initialized i (by exact hf) hexec (by exact hi)

/-- A step that sets `initialized` goes on with the activation loop or takes the request of INIT (rule R185). -/
theorem step_sets_initialized {s t : State} (hreset : s.resetRequest = false) (hf : s.fault = none)
    (h : step s = .next t) (hi : s.initialized = false) (ht : t.initialized = true) :
    (∃ n, s.waiting = some (.activate n)) ∨ ∃ h, s.port = some (.hostop h) ∧ h.op = 0 := by
  obtain ⟨w, hw, rfl⟩ | rfl | ⟨p, i, hp, hd, hw, hexec⟩ := step_cases hreset hf h
  · refine .inl (by_contra fun hno => ?_)
    have hkept : (resume w { s with port := none }).initialized = s.initialized :=
      resume_initialized w (by exact hf) fun n hn => hno ⟨n, hn ▸ hw⟩
    exact absurd (hkept.symm.trans ht) (by simp [hi])
  · simp [hi] at ht
  · by_cases hinit : i = .init
    · obtain ⟨word, rfl, hop⟩ := decode_init (hinit ▸ hd)
      exact .inr ⟨word, hp, hop⟩
    · have hkept : t.initialized = s.initialized := exec_initialized (s := { s with port := none }) i hinit hf hw hexec
      simp [hkept, hi] at ht

/-- Settles O15: by the latch and by what a step does to `initialized`. -/
theorem modes : Obligations.Modes := by
  intro s t hreset h
  refine ⟨fun hmode => ?_, fun hmode => ?_, fun hmode htmode => ?_⟩
  · obtain ⟨r, hr⟩ := Option.ne_none_iff_exists'.mp (State.mode_eq_faulted.mp hmode)
    rw [step_faulted hreset hr] at h
    cases h
    exact ⟨hmode, rfl⟩
  · obtain ⟨hf, hi⟩ := State.mode_eq_initialized.mp hmode
    have ht : t.initialized = true := step_keeps_initialized hreset hf h hi
    by_cases htf : t.fault = none
    · exact .inl (State.mode_eq_initialized.mpr ⟨htf, ht⟩)
    · exact .inr (State.mode_eq_faulted.mpr htf)
  · obtain ⟨hf, hi⟩ := State.mode_eq_uninitialized.mp hmode
    obtain ⟨-, ht⟩ := State.mode_eq_initialized.mp htmode
    exact step_sets_initialized hreset hf h hi ht

/-! ### The tests of commands 0 and 8 (rules R175, R178, R303, R304) -/

section
variable {s : State} {clocks echo rest : List Byte} {c0 c8 : CardReply}

/-- INIT when command 0 answers another status byte than 0x01 (rule R175). -/
theorem init_unexpected0 (hf : s.fault = none) (hb : s.busy = false) (h10 : clocks.length = 10) (h0 : c0.ok = true)
    (hs0 : c0.status ≠ 0x01) (h : s.rx = clocks ++ (c0.bytes ++ rest)) :
    exec .init s =
      .next (afterFatal (.unexpectedStatus 0 c0.status) (afterTransactA 0 0 c0 rest (afterClocks clocks s))) := by
  rw [initExec hf hb, runInit, initReset_rx (s := { s with op := 0 }) h10 h, goIdle_rx (by exact hf) h0 rfl,
    if_neg (c := c0.status = 0x01#8) hs0]
  rfl

/-- INIT when command 8 does not echo its argument (rule R178). -/
theorem init_mismatch8 (hf : s.fault = none) (hb : s.busy = false) (h10 : clocks.length = 10) (h0 : c0.ok = true)
    (hs0 : c0.status = 0x01) (h8 : c8.ok = true) (he : echo.length = 4) (hecho : be32List echo &&& 0xFFF ≠ 0x1AA)
    (h : s.rx = clocks ++ (c0.bytes ++ (c8.bytes ++ (echo ++ rest)))) :
    exec .init s =
      .next (afterFatal (.ifcondMismatch (be32List echo))
        (afterTransactCD 8 0x1AA c8 echo rest (afterTransactA 0 0 c0 [] (afterClocks clocks s)))) := by
  rw [initExec hf hb, runInit, initReset_rx (s := { s with op := 0 }) h10 h, goIdle_rx (by exact hf) h0 rfl,
    if_pos (c := c0.status = 0x01#8) hs0, andThen_of_none (s := afterTransactA _ _ _ _ _) (by exact hf),
    sendIfCond_rx (by exact hf) h8 he rfl,
    if_neg (c := be32List echo &&& Config.checkEchoMask = Config.checkArg) hecho]
  rfl

end

/-- Settles O48: INIT ends in the state whose test fails. -/
theorem initFaults : Obligations.InitFaults := by
  intro s clocks rest c0 c8 echo hf hb h10 h0
  exact ⟨init_unexpected0 hf hb h10 h0, init_mismatch8 hf hb h10 h0⟩

/-! ### The fetch behind the prefix: a refused status byte, a poll at the bound (rules R202, R283, R303) -/

section
variable {s : State} {m : SeqState} {k : AfterBlock} {idx : BitVec 6} {c55 c : CardReply} {second b : Byte} {rest : List Byte}
  {n : Nat}

/-- The fetch behind the prefix, in the state `m`, whose status byte is refused, Shape A. -/
theorem appRegReadA_unexpected (hf : s.fault = none) (hcheck : s.cfg.r1Check = true) (h55 : c55.ok = true) (hc : c.ok = true)
    (hst : c.status ≠ 0) (h : s.rx = c55.bytes ++ (c.bytes ++ rest)) :
    appRegRead k idx .a n (enter m s) =
      afterFatal (.unexpectedStatus idx c.status) (afterReply idx 0 c rest (afterTransactA 55 0 c55 [] s)) := by
  rw [appRegRead_rx h55 (by exact hf) (by exact h), regReadA_unexpected hc (by exact hf) (by exact hcheck) hst rfl]
  rfl

/-- The same with a Shape B response. -/
theorem appRegReadB_unexpected (hf : s.fault = none) (hcheck : s.cfg.r1Check = true) (h55 : c55.ok = true) (hc : c.ok = true)
    (hst : c.status ≠ 0) (h : s.rx = c55.bytes ++ (c.bytes ++ (second :: rest))) :
    appRegRead k idx .b n (enter m s) =
      afterFatal (.unexpectedStatus idx c.status)
        { afterReceive [second] rest (afterReply idx 0 c [] (afterTransactA 55 0 c55 [] s)) with r2 := second } := by
  rw [appRegRead_rx h55 (by exact hf) (by exact h), regReadB_unexpected hc (by exact hf) (by exact hcheck) hst rfl]
  rfl

/-- The fetch behind the prefix, in the state `m`, whose first poll reaches the bound, Shape A (rule R202). -/
theorem appRegReadA_timeout (hf : s.fault = none) (h55 : c55.ok = true) (hc : c.ok = true)
    (hr : s.cfg.r1Check = false ∨ c.status = 0) (hb : b ≠ s.cfg.startToken) (hm : s.cfg.tokenWaitMax = some 1)
    (h : s.rx = c55.bytes ++ (c.bytes ++ (b :: rest))) :
    appRegRead k idx .a n (enter m s) =
      afterFatal (.timeout .token) (afterReceive [b] rest (afterReply idx 0 c [] (afterTransactA 55 0 c55 [] s))) := by
  rw [appRegRead_rx h55 (by exact hf) (by exact h),
    regReadA_timeout hc (by exact hf) (by exact hr) (by exact hb) (by exact hm) rfl]
  rfl

/-- The same with a Shape B response. -/
theorem appRegReadB_timeout (hf : s.fault = none) (h55 : c55.ok = true) (hc : c.ok = true)
    (hr : s.cfg.r1Check = false ∨ c.status = 0) (hb : b ≠ s.cfg.startToken) (hm : s.cfg.tokenWaitMax = some 1)
    (h : s.rx = c55.bytes ++ (c.bytes ++ (second :: b :: rest))) :
    appRegRead k idx .b n (enter m s) =
      afterFatal (.timeout .token)
        (afterReceive [b] rest
          { afterReceive [second] [] (afterReply idx 0 c [] (afterTransactA 55 0 c55 [] s)) with r2 := second }) := by
  rw [appRegRead_rx h55 (by exact hf) (by exact h),
    regReadB_timeout hc (by exact hf) (by exact hr) (by exact hb) (by exact hm) rfl]
  rfl

end

/-! ### The turn that ends the activation loop (rules R180 to R186) -/

section
variable {s : State} {n : Nat} {c55 c41 c58 : CardReply} {ocr rest : List Byte} (hf : s.fault = none) (h55 : c55.ok = true)
  (h41 : c41.ok = true) (hst : c41.status = 0) (h58 : c58.ok = true) (ho : ocr.length = 4)
  (hccs : (decodeOcr s.cfg.layouts.ocr (be32List ocr)).ccs = 0)
include hf h55 h41 hst h58 ho hccs

/-- The iteration that ends the loop on a card with byte addressing, without command 16 (rule R184). -/
theorem activate_byte (h16 : s.cfg.initCmd16Issued = false)
    (h : s.rx = c55.bytes ++ (c41.bytes ++ (c58.bytes ++ (ocr ++ rest)))) :
    activate n s = afterFatal (.addressingUnsupported (be32List ocr)) (afterOcr c55 c41 c58 ocr rest s) := by
  have hbit : ¬ (decodeOcr s.cfg.layouts.ocr (be32List ocr)).ccs = 1 := by rw [hccs]; decide
  rw [activate_ocr hf h55 h41 hst h58 ho h, afterOcr_eq, (branch_byte (by exact hf) (by exact hbit)).1 (by exact h16)]
  simp [afterFatal]

/-- The same with command 16. -/
theorem activate_byte16 {c : CardReply} (h16 : s.cfg.initCmd16Issued = true) (hc : c.ok = true)
    (h : s.rx = c55.bytes ++ (c41.bytes ++ (c58.bytes ++ (ocr ++ (c.bytes ++ rest))))) :
    activate n s = afterFatal (.addressingUnsupported (be32List ocr))
      (afterTransactA 16 512 c rest (afterOcr c55 c41 c58 ocr [] s)) := by
  have hbit : ¬ (decodeOcr s.cfg.layouts.ocr (be32List ocr)).ccs = 1 := by rw [hccs]; decide
  rw [activate_ocr hf h55 h41 hst h58 ho h, afterOcr_eq, afterOcr_eq,
    (branch_byte (by exact hf) (by exact hbit)).2 c rest (by exact h16) hc rfl]
  simp [afterFatal, afterTransactA, afterDeselect, afterReply]

end

@[simp] theorem afterOcr_cfg (c55 c41 c58 : CardReply) (ocr rest : List Byte) (s : State) :
    (afterOcr c55 c41 c58 ocr rest s).cfg = s.cfg := by rw [afterOcr_eq]
@[simp] theorem afterOcr_filler (c55 c41 c58 : CardReply) (ocr rest : List Byte) (s : State) :
    (afterOcr c55 c41 c58 ocr rest s).filler = s.filler := by rw [afterOcr_eq]
@[simp] theorem afterOcr_fault (c55 c41 c58 : CardReply) (ocr rest : List Byte) (s : State) :
    (afterOcr c55 c41 c58 ocr rest s).fault = s.fault := by rw [afterOcr_eq]
@[simp] theorem afterOcr_resetRequest (c55 c41 c58 : CardReply) (ocr rest : List Byte) (s : State) :
    (afterOcr c55 c41 c58 ocr rest s).resetRequest = s.resetRequest := by rw [afterOcr_eq]
@[simp] theorem afterOcr_port (c55 c41 c58 : CardReply) (ocr rest : List Byte) (s : State) :
    (afterOcr c55 c41 c58 ocr rest s).port = s.port := by rw [afterOcr_eq]

/-- A fetch with a Shape A response up to its first poll (rules R202, R212). -/
theorem regReadA_polls {s : State} {k : AfterBlock} {idx : BitVec 6} {n : Nat} {c : CardReply} {rest : List Byte}
    (hf : s.fault = none) (hc : c.ok = true) (hr : s.cfg.r1Check = false ∨ c.status = 0) (h : s.rx = c.bytes ++ rest) :
    regRead k idx .a n s = waitToken 0 (.block n k) (afterReply idx 0 c rest s) :=
  (congrArg (State.andThen · (waitToken 0 (.block n k))) (opened_rx hc hf hr h)).trans (andThen_of_none (by exact hf))

/-- The iteration that ends the loop, with the descriptor fetch up to its first poll (rules R186, R202). -/
theorem activate_polls {s : State} {n : Nat} {c55 c41 c58 c : CardReply} {ocr rest : List Byte} (hf : s.fault = none)
    (h55 : c55.ok = true) (h41 : c41.ok = true) (hst : c41.status = 0) (h58 : c58.ok = true) (ho : ocr.length = 4)
    (hccs : (decodeOcr s.cfg.layouts.ocr (be32List ocr)).ccs = 1) (hfetch : s.cfg.initFetchCsd = true) (hc : c.ok = true)
    (hr : s.cfg.r1Check = false ∨ c.status = 0)
    (h : s.rx = c55.bytes ++ (c41.bytes ++ (c58.bytes ++ (ocr ++ (c.bytes ++ rest))))) :
    activate n s = waitToken 0 (.block 16 .initCsd)
      { afterReply 9 0 c rest { afterOcr c55 c41 c58 ocr [] s with initialized := true } with
        waiting := none, seq := ⟨.iTerminal, some (.pPoll (c.skip.length + 1))⟩ } := by
  have hf' : (afterOcr c55 c41 c58 ocr [] s).fault = none := by simpa using hf
  have hr' : (afterOcr c55 c41 c58 ocr [] s).cfg.r1Check = false ∨ c.status = 0 := by simpa using hr
  rw [activate_fetch hf h55 h41 hst h58 ho hccs hfetch h]
  generalize afterOcr c55 c41 c58 ocr [] s = u at hf' hr'
  rw [regReadA_polls (by exact hf') hc (by exact hr') rfl]
  simp [afterReply]

/-- After the block of the descriptor fetch INIT counts the sectors and ends (rules R186, R187). -/
theorem afterBlock_initCsd {token : Byte} {early csd trail rest : List Byte} {s : State} {w : Option Wait} {sq : Seq}
    (hcsd : csd.length = 16) :
    afterBlock 16 .initCsd { afterInbound token early csd trail rest s with waiting := w, seq := sq } =
      afterEnd .done
        { afterDeselect (afterInbound token early csd trail rest s) with
          sectorCount := sectorCountOf (decodeCsd s.cfg.layouts.csd csd) s.cfg.sectorCountBias } := by
  have htake : (afterInbound token early csd trail rest s).buf.take 16 = csd := by
    rw [← hcsd]; exact afterInbound_take token early csd trail rest s
  simp only [afterBlock, htake]
  rfl

/-- The answers that end the activation loop: to the prefix and to command 41, whose status byte is 0x00, and to command 58 with its
payload `ocr` (rules R179 to R182). -/
structure EndsLoop (c55 c41 c58 : CardReply) (ocr : List Byte) : Prop where
  prefixOk : c55.ok = true
  activateOk : c41.ok = true
  active : c41.status = 0
  readOk : c58.ok = true
  ocrLength : ocr.length = 4

/-- A handshake ends with the loop ended and the capacity bit set. -/
theorem handshake_endsLoop {cfg : Params} {a : InitAnswers} (ha : a.handshakeOk cfg = true) :
    EndsLoop a.last.1 a.last.2 a.c58 a.ocr ∧ (decodeOcr cfg.layouts.ocr (be32List a.ocr)).ccs = 1 := by
  obtain ⟨-, -, -, -, -, -, -, h55, h41, hst, h58, hocr, hccs⟩ := (handshake_iff _ a).mp ha
  exact ⟨⟨h55, h41, hst, h58, hocr⟩, hccs⟩

namespace StartsTurn

variable {s u : State} {o : Host.Outcome State Fault Refusal} {before rest ocr : List Byte} {c55 c41 c58 c : CardReply}
  {b : Byte} (ho : StartsTurn s o before u) (hu : u.fault = none) (hends : EndsLoop c55 c41 c58 ocr)

include ho hu hends

/-- The turn that ends the loop on a card with byte addressing, without command 16 (rule R184). -/
theorem byteAddressed (hccs : (decodeOcr u.cfg.layouts.ocr (be32List ocr)).ccs = 0) (h16 : u.cfg.initCmd16Issued = false)
    (h : s.rx = before ++ (c55.bytes ++ (c41.bytes ++ (c58.bytes ++ (ocr ++ rest))))) :
    o = .next (afterFatal (.addressingUnsupported (be32List ocr)) (afterOcr c55 c41 c58 ocr rest u)) := by
  obtain ⟨n, sq, rfl⟩ := ho _ h
  obtain ⟨h55, h41, hst, h58, hocr⟩ := hends
  rw [activate_byte (by exact hu) h55 h41 hst h58 hocr (by exact hccs) (by exact h16) rfl]
  rfl

/-- The same with command 16. -/
theorem byteAddressed16 (hccs : (decodeOcr u.cfg.layouts.ocr (be32List ocr)).ccs = 0) (h16 : u.cfg.initCmd16Issued = true)
    (hc : c.ok = true) (h : s.rx = before ++ (c55.bytes ++ (c41.bytes ++ (c58.bytes ++ (ocr ++ (c.bytes ++ rest)))))) :
    o = .next (afterFatal (.addressingUnsupported (be32List ocr))
      (afterTransactA 16 512 c rest (afterOcr c55 c41 c58 ocr [] u))) := by
  obtain ⟨n, sq, rfl⟩ := ho _ h
  obtain ⟨h55, h41, hst, h58, hocr⟩ := hends
  rw [activate_byte16 (by exact hu) h55 h41 hst h58 hocr (by exact hccs) (by exact h16) hc rfl]
  rfl

section
variable (hccs : (decodeOcr u.cfg.layouts.ocr (be32List ocr)).ccs = 1)
include hccs

/-- The turn that ends the loop and INIT with it, the descriptor not fetched (rule R185). -/
theorem done (hfetch : u.cfg.initFetchCsd = false)
    (h : s.rx = before ++ (c55.bytes ++ (c41.bytes ++ (c58.bytes ++ (ocr ++ rest))))) :
    o = .next (afterEnd .done { afterOcr c55 c41 c58 ocr rest u with initialized := true }) := by
  obtain ⟨n, sq, rfl⟩ := ho _ h
  obtain ⟨h55, h41, hst, h58, hocr⟩ := hends
  rw [activate_done (by exact hu) h55 h41 hst h58 hocr (by exact hccs) (by exact hfetch) rfl]
  rfl

variable (hfetch : u.cfg.initFetchCsd = true) (hc : c.ok = true)
include hfetch hc

/-- The descriptor fetch whose status byte is refused (rules R186, R283). -/
theorem unexpected (hcheck : u.cfg.r1Check = true) (hne : c.status ≠ 0)
    (h : s.rx = before ++ (c55.bytes ++ (c41.bytes ++ (c58.bytes ++ (ocr ++ (c.bytes ++ rest)))))) :
    o = .next (afterFatal (.unexpectedStatus 9 c.status)
      (afterReply 9 0 c rest { afterOcr c55 c41 c58 ocr [] u with initialized := true })) := by
  obtain ⟨n, sq, rfl⟩ := ho _ h
  obtain ⟨h55, h41, hst, h58, hocr⟩ := hends
  rw [activate_unexpected (by exact hu) h55 h41 hst h58 hocr (by exact hccs) (by exact hfetch) hc (by exact hcheck) hne rfl]
  rfl

variable (hr : u.cfg.r1Check = false ∨ c.status = 0)
include hr

/-- The descriptor fetch up to its first poll (rules R186, R202). -/
theorem fetching (h : s.rx = before ++ (c55.bytes ++ (c41.bytes ++ (c58.bytes ++ (ocr ++ (c.bytes ++ rest)))))) :
    o = .next (waitToken 0 (.block 16 .initCsd)
      { afterReply 9 0 c rest { afterOcr c55 c41 c58 ocr [] u with initialized := true } with
        waiting := none, seq := ⟨.iTerminal, some (.pPoll (c.skip.length + 1))⟩ }) := by
  obtain ⟨n, sq, rfl⟩ := ho _ h
  obtain ⟨h55, h41, hst, h58, hocr⟩ := hends
  rw [activate_polls (by exact hu) h55 h41 hst h58 hocr (by exact hccs) (by exact hfetch) hc (by exact hr) rfl]
  rfl

/-- The turn that ends the loop, a step of the machine, and the steps of the token wait to the end of INIT (rules R186, R187). -/
theorem run_fetched {x : State} {early csd trail : List Byte} (hstep : step x = o) (hreset : u.resetRequest = false)
    (hport : u.port = none) (hfil : u.filler = Config.fillerBuffer) (hmax : u.cfg.tokenWaitMax = none)
    (hearly : ∀ b ∈ early, b ≠ u.cfg.startToken) (hcsd : csd.length = 16) (ht : trail.length = 2)
    (h : s.rx = before ++ (c55.bytes ++ (c41.bytes ++ (c58.bytes ++ (ocr ++
      (c.bytes ++ (early ++ u.cfg.startToken :: (csd ++ (trail ++ rest))))))))) :
    core.run (early.length + 1) x = .next (afterEnd .done
      { afterFetch 9 0 c early csd trail rest { afterOcr c55 c41 c58 ocr [] u with initialized := true } with
        sectorCount := sectorCountOf (decodeCsd u.cfg.layouts.csd csd) u.cfg.sectorCountBias }) := by
  have hpoll := hstep.trans (fetching ho hu hends hccs hfetch hc hr h)
  rw [waitToken_run (rest := rest) hpoll (by simpa using hreset) (by simpa using hu) (by simpa using hport) (by simpa using hfil)
    (by simpa using hmax) (by simpa using hearly) hcsd (by decide) ht (by simp), afterBlock_initCsd hcsd]
  simp [afterEnd, afterFetch, afterDeselect, afterInbound, afterReceive, afterReply]

/-- The descriptor fetch whose token comes at once (rules R186, R187). -/
theorem fetched {csd trail : List Byte} (hfil : u.filler = Config.fillerBuffer) (hcsd : csd.length = 16) (ht : trail.length = 2)
    (h : s.rx = before ++ (c55.bytes ++ (c41.bytes ++ (c58.bytes ++ (ocr ++
      (c.bytes ++ (u.cfg.startToken :: (csd ++ (trail ++ rest))))))))) :
    o = .next (afterEnd .done
      { afterFetch 9 0 c [] csd trail rest { afterOcr c55 c41 c58 ocr [] u with initialized := true } with
        sectorCount := sectorCountOf (decodeCsd u.cfg.layouts.csd csd) u.cfg.sectorCountBias }) := by
  obtain ⟨n, sq, rfl⟩ := ho _ h
  obtain ⟨h55, h41, hst, h58, hocr⟩ := hends
  rw [activate_fetched (by exact hu) h55 h41 hst h58 hocr (by exact hccs) (by exact hfetch) hc (by exact hr) (by exact hfil)
    hcsd ht rfl]
  rfl

variable (hb : b ≠ u.cfg.startToken)
  (h : s.rx = before ++ (c55.bytes ++ (c41.bytes ++ (c58.bytes ++ (ocr ++ (c.bytes ++ (b :: rest)))))))
include hb h

/-- The descriptor fetch whose first byte polled is not the token (rule R202). -/
theorem late (hm : u.cfg.tokenWaitMax ≠ some 1) :
    o = .next (afterFirstPoll .iTerminal 16 .initCsd b rest
      (afterReply 9 0 c [] { afterOcr c55 c41 c58 ocr [] u with initialized := true })) := by
  obtain ⟨n, sq, rfl⟩ := ho _ h
  obtain ⟨h55, h41, hst, h58, hocr⟩ := hends
  rw [activate_late (by exact hu) h55 h41 hst h58 hocr (by exact hccs) (by exact hfetch) hc (by exact hr) (by exact hb)
    (by exact hm) rfl]
  rfl

/-- The same when the first poll is the last the bound allows (rule R301). -/
theorem tokenTimeout (hm : u.cfg.tokenWaitMax = some 1) :
    o = .next (afterFatal (.timeout .token) (afterReceive [b] rest
      (afterReply 9 0 c [] { afterOcr c55 c41 c58 ocr [] u with initialized := true }))) := by
  obtain ⟨n, sq, rfl⟩ := ho _ h
  obtain ⟨h55, h41, hst, h58, hocr⟩ := hends
  rw [activate_tokenTimeout (by exact hu) h55 h41 hst h58 hocr (by exact hccs) (by exact hfetch) hc (by exact hr) (by exact hb)
    (by exact hm) rfl]
  rfl

end

end StartsTurn

/-! ### From INIT's request to its last turn of the activation loop (rules R171 to R181) -/

section
variable {a : InitAnswers} {s : State}

/-- The engine where INIT enters the activation loop, the card still to answer `later`. -/
def atLoop (a : InitAnswers) (later : List Byte) (s : State) : State :=
  { afterIfCond a.clocks a.c0 a.c8 a.echo later s with seq := ⟨.iIfCond, none⟩, waiting := some (.activate 0) }

@[simp] theorem atLoop_resetRequest (a : InitAnswers) (later : List Byte) (s : State) :
    (atLoop a later s).resetRequest = s.resetRequest := by simp [atLoop, afterIfCond, afterClocks]

@[simp] theorem atLoop_fault (a : InitAnswers) (later : List Byte) (s : State) : (atLoop a later s).fault = s.fault := by
  simp [atLoop]

@[simp] theorem atLoop_cfg (a : InitAnswers) (later : List Byte) (s : State) : (atLoop a later s).cfg = s.cfg := by
  simp [atLoop]

@[simp] theorem atLoop_filler (a : InitAnswers) (later : List Byte) (s : State) : (atLoop a later s).filler = s.filler := by
  simp [atLoop, afterIfCond, afterClocks]

@[simp] theorem atLoop_rx (a : InitAnswers) (later : List Byte) (s : State) : (atLoop a later s).rx = later := by
  simp [atLoop, afterIfCond]

@[simp] theorem atLoop_waiting (a : InitAnswers) (later : List Byte) (s : State) :
    (atLoop a later s).waiting = some (.activate 0) := rfl

/-- The engine after the turns that do not end the activation loop, the card still to answer `later`. -/
def beforeLast (a : InitAnswers) (later : List Byte) (s : State) : State :=
  { afterIterations a.retries 0 (atLoop a (itsBytes a.retries ++ later) s) later with port := s.port }

@[simp] theorem beforeLast_cfg (a : InitAnswers) (later : List Byte) (s : State) :
    (beforeLast a later s).cfg = s.cfg := by
  obtain ⟨_, _, _, _, _, _, _, _, heq⟩ := afterIterations_eq a.retries 0 (atLoop a (itsBytes a.retries ++ later) s) later
  simp [beforeLast, heq]

@[simp] theorem beforeLast_filler (a : InitAnswers) (later : List Byte) (s : State) :
    (beforeLast a later s).filler = s.filler := by
  obtain ⟨_, _, _, _, _, _, _, _, heq⟩ := afterIterations_eq a.retries 0 (atLoop a (itsBytes a.retries ++ later) s) later
  simp [beforeLast, heq]

@[simp] theorem beforeLast_fault (a : InitAnswers) (later : List Byte) (s : State) :
    (beforeLast a later s).fault = s.fault := by
  obtain ⟨_, _, _, _, _, _, _, _, heq⟩ := afterIterations_eq a.retries 0 (atLoop a (itsBytes a.retries ++ later) s) later
  simp [beforeLast, heq]

@[simp] theorem beforeLast_resetRequest (a : InitAnswers) (later : List Byte) (s : State) :
    (beforeLast a later s).resetRequest = s.resetRequest := by
  obtain ⟨_, _, _, _, _, _, _, _, heq⟩ := afterIterations_eq a.retries 0 (atLoop a (itsBytes a.retries ++ later) s) later
  simp [beforeLast, heq]

/-- The last turn and command 58 lead to the end of the handshake, but for what state Terminal writes. -/
theorem afterOcr_beforeLast (a : InitAnswers) (later rest : List Byte) (s : State) :
    afterOcr a.last.1 a.last.2 a.c58 a.ocr rest (beforeLast a later s) =
      { afterHandshake a rest s with
        initialized := s.initialized
        seq := ⟨(beforeLast a later s).seq.main, none⟩
        waiting := (beforeLast a later s).waiting
        result := s.result } := by
  obtain ⟨_, _, _, _, _, _, _, _, heq⟩ := afterIterations_eq a.retries 0 (atLoop a (itsBytes a.retries ++ later) s) later
  rw [beforeLast, heq]
  simp [afterHandshake, afterOcr_eq, atLoop, afterIfCond, afterTransactCD, afterTransactA, afterDeselect, afterReceive,
    afterReply, afterClocks, InitAnswers.handshakeEvents, CardReply.transaction, receiveEvents, Config.zeroArg,
    Config.acmd41DelayMs]

theorem afterHandshake_eq (later rest : List Byte) :
    afterHandshake a rest s =
      afterEnd .done { afterOcr a.last.1 a.last.2 a.c58 a.ocr rest (beforeLast a later s) with initialized := true } := by
  rw [afterOcr_beforeLast]
  simp [afterHandshake, afterEnd]

theorem afterInit_eq (later rest : List Byte) (hcsd : a.csd.length = 16) :
    afterInit a rest s =
      afterEnd .done
        { afterFetch 9 0 a.c9 a.early a.csd a.trail rest
            { afterOcr a.last.1 a.last.2 a.c58 a.ocr [] (beforeLast a later s) with initialized := true } with
          sectorCount := sectorCountOf (decodeCsd s.cfg.layouts.csd a.csd) s.cfg.sectorCountBias } := by
  rw [afterOcr_beforeLast]
  simp [afterInit, afterHandshake, afterEnd, afterFetch, afterInbound, afterDeselect, afterReceive, afterReply, hcsd,
    InitAnswers.fetchEvents, CardReply.transaction, receiveEvents, Config.zeroArg]

/-- INIT's first turn of the activation loop is its last one when there are no retries. -/
theorem startsTurn_handshake (hf : s.fault = none) (hb : s.busy = false) (ha : a.handshakeOk s.cfg = true) (hr : a.retries = [])
    (later : List Byte) :
    StartsTurn s (exec .init s) (a.clocks ++ (a.c0.bytes ++ (a.c8.bytes ++ a.echo))) (beforeLast a later s) := by
  intro more h
  obtain ⟨h10, h0, hs0, h8, he, hecho, -⟩ := (handshake_iff _ a).mp ha
  obtain ⟨n, sq, ho⟩ := startsTurn_init hf hb h10 h0 hs0 h8 he hecho more h
  refine ⟨n, sq, ho.trans ?_⟩
  have hport : (afterIfCond a.clocks a.c0 a.c8 a.echo [] s).port = s.port := rfl
  rw [beforeLast, hr, atLoop, afterIfCond_rest (rest := itsBytes [] ++ later), ← hport]
  generalize afterIfCond a.clocks a.c0 a.c8 a.echo [] s = u
  rfl

/-- A step that takes INIT's request goes on as a step that resumes the activation loop before its first turn. -/
theorem step_init_eq_atLoop {h : HostWord} {later : List Byte} (hreset : s.resetRequest = false) (hf : s.fault = none)
    (hb : s.busy = false) (hw : s.waiting = none) (hp : s.port = some (.hostop h)) (hop : h.op = 0)
    (ha : a.handshakeOk s.cfg = true) (hrx : s.rx = a.clocks ++ (a.c0.bytes ++ (a.c8.bytes ++ (a.echo ++ later)))) :
    step s = step (atLoop a later { s with port := none }) := by
  obtain ⟨h10, h0, hs0, h8, he, hecho, -⟩ := (handshake_iff _ a).mp ha
  have hdecode : decode s.cfg (.hostop h) = .ok .init := by simp [decode, decodeHost, hop]
  have hinit := init_rx (s := { s with port := none }) hf hb h10 h0 hs0 h8 he hecho hrx
  have hturn := step_waiting (s := atLoop a later { s with port := none }) (w := .activate 0) (by simpa using hreset)
    (by simpa using hf) (atLoop_waiting ..)
  have hport : (afterIfCond a.clocks a.c0 a.c8 a.echo later { s with port := none }).port = none := rfl
  rw [step_port hreset hf hw hp hdecode, hinit, hturn, atLoop]
  generalize afterIfCond a.clocks a.c0 a.c8 a.echo later { s with port := none } = u at hport
  cases u
  cases hport
  rfl

/-- INIT from the request up to its last turn of the activation loop, which step `a.retries.length + 1` makes. -/
theorem init_runs_to_last {h : HostWord} {rest : List Byte} (hreset : s.resetRequest = false) (hf : s.fault = none)
    (hb : s.busy = false) (hw : s.waiting = none) (hp : s.port = some (.hostop h)) (hop : h.op = 0)
    (hm : s.cfg.acmd41IterMax = none) (ha : a.handshakeOk s.cfg = true) (hrx : s.rx = a.handshakeBytes ++ rest) :
    ∃ (x : State) (later : List Byte), x.rx = a.last.1.bytes ++ (a.last.2.bytes ++ (a.c58.bytes ++ (a.ocr ++ rest))) ∧
      StartsTurn x (step x) [] (beforeLast a later { s with port := none }) ∧
      ∀ k, core.run (a.retries.length + (k + 1)) s = core.run (k + 1) x := by
  generalize hlater : a.last.1.bytes ++ (a.last.2.bytes ++ (a.c58.bytes ++ (a.ocr ++ rest))) = later
  have hrx' : s.rx = a.clocks ++ (a.c0.bytes ++ (a.c8.bytes ++ (a.echo ++ (itsBytes a.retries ++ later)))) := by
    simpa [InitAnswers.handshakeBytes, itsBytes, ← hlater] using hrx
  obtain ⟨-, -, -, -, -, -, hretries, -⟩ := (handshake_iff _ a).mp ha
  generalize hu : atLoop a (itsBytes a.retries ++ later) { s with port := none } = u
  have hureset : u.resetRequest = false := by simpa [← hu] using hreset
  have huf : u.fault = none := by simpa [← hu] using hf
  have huw : u.waiting = some (.activate 0) := by simp [← hu]
  have hum : u.cfg.acmd41IterMax = none := by simpa [← hu] using hm
  have hurx : u.rx = itsBytes a.retries ++ later := by simp [← hu]
  have hstep : step s = step u := hu ▸ step_init_eq_atLoop hreset hf hb hw hp hop ha hrx'
  have hloop := activateRun hureset huf huw hum hretries hurx
  have hlast := afterIterations_waiting a.retries 0 u later huw
  obtain ⟨_, _, _, _, _, _, _, _, heq⟩ := afterIterations_eq a.retries 0 u later
  refine ⟨afterIterations a.retries 0 u later, later, by rw [heq], ?_, fun k => ?_⟩
  · rw [beforeLast, hu]
    exact startsTurn_step (by rw [heq]; exact hureset) (by rw [heq]; exact huf) hlast
  · have hturn := step_waiting hureset huf huw
    rw [← run_add a.retries.length (k + 1) u _ hloop, ← Nat.add_assoc, run_succ _ _ _ (hstep.trans hturn),
      run_succ _ _ _ hturn]

end

theorem handshakeBytes_append {a : InitAnswers} (hr : a.retries = []) (more : List Byte) :
    a.handshakeBytes ++ more = (a.clocks ++ (a.c0.bytes ++ (a.c8.bytes ++ a.echo))) ++
      (a.last.1.bytes ++ (a.last.2.bytes ++ (a.c58.bytes ++ (a.ocr ++ more)))) := by
  simp [InitAnswers.handshakeBytes, hr]

/-! ### The statements about a turn, and the whole of INIT -/

/-- Settles O49: the turn that ends the loop, resumed or INIT's first, takes the path of byte addressing (the model's function for
that path has the statement's name). -/
theorem byteAddressing_unsupported : Obligations.ByteAddressing := by
  intro s n c0 c8 c55 c41 c58 c16 clocks echo ocr rest hf h55 h41 hst h58 hocr hccs t
  have hends : EndsLoop c55 c41 c58 ocr := ⟨h55, h41, hst, h58, hocr⟩
  refine ⟨fun hreset hw => ?_, fun hb h10 h0 hs0 h8 he hecho => ?_⟩
  · have hturn := startsTurn_step hreset hf hw
    exact ⟨fun h16 => hturn.byteAddressed hf hends hccs h16,
      fun h16 hc => hturn.byteAddressed16 hf hends hccs h16 hc⟩
  · have hturn := startsTurn_init hf hb h10 h0 hs0 h8 he hecho
    exact ⟨fun h16 h => hturn.byteAddressed (by exact hf) hends hccs h16 (by simpa using h),
      fun h16 hc h => hturn.byteAddressed16 (by exact hf) hends hccs h16 hc (by simpa using h)⟩

/-- Settles O43: each row, host operation and turn of INIT reaches the data command whose status byte is refused, and ends
there. -/
theorem unexpectedStatus : Obligations.UnexpectedStatus := by
  intro s index data idx n c second rest hf hcheck hc hne
  refine ⟨fun h => ⟨⟨?_, ?_, ?_, ?_, ?_, ?_, ?_⟩, fun hstart => ?_, fun hstart => ?_, fun hstart => ?_,
      fun hstart => ?_⟩, fun h => ?_, fun c55 h55 => ⟨fun h => ⟨?_, fun hstart => ?_⟩, fun h => ⟨?_, fun hstart => ?_⟩, ?_⟩⟩
  · exact (rowOp_of_none hf).trans (congrArg _ (sectorRead_unexpected hc hf hcheck hne h))
  · exact (rowOp_of_none hf).trans (congrArg _ (sectorWrite_unexpected hc hf hcheck hne h))
  · exact (rowOp_of_none hf).trans (congrArg _ (regReadA_unexpected hc hf hcheck hne h))
  · exact (rowOp_of_none hf).trans (congrArg _ (sectorRead_unexpected hc hf hcheck hne h))
  · exact (rowOp_of_none hf).trans (congrArg _ (sectorWrite_unexpected hc hf hcheck hne h))
  · exact (rowOp_of_none hf).trans (congrArg _ (regReadA_unexpected hc hf hcheck hne h))
  · exact (rowOp_of_none hf).trans (congrArg _ (regReadA_unexpected hc hf hcheck hne h))
  · exact (live_startOp hstart rfl rfl).trans (congrArg _ (sectorRead_unexpected hc hf hcheck hne h))
  · exact (live_startOp hstart rfl rfl).trans (congrArg _ (sectorWrite_unexpected hc hf hcheck hne h))
  · exact (live_startOp hstart rfl rfl).trans (congrArg _ (regReadA_unexpected hc hf hcheck hne h))
  · exact (live_startOp hstart rfl rfl).trans (congrArg _ (regReadA_unexpected hc hf hcheck hne h))
  · exact (rowOp_of_none hf).trans (congrArg _ (regReadB_unexpected hc hf hcheck hne h))
  · exact (rowOp_of_none hf).trans (congrArg _ (appRegReadA_unexpected hf hcheck h55 hc hne h))
  · exact (live_startOp hstart rfl rfl).trans
      (congrArg _ (appRegReadA_unexpected (s := { s with op := 7 }) hf hcheck h55 hc hne h))
  · exact (rowOp_of_none hf).trans (congrArg _ (appRegReadB_unexpected hf hcheck h55 hc hne h))
  · exact (live_startOp hstart rfl rfl).trans
      (congrArg _ (appRegReadB_unexpected (s := { s with op := 8 }) hf hcheck h55 hc hne h))
  · intro c41 c58 ocr h41 hst h58 hocr hccs hfetch answers ends
    have hends : EndsLoop c55 c41 c58 ocr := ⟨h55, h41, hst, h58, hocr⟩
    refine ⟨fun k hreset hw => ?_, fun clocks c0 c8 echo hb h10 h0 hs0 h8 he hecho h => ?_⟩
    · exact (startsTurn_step hreset hf hw).unexpected hf hends hccs hfetch hc hcheck hne
    · exact (startsTurn_init hf hb h10 h0 hs0 h8 he hecho).unexpected (by exact hf) hends hccs hfetch hc hcheck hne
        (by simpa [answers] using h)

/-- Settles O44: each instruction or resumed step reaches the turn of its loop that the bound ends. -/
theorem loopBounds : Obligations.LoopBounds := by
  refine ⟨fun s n b rest hreset hf hrx => ⟨fun k hw hm hb => ?_, fun hw hm hb => ?_, fun c55 c41 more hw hm h55 h41 hne h => ?_⟩,
    fun s n a b rest hreset hf hw hm hb ha hfetch hc9 hr hrx => ?_, fun s index idx n c b rest hf hm hb => ?_,
    fun s index data ans accept b c rest hf hc hr hm hb hd hans h => ?_,
    fun s clocks echo rest c0 c8 c55 c41 hf hb hm h10 h0 hs0 h8 he hecho h55 h41 hne h => ?_,
    fun s a b rest hf hbusy hm hb ha hretries hfetch hc9 hr hrx => ?_⟩
  · exact (step_waiting hreset hf hw).trans (congrArg _ (waitToken_timeout hf hb hm hrx))
  · exact (step_waiting hreset hf hw).trans (congrArg _ (busyWait_timeout hf hb hm hrx))
  · exact (step_waiting hreset hf hw).trans (congrArg _ (activate_timeout (s := { s with port := none }) hf h55 h41 hne hm h))
  · obtain ⟨hends, hccs⟩ := handshake_endsLoop ha
    exact (startsTurn_step hreset hf hw).tokenTimeout hf hends hccs hfetch hc9 hr hb hrx hm
  · intro ends
    refine ⟨fun h => ⟨?_, ?_⟩, fun hc hr => ⟨fun h => ⟨?_, ?_, ?_, ?_, ?_, fun hstart => ?_, fun hstart => ?_, fun hstart => ?_⟩,
      fun second => ⟨fun h => ?_, fun c55 h55 => ⟨fun h => ⟨?_, fun hstart => ?_⟩, fun h => ⟨?_, fun hstart => ?_⟩⟩⟩⟩⟩
    · exact (rowOp_of_none hf).trans (congrArg _ (waitToken_timeout hf hb hm h))
    · exact (rowOp_of_none hf).trans (congrArg _ (waitToken_timeout hf hb hm h))
    · exact (rowOp_of_none hf).trans (congrArg _ (sectorRead_timeout hc hf hr hb hm h))
    · exact (rowOp_of_none hf).trans (congrArg _ (regReadA_timeout hc hf hr hb hm h))
    · exact (rowOp_of_none hf).trans (congrArg _ (sectorRead_timeout hc hf hr hb hm h))
    · exact (rowOp_of_none hf).trans (congrArg _ (regReadA_timeout hc hf hr hb hm h))
    · exact (rowOp_of_none hf).trans (congrArg _ (regReadA_timeout hc hf hr hb hm h))
    · exact (live_startOp hstart rfl rfl).trans (congrArg _ (sectorRead_timeout hc hf hr hb hm h))
    · exact (live_startOp hstart rfl rfl).trans (congrArg _ (regReadA_timeout hc hf hr hb hm h))
    · exact (live_startOp hstart rfl rfl).trans (congrArg _ (regReadA_timeout hc hf hr hb hm h))
    · exact (rowOp_of_none hf).trans (congrArg _ (regReadB_timeout hc hf hr hb hm h))
    · exact (rowOp_of_none hf).trans (congrArg _ (appRegReadA_timeout hf h55 hc hr hb hm h))
    · exact (live_startOp hstart rfl rfl).trans
        (congrArg _ (appRegReadA_timeout (s := { s with op := 7 }) hf h55 hc hr hb hm h))
    · exact (rowOp_of_none hf).trans (congrArg _ (appRegReadB_timeout hf h55 hc hr hb hm h))
    · exact (live_startOp hstart rfl rfl).trans
        (congrArg _ (appRegReadB_timeout (s := { s with op := 8 }) hf h55 hc hr hb hm h))
  · intro t
    have hlen : ans.length = data.length + 4 := by omega
    refine ⟨?_, fun hdata => ?_, fun hstart => ?_⟩
    · exact (rowOp_of_none hf).trans (congrArg _ (sectorWrite_timeout hc hf hr hb hm hlen h))
    · subst hdata
      exact (rowOp_of_none hf).trans (congrArg _ (sectorWrite_timeout hc hf hr hb hm hlen h))
    · exact (live_startOp hstart rfl rfl).trans (congrArg _ (sectorWrite_timeout hc hf hr hb hm hlen h))
  · rw [init_rx hf hb h10 h0 hs0 h8 he hecho h, activate_timeout (by exact hf) h55 h41 hne (by exact hm) rfl]
    rfl
  · obtain ⟨hends, hccs⟩ := handshake_endsLoop ha
    rw [handshakeBytes_append hretries] at hrx
    have hend := (startsTurn_handshake hf hbusy ha hretries []).tokenTimeout (by simpa using hf) hends
      (by simpa using hccs) (by simpa using hfetch) hc9 (by simpa using hr) (by simpa using hb) hrx (by simpa using hm)
    rw [hend, afterOcr_beforeLast]
    rfl

/-- Settles O46: the turn that ends the loop, INIT's first or a resumed one, then ends INIT or begins its token wait. -/
theorem initCompletes : Obligations.InitCompletes := by
  intro s a b rest hf hfil ha
  obtain ⟨hends, hccs⟩ := handshake_endsLoop ha
  refine ⟨fun hb hretries => ?_, fun n hreset hw => ?_⟩
  · have hturn := startsTurn_handshake hf hb ha hretries []
    refine ⟨fun hfetch hrx => ?_, fun hfetch hfok hearly hrx => ?_, fun hfetch hfok hb hm hrx => ?_⟩
    · rw [handshakeBytes_append hretries] at hrx
      rw [afterHandshake_eq []]
      exact hturn.done (by simpa using hf) hends (by simpa using hccs) (by simpa using hfetch) hrx
    · obtain ⟨hc9, hr, -, hcsd, htrail⟩ := (fetch_iff _ a).mp hfok
      rw [handshakeBytes_append hretries] at hrx
      rw [afterInit_eq [] rest hcsd, hearly]
      have hend := hturn.fetched (rest := rest) (by simpa using hf) hends (by simpa using hccs) (by simpa using hfetch) hc9
        (by simpa using hr) (by simpa using hfil) hcsd htrail (by simpa [InitAnswers.fetchBytes, hearly] using hrx)
      simpa using hend
    · obtain ⟨hc9, hr, -, hcsd, htrail⟩ := (fetch_iff _ a).mp hfok
      rw [handshakeBytes_append hretries] at hrx
      have hlate := hturn.late (by simpa using hf) hends (by simpa using hccs) (by simpa using hfetch) hc9
        (by simpa using hr) (by simpa using hb) hrx (by simpa using hm)
      rw [hlate, afterOcr_beforeLast]
      rfl
  · intro loop u
    have hturn := startsTurn_step hreset hf hw
    refine ⟨fun hfetch hrx => ?_, fun hfetch hfok hearly hrx => ?_, fun hfetch hfok hb hm hrx => ?_⟩
    · exact hturn.done hf hends hccs hfetch hrx
    · obtain ⟨hc9, hr, -, hcsd, htrail⟩ := (fetch_iff _ a).mp hfok
      exact hturn.fetched hf hends hccs hfetch hc9 hr hfil hcsd htrail
        (by simpa [loop, InitAnswers.fetchBytes, hearly] using hrx)
    · obtain ⟨hc9, hr, -, hcsd, htrail⟩ := (fetch_iff _ a).mp hfok
      exact hturn.late hf hends hccs hfetch hc9 hr hb hrx hm

/-- Settles O47: the turns that do not end the activation loop, the one that does, and the polls of the descriptor fetch. -/
theorem initRun : Obligations.InitRun := by
  intro s a h rest hreset hf hb hw hp hop hm ha
  obtain ⟨hends, hccs⟩ := handshake_endsLoop ha
  refine ⟨fun hfetch hrx => ?_, fun hfetch hfil hmax hfok hrx => ?_⟩
  · obtain ⟨x, later, hx, hturn, hrun⟩ := init_runs_to_last hreset hf hb hw hp hop hm ha hrx
    have hend := hturn.done (by simpa using hf) hends (by simpa using hccs) (by simpa using hfetch) hx
    rw [hrun 0, run_succ 0 _ _ hend, ← afterHandshake_eq]
    rfl
  · obtain ⟨hc9, hr, hearly, hcsd, htrail⟩ := (fetch_iff _ a).mp hfok
    obtain ⟨x, later, hx, hturn, hrun⟩ := init_runs_to_last hreset hf hb hw hp hop hm ha hrx
    have hend := hturn.run_fetched (rest := rest) (by simpa using hf) hends (by simpa using hccs)
      (by simpa using hfetch) hc9 (by simpa using hr) rfl (by simpa using hreset) rfl (by simpa using hfil)
      (by simpa using hmax) (by simpa using hearly) hcsd htrail (by simpa [InitAnswers.fetchBytes] using hx)
    rw [Nat.add_assoc, Nat.add_comm 1, hrun, hend, afterInit_eq later rest hcsd]
    simp

end Sys2Proof.Machine
end

section
/-! Proofs of the statements of `44_block_transfer.md`: the token wait and its block, the sector read, the write that is not
accepted, and READ_SECTOR and WRITE_SECTOR from the request to their end. -/

namespace Sys2Proof.Machine

/-! ### The token wait and its block (rules R202, R203) -/

/-- Settles O52: the first of the steps resumes the wait, and the block follows the poll that finds the token. -/
theorem tokenWaitRun : Obligations.TokenWaitRun := by
  intro s n m k early data trail rest hreset hf hw hfil hm hearly hd h512 ht hrx
  exact waitToken_run (step_waiting hreset hf hw) hreset hf rfl hfil hm hearly hd h512 ht hrx

/-- FetchBlock delivers the bytes of the block and leaves the card selected (rule R203). -/
theorem afterBlock_fetchOnly {token : Byte} {early data trail rest : List Byte} {s : State} {w : Option Wait} {sq : Seq} :
    afterBlock data.length .fetchOnly { afterInbound token early data trail rest s with waiting := w, seq := sq } =
      afterEnd (.bytes data) (afterInbound token early data trail rest s) := by
  simp only [afterBlock, afterInbound_take]
  rfl

/-- Settles O35: the row is the first poll of the token wait, which finds the token and receives the block, or goes on waiting. -/
theorem fetchBlockRow : Obligations.FetchBlockRow := by
  intro s data t0 t1 b n rest hf
  have hrow (n : Nat) : exec (.fetchBlock n) s = .next (waitToken 0 (.block n .fetchOnly) (enter .opRegRead s)) :=
    rowOp_of_none hf
  refine ⟨fun hfil hlen hrx => ?_, fun hb hm hrx => ?_⟩
  · rw [hrow, waitToken_block (s := enter .opRegRead s) hfil rfl hlen hrx, afterBlock_fetchOnly]
    rfl
  · rw [hrow, waitToken_other (s := enter .opRegRead s) hb hm hrx]
    rfl

/-! ### The sector read (rules R204, R284) -/

theorem delivers_readSector : AfterBlock.readSector.Delivers fun _ data => .bytes data := fun _ _ => rfl

/-- After its block an operation that delivers the bytes received closes the transaction and ends with their value. -/
theorem AfterBlock.Delivers.afterBlock_eq {k : AfterBlock} {value : Params → List Byte → Result} (hk : k.Delivers value)
    {n : Nat} {token : Byte} {early data trail rest : List Byte} {s : State} {w : Option Wait} {sq : Seq}
    (hd : data.length = n) :
    afterBlock n k { afterInbound token early data trail rest s with waiting := w, seq := sq } =
      afterEnd (value s.cfg data) (afterDeselect (afterInbound token early data trail rest s)) := by
  subst hd
  rw [hk, afterInbound_take]
  rfl

/-- READ_SECTOR that the dispatch lets through. -/
theorem exec_readSector {s : State} {index : Word32} (hstart : s.starts 1) :
    exec (.readSector index) s = .next (sectorRead .readSector index (enter .opRead { s with op := 1, opArg := index })) :=
  live_startOp hstart rfl rfl

section
variable {s u : State} {m : SeqState} {k : AfterBlock} {value : Params → List Byte → Result} {index : Word32}
  {c : CardReply} {b : Byte} {early data trail rest : List Byte}

/-- A sector read in the state `m` when the token comes at once: the operation ends in IDLE whatever `m` was. -/
theorem sectorRead_enter_ends (hk : k.Delivers value) (hf : s.fault = none) (hfil : s.filler = Config.fillerBuffer)
    (hc : c.ok = true) (hr : s.cfg.r1Check = false ∨ c.status = 0) (hd : data.length = 512) (ht : trail.length = 2)
    (h : s.rx = c.bytes ++ (s.cfg.startToken :: (data ++ (trail ++ rest)))) :
    sectorRead k index (enter m s) = afterEnd (value s.cfg data) (afterFetch 17 index c [] data trail rest s) := by
  rw [sectorRead_rx (by exact hf) (by exact hfil) hc (by exact hr) hd ht (by exact h), hk.afterBlock_eq hd]
  rfl

/-- The same when the first byte polled is not the token. -/
theorem sectorRead_enter_late (hf : s.fault = none) (hc : c.ok = true) (hr : s.cfg.r1Check = false ∨ c.status = 0)
    (hb : b ≠ s.cfg.startToken) (hm : s.cfg.tokenWaitMax ≠ some 1) (h : s.rx = c.bytes ++ (b :: rest)) :
    sectorRead k index (enter m s) = afterFirstPoll m 512 k b rest (afterReply 17 index c [] s) := by
  rw [sectorRead_late hc (by exact hf) (by exact hr) (by exact hb) (by exact hm) (by exact h)]
  rfl

/-- A sector read up to its first poll (rules R202, R204). -/
theorem sectorRead_polls (hf : s.fault = none) (hc : c.ok = true) (hr : s.cfg.r1Check = false ∨ c.status = 0)
    (h : s.rx = c.bytes ++ rest) :
    sectorRead k index s = waitToken 0 (.block 512 k) (afterReply 17 index c rest s) := by
  rw [sectorRead, opened_rx hc hf hr h, andThen_of_none (by exact hf)]
  rfl

/-- A sector read from the step that starts it to its end, the polls after the first one a step. -/
theorem run_sectorRead (hk : k.Delivers value) (hstep : step u = .next (sectorRead k index (enter m s)))
    (hreset : s.resetRequest = false) (hport : s.port = none) (hf : s.fault = none) (hfil : s.filler = Config.fillerBuffer)
    (hm : s.cfg.tokenWaitMax = none) (hc : c.ok = true) (hr : s.cfg.r1Check = false ∨ c.status = 0)
    (hearly : ∀ b ∈ early, b ≠ s.cfg.startToken) (hd : data.length = 512) (ht : trail.length = 2)
    (h : s.rx = c.bytes ++ (early ++ s.cfg.startToken :: (data ++ (trail ++ rest)))) :
    core.run (early.length + 1) u = .next (afterEnd (value s.cfg data) (afterFetch 17 index c early data trail rest s)) := by
  rw [sectorRead_polls (by exact hf) hc (by exact hr) (by exact h)] at hstep
  rw [waitToken_run hstep (by exact hreset) (by exact hf) (by exact hport) (by exact hfil) (by exact hm) (by exact hearly) hd
    (by decide) ht rfl, hk.afterBlock_eq hd]
  rfl

end

/-- Settles O36: the two rows and the operation make one read, and differ in what is latched before it. -/
theorem sectorReadRows : Obligations.SectorReadRows := by
  intro s index c data trail rest hf hc hr
  refine ⟨fun hfil hd ht h => ⟨?_, ?_, fun hstart => ?_⟩, fun b hb hm h => ⟨?_, ?_, fun hstart => ?_⟩⟩
  · exact (rowOp_of_none hf).trans (congrArg _ (sectorRead_enter_ends delivers_dataPhase hf hfil hc hr hd ht h))
  · exact (rowOp_of_none hf).trans (congrArg _ (sectorRead_enter_ends delivers_dataPhase hf hfil hc hr hd ht h))
  · exact (exec_readSector hstart).trans (congrArg _
      (sectorRead_enter_ends (s := { s with op := 1, opArg := index }) delivers_readSector hf hfil hc hr hd ht h))
  · exact (rowOp_of_none hf).trans (congrArg _ (sectorRead_enter_late hf hc hr hb hm h))
  · exact (rowOp_of_none hf).trans (congrArg _ (sectorRead_enter_late hf hc hr hb hm h))
  · exact (exec_readSector hstart).trans (congrArg _
      (sectorRead_enter_late (s := { s with op := 1, opArg := index }) hf hc hr hb hm h))

/-! ### The write that is not accepted (rule R209) -/

/-- Command 24 as a row sends the latched data. -/
theorem exec_cmd24 {s : State} {index : Word32} (hf : s.fault = none) :
    exec (.cmd24 index) s = .next (sectorWrite index s.wdata (enter .opWrite s)) := rowOp_of_none hf

/-- WRITE_SECTOR that the dispatch lets through. -/
theorem exec_writeSector {s : State} {index : Word32} {data : List Byte} (hstart : s.starts 2) :
    exec (.writeSector index data) s =
      .next (sectorWrite index data (enter .opWrite { s with op := 2, opArg := index, wdata := data })) :=
  live_startOp hstart rfl rfl

/-- The busy wait of a write that was not accepted, from its first poll to the fault, the later polls one a step. -/
theorem run_busyWait_rejected {s : State} {n : Nat} {busy rest : List Byte} (hreset : s.resetRequest = false)
    (hport : s.port = none) (hf : s.fault = none) (hm : s.cfg.busyWaitMax = none) (hb : ∀ b ∈ busy, b ≠ 0xFF)
    (hw : s.cfg.wrespCheck = true) (ha : writeAccepted s.wresp = false) (h : s.rx = busy ++ 0xFF :: rest) :
    core.run busy.length (busyWait n s) =
      .next (afterFatal (.writeRejected s.wresp) (afterDeselect (afterReceive (busy ++ [0xFF]) rest s))) := by
  induction busy generalizing s n with
  | nil => exact congrArg _ (busyWait_rejected hw ha hf h)
  | cons b busy ih =>
    have hpoll := busyWait_busy (n := n) (hb b (by simp)) (by simp [hm]) h
    have hnext := step_waiting (s := busyWait n s) (w := .busy (n + 1)) (by rw [hpoll]; exact hreset)
      (by rw [hpoll]; exact hf) (by rw [hpoll])
    rw [hpoll] at hnext ⊢
    rw [List.length_cons, run_succ _ _ _ hnext]
    refine (ih (n := n + 1) (by exact hreset) rfl (by exact hf) (by exact hm) (fun x hx => hb x (by simp [hx]))
      (by exact hw) (by exact ha) rfl).trans ?_
    simp [afterReceive, afterFatal, afterDeselect, receiveEvents, hport]

section
variable {s : State} {m : SeqState} {index : Word32} {data ans busy rest : List Byte} {c : CardReply} {accept : Byte}
  (hf : s.fault = none) (hc : c.ok = true) (hr : s.cfg.r1Check = false ∨ c.status = 0) (hans : ans.length = data.length + 4)
  (hw : s.cfg.wrespCheck = true) (ha : writeAccepted accept = false)
include hf hc hr hans hw ha

/-- A write that is not accepted, with a card that is idle at the first busy poll. -/
theorem sectorWrite_rejected (h : s.rx = c.bytes ++ (ans ++ (accept :: 0xFF :: rest))) :
    sectorWrite index data (enter m s) =
      afterFatal (.writeRejected accept) (afterWrite index c data ans accept [] rest s) := by
  rw [sectorWrite_rx (by exact hf) hc (by exact hr) hans (by exact h),
    busyWait_rejected (by exact hw) (by exact ha) (by exact hf) rfl]
  rfl

/-- The same with a card that is busy for as many polls as `busy` has bytes, to the fault. -/
theorem run_sectorWrite_rejected (hreset : s.resetRequest = false) (hport : s.port = none) (hm : s.cfg.busyWaitMax = none)
    (hb : ∀ b ∈ busy, b ≠ 0xFF) (h : s.rx = c.bytes ++ (ans ++ (accept :: (busy ++ 0xFF :: rest)))) :
    core.run busy.length (sectorWrite index data (enter m s)) =
      .next (afterFatal (.writeRejected accept) (afterWrite index c data ans accept busy rest s)) := by
  rw [sectorWrite_rx (by exact hf) hc (by exact hr) hans (by exact h),
    run_busyWait_rejected (by exact hreset) (by exact hport) (by exact hf) (by exact hm) hb (by exact hw) (by exact ha) rfl]
  rfl

end

/-- Settles O42: the three rows make one write, with the data of the row, the latched data, or the data of the request, and the busy
wait ends in the acceptance test. -/
theorem writeRejected : Obligations.WriteRejected := by
  intro s index data c ans accept rest hf hc hr hd hans hw hne
  have hlen : ans.length = data.length + 4 := by omega
  have ha : writeAccepted accept = false := Bool.eq_false_iff.mpr (hne ∘ (writeAccepted_iff accept).mp)
  refine ⟨fun h => ⟨?_, fun hdata => ?_, fun hstart => ?_⟩, fun busy hreset hport hm hb h =>
    ⟨⟨_, rowOp_of_none hf, ?_⟩, fun hdata => ⟨_, exec_cmd24 hf, ?_⟩, fun hstart => ⟨_, exec_writeSector hstart, ?_⟩⟩⟩
  · exact (rowOp_of_none hf).trans (congrArg _ (sectorWrite_rejected hf hc hr hlen hw ha h))
  · subst hdata
    exact (exec_cmd24 hf).trans (congrArg _ (sectorWrite_rejected hf hc hr hlen hw ha h))
  · exact (exec_writeSector hstart).trans (congrArg _
      (sectorWrite_rejected (s := { s with op := 2, opArg := index, wdata := data }) hf hc hr hlen hw ha h))
  · exact run_sectorWrite_rejected hf hc hr hlen hw ha hreset hport hm hb h
  · subst hdata
    exact run_sectorWrite_rejected hf hc hr hlen hw ha hreset hport hm hb h
  · exact run_sectorWrite_rejected (s := { s with op := 2, opArg := index, wdata := data })
      hf hc hr hlen hw ha hreset hport hm hb h

/-! ### From the request to the end (rules R284, R285, R360) -/

@[simp] theorem receiveEvents_length (rs : List Byte) : (receiveEvents rs).length = rs.length := List.length_map _

@[simp] theorem exchangeEvents_length (ts rs : List Byte) : (exchangeEvents ts rs).length = min ts.length rs.length :=
  List.length_zipWith

/-- The selection, six exchanges of the frame and N + 1 of the poll. -/
theorem CardReply.events_length {c : CardReply} (hc : c.ok = true) (idx : BitVec 6) (arg : Word32) :
    (c.events idx arg).length = 1 + 6 + (c.skip.length + 1) := by
  obtain ⟨h6, -⟩ := CardReply.ok_iff.mp hc
  simp only [CardReply.events, List.length_cons, List.length_append, List.length_nil, exchangeEvents_length,
    receiveEvents_length, frameBytes_length, h6]
  omega

section
variable {s : State} {c : CardReply} (hc : c.ok = true)
include hc

/-- The events of a fetch: selection, command, poll, polls of the token wait, block, deselection (rule R360). -/
theorem afterFetch_trace_length {idx : BitVec 6} {arg : Word32} {early data trail rest : List Byte} :
    (afterFetch idx arg c early data trail rest s).trace.length =
      s.trace.length + (6 + (c.skip.length + 1) + (early.length + 1) + data.length + trail.length) + 2 := by
  simp only [afterFetch, afterDeselect, afterInbound, afterReceive, afterReply_trace, List.length_cons, List.length_append,
    List.length_reverse, receiveEvents_length, CardReply.events_length hc]
  omega

/-- The events of a write: selection, command, poll, gap, token, data, checksum field, acceptance byte, busy polls, deselection
(rule R360). -/
theorem afterWrite_trace_length {index : Word32} {data ans : List Byte} {accept : Byte} {busy rest : List Byte}
    (hans : ans.length = data.length + 4) :
    (afterWrite index c data ans accept busy rest s).trace.length =
      s.trace.length + (6 + (c.skip.length + 1) + 1 + 1 + data.length + 2 + 1 + (busy.length + 1)) + 2 := by
  simp only [afterWrite, afterDeselect, afterReceive, afterOutbound, afterReply_trace, List.length_cons, List.length_append,
    List.length_reverse, List.length_nil, receiveEvents_length, exchangeEvents_length, CardReply.events_length hc, hans]
  omega

end

/-- The step that takes the request of READ_SECTOR starts the sector read. -/
theorem step_readSector {s : State} {h : HostWord} (hreset : s.resetRequest = false) (hstart : s.starts 1)
    (hw : s.waiting = none) (hp : s.port = some (.hostop h)) (hop : h.op = 1) :
    step s =
      .next (sectorRead .readSector h.arg (enter .opRead { s with port := none, op := 1, opArg := h.arg })) := by
  have hdecode : decode s.cfg (.hostop h) = .ok (.readSector h.arg) := by simp [decode, decodeHost, hop]
  exact (step_port hreset hstart.1 hw hp hdecode).trans (exec_readSector (s := { s with port := none }) hstart)

/-- The step that takes the request of WRITE_SECTOR starts the sector write. -/
theorem step_writeSector {s : State} {h : HostWord} (hreset : s.resetRequest = false) (hstart : s.starts 2)
    (hw : s.waiting = none) (hp : s.port = some (.hostop h)) (hop : h.op = 2) (hd : h.wdata.length = 512) :
    step s =
      .next (sectorWrite h.arg h.wdata
        (enter .opWrite { s with port := none, op := 2, opArg := h.arg, wdata := h.wdata })) := by
  have hlen : sectorLengthOk h.wdata = true := beq_iff_eq.mpr hd
  have hdecode : decode s.cfg (.hostop h) = .ok (.writeSector h.arg h.wdata) := by simp [decode, decodeHost, hop, hlen]
  exact (step_port hreset hstart.1 hw hp hdecode).trans (exec_writeSector (s := { s with port := none }) hstart)

/-- Settles O50: the step that takes the request starts the read, whose polls and events are counted. -/
theorem readSectorRun : Obligations.ReadSectorRun := by
  intro s h c early data trail rest hreset hstart hw hp hop hfil hm hc hr hearly hd ht hrx
  refine ⟨?_, ?_⟩
  · exact run_sectorRead delivers_readSector (step_readSector hreset hstart hw hp hop) hreset rfl hstart.1 hfil hm hc hr
      hearly hd ht hrx
  · rw [afterFetch_trace_length hc, hd, ht]

/-- Settles O51: the step that takes the request starts the write and makes the first busy poll, and K steps make the others. -/
theorem writeSectorRun : Obligations.WriteSectorRun := by
  intro s h c ans accept busy rest hreset hstart hw hp hop hm hc hr hd hans hb haccept hrx
  have hlen : ans.length = h.wdata.length + 4 := by omega
  refine ⟨?_, ?_⟩
  · rw [run_succ _ _ _ (step_writeSector hreset hstart hw hp hop hd)]
    exact run_sectorWrite hreset rfl hstart.1 hc hr hlen (haccept.imp_right (writeAccepted_iff accept).mpr) hm hb hrx
  · rw [afterWrite_trace_length hc hlen, hd]

end Sys2Proof.Machine
end

section
/-! Proofs of the statements of `45_register_decoder.md`: records packed and decoded, registers decoded and packed, and
the fields of the identification and capacity registers byte by byte. -/

namespace Sys2Proof.Machine

/-! ### Decoding a packed record (rule R266) -/

theorem decodeCid_packCid (e : BitVec 1) (r : CID) : decodeCid layoutCid (packCid layoutCid e r) = r := by
  rw [pack_cid]
  cases r
  simp only [decodeCid]
  congr 1 <;> exact get_packed (fits_cid e _) rfl (by simp [cidParts])

theorem decodeScr_packScr (r : SCR) : decodeScr layoutScr (packScr layoutScr r) = r := by
  rw [pack_scr]
  cases r
  simp only [decodeScr]
  congr 1 <;> exact get_packed (fits_scr _) rfl (by simp [scrParts])

theorem decodeSsr_packSsr (r : SSR) : decodeSsr layoutSsr (packSsr layoutSsr r) = r := by
  rw [pack_ssr]
  cases r
  simp only [decodeSsr]
  congr 1 <;> exact get_packed (fits_ssr _) rfl (by simp [ssrParts])

theorem pack_ocr (r : OCR) : packOcr layoutOcr r = BitVec.ofNat 32 (packed (ocrParts r)) := rfl

theorem decodeOcr_packOcr (r : OCR) :
    decodeOcr layoutOcr (packOcr layoutOcr r) = { r with raw := packOcr layoutOcr r } := by
  rw [pack_ocr]
  simp only [decodeOcr]
  congr 1 <;> exact get_packed32 (fits_ocr r) rfl (by simp [ocrParts])

/-- Version 1: its own capacity rows are packed, and the row of version 2 overlaps them (rule R242). -/
theorem decodeCsd_packCsd_v1 (e : BitVec 1) (r : CSD) (h : r.csd_structure = 0) :
    { decodeCsd layoutCsd (packCsd layoutCsd e r) with c_size_v2 := r.c_size_v2 } = r := by
  rw [pack_csd1 e r h]
  cases r
  simp only [decodeCsd]
  congr 1 <;> exact get_packed (fits_csd1 e _) rfl (by simp [csd1Parts])

/-- The other versions: the one capacity row is packed, and the rows of version 1 overlap it (rule R242). -/
theorem decodeCsd_packCsd_v2 (e : BitVec 1) (r : CSD) (h : r.csd_structure ≠ 0) :
    { decodeCsd layoutCsd (packCsd layoutCsd e r) with
      c_size_v1 := r.c_size_v1, vdd_r_curr_min := r.vdd_r_curr_min, vdd_r_curr_max := r.vdd_r_curr_max
      vdd_w_curr_min := r.vdd_w_curr_min, vdd_w_curr_max := r.vdd_w_curr_max, c_size_mult := r.c_size_mult } = r := by
  rw [pack_csd2 e r h]
  cases r
  simp only [decodeCsd]
  congr 1 <;> exact get_packed (fits_csd2 e _) rfl (by simp [csd2Parts])

/-- Settles O56: the rows of each table are apart and its values fit them, so that each row of the packed register is its
value. -/
theorem decodePack : Obligations.DecodePack :=
  ⟨decodeCid_packCid, decodeScr_packScr, decodeSsr_packSsr, decodeOcr_packOcr,
    fun e r => ⟨decodeCsd_packCsd_v1 e r, decodeCsd_packCsd_v2 e r⟩⟩

/-! ### Packing a decoded register (rule R266) -/

/-- The rows of a register, packed with a bit 0 that is in none of them (log entry 18). -/
theorem packed_slices_bit0 (e : BitVec 1) (fields : List Field) (v : Nat) (hle : ∀ f ∈ fields, f.lo ≤ f.hi)
    (hapart : fields.Pairwise fun f g => f.apart g = true) (hlo : ∀ f ∈ fields, 0 < f.lo) :
    packed ((⟨0, 0⟩, e.toNat) :: fields.map fun f => (f, sliceNat v f.hi f.lo)) =
      (v &&& fieldMask fields) ||| e.toNat := by
  have hrows := packed_slices fields v hle hapart
  have hfree : (v &&& fieldMask fields).testBit 0 = false := by
    rw [← hrows]
    refine packed_testBit _ 0 (List.forall_mem_map.mpr fun f hf => ?_) (List.forall_mem_map.mpr fun f hf => ?_)
    · exact ⟨Nat.mod_lt _ (Nat.two_pow_pos _), hle f hf⟩
    · exact fun hin => absurd (hlo f hf) (Nat.not_lt.mpr hin.1)
  refine (congrArg (e.toNat ^^^ ·) hrows).trans (Nat.eq_of_testBit_eq fun i => ?_)
  rw [Nat.testBit_xor, Nat.testBit_or]
  cases i with
  | zero => simp [hfree]
  | succ i =>
    have hbit : e.toNat.testBit (i + 1) = false :=
      Nat.testBit_lt_two_pow (e.isLt.trans_le (Nat.pow_le_pow_right two_pos (Nat.le_add_left 1 i)))
    simp [hbit]

theorem packCid_decodeCid (e : BitVec 1) (raw : List Byte) :
    packCid layoutCid e (decodeCid layoutCid raw) =
      natBytes 16 ((rawNat raw &&& fieldMask (cidFields layoutCid)) ||| e.toNat) := by
  rw [pack_cid, ← packed_slices_bit0 e _ (rawNat raw) (by decide) (by decide) (by decide)]
  simp (disch := decide) only [cidParts, decodeCid, cidFields, List.map, Field.toNat_get]

/-- By the version decoded, whose own capacity rows are packed (rule R242). -/
theorem packCsd_decodeCsd (e : BitVec 1) (raw : List Byte) :
    packCsd layoutCsd e (decodeCsd layoutCsd raw) =
      natBytes 16 ((rawNat raw &&& fieldMask (csdFields layoutCsd (decodeCsd layoutCsd raw).csd_structure)) ||| e.toNat) := by
  by_cases h : (decodeCsd layoutCsd raw).csd_structure = 0
  · rw [pack_csd1 e _ h, h, ← packed_slices_bit0 e _ (rawNat raw) (by decide) (by decide) (by decide)]
    simp (disch := decide) only [csd1Parts, decodeCsd, csdFields, ↓reduceIte, List.cons_append, List.nil_append, List.map,
      Field.toNat_get]
  · have hfields : csdFields layoutCsd (decodeCsd layoutCsd raw).csd_structure = csdFields layoutCsd 1 := by
      simpa [csdFields] using h
    rw [pack_csd2 e _ h, hfields, ← packed_slices_bit0 e _ (rawNat raw) (by decide) (by decide) (by decide)]
    simp (disch := decide) only [csd2Parts, decodeCsd, csdFields, BitVec.reduceEq, ↓reduceIte, List.cons_append,
      List.nil_append, List.map, Field.toNat_get]

theorem packScr_decodeScr (raw : List Byte) :
    packScr layoutScr (decodeScr layoutScr raw) = natBytes 8 (rawNat raw &&& fieldMask (scrFields layoutScr)) := by
  rw [pack_scr, ← packed_slices _ _ (by decide) (by decide)]
  simp (disch := decide) only [scrParts, decodeScr, scrFields, List.map, Field.toNat_get]

theorem packSsr_decodeSsr (raw : List Byte) :
    packSsr layoutSsr (decodeSsr layoutSsr raw) = natBytes 64 (rawNat raw &&& fieldMask (ssrFields layoutSsr)) := by
  rw [pack_ssr, ← packed_slices _ _ (by decide) (by decide)]
  simp (disch := decide) only [ssrParts, decodeSsr, ssrFields, List.map, Field.toNat_get]

theorem packOcr_decodeOcr (v : Word32) :
    packOcr layoutOcr (decodeOcr layoutOcr v) = BitVec.ofNat 32 (v.toNat &&& fieldMask (ocrFields layoutOcr)) := by
  rw [pack_ocr, ← packed_slices _ _ (by decide) (by decide)]
  simp (disch := decide) only [ocrParts, decodeOcr, ocrFields, List.map, Field.toNat_get]

/-- Settles O57: the rows of a register, each packed as it was decoded, are its bits in the mask of the table. -/
theorem packDecode : Obligations.PackDecode :=
  ⟨fun e raw _ => ⟨packCid_decodeCid e raw, packCsd_decodeCsd e raw⟩, fun raw _ => packScr_decodeScr raw,
    fun raw _ => packSsr_decodeSsr raw, packOcr_decodeOcr⟩

/-! ### The fields byte by byte (rules R10, R231) -/

/-- A row that lies in one byte is a slice of that byte, which is number `lo / 8` from the end. -/
theorem get_within (n : Nat) {w : Nat} {f : Field} {raw : List Byte} (hlen : raw.length = n)
    (hw : w = f.hi - f.lo + 1 := by decide) (hin : f.lo % 8 + w ≤ 8 := by decide) (hlo : f.lo < 8 * n := by decide) :
    f.get w (rawNat raw) = (raw.getD (n - 1 - f.lo / 8) 0).extractLsb' (f.lo % 8) w := by
  refine BitVec.eq_of_getLsbD_eq fun i hi => ?_
  have hdiv : (f.lo + i) / 8 = f.lo / 8 := by omega
  have hmod : (f.lo + i) % 8 = f.lo % 8 + i := by omega
  have hlt : f.lo + i < 8 * raw.length := by omega
  rw [get_bit w f raw i hw hi hlt, hlen, hdiv, hmod, BitVec.getLsbD_extractLsb', decide_eq_true hi, Bool.true_and]

/-- A row that is a whole byte. -/
theorem get_byte (n : Nat) {f : Field} {raw : List Byte} (hlen : raw.length = n) (hw : 8 = f.hi - f.lo + 1 := by decide)
    (hin : f.lo % 8 = 0 := by decide) (hlo : f.lo < 8 * n := by decide) :
    f.get 8 (rawNat raw) = raw.getD (n - 1 - f.lo / 8) 0 := by
  rw [get_within n hlen hw (by omega) hlo, hin, BitVec.extractLsb'_eq_self]

/-- A row cut in two: its upper `w` bits and its lower `w'` bits. -/
theorem get_append (w w' : Nat) {v : Nat} {f : Field} {x : BitVec w} {y : BitVec w'}
    (hx : Field.get w ⟨f.hi, f.lo + w'⟩ v = x) (hy : Field.get w' ⟨f.lo + w' - 1, f.lo⟩ v = y)
    (hw : w + w' = f.hi - f.lo + 1 := by decide) (hpos : 0 < w ∧ 0 < w' := by decide) : f.get (w + w') v = x ++ y := by
  subst hx hy
  refine BitVec.eq_of_getLsbD_eq fun i hi => ?_
  rw [BitVec.getLsbD_append, Field.getLsbD_get _ _ _ _ hw]
  split_ifs with h
  · have hlow : w' = f.lo + w' - 1 - f.lo + 1 := by omega
    rw [Field.getLsbD_get _ _ _ _ hlow, decide_eq_true hi, decide_eq_true h]
  · have hup : w = f.hi - (f.lo + w') + 1 := by omega
    have hplace : f.lo + w' + (i - w') = f.lo + i := by omega
    have hlt : i - w' < w := by omega
    rw [Field.getLsbD_get _ _ _ _ hup, decide_eq_true hi, decide_eq_true hlt, hplace]

theorem exec_decodeCid {s : State} (raw : List Byte) (hf : s.fault = none) :
    exec (.decodeCid raw) s = .next { s with result := some (.cid (decodeCid s.cfg.layouts.cid raw)) } := live_of_none hf

theorem exec_decodeCsd {s : State} (raw : List Byte) (hf : s.fault = none) :
    exec (.decodeCsd raw) s = .next { s with result := some (.csd (decodeCsd s.cfg.layouts.csd raw)) } := live_of_none hf

/-- Settles O53: each row is a byte, lies within one, or is cut at the ends of the bytes it spans. -/
theorem decodeCidRow : Obligations.DecodeCidRow := by
  refine ⟨fun s raw => exec_decodeCid raw, fun s b0 b1 b2 b3 b4 b5 b6 b7 b8 b9 b10 b11 b12 b13 b14 b15 hf hL => ?_⟩
  rw [exec_decodeCid _ hf, hL]
  simp only [decodeCid, layoutCid]
  congr 5
  case e_mid | e_prv => exact get_byte 16 rfl
  case e_oid => exact get_append 8 8 (get_byte 16 rfl) (get_byte 16 rfl)
  case e_pnm =>
    exact get_append 32 8 (get_append 24 8 (get_append 16 8 (get_append 8 8 (get_byte 16 rfl) (get_byte 16 rfl))
      (get_byte 16 rfl)) (get_byte 16 rfl)) (get_byte 16 rfl)
  case e_psn =>
    exact get_append 24 8 (get_append 16 8 (get_append 8 8 (get_byte 16 rfl) (get_byte 16 rfl)) (get_byte 16 rfl))
      (get_byte 16 rfl)
  case e_mdt => exact get_append 4 8 (get_within 16 rfl) (get_byte 16 rfl)
  case e_crc => exact get_within 16 rfl

/-- Settles O54: as for the identification register; the rows not named below lie within one byte each. -/
theorem decodeCsdRow : Obligations.DecodeCsdRow := by
  refine ⟨fun s raw => exec_decodeCsd raw, fun s b0 b1 b2 b3 b4 b5 b6 b7 b8 b9 b10 b11 b12 b13 b14 b15 hf hL => ?_⟩
  rw [exec_decodeCsd _ hf, hL]
  simp only [decodeCsd, layoutCsd]
  congr 5
  case e_taac | e_nsac | e_tran_speed => exact get_byte 16 rfl
  case e_ccc => exact get_append 8 4 (get_byte 16 rfl) (get_within 16 rfl)
  case e_c_size_v1 => exact get_append 10 2 (get_append 2 8 (get_within 16 rfl) (get_byte 16 rfl)) (get_within 16 rfl)
  case e_c_size_v2 => exact get_append 14 8 (get_append 6 8 (get_within 16 rfl) (get_byte 16 rfl)) (get_byte 16 rfl)
  case e_c_size_mult => exact get_append 2 1 (get_within 16 rfl) (get_within 16 rfl)
  case e_sector_size => exact get_append 6 1 (get_within 16 rfl) (get_within 16 rfl)
  case e_write_bl_len => exact get_append 2 2 (get_within 16 rfl) (get_within 16 rfl)
  all_goals exact get_within 16 rfl

end Sys2Proof.Machine
end

section
/-! Proofs of the statements of `46_host_operations.md`: what a step in IDLE makes of the request port. -/

namespace Sys2Proof.Machine

/-! ### The request port in IDLE (rules R280, R281, R326) -/

/-- Settles O4: with no reset, no fault and no wait, the port decides: a word that is an instruction, one that is none, or no word. -/
theorem stepRunsDecoded : Obligations.StepRunsDecoded := by
  intro s hreset hf hw
  refine ⟨fun p i hp hd => ?decoded, fun p e hp hd => ?undecodable, fun hp => ?empty⟩
  case decoded => exact step_port hreset hf hw hp hd
  case undecodable => exact step_undecodable hreset hf hw hp hd
  case empty => exact step_no_request hreset hf hw hp

end Sys2Proof.Machine
end

section
/-! Proofs of the statements of `60_exceptions.md`: the latch that holds, and the loops without a bound. -/

namespace Sys2Proof.Machine

/-! ### The latched fault (rule R311) -/

/-- Settles O10: an instruction finds the latch and does nothing, and a step without a reset event only empties the port. -/
theorem faultSticky : Obligations.FaultSticky := by
  intro s r hfault
  exact ⟨fun i => exec_faulted i s r hfault, fun hreset => step_faulted hreset hfault⟩

/-! ### The loops without a bound (rule R330) -/

/-- Settles O45: each loop by its own induction over the bytes or the iterations that do not end it. -/
theorem hangs : Obligations.Hangs := by
  intro s rest hreset hf hport
  refine ⟨fun bs n k hne hw hm hb hrx => ?token, fun bs n hne hw hm hb hrx => ?busy,
    fun its n hne hw hm hits hrx => ?activate⟩
  case token =>
    rw [tokenRun hne hreset hf hw hm hb hrx, ← hport]
    rfl
  case busy =>
    rw [busyRun hne hreset hf hw hm hb hrx, ← hport]
    rfl
  case activate =>
    obtain ⟨hfault, hmain, hwaiting, hrx', htrace⟩ := afterIterations_spec its hne n s rest
    have hbusy : (afterIterations its n s rest).busy = true := by simp [State.busy, hmain]
    exact ⟨_, activateRun hreset hf hw hm hits hrx, hfault.trans hf, hbusy, hwaiting, hrx', htrace⟩

end Sys2Proof.Machine
end

section
/-! Proofs of the statements about decoding, the reset and the invariant: a decoded word is the word of its instruction, the reset values,
and what every step keeps. -/

namespace Sys2Proof.Machine

/-! ### Decoded words (rules R80, R93, R95, R105, R106, R110) -/

theorem wellFormed_of_commandOf {i : Instr} {idx : BitVec 6} {arg : Word32} (h : commandOf i = some (idx, arg)) :
    i.wellFormed = true := by
  cases i <;> cases h <;> rfl

theorem encode_of_commandOf {i : Instr} {idx : BitVec 6} {arg : Word32} (cfg : Params) (h : commandOf i = some (idx, arg)) :
    encode cfg i = some (.cmd48 (frameBytes idx arg)) := by
  rw [encode, h]

/-- A frame that decodes is that of the instruction it decodes to. -/
theorem encode_of_decodeFrame {f : List Byte} {i : Instr} (cfg : Params) (h : decodeFrame f = .ok i) :
    i.wellFormed = true ∧ encode cfg i = some (.cmd48 f) := by
  obtain ⟨hframe, hcommand⟩ := frame_of_decodeFrame h
  have hof := decodeCommand_ok hcommand
  exact ⟨wellFormed_of_commandOf hof, hframe ▸ encode_of_commandOf cfg hof⟩

/-- A byte that passes as a status byte is that of its seven flags (rule R95). -/
theorem statusByte_of_isStatus {b : Byte} (h : isStatus b = true) : statusByte (b.setWidth 7) = b :=
  statusByte_of_msb b (by simpa [isStatus] using h)

theorem encode_of_decode_respA {bytes : List Byte} {i : Instr} {cfg : Params} (h : decode cfg (.respA bytes) = .ok i) :
    i.wellFormed = true ∧ encode cfg i = some (.respA bytes) := by
  match bytes, h with
  | [b], h =>
    obtain ⟨hstatus, rfl⟩ := ok_of_ite h
    exact ⟨rfl, congrArg (fun c => some (PortWord.respA [c])) (statusByte_of_isStatus hstatus)⟩

theorem encode_of_decode_respB {bytes : List Byte} {i : Instr} {cfg : Params} (h : decode cfg (.respB bytes) = .ok i) :
    i.wellFormed = true ∧ encode cfg i = some (.respB bytes) := by
  match bytes, h with
  | [b, c], h =>
    obtain ⟨hstatus, rfl⟩ := ok_of_ite h
    exact ⟨rfl, congrArg (fun b => some (PortWord.respB [b, c])) (statusByte_of_isStatus hstatus)⟩

theorem encode_of_decode_respCD {bytes : List Byte} {i : Instr} {cfg : Params} (h : decode cfg (.respCD bytes) = .ok i) :
    i.wellFormed = true ∧ encode cfg i = some (.respCD bytes) := by
  match bytes, h with
  | [b, e0, e1, e2, e3], h =>
    obtain ⟨hstatus, rfl⟩ := ok_of_ite h
    exact ⟨rfl, congrArg₂ (fun b e => some (PortWord.respCD (b :: e))) (statusByte_of_isStatus hstatus)
      (be32bytes_be32 e0 e1 e2 e3)⟩

theorem encode_of_decode_token {bytes : List Byte} {i : Instr} {cfg : Params} (h : decode cfg (.token bytes) = .ok i) :
    i.wellFormed = true ∧ encode cfg i = some (.token bytes) := by
  match bytes, h with
  | [b], h =>
    obtain ⟨rfl, rfl⟩ := ok_of_ite h
    exact ⟨rfl, rfl⟩

theorem encode_of_decode_dresp {bytes : List Byte} {i : Instr} {cfg : Params} (h : decode cfg (.dresp bytes) = .ok i) :
    i.wellFormed = true ∧ encode cfg i = some (.dresp bytes) := by
  match bytes, h with
  | [b], rfl => exact ⟨rfl, rfl⟩

/-- Settles O2: by the format of the word; a host word keeps its operation code and the operands the operation uses. -/
theorem encodeDecode : Obligations.EncodeDecode := by
  intro cfg p i h
  cases p with
  | hostop w => exact decodeHost_ok h
  | cmd48 f => exact encode_of_decodeFrame cfg h
  | respA bytes => exact encode_of_decode_respA h
  | respB bytes => exact encode_of_decode_respB h
  | respCD bytes => exact encode_of_decode_respCD h
  | token bytes => exact encode_of_decode_token h
  | dresp bytes => exact encode_of_decode_dresp h

/-- What the port decodes is an instruction with a word of its own, well-formed. -/
theorem wellFormed_of_decode {cfg : Params} {p : PortWord} {i : Instr} (h : decode cfg p = .ok i) :
    encode cfg i ≠ none ∧ i.wellFormed = true := by
  obtain ⟨hwf, hword⟩ := encodeDecode cfg p i h
  refine ⟨?_, hwf⟩
  cases p with
  | hostop w =>
    obtain ⟨-, w', hw', -⟩ := hword
    simp [hw']
  | cmd48 | respA | respB | respCD | token | dresp => simp [show encode cfg i = _ from hword]

/-! ### The reset (rules R34, R340, R341) -/

/-- Settles O5: the values are those that `State.reset` writes. -/
theorem resetState : Obligations.ResetState :=
  ⟨rfl, rfl, rfl, rfl, rfl, rfl, rfl, rfl, rfl, rfl, rfl, rfl⟩

/-- Settles O6: the step of a reset event is `applyReset` whatever the state is. -/
theorem resetEvent : Obligations.ResetEvent := by
  intro s hreset
  exact ⟨applyReset s, step_reset hreset, rfl, rfl, rfl, rfl, rfl, rfl, rfl, rfl, rfl, rfl, rfl, rfl, rfl, rfl, rfl, rfl, rfl⟩

/-! ### The invariant (rules R21 to R25, R330, R350) -/

/-- Settles O7: the state after reset is idle, with the values of rule R34. -/
theorem invReset : Obligations.InvReset :=
  Running.idle ⟨rfl, List.length_replicate, List.length_replicate, rfl, Nat.zero_le _, rfl, rfl, rfl, rfl, fun _ => rfl, rfl⟩

/-- An instruction taken from the port keeps the invariant. -/
theorem exec_decoded_inv {s t : State} {p : PortWord} {i : Instr} (h : Inv s) (hf : s.fault = none) (hw : s.waiting = none)
    (hd : decode s.cfg p = .ok i) (hexec : exec i s = .next t) : Inv t := by
  obtain ⟨hword, hwf⟩ := wellFormed_of_decode hd
  obtain ⟨u, hu, hinv⟩ := exec_inv i hword hwf (h.running hf hw)
  obtain rfl : u = t := by simpa [hu] using hexec
  exact hinv

/-- Settles O8: a reset event, a latched fault, a wait that is resumed, an empty port and a word at the port each keep the invariant. -/
theorem invStep : Obligations.InvStep := by
  intro s t hinv hstep
  cases hreset : s.resetRequest with
  | true =>
    obtain rfl : applyReset s = t := by simpa [step_reset hreset] using hstep
    exact applyReset_inv s
  | false =>
    cases hf : s.fault with
    | some r =>
      obtain rfl : { s with port := none } = t := by simpa [step_faulted hreset hf] using hstep
      exact hinv.withoutPort
    | none =>
      obtain ⟨w, hw, rfl⟩ | rfl | ⟨p, i, -, hd, hw, hexec⟩ := step_cases hreset hf hstep
      · exact resume_inv w hinv.withoutPort hf hw
      · exact hinv
      · exact exec_decoded_inv hinv.withoutPort hf hw hd hexec

end Sys2Proof.Machine
end

section
/-! Proofs of the statements about host operations and faults: what a fault entry leaves, what INIT alone writes, the latched request, the
guard of REQUIRE_INIT. -/

namespace Sys2Proof.Machine

/-! ### Fault entry and what no instruction but INIT writes (rules R25, R185, R310, R312) -/

/-- What an instruction run with no fault latched has done when it has an end: the frame of `exec_ends`. -/
theorem ends_of_exec {ini : Bool} {i : Instr} {s t : State} (hf : s.fault = none) (hi : i = .init ∨ s.waiting ≠ none → ini = true)
    (h : exec i s = .next t) : Ends true ini s t := by
  obtain ⟨u, hu, hends⟩ := exec_ends i hf hi
  obtain rfl : u = t := by simpa [hu] using h
  exact hends

/-- Settles O11: the instruction ended in a raised fault, so its result is the old one and the sequencer is in FAULT, from which the view
and the mode follow. -/
theorem faultEntry : Obligations.FaultEntry := by
  intro i s t r hf hexec hr
  obtain ⟨hkeeps, hseq, hwaiting⟩ := (ends_of_exec (ini := true) hf (fun _ => rfl) hexec).faulted (by simp [hr])
  have hview : t.hostView =
      { fault := some r, initialized := t.initialized, sectorCount := t.sectorCount, busy := false, result := s.result } := by
    simp [State.hostView, State.busy, hr, hseq, hkeeps.result]
  refine ⟨hseq, hwaiting, hkeeps.result, hkeeps.cfg, hkeeps.link, hkeeps.filler, hkeeps.initialized, hview,
    State.mode_eq_faulted.mpr (by simp [hr]), ?_⟩
  rw [hr]
  cases r <;> rfl

/-- Settles O13: a latched fault stops the instruction, and otherwise its frame keeps the session state. -/
theorem onlyInitWrites : Obligations.OnlyInitWrites := by
  intro i s t hi hw hexec
  cases hf : s.fault with
  | some r =>
    obtain rfl : s = t := by simpa [exec_faulted i s r hf] using hexec
    exact ⟨rfl, rfl, rfl⟩
  | none =>
    have hends : Ends true false s t := ends_of_exec hf (fun h => h.elim (absurd · hi) (absurd hw)) hexec
    obtain ⟨-, -, -, -, -, -, -, hsession, -⟩ := hends.session
    exact hsession rfl

/-! ### The latched request and a second one (rules R26, R294) -/

section
variable {s : State}

theorem resume_keeps_request (w : Wait) (hf : s.fault = none) :
    (resume w s).op = s.op ∧ (resume w s).opArg = s.opArg ∧ (resume w s).wdata = s.wdata := by
  obtain ⟨-, -, -, -, -, -, -, -, hrequest⟩ := (resume_ends (req := false) w hf).session
  exact hrequest rfl

/-- A row that does nothing in a state without a fault does nothing in any. -/
theorem live_unchanged {f : State → State} (h : f s = s) : live f s = .next s := by
  rw [live, State.andThen]
  cases s.fault with
  | none => rw [h]
  | some r => rfl

theorem startOp_busy {code : BitVec 4} {latch body : State → State} (hb : s.busy = true) : startOp code latch body s = s :=
  if_pos hb

theorem rejectOp_busy {what : Unimplemented} (hb : s.busy = true) : rejectOp what s = s := if_pos hb

/-- A host operation is one of the two dispatches: of an operation that can start, or of one that is not implemented (rule R281). The
cases of the split are the operation codes from 0 up. -/
theorem exec_of_decodeHost {w : HostWord} {i : Instr} (hd : decodeHost w = .ok i) :
    (∃ code latch body, exec i s = live (startOp code latch body) s) ∨ ∃ what, exec i s = live (rejectOp what) s := by
  unfold decodeHost at hd
  split at hd
  case h_3 =>
    obtain ⟨-, rfl⟩ := ok_of_ite hd
    exact .inl ⟨_, _, _, rfl⟩
  case h_1 | h_2 | h_5 | h_6 | h_7 | h_8 | h_9 =>
    cases hd
    exact .inl ⟨_, _, _, rfl⟩
  all_goals
    cases hd
    exact .inr ⟨_, rfl⟩

/-- A host operation requested while another runs is refused in the dispatch (rule R294). -/
theorem exec_host_busy {w : HostWord} {i : Instr} (hd : decodeHost w = .ok i) (hb : s.busy = true) : exec i s = .next s := by
  obtain ⟨code, latch, body, hexec⟩ | ⟨what, hexec⟩ := exec_of_decodeHost (s := s) hd
  · rw [hexec, live_unchanged (startOp_busy hb)]
  · rw [hexec, live_unchanged (rejectOp_busy hb)]

end

/-- Settles O14: a step resumes the wait, whatever stands at the port, and the dispatch refuses a host operation while one runs. -/
theorem runningOperation : Obligations.RunningOperation := by
  refine ⟨fun s t w hreset hw hstep => ?kept, fun s w p hreset hf hw => ?unread, fun i h s hd hb => exec_host_busy hd hb⟩
  case kept =>
    cases hf : s.fault with
    | some r =>
      obtain rfl : { s with port := none } = t := by simpa [step_faulted hreset hf] using hstep
      exact ⟨rfl, rfl, rfl⟩
    | none =>
      obtain rfl : resume w { s with port := none } = t := by simpa [step_waiting hreset hf hw] using hstep
      exact resume_keeps_request w (by exact hf)
  case unread =>
    exact (step_waiting (s := { s with port := p }) hreset hf hw).trans (step_waiting hreset hf hw).symm

/-! ### The guard of REQUIRE_INIT (rules R281, R282) -/

/-- The guard ends an operation whose request has been latched, whatever it would have done. -/
theorem live_startOp_notInitialized {code : BitVec 4} {latch body : State → State} {s : State} (hf : s.fault = none)
    (hb : s.busy = false) (hreq : s.cfg.requireInit = true) (hi : s.initialized = false) (hcode : code ≠ 0 := by decide)
    (hfault : (latch { s with op := code }).fault = s.fault := by rfl)
    (hcfg : (latch { s with op := code }).cfg = s.cfg := by rfl)
    (hinit : (latch { s with op := code }).initialized = s.initialized := by rfl) :
    live (startOp code latch body) s = .next (afterFatal (.notInitialized code) (latch { s with op := code })) := by
  have hguard : (code != 0 && s.cfg.requireInit && !s.initialized) = true := by simpa [hreq, hi] using hcode
  rw [live_of_none hf, startOp, if_neg (by simp [hb])]
  simp only [hcfg, hinit, hguard, if_true, raise_of_none (hfault.trans hf)]

/-- Settles O17: each latches its operands and meets the guard. -/
theorem notInitialized : Obligations.NotInitialized := by
  intro s index data hf hb hreq hi
  exact ⟨live_startOp_notInitialized hf hb hreq hi, live_startOp_notInitialized hf hb hreq hi,
    live_startOp_notInitialized hf hb hreq hi, live_startOp_notInitialized hf hb hreq hi,
    live_startOp_notInitialized hf hb hreq hi, live_startOp_notInitialized hf hb hreq hi,
    live_startOp_notInitialized hf hb hreq hi⟩

end Sys2Proof.Machine
end

section
/-! Proofs of the remaining statements of `45_register_decoder.md` and of the received formats. -/

namespace Sys2Proof.Machine

/-! ### The other registers and the status flags (rules R95, R250, R255, R260) -/

theorem exec_decodeOcr {s : State} (v : Word32) (hf : s.fault = none) :
    exec (.decodeOcr v) s = .next { s with result := some (.ocr (decodeOcr s.cfg.layouts.ocr v)) } := live_of_none hf

theorem exec_decodeScr {s : State} (raw : List Byte) (hf : s.fault = none) :
    exec (.decodeScr raw) s = .next { s with result := some (.scr (decodeScr s.cfg.layouts.scr raw)) } := live_of_none hf

theorem exec_decodeSsr {s : State} (raw : List Byte) (hf : s.fault = none) :
    exec (.decodeSsr raw) s = .next { s with result := some (.ssr (decodeSsr s.cfg.layouts.ssr raw)) } := live_of_none hf

/-- A row of a register held as a number is a slice of it. -/
theorem get_toNat {n w : Nat} (f : Field) (v : BitVec n) (hw : w = f.hi - f.lo + 1 := by decide) :
    f.get w v.toNat = v.extractLsb' f.lo w := by
  subst hw
  refine BitVec.eq_of_getLsbD_eq fun i hi => ?_
  rw [Field.getLsbD_get _ _ _ _ rfl, BitVec.getLsbD_extractLsb', BitVec.testBit_toNat]

/-- A status flag whose row has one bit is that bit (rule R95). -/
theorem sliceNat_bit_ne_zero (b : Byte) (k : Nat) : (sliceNat b.toNat k k != 0) = b.getLsbD k := by
  rw [sliceNat, Nat.sub_self, BitVec.getLsbD, Nat.testBit, Nat.one_and_eq_mod_two, Nat.pow_one]

/-- Settles O55: the rows of the configuration and status registers lie within one byte each or are whole bytes; `sd_specx` is cut at
the end of its first byte. -/
theorem decodeOtherRows : Obligations.DecodeOtherRows := by
  refine ⟨fun s v raw hf => ⟨exec_decodeOcr v hf, exec_decodeScr raw hf, exec_decodeSsr raw hf⟩,
    fun s hf hL => ⟨fun v => ?ocr, fun b0 b1 b2 b3 b4 b5 b6 b7 => ?scr,
      fun b0 b1 b2 b3 b4 b5 b6 b7 b8 b9 b10 b11 b12 b13 more hmore => ?ssr⟩, fun s hL => ?flags⟩
  case ocr =>
    rw [exec_decodeOcr v hf, hL]
    simp only [decodeOcr, defaultLayouts, layoutOcr, get_toNat]
  case scr =>
    rw [exec_decodeScr _ hf, hL]
    simp only [decodeScr]
    congr 5
    case e_sd_specx => exact get_append 2 2 (get_within 8 rfl) (get_within 8 rfl)
    all_goals exact get_within 8 rfl
  case ssr =>
    have hlen : (b0 :: b1 :: b2 :: b3 :: b4 :: b5 :: b6 :: b7 :: b8 :: b9 :: b10 :: b11 :: b12 :: b13 :: more).length = 64 := by
      simp [hmore]
    rw [exec_decodeSsr _ hf, hL]
    simp only [decodeSsr]
    congr 5
    case e_sd_card_type | e_erase_size => exact get_append 8 8 (get_byte 64 hlen) (get_byte 64 hlen)
    case e_size_of_protected_area =>
      exact get_append 24 8 (get_append 16 8 (get_append 8 8 (get_byte 64 hlen) (get_byte 64 hlen)) (get_byte 64 hlen))
        (get_byte 64 hlen)
    case e_speed_class | e_performance_move => exact get_byte 64 hlen
    all_goals exact get_within 64 hlen
  case flags =>
    rw [State.statusFlags, hL]
    simp only [Sys2Proof.Machine.statusFlags, defaultLayouts, layoutR1, sliceNat_bit_ne_zero]

/-! ### Received formats in a deselected card and in a token wait (rules R23, R202, R203) -/

theorem live_receive_deselected {s : State} {bytes : List Byte} {f : State → State} (hcs : s.cs = false) :
    live (receive bytes f) s = .next s := live_unchanged (if_neg (by simp [hcs]))

/-- The start token ends the token wait that is running (rule R202). -/
theorem exec_startToken_waiting {s : State} {n : Nat} {k : AfterToken} (hf : s.fault = none) (hcs : s.cs = true)
    (hw : s.waiting = some (.token n k)) : exec .startToken s = .next (waitToken n k (feed [s.cfg.startToken] s)) := by
  refine (live_of_none hf).trans ?_
  simp only [receive_of_selected hcs, feed_waiting, hw]

/-- Settles O60: a deselected card sends nothing, and otherwise the wait is resumed with the token as the card's next byte. -/
theorem receivedFormatsElsewhere : Obligations.ReceivedFormatsElsewhere := by
  intro s flags second payload code hf
  refine ⟨fun hcs => ?deselected, fun n hcs => ⟨fun hw => ?ret, fun m k data trail rest hw hfil hd hm ht hrx => ?block⟩⟩
  case deselected =>
    exact ⟨live_receive_deselected hcs, live_receive_deselected hcs, live_receive_deselected hcs, live_receive_deselected hcs,
      live_unchanged (if_neg (by simp [hcs]))⟩
  case ret =>
    rw [exec_startToken_waiting hf hcs hw, waitToken_token rfl]
    rfl
  case block =>
    match trail, ht with
    | [t0, t1], _ =>
      have hfeed : (feed [s.cfg.startToken] s).rx = s.cfg.startToken :: (data ++ (t0 :: t1 :: rest)) :=
        congrArg (s.cfg.startToken :: ·) hrx
      rw [exec_startToken_waiting hf hcs hw, waitToken_block (s := feed [s.cfg.startToken] s) hfil hd hm hfeed]
      rfl

end Sys2Proof.Machine
end

section
/-! Proofs of the statements about the sequencer, first clause: the advances of every instruction and of every resumed turn end in the
state the step gives. -/

namespace Sys2Proof.Machine

/-! ### A step is the run of its advances (rule R24) -/

section
variable {s t u : State} {f : State → State} {P Q : List Advance}

theorem live_moves (hf : s.fault = none) (h : Moves P s (f s)) : ∃ t, live f s = .next t ∧ Moves P s t :=
  ⟨f s, live_of_none hf, h⟩

/-- A row with a data phase: the entry into its state, then its operation. -/
theorem rowOp_moves {m : SeqState} (hf : s.fault = none) (h : Moves P (enter m s) (f (enter m s))) :
    ∃ t, rowOp m f s = .next t ∧ Moves (Sys2Proof.Machine.act (enter m) :: P) s t :=
  ⟨f (enter m s), rowOp_of_none hf, .step (by exact hf) rfl h⟩

theorem startTokenSeq_moves (hf : s.fault = none) (hk : s.filler = Config.fillerBuffer) :
    ∃ t, exec .startToken s = .next t ∧ Moves (sequence .startToken) s t := by
  refine live_moves hf (receiveSeq_moves hf rfl ?_)
  have hother : Moves [act fun s => atPhase .pToken (xchg Config.filler s), act (deliver .done)]
      (feed [s.cfg.startToken] s)
      (deliver .done (atPhase .pToken (xchg Config.filler (feed [s.cfg.startToken] s)))) :=
    .step (f := fun s => atPhase .pToken (xchg Config.filler s)) (by exact hf) rfl (.act rfl)
  rw [feed_waiting]
  cases s.waiting with
  | none => exact hother
  | some w =>
    cases w with
    | token n k => exact waitTokenSeq_moves n k (by exact hf) (by exact hk)
    | _ => exact hother

/-- The advances of an instruction end in the state it gives. -/
theorem sequence_moves (i : Instr) (hf : s.fault = none) (hk : s.filler = Config.fillerBuffer) :
    ∃ t, exec i s = .next t ∧ Moves (sequence i) s t := by
  cases i with
  | cmd0 => exact live_moves hf ((transactASeq_moves 0 Config.zeroArg hf).andThen fun _ => .act rfl)
  | cmd8 => exact live_moves hf ((transactCDSeq_moves 8 Config.checkArg hf).andThen fun _ => .act rfl)
  | cmd9 => exact rowOp_moves hf (regReadSeq_moves .dataPhase 9 .a 16 hf hk)
  | cmd10 => exact rowOp_moves hf (regReadSeq_moves .dataPhase 10 .a 16 hf hk)
  | acmd13 => exact rowOp_moves hf (appRegReadSeq_moves .dataPhase 13 .b 64 hf hk)
  | cmd16 => exact live_moves hf ((transactASeq_moves 16 Config.blocklenArg hf).andThen fun _ => .act rfl)
  | cmd17 index => exact rowOp_moves hf (sectorReadSeq_moves .dataPhase index hf hk)
  | cmd24 index =>
    exact ⟨_, rowOp_of_none hf, .cons (by exact hf) rfl (sectorWriteSeq_moves (s := enter .opWrite s) index s.wdata hf)⟩
  | acmd41 =>
    exact live_moves hf (((transactASeq_moves 55 Config.zeroArg hf).andThen (transactASeq_moves 41 Config.hcsArg)).andThen
      fun _ => .act rfl)
  | acmd51 => exact rowOp_moves hf (appRegReadSeq_moves .dataPhase 51 .a 8 hf hk)
  | cmd55 => exact live_moves hf ((transactASeq_moves 55 Config.zeroArg hf).andThen fun _ => .act rfl)
  | cmd58 => exact live_moves hf ((transactCDSeq_moves 58 Config.zeroArg hf).andThen fun _ => .act rfl)
  | init => exact live_moves hf (startOpSeq_moves hf ⟨hf, rfl⟩ (initSeq_moves (by exact hf) (by exact hk)))
  | readSector index =>
    refine live_moves hf (startOpSeq_moves (latch := fun s => { s with opArg := index }) hf ⟨hf, rfl⟩ ?_)
    exact .step (by exact hf) rfl (sectorReadSeq_moves .readSector index (by exact hf) (by exact hk))
  | writeSector index data =>
    refine live_moves hf (startOpSeq_moves (latch := fun s => { s with opArg := index, wdata := data }) hf ⟨hf, rfl⟩ ?_)
    exact .step (by exact hf) rfl (sectorWriteSeq_moves index data (by exact hf))
  | readCid =>
    exact live_moves hf (startOpSeq_moves hf ⟨hf, rfl⟩
      (.step (by exact hf) rfl (regReadSeq_moves .readCid 10 .a 16 (by exact hf) (by exact hk))))
  | readCsd =>
    exact live_moves hf (startOpSeq_moves hf ⟨hf, rfl⟩
      (.step (by exact hf) rfl (regReadSeq_moves .readCsd 9 .a 16 (by exact hf) (by exact hk))))
  | readOcr =>
    exact live_moves hf (startOpSeq_moves hf ⟨hf, rfl⟩
      (.step (P := transactCDSeq 58 Config.zeroArg ++ [_]) (by exact hf) rfl
        ((transactCDSeq_moves 58 Config.zeroArg (by exact hf)).andThen fun _ => .act rfl)))
  | readScr =>
    exact live_moves hf (startOpSeq_moves hf ⟨hf, rfl⟩
      (.step (by exact hf) rfl (appRegReadSeq_moves .readScr 51 .a 8 (by exact hf) (by exact hk))))
  | readSsr =>
    exact live_moves hf (startOpSeq_moves hf ⟨hf, rfl⟩
      (.step (by exact hf) rfl (appRegReadSeq_moves .readSsr 13 .b 64 (by exact hf) (by exact hk))))
  | eraseSector | reserved9 | reserved10 | reserved11 | reserved12 | reserved13 | reserved14 | reserved15 =>
    exact live_moves hf (.act (rejectOp_filler _ s))
  | crc7 bytes => exact live_moves hf ((crcSeq_moves bytes hf).append (by exact hf) (.act rfl))
  | crcByte bytes => exact live_moves hf ((crcSeq_moves bytes hf).append (by exact hf) (.act rfl))
  | frame idx arg => exact live_moves hf ((frameSeq_moves idx arg hf).append (by exact hf) (.act rfl))
  | issueCommand idx arg =>
    exact live_moves hf ((issueCommandSeq_moves idx arg hf).append ((issueCommand_fault idx arg).trans hf) (.act rfl))
  | pollStatus | respA => exact live_moves hf ((pollStatusSeq_moves hf).andThen fun _ => .act rfl)
  | respB => exact live_moves hf ((respBSeq_moves hf).andThen fun _ => .act rfl)
  | respCD => exact live_moves hf ((respCDSeq_moves hf).andThen fun _ => .act rfl)
  | waitToken => exact rowOp_moves hf (tokenSeq_moves .ret hf hk)
  | fetchBlock n => exact rowOp_moves hf (tokenSeq_moves (.block n .fetchOnly) hf hk)
  | sectorRead index => exact rowOp_moves hf (sectorReadSeq_moves .dataPhase index hf hk)
  | sectorWrite index data => exact rowOp_moves hf (sectorWriteSeq_moves index data hf)
  | eraseSectorOp index => exact live_moves hf (.act (raise_filler _ s))
  | regRead idx shape n => exact rowOp_moves hf (regReadSeq_moves .dataPhase idx shape n hf hk)
  | decodeCid | decodeCsd | decodeOcr | decodeScr | decodeSsr => exact live_moves hf (.act rfl)
  | select => exact live_moves hf (.step (f := select) (by exact hf) rfl (.act rfl))
  | deselect => exact live_moves hf ((deselectSeq_moves hf).append (by exact hf) (.act rfl))
  | xchg b => exact live_moves hf (.act rfl)
  | delayMs n => exact live_moves hf (.step (f := delayMs n) (by exact hf) rfl (.act rfl))
  | respFormatA flags => exact live_moves hf (receiveSeq_moves hf rfl ((pollStatusSeq_moves (by exact hf)).andThen fun _ => .act rfl))
  | respFormatB flags second =>
    exact live_moves hf (receiveSeq_moves hf rfl ((respBSeq_moves (by exact hf)).andThen fun _ => .act rfl))
  | respFormatCD flags payload =>
    exact live_moves hf (receiveSeq_moves hf rfl ((respCDSeq_moves (by exact hf)).andThen fun _ => .act rfl))
  | startToken => exact startTokenSeq_moves hf hk
  | dresp code => exact live_moves hf (receiveSeq_moves hf rfl (.step (by exact hf) rfl (.act rfl)))

theorem Moves.ends (h : Moves P s t) : ∃ n, Position.advance^[n] ⟨s, P⟩ = ⟨t, []⟩ := by
  obtain ⟨n, hn⟩ := h.reaches []
  exact ⟨n, by simpa using hn⟩

end

section
variable {s t : State}

/-! Where a step starts, case by case as `step` chooses. -/

theorem start_reset (hreset : s.resetRequest = true) : Position.start s = ⟨s, [act applyReset]⟩ := by
  simp [Position.start, hreset]

theorem start_faulted {r : Fatal} (hreset : s.resetRequest = false) (hf : s.fault = some r) :
    Position.start s = ⟨{ s with port := none }, []⟩ := by simp [Position.start, hreset, hf]

theorem start_waiting {w : Wait} (hreset : s.resetRequest = false) (hf : s.fault = none) (hw : s.waiting = some w) :
    Position.start s = ⟨{ s with port := none }, resumeSeq w⟩ := by simp [Position.start, hreset, hf, hw]

theorem start_no_request (hreset : s.resetRequest = false) (hf : s.fault = none) (hw : s.waiting = none) (hp : s.port = none) :
    Position.start s = ⟨s, []⟩ := by simp [Position.start, hreset, hf, hw, hp]

theorem start_port {p : PortWord} {i : Instr} (hreset : s.resetRequest = false) (hf : s.fault = none) (hw : s.waiting = none)
    (hp : s.port = some p) (hd : decode s.cfg p = .ok i) : Position.start s = ⟨{ s with port := none }, sequence i⟩ := by
  simp [Position.start, hreset, hf, hw, hp, hd]

/-- From where a step starts, its advances lead to the state it gives. -/
theorem start_ends (hk : s.filler = Config.fillerBuffer) (h : step s = .next t) :
    ∃ n, Position.advance^[n] (Position.start s) = ⟨t, []⟩ := by
  cases hreset : s.resetRequest with
  | true =>
    obtain rfl : applyReset s = t := by simpa [step_reset hreset] using h
    exact ⟨1, by rw [start_reset hreset]; rfl⟩
  | false =>
    cases hf : s.fault with
    | some r =>
      obtain rfl : { s with port := none } = t := by simpa [step_faulted hreset hf] using h
      exact ⟨0, start_faulted hreset hf⟩
    | none =>
      cases hw : s.waiting with
      | some w =>
        obtain rfl : resume w { s with port := none } = t := by simpa [step_waiting hreset hf hw] using h
        rw [start_waiting hreset hf hw]
        exact (resumeSeq_moves (s := { s with port := none }) w hf hk).ends
      | none =>
        cases hp : s.port with
        | none =>
          obtain rfl : s = t := by simpa [step_no_request hreset hf hw hp] using h
          exact ⟨0, start_no_request hreset hf hw hp⟩
        | some p =>
          cases hd : decode s.cfg p with
          | error e => simp [step_undecodable hreset hf hw hp hd] at h
          | ok i =>
            obtain ⟨u, hu, hmoves⟩ := sequence_moves (s := { s with port := none }) i hf hk
            obtain rfl : u = t := by simpa [step_port hreset hf hw hp hd, hu] using h
            rw [start_port hreset hf hw hp hd]
            exact hmoves.ends

end

end Sys2Proof.Machine
end

section
/-! Proofs of the statements about the sequencer, second clause: no advance of a step puts two events on the link. -/

namespace Sys2Proof.Machine

/-! ### One event an advance (rules R12, R24) -/

section
variable {s : State} {f : State → State} {P Q : List Advance}

/-- At most one event comes onto the trace. -/
def OneEvent (s t : State) : Prop := t.trace = s.trace ∨ ∃ e, t.trace = e :: s.trace

/-- An advance that puts at most one event on the link whatever the state, and so do those it puts in. -/
inductive Advance.Single : Advance → Prop
  | mk {effect : State → State} {more : State → List Advance} (heffect : ∀ s, OneEvent s (effect s))
      (hmore : ∀ s, ∀ a ∈ more s, Single a) : Single (.mk effect more)

/-- So do all advances of a list. -/
def Single (P : List Advance) : Prop := ∀ a ∈ P, a.Single

theorem Single.nil : Single [] := nofun

theorem Single.append (hP : Single P) (hQ : Single Q) : Single (P ++ Q) := List.forall_mem_append.mpr ⟨hP, hQ⟩

theorem Single.cons {more : State → List Advance} (hf : ∀ s, OneEvent s (f s)) (hmore : ∀ s, Single (more s)) (h : Single P) :
    Single (.mk f more :: P) := List.forall_mem_cons.mpr ⟨.mk hf hmore, h⟩

/-- A statement that puts nothing on the link. -/
theorem Single.silent (hf : ∀ s, (f s).trace = s.trace) (h : Single P) : Single (act f :: P) :=
  .cons (fun s => .inl (hf s)) (fun _ => .nil) h

/-- A statement that puts one event on the link. -/
theorem Single.put (e : State → LinkEvent) (hf : ∀ s, (f s).trace = e s :: s.trace) (h : Single P) : Single (act f :: P) :=
  .cons (fun s => .inr ⟨e s, hf s⟩) (fun _ => .nil) h

theorem Single.transfer {F : State → List Advance} (hF : ∀ s, Single (F s)) (h : Single P) :
    Single (Sys2Proof.Machine.transfer F :: P) := .cons (fun _ => .inl rfl) hF h

theorem Single.flatMap {α : Type} {l : List α} {F : α → List Advance} (hF : ∀ x, Single (F x)) : Single (l.flatMap F) := by
  intro a ha
  obtain ⟨x, -, ha⟩ := List.mem_flatMap.mp ha
  exact hF x a ha

theorem Single.ite {c : Prop} [Decidable c] (hP : Single P) (hQ : Single Q) : Single (if c then P else Q) := by
  split
  · exact hP
  · exact hQ

/-- A list of single advances stays one while it is made, and each advance puts at most one event on the link. -/
theorem Single.advance {p : Position} (h : Single p.todo) : Single p.advance.todo ∧ OneEvent p.state p.advance.state := by
  obtain ⟨s, todo⟩ := p
  match todo, h with
  | [], h => exact ⟨h, .inl rfl⟩
  | .mk effect more :: rest, h =>
    obtain ⟨⟨heffect, hmore⟩, hrest⟩ := List.forall_mem_cons.mp h
    refine ⟨?_, heffect s⟩
    rw [Position.advance]
    exact .ite .nil (.append (hmore s) hrest)

theorem Single.iterate {p : Position} (h : Single p.todo) (n : Nat) : Single (Position.advance^[n] p).todo := by
  induction n generalizing p with
  | zero => exact h
  | succ n ih => exact ih h.advance.1

/-! The advances of each operation. -/

theorem raise_single {r : State → Fatal} (h : Single P) : Single (act (fun s => raise (r s) s) :: P) :=
  .silent (fun s => raise_trace (r s) s) h

theorem checkR1_trace (idx : BitVec 6) (s : State) : (checkR1 idx s).trace = s.trace := by
  unfold checkR1
  split
  · exact raise_trace _ _
  · rfl

theorem checkWresp_trace (s : State) : (checkWresp s).trace = s.trace := by
  unfold checkWresp
  split
  · exact raise_trace _ _
  · rfl

theorem rejectOp_trace (what : Unimplemented) (s : State) : (rejectOp what s).trace = s.trace := by
  unfold rejectOp
  split
  · rfl
  · exact raise_trace _ _

/-- An exchange at a position, then what is done with the byte received. -/
theorem xchg_single {p : State → Phase} {b : State → Byte} {more : State → List Advance}
    (hmore : ∀ s, Single (more s)) (h : Single P) :
    Single (.mk (fun s => atPhase (p s) (xchg (b s) s)) more :: P) := .cons (fun _ => .inr ⟨_, rfl⟩) hmore h

theorem exchanges_single {at_ : Nat → Phase} {next : List Byte → List Advance} (ts : List Byte) (hn : ∀ got, Single (next got))
    (k : Nat) (got : List Byte) : Single (exchanges at_ k ts got next) := by
  induction ts generalizing k got with
  | nil => exact hn got
  | cons t ts ih => exact xchg_single (p := fun _ => at_ k) (b := fun _ => t) (fun _ => ih _ _) .nil

theorem exchangesOf_single {at_ : Nat → Phase} {ts : State → List Byte} {next : List Byte → List Advance}
    (hn : ∀ got, Single (next got)) : Single (exchangesOf at_ ts next) := by
  refine .cons (fun s => ?_) (fun s => ?_) .nil
  · split
    · exact .inl rfl
    · exact .inr ⟨_, rfl⟩
  · split
    · exact hn []
    · exact exchanges_single _ hn _ _

theorem deselectSeq_single : Single deselectSeq := .put (fun _ => .desel) (fun _ => rfl) (.silent (fun _ => rfl) .nil)

theorem crcBitSeq_single (d : Bool) : Single (crcBitSeq d) := by
  refine .cons (fun _ => .inl rfl) (fun s => .silent (fun t => ?_) .nil) .nil
  split <;> rfl

theorem frameSeq_single (idx : BitVec 6) (arg : Word32) : Single (frameSeq idx arg) :=
  .append (.silent (fun _ => rfl) (.flatMap crcBitSeq_single)) (.silent (fun _ => rfl) .nil)

theorem crcSeq_single (bytes : List Byte) : Single (crcSeq bytes) := .silent (fun _ => rfl) (.flatMap crcBitSeq_single)

theorem issueCommandSeq_single (idx : BitVec 6) (arg : Word32) : Single (issueCommandSeq idx arg) :=
  .append (.append (frameSeq_single idx arg) (.put (fun _ => .sel) (fun _ => rfl) .nil)) (exchanges_single _ (fun _ => .nil) _ _)

theorem pollSeq_single (k : Nat) : Single (pollSeq k) := by
  induction k with
  | zero => exact raise_single .nil
  | succ k ih =>
    exact xchg_single (p := fun s => .pPoll (s.pollCnt.toNat + 1)) (fun _ => .silent (fun _ => rfl)
      (.transfer (fun _ => .ite (.silent (fun _ => rfl) .nil) (.transfer (fun _ => ih) .nil)) .nil)) .nil

theorem pollStatusSeq_single : Single pollStatusSeq := .silent (fun _ => rfl) (pollSeq_single _)

theorem respBSeq_single : Single respBSeq := .append pollStatusSeq_single (.put (fun _ => _) (fun _ => rfl) .nil)

theorem respCDSeq_single : Single respCDSeq := by
  refine .append pollStatusSeq_single (exchanges_single _ (fun e => ?_) _ _)
  exact .silent (fun _ => rfl) .nil

theorem respShapeSeq_single (shape : Shape) : Single (respShapeSeq shape) := by
  cases shape with
  | a => exact pollStatusSeq_single
  | b => exact respBSeq_single
  | cd => exact respCDSeq_single
  | other code => exact raise_single .nil

theorem transactASeq_single (idx : BitVec 6) (arg : Word32) : Single (transactASeq idx arg) :=
  .append (.append (issueCommandSeq_single idx arg) pollStatusSeq_single) deselectSeq_single

theorem transactCDSeq_single (idx : BitVec 6) (arg : Word32) : Single (transactCDSeq idx arg) :=
  .append (.append (issueCommandSeq_single idx arg) respCDSeq_single) deselectSeq_single

theorem receiveBlockSeq_single (n : Nat) : Single (receiveBlockSeq n) :=
  .append (exchangesOf_single fun _ => .silent (fun _ => rfl) .nil) (exchangesOf_single fun _ => .nil)

theorem afterBlockSeq_single (n : Nat) (k : AfterBlock) : Single (afterBlockSeq n k) := by
  cases k with
  | fetchOnly => exact .silent (fun _ => rfl) .nil
  | initCsd => exact deselectSeq_single.append (.silent (fun _ => rfl) (.silent (fun _ => rfl) .nil))
  | _ => exact deselectSeq_single.append (.silent (fun _ => rfl) .nil)

theorem afterTokenSeq_single (k : AfterToken) : Single (afterTokenSeq k) := by
  cases k with
  | ret => exact .silent (fun _ => rfl) .nil
  | block n k => exact (receiveBlockSeq_single n).append (afterBlockSeq_single n k)

theorem boundTest_single {bound : State → Option Nat} {n : Nat} {loop : LoopName} (h : Single P) :
    Single (boundTest bound n loop :: P) := by
  refine .silent (fun s => ?_) h
  split
  · exact raise_trace _ _
  · rfl

theorem backToHead_single : Single [backToHead] := .transfer (fun _ => .nil) .nil

theorem waitTokenSeq_single (n : Nat) (k : AfterToken) : Single (waitTokenSeq n k) :=
  xchg_single (p := fun _ => .pToken) (fun _ => .silent (fun _ => rfl) (.transfer (fun _ =>
    .ite (.silent (fun _ => rfl) (afterTokenSeq_single k)) (boundTest_single backToHead_single)) .nil)) .nil

theorem tokenSeq_single (k : AfterToken) : Single (tokenSeq k) := .silent (fun _ => rfl) (waitTokenSeq_single 0 k)

theorem openedSeq_single (idx : BitVec 6) (arg : Word32) (shape : Shape) : Single (openedSeq idx arg shape) :=
  .append (.append (issueCommandSeq_single idx arg) (respShapeSeq_single shape)) (.silent (checkR1_trace idx) .nil)

theorem sectorReadSeq_single (k : AfterBlock) (index : Word32) : Single (sectorReadSeq k index) :=
  .append (openedSeq_single 17 index .a) (tokenSeq_single _)

theorem regReadSeq_single (k : AfterBlock) (idx : BitVec 6) (shape : Shape) (n : Nat) : Single (regReadSeq k idx shape n) := by
  cases shape with
  | other code => exact raise_single .nil
  | a => exact (openedSeq_single idx _ .a).append (tokenSeq_single _)
  | b => exact (openedSeq_single idx _ .b).append (tokenSeq_single _)
  | cd => exact (openedSeq_single idx _ .cd).append (tokenSeq_single _)

theorem prefixSeq_single : Single prefixSeq := transactASeq_single 55 _

theorem appRegReadSeq_single (k : AfterBlock) (idx : BitVec 6) (shape : Shape) (n : Nat) : Single (appRegReadSeq k idx shape n) :=
  prefixSeq_single.append (regReadSeq_single k idx shape n)

theorem sendBlockSeq_single (data : List Byte) : Single (sendBlockSeq data) :=
  .append (.append (.append
    (xchg_single (p := fun _ => .pGap) (fun _ => .nil) (xchg_single (p := fun _ => .pWToken) (fun _ => .nil) .nil))
    (exchanges_single _ (fun _ => .nil) _ _)) (exchangesOf_single fun _ => .nil)) (.put (fun _ => _) (fun _ => rfl) .nil)

theorem busyWaitSeq_single (n : Nat) : Single (busyWaitSeq n) :=
  xchg_single (p := fun _ => .pBusy) (fun _ => .silent (fun _ => rfl) (.transfer (fun _ =>
    .ite (.silent (fun _ => rfl) (deselectSeq_single.append (.silent checkWresp_trace (.silent (fun _ => rfl) .nil))))
      (boundTest_single backToHead_single)) .nil)) .nil

theorem sectorWriteSeq_single (index : Word32) (data : List Byte) : Single (sectorWriteSeq index data) :=
  .append (.append (openedSeq_single 24 index .a) (sendBlockSeq_single data)) (.silent (fun _ => rfl) (busyWaitSeq_single 0))

theorem terminalSeq_single : Single terminalSeq :=
  .silent (fun _ => rfl) (.transfer (fun _ => .ite (regReadSeq_single _ _ _ _) (.silent (fun _ => rfl) .nil)) .nil)

theorem branchSeq_single : Single branchSeq :=
  .transfer (fun _ => .ite (.silent (fun _ => rfl) .nil)
    (.transfer (fun _ => .ite (transactASeq_single 16 _) .nil) (raise_single .nil))) .nil

theorem afterActivateSeq_single : Single afterActivateSeq :=
  .append (.append (transactCDSeq_single 58 _) (.silent (fun _ => rfl) .nil))
    (.append (.silent (fun _ => rfl) branchSeq_single) terminalSeq_single)

theorem activateSeq_single (n : Nat) : Single (activateSeq n) :=
  .append (prefixSeq_single.append (transactASeq_single 41 _)) (.silent (fun _ => rfl) (.transfer (fun _ =>
    .ite (.silent (fun _ => rfl) (.silent (fun _ => rfl) afterActivateSeq_single))
      (boundTest_single (.put (fun _ => .delay Config.acmd41DelayMs) (fun _ => rfl) backToHead_single))) .nil))

/-- A test on the state that raises or goes on. -/
theorem test_single {c : State → Prop} [DecidablePred c] {r : State → Fatal} :
    Single [act fun s => if c s then s else raise (r s) s] := by
  refine .silent (fun s => ?_) .nil
  split
  · rfl
  · exact raise_trace _ _

theorem initResetSeq_single : Single initResetSeq := by
  have hclock : Single [act (xchg Config.filler)] := .put (fun _ => _) (fun _ => rfl) .nil
  have hclocks : Single (List.replicate Config.resetFillerBytes (act (xchg Config.filler))) := fun a ha =>
    hclock a (List.mem_singleton.mpr (List.eq_of_mem_replicate ha))
  exact .append (.append (.put (fun _ => .desel) (fun _ => rfl) .nil) hclocks)
    (.put (fun _ => .delay Config.resetDelayMs) (fun _ => rfl) .nil)

theorem initSeq_single : Single initSeq := by
  have hgoIdle : Single goIdleSeq := (transactASeq_single 0 _).append test_single
  have hifCond : Single sendIfCondSeq := (transactCDSeq_single 8 _).append test_single
  exact .append (.append (.append (.silent (fun _ => rfl) initResetSeq_single) (.silent (fun _ => rfl) hgoIdle))
    (.silent (fun _ => rfl) hifCond)) (.silent (fun _ => rfl) (.silent (fun _ => rfl) (activateSeq_single 0)))

theorem resumeSeq_single (w : Wait) : Single (resumeSeq w) := by
  cases w with
  | token n k => exact waitTokenSeq_single n k
  | busy n => exact busyWaitSeq_single n
  | activate n => exact .silent (fun _ => rfl) (activateSeq_single n)

theorem startOpSeq_single {code : BitVec 4} {latch : State → State} {body : State → List Advance}
    (hl : ∀ s : State, (latch { s with op := code }).trace = s.trace) (h : ∀ s, Single (body s)) :
    Single (startOpSeq code latch body) := by
  refine .transfer (fun _ => .ite .nil (.silent hl (.cons (fun s => .inl ?_) h .nil))) .nil
  split
  · exact raise_trace _ _
  · rfl

theorem receiveSeq_single {bytes : State → List Byte} {body : State → List Advance} (h : ∀ s, Single (body s)) :
    Single (receiveSeq bytes body) :=
  .transfer (fun s => .ite (.silent (fun _ => rfl) (h s)) .nil) .nil

/-- The answer of a row. -/
theorem answer_single {r : State → Result} : Single [act fun s => deliver (r s) s] := .silent (fun _ => rfl) .nil

theorem sequence_single (i : Instr) : Single (sequence i) := by
  cases i with
  | cmd0 => exact (transactASeq_single 0 _).append answer_single
  | cmd8 => exact (transactCDSeq_single 8 _).append answer_single
  | cmd9 => exact .silent (fun _ => rfl) (regReadSeq_single _ _ _ _)
  | cmd10 => exact .silent (fun _ => rfl) (regReadSeq_single _ _ _ _)
  | acmd13 => exact .silent (fun _ => rfl) (appRegReadSeq_single _ _ _ _)
  | cmd16 => exact (transactASeq_single 16 _).append answer_single
  | cmd17 index => exact .silent (fun _ => rfl) (sectorReadSeq_single _ _)
  | cmd24 index => exact .cons (fun _ => .inl rfl) (fun _ => sectorWriteSeq_single _ _) .nil
  | acmd41 => exact (prefixSeq_single.append (transactASeq_single 41 _)).append answer_single
  | acmd51 => exact .silent (fun _ => rfl) (appRegReadSeq_single _ _ _ _)
  | cmd55 => exact prefixSeq_single.append answer_single
  | cmd58 => exact (transactCDSeq_single 58 _).append answer_single
  | init => exact startOpSeq_single (fun _ => rfl) fun _ => initSeq_single
  | readSector index =>
    exact startOpSeq_single (latch := fun s => { s with opArg := index }) (fun _ => rfl) fun _ =>
      .silent (fun _ => rfl) (sectorReadSeq_single _ _)
  | writeSector index data =>
    exact startOpSeq_single (latch := fun s => { s with opArg := index, wdata := data }) (fun _ => rfl) fun _ =>
      .silent (fun _ => rfl) (sectorWriteSeq_single _ _)
  | readCid | readCsd => exact startOpSeq_single (fun _ => rfl) fun _ => .silent (fun _ => rfl) (regReadSeq_single _ _ _ _)
  | readOcr =>
    exact startOpSeq_single (fun _ => rfl) fun _ =>
      .append (.silent (fun _ => rfl) (transactCDSeq_single 58 _)) (.silent (fun _ => rfl) .nil)
  | readScr | readSsr => exact startOpSeq_single (fun _ => rfl) fun _ => .silent (fun _ => rfl) (appRegReadSeq_single _ _ _ _)
  | eraseSector | reserved9 | reserved10 | reserved11 | reserved12 | reserved13 | reserved14 | reserved15 =>
    exact .silent (rejectOp_trace _) .nil
  | crc7 bytes | crcByte bytes => exact (crcSeq_single bytes).append answer_single
  | frame idx arg => exact (frameSeq_single idx arg).append answer_single
  | issueCommand idx arg => exact (issueCommandSeq_single idx arg).append answer_single
  | pollStatus | respA => exact pollStatusSeq_single.append answer_single
  | respB => exact respBSeq_single.append answer_single
  | respCD => exact respCDSeq_single.append answer_single
  | waitToken | fetchBlock => exact .silent (fun _ => rfl) (tokenSeq_single _)
  | sectorRead index => exact .silent (fun _ => rfl) (sectorReadSeq_single _ _)
  | sectorWrite index data => exact .silent (fun _ => rfl) (sectorWriteSeq_single _ _)
  | eraseSectorOp index => exact raise_single .nil
  | regRead idx shape n => exact .silent (fun _ => rfl) (regReadSeq_single _ _ _ _)
  | decodeCid | decodeCsd | decodeOcr | decodeScr | decodeSsr => exact answer_single
  | select => exact .put (fun _ => .sel) (fun _ => rfl) answer_single
  | deselect => exact deselectSeq_single.append answer_single
  | xchg b => exact .put (fun _ => _) (fun _ => rfl) .nil
  | delayMs n => exact .put (fun _ => .delay n) (fun _ => rfl) answer_single
  | respFormatA flags => exact receiveSeq_single fun _ => pollStatusSeq_single.append answer_single
  | respFormatB flags second => exact receiveSeq_single fun _ => respBSeq_single.append answer_single
  | respFormatCD flags payload => exact receiveSeq_single fun _ => respCDSeq_single.append answer_single
  | startToken =>
    refine receiveSeq_single fun s => ?_
    split
    · exact waitTokenSeq_single _ _
    · exact xchg_single (p := fun _ => .pToken) (fun _ => .nil) answer_single
  | dresp code => exact receiveSeq_single fun _ => .put (fun _ => _) (fun _ => rfl) answer_single

/-- The advances of a step without a reset event. -/
theorem start_single (hreset : s.resetRequest = false) : Single (Position.start s).todo := by
  rw [Position.start, if_neg (by simp [hreset])]
  split
  · exact .nil
  · split
    · exact resumeSeq_single _
    · split
      · exact .nil
      · split
        · exact sequence_single _
        · exact .nil

theorem advanced_oneEvent (hreset : s.resetRequest = false) (n : Nat) : OneEvent (advanced n s) (advanced (n + 1) s) := by
  rw [advanced, advanced, Function.iterate_succ_apply']
  exact ((start_single hreset).iterate n).advance.2

end

end Sys2Proof.Machine
end

section
/-! Proofs of the statements about the sequencer, third clause: the positions of each piece of a transaction, whatever the card
answers. -/

namespace Sys2Proof.Machine

/-! ### The positions of each piece of a transaction (rules R24, R143, R152 to R155, R203, R208) -/

section
variable {s t u v : State} {P Q : List Advance}

/-- An advance that raises no fault, then more. -/
theorem iterate_cons {f : State → State} {more : State → List Advance} {rest : List Advance} (n : Nat) (hf : (f s).fault = none) :
    Position.advance^[n + 1] ⟨s, .mk f more :: rest⟩ = Position.advance^[n] ⟨f s, more s ++ rest⟩ := by
  rw [Function.iterate_succ_apply, advance_cons hf]

/-- A statement that raises no fault, then more. -/
theorem iterate_act {f : State → State} (n : Nat) (hf : (f s).fault = none) :
    Position.advance^[n + 1] ⟨s, act f :: Q⟩ = Position.advance^[n] ⟨f s, Q⟩ := iterate_cons n hf

/-- Two states that differ in the position held at most. -/
def EqUpToPhase (v u : State) : Prop := ∀ p, atPhase p v = atPhase p u

theorem EqUpToPhase.xchgN (h : EqUpToPhase v u) (ts : List Byte) : EqUpToPhase (xchgN ts v) (xchgN ts u) := fun p => by
  rw [← xchgN_atPhase, ← xchgN_atPhase, h p]

theorem EqUpToPhase.fault (h : EqUpToPhase v u) : v.fault = u.fault := by
  simpa using congrArg State.fault (h .pDesel)

theorem EqUpToPhase.cfg (h : EqUpToPhase v u) : v.cfg = u.cfg := by
  simpa using congrArg State.cfg (h .pDesel)

theorem EqUpToPhase.filler (h : EqUpToPhase v u) : v.filler = u.filler := by
  simpa using congrArg State.filler (h .pDesel)

theorem xchgN_cfg (ts : List Byte) (s : State) : (xchgN ts s).cfg = s.cfg := by rw [xchgN_eq]

theorem xchgN_setBuf (ts data : List Byte) (s : State) : xchgN ts { s with buf := data } = { xchgN ts s with buf := data } := by
  induction ts generalizing s with
  | nil => rfl
  | cons t ts ih => exact ih (xchg t s)

theorem replies_setPollCnt (ts : List Byte) (c : BitVec 4) (s : State) : replies ts { s with pollCnt := c } = replies ts s := by
  induction ts generalizing s with
  | nil => rfl
  | cons t ts ih => exact congrArg (reply t s :: ·) (ih (xchg t s))

/-! The command frame: 82 advances for `Frame`, one for the selection, then the bytes. -/

theorem issueCommandSeq_selected (idx : BitVec 6) (arg : Word32) (hf : s.fault = none) :
    Position.advance^[83] ⟨s, issueCommandSeq idx arg⟩ =
      ⟨select (buildFrame idx arg s), exchanges .pFrame 0 (frameBytes idx arg) [] fun _ => []⟩ := by
  rw [issueCommandSeq, List.append_assoc, show 83 = 1 + 82 from rfl, Function.iterate_add_apply, frameSeq_position idx arg hf]
  exact iterate_act 0 hf

theorem issueCommandSeq_position (idx : BitVec 6) (arg : Word32) {k : Nat} (hf : s.fault = none) (hk : k < 6) :
    (Position.advance^[k + 84] ⟨s, issueCommandSeq idx arg⟩).state =
      atPhase (.pFrame k) (xchgN ((frameBytes idx arg).take (k + 1)) (select (buildFrame idx arg s))) := by
  have h := exchanges_position (s := select (buildFrame idx arg s)) (at_ := .pFrame) (next := fun _ => []) (rest := []) (j := 0)
    (got := []) (ts := frameBytes idx arg) hf hk
  rw [List.append_nil, Nat.zero_add] at h
  rw [show k + 84 = (k + 1) + 83 by omega, Function.iterate_add_apply, issueCommandSeq_selected idx arg hf, h]

/-! The status poll: four advances a byte that is no status byte. -/

/-- The state after a poll that found no status byte. -/
def afterMiss (s : State) : State :=
  atPhase (.pPoll (s.pollCnt.toNat + 1)) { xchg Config.filler s with pollCnt := s.pollCnt + 1 }

/-- The advances after the exchange of a poll that received `b`, with `k` attempts left. -/
def pollTestSeq (k : Nat) (b : Byte) : List Advance :=
  [act fun s => { s with pollCnt := s.pollCnt + 1 },
    transfer fun _ => if isStatus b then [act fun s => { s with r1 := b }] else [transfer fun _ => pollSeq k]]

theorem advance_pollSeq (k : Nat) (hf : s.fault = none) :
    Position.advance ⟨s, pollSeq (k + 1) ++ Q⟩ =
      ⟨atPhase (.pPoll (s.pollCnt.toNat + 1)) (xchg Config.filler s), pollTestSeq k (reply Config.filler s) ++ Q⟩ :=
  advance_cons (by exact hf)

theorem pollSeq_miss (k : Nat) (hf : s.fault = none) (hb : isStatus (reply Config.filler s) = false) :
    Position.advance^[4] ⟨s, pollSeq (k + 1) ++ Q⟩ = ⟨afterMiss s, pollSeq k ++ Q⟩ := by
  rw [Function.iterate_succ_apply, advance_pollSeq k hf, pollTestSeq, hb]
  exact (iterate_act 2 (by exact hf)).trans ((iterate_cons 1 (by exact hf)).trans (iterate_cons 0 (by exact hf)))

theorem pollSeq_position {i k : Nat} (hf : s.fault = none) (hi : i < k) (hcnt : s.pollCnt.toNat + i < 16)
    (hs : ∀ b ∈ replies (List.replicate i Config.filler) s, isStatus b = false) :
    (Position.advance^[4 * i + 1] ⟨s, pollSeq k ++ Q⟩).state =
      atPhase (.pPoll (s.pollCnt.toNat + i + 1))
        (xchgN (List.replicate (i + 1) Config.filler) { s with pollCnt := s.pollCnt + BitVec.ofNat 4 i }) := by
  induction i generalizing s k with
  | zero =>
    obtain ⟨k, rfl⟩ : ∃ j, k = j + 1 := ⟨k - 1, by omega⟩
    have h0 : s.pollCnt + BitVec.ofNat 4 0 = s.pollCnt := BitVec.add_zero _
    rw [Nat.mul_zero, Nat.zero_add, Function.iterate_one, advance_pollSeq k hf, h0]
    rfl
  | succ i ih =>
    obtain ⟨k, rfl⟩ : ∃ j, k = j + 1 := ⟨k - 1, by omega⟩
    obtain ⟨hb, hs⟩ := List.forall_mem_cons.mp hs
    have hp : (afterMiss s).pollCnt.toNat = s.pollCnt.toNat + 1 := by
      show (s.pollCnt + 1).toNat = _
      rw [BitVec.toNat_add]
      exact Nat.mod_eq_of_lt (by simp; omega)
    have hr : replies (List.replicate i Config.filler) (afterMiss s) =
        replies (List.replicate i Config.filler) (xchg Config.filler s) :=
      (replies_atPhase _ _ _).trans (replies_setPollCnt _ _ _)
    have hadd : s.pollCnt + 1 + BitVec.ofNat 4 i = s.pollCnt + BitVec.ofNat 4 (i + 1) := by
      rw [BitVec.add_assoc, Nat.add_comm i, BitVec.ofNat_add]
      rfl
    have h := ih (s := afterMiss s) (k := k) hf (by omega) (by omega) (by rw [hr]; exact hs)
    rw [show 4 * (i + 1) + 1 = (4 * i + 1) + 4 by omega, Function.iterate_add_apply, pollSeq_miss k hf hb, h, hp,
      Nat.add_right_comm _ 1, ← hadd]
    have hsame : EqUpToPhase { afterMiss s with pollCnt := (afterMiss s).pollCnt + BitVec.ofNat 4 i }
        (xchg Config.filler { s with pollCnt := s.pollCnt + 1 + BitVec.ofNat 4 i }) := fun _ => rfl
    exact hsame.xchgN (List.replicate (i + 1) Config.filler) _

theorem pollStatusSeq_position {i : Nat} (hf : s.fault = none) (hi : i < 8)
    (hs : ∀ b ∈ replies (List.replicate i Config.filler) s, isStatus b = false) :
    (Position.advance^[4 * i + 2] ⟨s, pollStatusSeq⟩).state =
      atPhase (.pPoll (i + 1)) (xchgN (List.replicate (i + 1) Config.filler) { s with pollCnt := BitVec.ofNat 4 i }) := by
  have h := pollSeq_position (s := { s with pollCnt := 0 }) (i := i) (k := 8) (Q := []) hf hi (by simp; omega)
    (by rw [replies_setPollCnt]; exact hs)
  rw [List.append_nil] at h
  rw [pollStatusSeq, iterate_act (4 * i + 1) (by exact hf)]
  refine h.trans ?_
  simp

/-! The bytes after the status byte. -/

/-- The advances after `P` are made from where `P` ends. -/
theorem Moves.position (h : Moves P s t) (ht : t.fault = none) (k : Nat) :
    ∃ n, Position.advance^[n] ⟨s, P ++ Q⟩ = Position.advance^[k] ⟨t, Q⟩ := by
  obtain ⟨n, hn⟩ := h.reaches Q
  exact ⟨k + n, by simp [Function.iterate_add_apply, hn, ht]⟩

theorem respBSeq_position (hf : s.fault = none) (hp : (pollStatus s).fault = none) :
    ∃ n, (Position.advance^[n] ⟨s, respBSeq⟩).state = secondByte (pollStatus s) := by
  obtain ⟨n, hn⟩ := (pollStatusSeq_moves hf).position (Q := [act secondByte]) hp 1
  exact ⟨n, congrArg Position.state hn⟩

/-- What is done with the four payload bytes (rule R155). -/
def payloadSeq (e : List Byte) : List Advance := [act fun s => { s with payload := be32List e }]

theorem respCDSeq_position {k : Nat} (hf : s.fault = none) (hp : (pollStatus s).fault = none) (hk : k < 4) :
    ∃ n, (Position.advance^[n] ⟨s, respCDSeq⟩).state =
      atPhase (.pExtra k) (xchgN (List.replicate (k + 1) Config.filler) (pollStatus s)) := by
  obtain ⟨n, hn⟩ := (pollStatusSeq_moves hf).position
    (Q := exchanges .pExtra 0 (List.replicate 4 Config.filler) [] payloadSeq) hp (k + 1)
  have h := exchanges_position (at_ := .pExtra) (next := payloadSeq) (rest := []) (j := 0) (got := [])
    (ts := List.replicate 4 Config.filler) hp (by simpa using hk)
  rw [List.append_nil, Nat.zero_add, List.take_replicate, Nat.min_eq_left (by omega)] at h
  exact ⟨n, (congrArg Position.state hn).trans h⟩

/-! A byte string read from the state. -/

section
variable {at_ : Nat → Phase} {next : List Byte → List Advance} {ts : State → List Byte}

theorem exchangesOf_first {b : Byte} {l : List Byte} (n : Nat) (hts : ts s = b :: l) (hf : s.fault = none) :
    Position.advance^[n + 1] ⟨s, exchangesOf at_ ts next ++ Q⟩ =
      Position.advance^[n] ⟨atPhase (at_ 0) (xchg b s), exchanges at_ 1 l [reply b s] next ++ Q⟩ := by
  rw [exchangesOf, List.cons_append, iterate_cons n (by simp [hts, hf])]
  simp only [hts]
  rfl

theorem exchangesOf_position {l : List Byte} {k : Nat} (hts : ts s = l) (hf : s.fault = none) (hk : k < l.length) :
    (Position.advance^[k + 1] ⟨s, exchangesOf at_ ts next ++ Q⟩).state = atPhase (at_ k) (xchgN (l.take (k + 1)) s) := by
  match l, k, hk with
  | b :: l, 0, _ => rw [exchangesOf_first 0 hts hf]; rfl
  | b :: l, k + 1, hk =>
    rw [exchangesOf_first (k + 1) hts hf, exchanges_position (by exact hf) (by simpa using hk), xchgN_atPhase, atPhase_atPhase,
      Nat.add_comm 1]
    rfl

/-- A byte string read from the state is exchanged after as many advances, an empty one after one. -/
theorem exchangesOf_done {l : List Byte} (hts : ts s = l) (hf : s.fault = none) :
    ∃ v, Position.advance^[max l.length 1] ⟨s, exchangesOf at_ ts next ++ Q⟩ = ⟨v, next (replies l s) ++ Q⟩ ∧
      EqUpToPhase v (xchgN l s) := by
  match l with
  | [] =>
    refine ⟨s, ?_, fun _ => rfl⟩
    rw [exchangesOf, List.cons_append, List.length_nil, Nat.max_eq_right (Nat.zero_le 1), iterate_cons 0 (by simp [hts, hf])]
    simp only [hts]
    rfl
  | [b] => exact ⟨_, exchangesOf_first 0 hts hf, fun _ => rfl⟩
  | b :: c :: l =>
    have hrest := exchanges_done (s := atPhase (at_ 0) (xchg b s)) (at_ := at_) (next := next) (rest := Q) (k := 1) (got := [reply b s])
      (t := c) l (by exact hf)
    rw [replies_atPhase, xchgN_atPhase, atPhase_atPhase] at hrest
    exact ⟨_, (exchangesOf_first (l.length + 1) hts hf).trans hrest, fun _ => rfl⟩

/-- The same for a byte string that is given. -/
theorem exchanges_given_done {l : List Byte} (hf : s.fault = none) :
    ∃ v, Position.advance^[l.length] ⟨s, exchanges at_ 0 l [] next ++ Q⟩ = ⟨v, next (replies l s) ++ Q⟩ ∧
      EqUpToPhase v (xchgN l s) := by
  match l with
  | [] => exact ⟨s, rfl, fun _ => rfl⟩
  | b :: l => exact ⟨_, exchanges_done l hf, fun _ => rfl⟩

end

/-! The inbound block: the data, the write of `buf`, the two checksum bytes. -/

section
variable {n k : Nat}

/-- The state between the data of a block and its checksum bytes, but for the position. -/
def blockWritten (n : Nat) (s : State) : State :=
  { xchgN (List.replicate n Config.filler) s with buf := replies (List.replicate n Config.filler) s ++ s.buf.drop n }

theorem receiveBlockSeq_pData (hf : s.fault = none) (hfil : s.filler = Config.fillerBuffer) (hn : n ≤ 512) (hk : k < n) :
    (Position.advance^[k + 1] ⟨s, receiveBlockSeq n⟩).state = atPhase (.pData k) (xchgN (List.replicate (k + 1) Config.filler) s) := by
  have htake : s.filler.take n = List.replicate n Config.filler := by rw [hfil, fillerBuffer_take hn]
  rw [receiveBlockSeq, exchangesOf_position htake hf (by simpa using hk), List.take_replicate, Nat.min_eq_left (by omega)]

theorem receiveBlockSeq_written (hf : s.fault = none) (hfil : s.filler = Config.fillerBuffer) (hn : n ≤ 512) :
    ∃ v, Position.advance^[max n 1 + 1] ⟨s, receiveBlockSeq n⟩ =
        ⟨v, exchangesOf .pCrc (fun s => s.filler.take Config.blockCrcBytes) fun _ => []⟩ ∧ EqUpToPhase v (blockWritten n s) := by
  have htake : s.filler.take n = List.replicate n Config.filler := by rw [hfil, fillerBuffer_take hn]
  obtain ⟨u, hu, hsame⟩ := exchangesOf_done (at_ := .pData) (next := fun data => [act fun s => { s with buf := data ++ s.buf.drop n }])
    (Q := exchangesOf .pCrc (fun s => s.filler.take Config.blockCrcBytes) fun _ => []) (ts := fun s => s.filler.take n) htake hf
  rw [List.length_replicate] at hu
  have hbuf : u.buf = s.buf := by
    have h := congrArg State.buf (hsame .pDesel)
    simpa [xchgN_buf] using h
  refine ⟨{ u with buf := replies (List.replicate n Config.filler) s ++ u.buf.drop n }, ?_, fun p => ?_⟩
  · rw [receiveBlockSeq, Nat.add_comm, Function.iterate_add_apply, hu]
    exact iterate_act 0 (by rw [hsame.fault, xchgN_fault]; exact hf)
  · rw [hbuf, blockWritten]
    exact congrArg (fun w : State => { w with buf := replies (List.replicate n Config.filler) s ++ s.buf.drop n }) (hsame p)

theorem receiveBlockSeq_pCrc (hf : s.fault = none) (hfil : s.filler = Config.fillerBuffer) (hn : n ≤ 512) (hk : k < 2) :
    (Position.advance^[max n 1 + k + 2] ⟨s, receiveBlockSeq n⟩).state =
      atPhase (.pCrc k)
        { xchgN (List.replicate (n + (k + 1)) Config.filler) s with
          buf := replies (List.replicate n Config.filler) s ++ s.buf.drop n } := by
  obtain ⟨v, hv, hsame⟩ := receiveBlockSeq_written hf hfil hn
  have hvf : v.fault = none := hsame.fault.trans ((xchgN_fault _).trans hf)
  have hfiller : v.filler = Config.fillerBuffer := hsame.filler.trans ((xchgN_filler _ _).trans hfil)
  have htake : v.filler.take Config.blockCrcBytes = List.replicate 2 Config.filler := by
    rw [hfiller]
    exact fillerBuffer_take (by decide)
  have hpos := exchangesOf_position (at_ := .pCrc) (next := fun _ => []) (Q := []) (ts := fun s => s.filler.take Config.blockCrcBytes)
    htake hvf (k := k) (by simpa using hk)
  rw [List.append_nil, List.take_replicate, Nat.min_eq_left (by omega)] at hpos
  rw [show max n 1 + k + 2 = (k + 1) + (max n 1 + 1) by omega, Function.iterate_add_apply, hv, hpos, hsame.xchgN _ _, blockWritten,
    xchgN_setBuf, List.replicate_add n, xchgN_append]

end

/-! The outbound block: the gap and the token, the data, the checksum field, the acceptance byte. -/

section
variable {data : List Byte} {k : Nat}

/-- The bytes of an outbound block before its data. -/
def writeHead (s : State) : List Byte := [Config.filler, s.cfg.startToken]

/-- The two bytes of its checksum field. -/
def writeCrc (s : State) : List Byte := [s.cfg.writeCrc0, s.cfg.writeCrc1]

/-- The reception of the acceptance byte. -/
def acceptByte (s : State) : State := atPhase .pWResp { xchg Config.filler s with wresp := reply Config.filler s }

theorem acceptByte_eq_of_eqUpToPhase (h : EqUpToPhase v u) : acceptByte v = acceptByte u := by
  have hphase : acceptByte (atPhase .pDesel v) = acceptByte (atPhase .pDesel u) := by rw [h .pDesel]
  exact hphase

theorem sendBlockSeq_headed (n : Nat) (hf : s.fault = none) :
    Position.advance^[n + 2] ⟨s, sendBlockSeq data⟩ =
      Position.advance^[n] ⟨atPhase .pWToken (xchgN (writeHead s) s), exchanges .pWData 0 data [] (fun _ => []) ++
        (exchangesOf .pWCrc writeCrc (fun _ => []) ++ [act acceptByte])⟩ := by
  rw [sendBlockSeq, List.append_assoc, List.append_assoc]
  exact (iterate_act (n + 1) (by exact hf)).trans (iterate_act n (by exact hf))

theorem sendBlockSeq_pWData (hf : s.fault = none) (hk : k < data.length) :
    (Position.advance^[k + 3] ⟨s, sendBlockSeq data⟩).state =
      atPhase (.pWData k) (xchgN (writeHead s ++ data.take (k + 1)) s) := by
  rw [sendBlockSeq_headed (k + 1) hf, exchanges_position (by exact (xchgN_fault _).trans hf) hk, xchgN_atPhase, atPhase_atPhase,
    ← xchgN_append, Nat.zero_add]

theorem sendBlockSeq_written (hf : s.fault = none) :
    ∃ v, Position.advance^[data.length + 2] ⟨s, sendBlockSeq data⟩ =
        ⟨v, exchangesOf .pWCrc writeCrc (fun _ => []) ++ [act acceptByte]⟩ ∧ EqUpToPhase v (xchgN (writeHead s ++ data) s) := by
  obtain ⟨v, hv, hsame⟩ := exchanges_given_done (s := atPhase .pWToken (xchgN (writeHead s) s)) (at_ := .pWData) (next := fun _ => [])
    (Q := exchangesOf .pWCrc writeCrc (fun _ => []) ++ [act acceptByte]) (l := data) ((xchgN_fault _).trans hf)
  refine ⟨v, (sendBlockSeq_headed _ hf).trans hv, fun p => ?_⟩
  rw [hsame p, xchgN_atPhase, atPhase_atPhase, xchgN_append]

theorem sendBlockSeq_pWCrc (hf : s.fault = none) (hk : k < 2) :
    (Position.advance^[data.length + k + 3] ⟨s, sendBlockSeq data⟩).state =
      atPhase (.pWCrc k) (xchgN (writeHead s ++ data ++ (writeCrc s).take (k + 1)) s) := by
  obtain ⟨v, hv, hsame⟩ := sendBlockSeq_written (data := data) hf
  have hcrc : writeCrc v = writeCrc s := by rw [writeCrc, hsame.cfg, xchgN_cfg, writeCrc]
  rw [show data.length + k + 3 = (k + 1) + (data.length + 2) by omega, Function.iterate_add_apply, hv,
    exchangesOf_position hcrc (hsame.fault.trans ((xchgN_fault _).trans hf)) hk, hsame.xchgN _ _, ← xchgN_append]

theorem sendBlockSeq_pWResp (hf : s.fault = none) :
    (Position.advance^[data.length + 5] ⟨s, sendBlockSeq data⟩).state = acceptByte (xchgN (writeHead s ++ data ++ writeCrc s) s) := by
  obtain ⟨v, hv, hsame⟩ := sendBlockSeq_written (data := data) hf
  have hcrc : writeCrc v = writeCrc s := by rw [writeCrc, hsame.cfg, xchgN_cfg, writeCrc]
  have hvf : v.fault = none := hsame.fault.trans ((xchgN_fault _).trans hf)
  obtain ⟨u, hu, hsame'⟩ := exchangesOf_done (at_ := .pWCrc) (next := fun _ => []) (Q := [act acceptByte]) hcrc hvf
  have huf : u.fault = none := hsame'.fault.trans ((xchgN_fault _).trans hvf)
  have h3 : Position.advance^[3] ⟨v, exchangesOf .pWCrc writeCrc (fun _ => []) ++ [act acceptByte]⟩ = ⟨acceptByte u, []⟩ := by
    rw [show 3 = 1 + max (writeCrc s).length 1 from rfl, Function.iterate_add_apply, hu]
    exact iterate_act 0 huf
  rw [show data.length + 5 = 3 + (data.length + 2) by omega, Function.iterate_add_apply, hv, h3,
    acceptByte_eq_of_eqUpToPhase hsame', acceptByte_eq_of_eqUpToPhase (hsame.xchgN _), ← xchgN_append]

end

end

end Sys2Proof.Machine
end

section
/-! Proofs of the statements about the sequencer, fourth clause: the positions at the link events of host operations and of resumed
turns. -/

namespace Sys2Proof.Machine

/-! ### The walk of a step (rules R24, R190) -/

section
variable {s u : State} {P : List Advance} {w : List (Seq × LinkEvent)}

/-- The advances from where a step starts come to the end the step gives. -/
theorem walks_of_finishes (hk : s.filler = Config.fillerBuffer) (hstep : ∃ t, step s = .next t) (hstart : Position.start s = ⟨u, P⟩)
    (h : Finishes P u w) : s.walks w := by
  obtain ⟨t, ht⟩ := hstep
  obtain ⟨m, hm⟩ := start_ends hk ht
  obtain ⟨n, t', hn, hw⟩ := h
  rw [← hstart] at hn hw
  obtain rfl := ends_unique hm hn
  exact ⟨n, t, ht, hn, hw⟩

theorem walks_of_resumed {wait : Wait} (hreset : s.resetRequest = false) (hf : s.fault = none) (hk : s.filler = Config.fillerBuffer)
    (hw : s.waiting = some wait) (h : Finishes (resumeSeq wait) { s with port := none } w) : s.walks w :=
  walks_of_finishes hk ⟨_, step_waiting hreset hf hw⟩ (start_waiting hreset hf hw) h

end

/-- A transaction can begin in the sequencer's state `m`, the card's next answers being `rx`. -/
structure Entered (m : SeqState) (cfg : Params) (rx : List Byte) (u : State) : Prop where
  fault : u.fault = none
  seq : u.seq = ⟨m, none⟩
  filler : u.filler = Config.fillerBuffer
  cfg : u.cfg = cfg
  rx : u.rx = rx

/-- A step from `s` takes the host word `h`, whose operation the dispatch lets through. -/
structure Requests (s : State) (h : HostWord) : Prop where
  resetRequest : s.resetRequest = false
  waiting : s.waiting = none
  port : s.port = some (.hostop h)
  filler : s.filler = Config.fillerBuffer
  starts : s.starts h.op

/-- What a host operation with the advances `P` from the sequencer's state `m` puts on the link. -/
def Runs (m : SeqState) (P : List Advance) (cfg : Params) (rx : List Byte) (w : List (Seq × LinkEvent)) : Prop :=
  ∀ u, Entered m cfg rx u → Finishes P u w

section
variable {m : SeqState} {cfg : Params} {q : NoReply} {c c55 : CardReply} {bs rx rest : List Byte} {ps : List Phase} {es : List LinkEvent}
  {w : List (Seq × LinkEvent)} {k : AfterBlock} {idx : BitVec 6} {n : Nat} {index : Word32} {P : List Advance}

theorem regReadA_runs_noReply (hq : q.ok = true) : Runs m (regReadSeq k idx .a n) cfg (q.bytes ++ rest) (q.walk m idx 0) :=
  fun _ h => (opened_noReply (Q := tokenSeq (.block n k)) h.fault h.seq hq h.rx).1

theorem regReadB_runs_noReply (hq : q.ok = true) : Runs m (regReadSeq k idx .b n) cfg (q.bytes ++ rest) (q.walk m idx 0) :=
  fun _ h => (opened_noReply (Q := tokenSeq (.block n k)) h.fault h.seq hq h.rx).2

theorem sectorRead_runs_noReply (hq : q.ok = true) : Runs m (sectorReadSeq k index) cfg (q.bytes ++ rest) (q.walk m 17 index) :=
  fun _ h => (opened_noReply (Q := tokenSeq (.block Config.sectorBytes k)) h.fault h.seq hq h.rx).1

theorem regReadA_runs (hc : c.ok = true) (ht : ReadTurn cfg c.status (.block n k) bs ps es) :
    Runs m (regReadSeq k idx .a n) cfg (c.bytes ++ (bs ++ rest)) (c.walk m idx 0 ps es) :=
  fun _ h => regReadA_finishes h.fault h.seq h.filler hc (h.cfg ▸ ht) h.rx

theorem regReadB_runs {b : Byte} (hc : c.ok = true) (ht : ReadTurn cfg c.status (.block n k) bs ps es) :
    Runs m (regReadSeq k idx .b n) cfg (c.bytes ++ (b :: (bs ++ rest))) (c.walk m idx 0 (.pExtra 0 :: ps) (receiveEvents [b] ++ es)) :=
  fun _ h => regReadB_finishes h.fault h.seq h.filler hc (h.cfg ▸ ht) h.rx

theorem sectorRead_runs (hc : c.ok = true) (ht : ReadTurn cfg c.status (.block 512 k) bs ps es) :
    Runs m (sectorReadSeq k index) cfg (c.bytes ++ (bs ++ rest)) (c.walk m 17 index ps es) :=
  fun _ h => sectorRead_finishes h.fault h.seq h.filler hc (h.cfg ▸ ht) h.rx

theorem prefixTransaction_runs_noReply (hq : q.ok = true) : Runs m (prefixSeq ++ P) cfg (q.bytes ++ rest) (q.walk m 55 0) :=
  fun _ h => transactA_noReply h.fault h.seq hq h.rx

/-- The transaction of command 55 leaves the engine where another can begin (rules R92, R179). -/
theorem prefixTransaction_runs (hc : c55.ok = true) (hP : Runs m P cfg rx w) :
    Runs m (prefixSeq ++ P) cfg (c55.bytes ++ rx) (c55.wholeWalk m 55 0 [] [] ++ w) := fun _ h =>
  (transactA_walk h.fault h.seq hc h.rx).then
    (hP _ ⟨h.fault, congrArg (fun q : Seq => (⟨q.main, none⟩ : Seq)) h.seq, h.filler, h.cfg, rfl⟩)

theorem readOcr_runs_noReply (hq : q.ok = true) {P : List Advance} :
    Runs m (transactCDSeq 58 Config.zeroArg ++ P) cfg (q.bytes ++ rest) (q.walk m 58 0) :=
  fun _ h => transactCD_noReply h.fault h.seq hq h.rx

theorem readOcr_runs (hc : c.ok = true) (hb : bs.length = 4) {r : State → Result} :
    Runs m (transactCDSeq 58 Config.zeroArg ++ [act fun s => complete (r s) s]) cfg (c.bytes ++ (bs ++ rest))
      (c.wholeWalk m 58 0 extraPhases (receiveEvents bs)) := fun _ h => by
  have hw := transactCD_walk (idx := 58) (arg := Config.zeroArg) h.fault h.seq hc hb h.rx
  have hend := hw.then (.step (f := fun s => complete (r s) s) hw.fault rfl .nil)
  rwa [List.append_nil] at hend

theorem sectorWrite_runs_noReply {data : List Byte} (hq : q.ok = true) :
    Runs m (sectorWriteSeq index data) cfg (q.bytes ++ rest) (q.walk m 24 index) := fun _ h => by
  rw [sectorWriteSeq, List.append_assoc]
  exact (opened_noReply h.fault h.seq hq h.rx).1

theorem sectorWrite_runs_refused {data : List Byte} (hc : c.ok = true) (hcheck : cfg.r1Check = true) (hst : c.status ≠ 0) :
    Runs m (sectorWriteSeq index data) cfg (c.bytes ++ rest) (c.walk m 24 index [] []) := fun _ h => by
  rw [sectorWriteSeq, List.append_assoc]
  exact refused_finishes h.fault h.seq hc (h.cfg ▸ hcheck) hst h.rx

theorem sectorWrite_runs {data ans : List Byte} {accept b : Byte} (hc : c.ok = true) (hst : cfg.r1Check = false ∨ c.status = 0)
    (hd : data.length = 512) (ha : ans.length = 516) :
    Runs m (sectorWriteSeq index data) cfg (c.bytes ++ (ans ++ (accept :: b :: rest)))
      (c.walk m 24 index (writePhases 512 ++ (.pBusy :: if b = 0xFF then [.pDesel] else []))
        (exchangeEvents (0xFF :: cfg.startToken :: (data ++ [cfg.writeCrc0, cfg.writeCrc1])) ans ++
          receiveEvents [accept] ++ (receiveEvents [b] ++ if b = 0xFF then [.desel] else []))) := fun u h => by
  obtain rfl := h.cfg
  exact sectorWrite_finishes h.fault h.seq hc hst hd ha h.rx

end

/-! ### The host operations (rules R281, R284 to R291) -/

namespace Requests

variable {s : State} {h : HostWord} {w : List (Seq × LinkEvent)}

theorem walks_sequence {i : Instr} (hr : Requests s h) (hd : decodeHost h = .ok i)
    (hw : Finishes (sequence i) { s with port := none } w) : s.walks w := by
  have hf : s.fault = none := hr.starts.1
  obtain ⟨t, ht, -⟩ := sequence_moves (s := { s with port := none }) i hf hr.filler
  exact walks_of_finishes hr.filler ⟨t, (step_port hr.resetRequest hf hr.waiting hr.port hd).trans ht⟩
    (start_port hr.resetRequest hf hr.waiting hr.port hd) hw

/-- READ_SECTOR (rule R284). -/
theorem walks_readSector (hr : Requests s h) (hop : h.op = 1) (hw : Runs .opRead (sectorReadSeq .readSector h.arg) s.cfg s.rx w) :
    s.walks w := by
  have hf : s.fault = none := hr.starts.1
  refine hr.walks_sequence (i := .readSector h.arg) (by simp [decodeHost, hop]) ?_
  exact startOp_finishes (latch := fun s => { s with opArg := h.arg }) (hop ▸ hr.starts) (fun _ => ⟨rfl, rfl, rfl, rfl⟩)
    (.step (f := enter .opRead) hf rfl (hw _ ⟨hf, rfl, hr.filler, rfl, rfl⟩))

/-- WRITE_SECTOR (rule R285). -/
theorem walks_writeSector (hr : Requests s h) (hop : h.op = 2) (hd : h.wdata.length = 512)
    (hw : Runs .opWrite (sectorWriteSeq h.arg h.wdata) s.cfg s.rx w) : s.walks w := by
  have hf : s.fault = none := hr.starts.1
  refine hr.walks_sequence (i := .writeSector h.arg h.wdata) (by simp [decodeHost, hop, sectorLengthOk, hd, Config.sectorBytes]) ?_
  exact startOp_finishes (latch := fun s => { s with opArg := h.arg, wdata := h.wdata }) (hop ▸ hr.starts)
    (fun _ => ⟨rfl, rfl, rfl, rfl⟩) (.step (f := enter .opWrite) hf rfl (hw _ ⟨hf, rfl, hr.filler, rfl, rfl⟩))

/-- The operations that read a register (rules R286, R287, R289 to R291). -/
theorem walks_register {i : Instr} {body : List Advance} (hr : Requests s h) (hd : decodeHost h = .ok i)
    (hi : sequence i = startOpSeq h.op id fun _ => act (enter .opRegRead) :: body) (hw : Runs .opRegRead body s.cfg s.rx w) :
    s.walks w := by
  have hf : s.fault = none := hr.starts.1
  refine hr.walks_sequence hd ?_
  rw [hi]
  exact startOp_finishes (latch := id) hr.starts (fun _ => ⟨rfl, rfl, rfl, rfl⟩)
    (.step (f := enter .opRegRead) hf rfl (hw _ ⟨hf, rfl, hr.filler, rfl, rfl⟩))

end Requests

/-! ### INIT, state by state (rules R172 to R178) -/

section
variable {s : State} {q : NoReply} {c0 c8 : CardReply} {clocks echo bs rx rest : List Byte} {w : List (Seq × LinkEvent)}
  {P : List Advance}

/-- A test that fails ends the walk (rule R308). -/
theorem finishes_of_test_failed {c : State → Prop} [DecidablePred c] {r : State → Fatal} (hc : ¬ c s) :
    Finishes (act (fun s => if c s then s else raise (r s) s) :: P) s [] :=
  .raised (by simp only [if_neg hc]; exact raise_isSome _ _) (by simp only [if_neg hc]; exact raise_trace _ _)

theorem finishes_of_test_passed {c : State → Prop} [DecidablePred c] {r : State → Fatal} (hf : s.fault = none) (hc : c s)
    (h : Finishes P s w) : Finishes (act (fun s => if c s then s else raise (r s) s) :: P) s w :=
  .step (by simp only [if_pos hc]; exact hf) (by simp only [if_pos hc]) (by simp only [if_pos hc]; exact h)

section
variable {m m' : SeqState} {cfg : Params}

theorem enter_runs (hP : Runs m' P cfg rx w) : Runs m (act (enter m') :: P) cfg rx w := fun _ h =>
  .step (f := enter m') h.fault rfl (hP _ ⟨h.fault, rfl, h.filler, h.cfg, h.rx⟩)

theorem goIdle_runs_noReply (hq : q.ok = true) : Runs m (goIdleSeq ++ P) cfg (q.bytes ++ rest) (q.walk m 0 0) := fun _ h => by
  rw [goIdleSeq, List.append_assoc]
  exact transactA_noReply h.fault h.seq hq h.rx

/-- Command 0 answers another status byte than 0x01 (rule R175). -/
theorem goIdle_runs_refused (hc : c0.ok = true) (hs : c0.status ≠ 0x01) :
    Runs m (goIdleSeq ++ P) cfg (c0.bytes ++ rest) (c0.wholeWalk m 0 0 [] []) := fun _ h => by
  have hend := (transactA_walk (idx := 0) (arg := Config.zeroArg) h.fault h.seq hc h.rx).then
    (finishes_of_test_failed (c := fun s => s.r1 = 0x01#8) (r := fun s => .unexpectedStatus 0 s.r1) (P := P) hs)
  rw [List.append_nil] at hend
  rw [goIdleSeq, List.append_assoc]
  exact hend

theorem goIdle_runs (hc : c0.ok = true) (hs : c0.status = 0x01) (hP : Runs m P cfg rx w) :
    Runs m (goIdleSeq ++ P) cfg (c0.bytes ++ rx) (c0.wholeWalk m 0 0 [] [] ++ w) := fun _ h => by
  rw [goIdleSeq, List.append_assoc]
  exact (transactA_walk (idx := 0) (arg := Config.zeroArg) h.fault h.seq hc h.rx).then
    (finishes_of_test_passed (c := fun s => s.r1 = 0x01#8) (r := fun s => .unexpectedStatus 0 s.r1) h.fault hs
      (hP _ ⟨h.fault, congrArg (fun q : Seq => (⟨q.main, none⟩ : Seq)) h.seq, h.filler, h.cfg, rfl⟩))

theorem sendIfCond_runs_noReply (hq : q.ok = true) : Runs m (sendIfCondSeq ++ P) cfg (q.bytes ++ rest) (q.walk m 8 0x1AA) :=
  fun _ h => by
    rw [sendIfCondSeq, List.append_assoc]
    exact transactCD_noReply h.fault h.seq hq h.rx

/-- Command 8 does not echo its argument (rule R178). -/
theorem sendIfCond_runs_mismatch (hc : c8.ok = true) (he : echo.length = 4) (hecho : be32List echo &&& 0xFFF ≠ 0x1AA) :
    Runs m (sendIfCondSeq ++ P) cfg (c8.bytes ++ (echo ++ rest)) (c8.wholeWalk m 8 0x1AA extraPhases (receiveEvents echo)) :=
  fun _ h => by
    have hend := (transactCD_walk (idx := 8) (arg := Config.checkArg) h.fault h.seq hc he h.rx).then
      (finishes_of_test_failed (c := fun s => s.payload &&& Config.checkEchoMask = Config.checkArg)
        (r := fun s => .ifcondMismatch s.payload) (P := P) hecho)
    rw [List.append_nil] at hend
    rw [sendIfCondSeq, List.append_assoc]
    exact hend

theorem sendIfCond_runs (hc : c8.ok = true) (he : echo.length = 4) (hecho : be32List echo &&& 0xFFF = 0x1AA)
    (hP : Runs m P cfg rx w) :
    Runs m (sendIfCondSeq ++ P) cfg (c8.bytes ++ (echo ++ rx)) (c8.wholeWalk m 8 0x1AA extraPhases (receiveEvents echo) ++ w) :=
  fun _ h => by
    rw [sendIfCondSeq, List.append_assoc]
    exact (transactCD_walk (idx := 8) (arg := Config.checkArg) h.fault h.seq hc he h.rx).then
      (finishes_of_test_passed (c := fun s => s.payload &&& Config.checkEchoMask = Config.checkArg)
        (r := fun s => .ifcondMismatch s.payload) h.fault hecho
        (hP _ ⟨h.fault, congrArg (fun q : Seq => (⟨q.main, none⟩ : Seq)) h.seq, h.filler, h.cfg, rfl⟩))

theorem firstTurn_runs (ht : ActivateTurn cfg 0 bs w) :
    Runs .iActivate (act (waitAt (.activate 0)) :: activateSeq 0) cfg (bs ++ rest) w := fun _ h =>
  .step (f := waitAt (.activate 0)) h.fault rfl
    (activateTurn_finishes (s := waitAt (.activate 0) _) h.fault h.seq h.filler (h.cfg ▸ ht) h.rx)

end

/-- INIT after its state Reset. -/
def afterResetSeq : List Advance :=
  act (enter .iGoIdle) :: (goIdleSeq ++ (act (enter .iIfCond) :: (sendIfCondSeq ++
    (act (enter .iActivate) :: act (waitAt (.activate 0)) :: activateSeq 0))))

theorem initSeq_eq : initSeq = (act (enter .iReset) :: initResetSeq) ++ afterResetSeq := by
  simp only [initSeq, afterResetSeq, List.append_assoc, List.cons_append]

theorem Requests.walks_init {h : HostWord} (hr : Requests s h) (hop : h.op = 0) (h10 : clocks.length = 10)
    (hrx : s.rx = clocks ++ rx)
    (hw : Runs .iReset afterResetSeq s.cfg rx w) :
    s.walks (outside .iReset (.desel :: receiveEvents clocks ++ [.delay 1]) ++ w) := by
  have hf : s.fault = none := hr.starts.1
  have hreset := initReset_walk (s := { s with port := none, op := 0 }) (clocks := clocks) (rest := rx) hf h10 hrx
  rw [initReset_rx (s := { s with port := none, op := 0 }) h10 hrx] at hreset
  refine hr.walks_sequence (i := .init) (by simp [decodeHost, hop]) (startOp_finishes (latch := id) (hop ▸ hr.starts)
    (fun _ => ⟨rfl, rfl, rfl, rfl⟩) ?_)
  rw [initSeq_eq]
  exact hreset.then (hw _ ⟨hf, rfl, hr.filler, rfl, rfl⟩)

end

/-! ### The statement -/

/-- Settles O38: (1) by the advances of each instruction and of each resumed turn; (2) since no advance of a step puts two events on the
link; (3) by counting the advances of each piece; (4) since the walk of each list of advances ends where the step ends. -/
theorem stepAdvances : Obligations.StepAdvances := by
  refine ⟨fun s t hk hstep => start_ends hk hstep, fun s n hreset => advanced_oneEvent hreset n, fun s hf => ?pieces,
    fun s h q c c55 bs ps es rest hreset hw hp hk hq hc hc55 hst => ?host,
    fun s h q clocks c0 c8 echo bs w rest hreset hw hp hk hop hst h10 hq h0 h8 he => ?init,
    fun s n bs rest hreset hf hk hrx => ?resumed⟩
  case pieces =>
    refine ⟨fun idx arg k hk => issueCommandSeq_position idx arg hf hk, fun i hi hs => pollStatusSeq_position hf hi hs,
      fun hp => ⟨respBSeq_position hf hp, fun k hk => respCDSeq_position hf hp hk⟩, fun n k => rfl,
      fun n hfil hn => ⟨fun k hk => receiveBlockSeq_pData hf hfil hn hk, fun k hk => receiveBlockSeq_pCrc hf hfil hn hk⟩,
      fun data => ⟨rfl, congrArg Position.state (sendBlockSeq_headed 0 hf), fun k hk => sendBlockSeq_pWData hf hk,
        fun k hk => sendBlockSeq_pWCrc hf hk, ?_⟩, fun n => rfl, rfl⟩
    rw [sendBlockSeq_pWResp hf, xchgN_append _ [0xFF]]
    rfl
  case host =>
    have hr : Requests s h := ⟨hreset, hw, hp, hk, hst⟩
    refine ⟨fun hop => ?readSector, fun hop hd => ?writeSector, fun hop => ?readCid, fun hop => ?readCsd, fun hop => ?readOcr,
      fun hop => ?readScr, fun hop => ?readSsr⟩
    case readSector =>
      exact ⟨fun hrx => hr.walks_readSector hop (hrx ▸ sectorRead_runs_noReply hq),
        fun ht hrx => hr.walks_readSector hop (hrx ▸ sectorRead_runs hc ht)⟩
    case writeSector =>
      exact ⟨fun hrx => hr.walks_writeSector hop hd (hrx ▸ sectorWrite_runs_noReply hq),
        fun hcheck hne hrx => hr.walks_writeSector hop hd (hrx ▸ sectorWrite_runs_refused hc hcheck hne),
        fun ans accept b hok ha hrx => hr.walks_writeSector hop hd (hrx ▸ sectorWrite_runs hc hok hd ha)⟩
    case readCid =>
      have hreg := fun w => hr.walks_register (i := .readCid) (w := w) (by simp [decodeHost, hop])
        (body := regReadSeq .readCid 10 .a 16) (by rw [hop]; rfl)
      exact ⟨fun hrx => hreg _ (hrx ▸ regReadA_runs_noReply hq), fun ht hrx => hreg _ (hrx ▸ regReadA_runs hc ht)⟩
    case readCsd =>
      have hreg := fun w => hr.walks_register (i := .readCsd) (w := w) (by simp [decodeHost, hop])
        (body := regReadSeq .readCsd 9 .a 16) (by rw [hop]; rfl)
      exact ⟨fun hrx => hreg _ (hrx ▸ regReadA_runs_noReply hq), fun ht hrx => hreg _ (hrx ▸ regReadA_runs hc ht)⟩
    case readOcr =>
      have hreg := fun w => hr.walks_register (i := .readOcr) (w := w) (by simp [decodeHost, hop])
        (body := transactCDSeq 58 0 ++ [act fun s => complete (.ocr (decodeOcr s.cfg.layouts.ocr s.payload)) s]) (by rw [hop]; rfl)
      exact ⟨fun hrx => hreg _ (hrx ▸ readOcr_runs_noReply hq), fun hb hrx => hreg _ (hrx ▸ readOcr_runs hc hb)⟩
    case readScr =>
      have hreg := fun w => hr.walks_register (i := .readScr) (w := w) (by simp [decodeHost, hop])
        (body := appRegReadSeq .readScr 51 .a 8) (by rw [hop]; rfl)
      exact ⟨fun hrx => hreg _ (hrx ▸ prefixTransaction_runs_noReply hq),
        fun hrx => hreg _ (hrx ▸ prefixTransaction_runs hc55 (regReadA_runs_noReply hq)),
        fun ht hrx => hreg _ (hrx ▸ prefixTransaction_runs hc55 (regReadA_runs hc ht))⟩
    case readSsr =>
      have hreg := fun w => hr.walks_register (i := .readSsr) (w := w) (by simp [decodeHost, hop])
        (body := appRegReadSeq .readSsr 13 .b 64) (by rw [hop]; rfl)
      exact ⟨fun hrx => hreg _ (hrx ▸ prefixTransaction_runs_noReply hq),
        fun hrx => hreg _ (hrx ▸ prefixTransaction_runs hc55 (regReadB_runs_noReply hq)),
        fun b ht hrx => hreg _ (hrx ▸ prefixTransaction_runs hc55 (regReadB_runs hc ht))⟩
  case init =>
    have hr : Requests s h := ⟨hreset, hw, hp, hk, hop ▸ hst⟩
    refine ⟨fun hrx => ?_, fun hne hrx => ?_, fun hs0 => ⟨fun hrx => ?_, fun hecho hrx => ?_, fun hecho ht hrx => ?_⟩⟩
    · exact hr.walks_init hop h10 hrx (enter_runs (goIdle_runs_noReply hq))
    · exact hr.walks_init hop h10 hrx (enter_runs (goIdle_runs_refused h0 hne))
    · rw [List.append_assoc]
      exact hr.walks_init hop h10 hrx (enter_runs (goIdle_runs h0 hs0 (enter_runs (sendIfCond_runs_noReply hq))))
    · rw [List.append_assoc]
      exact hr.walks_init hop h10 hrx (enter_runs (goIdle_runs h0 hs0 (enter_runs (sendIfCond_runs_mismatch h8 he hecho))))
    · rw [List.append_assoc, List.append_assoc]
      exact hr.walks_init hop h10 hrx (enter_runs (goIdle_runs h0 hs0 (enter_runs (sendIfCond_runs h8 he hecho
        (enter_runs (firstTurn_runs ht))))))
  case resumed =>
    refine ⟨fun k ps es hw ht => ?_, fun b hw hb => ?_, fun w hw ht => ?_⟩
    · exact walks_of_resumed hreset hf hk hw (tokenTurn_finishes (s := { s with port := none }) hf hk ht hrx)
    · subst hb
      exact walks_of_resumed hreset hf hk hw (busyTurn_finishes (s := { s with port := none }) hf hrx)
    · exact walks_of_resumed hreset hf hk hw (.step (f := enter .iActivate) hf rfl
        (activateTurn_finishes (s := enter .iActivate { s with port := none }) hf rfl hk ht hrx))

end Sys2Proof.Machine
end
